-- ==== Sys2Proof/Word.lean ====
section
/-! DEFINITION. The words of the machine and their plainest arithmetic (spec/01, spec/02). -/

namespace Sys2Proof

/-- A 32-bit register value of one sibling (R10). -/
abbrev Word := BitVec 32

/-- One byte of memory (R44). -/
abbrev Byte := BitVec 8

/-- A 64-bit instruction or data word (R70). -/
abbrev DWord := BitVec 64

/-- A 48-bit byte address (R71, R211). -/
abbrev Addr := BitVec 48

/-- The values of the three siblings of one thread (R13). In single-lane mode the three are kept equal: the
lane's one value stands for every sibling. -/
structure Triple where
  s0 : Word
  s1 : Word
  s2 : Word
deriving DecidableEq, Repr

/-- One value for every sibling (R16). -/
def Triple.all (w : Word) : Triple := { s0 := w, s1 := w, s2 := w }

/-- The value of sibling `j`. -/
def Triple.get (t : Triple) (j : Nat) : Word :=
  match j with
  | 0 => t.s0
  | 1 => t.s1
  | _ => t.s2

/-- A function applied sibling by sibling. -/
def Triple.map (f : Word → Word) (t : Triple) : Triple := { s0 := f t.s0, s1 := f t.s1, s2 := f t.s2 }

/-- A two-operand function applied sibling by sibling. -/
def Triple.map2 (f : Word → Word → Word) (t u : Triple) : Triple :=
  { s0 := f t.s0 u.s0, s1 := f t.s1 u.s1, s2 := f t.s2 u.s2 }

/-- The triple whose sibling `j` is `f j`. -/
def Triple.ofFn (f : Nat → Word) : Triple := { s0 := f 0, s1 := f 1, s2 := f 2 }

end Sys2Proof
end

