-- ==== Sys2Proof/Config.lean ====
section
/-! DEFINITION. The values and choices that the spec leaves open, as constants without a body. No proof can learn
anything about them, so a theorem of the model holds whatever they are. Each is named in the assumption log. -/

namespace Sys2Proof

/-- Which of the possible steps comes next where the spec orders none (log 13). Applied to `State.fresh`. -/
opaque Config.pick : Nat → Nat

/-- How many cycles pass with a step: latencies are typical figures only, R107, R232 (log 14). -/
opaque Config.elapsed : Nat → Nat

/-- Whether a sibling's read of a register with an outstanding long-latency write returns the new value, R78
(log 15). Arguments: the step's fresh number, the outstanding instruction, the thread, the register, the sibling. -/
opaque Config.hazardRead : Nat → Nat → Nat → Nat → Nat → Bool

/-- Whether a long-latency result replaces the value that another write left in the register meanwhile, R78
(log 15). Arguments as for `hazardRead`. -/
opaque Config.hazardWrite : Nat → Nat → Nat → Nat → Nat → Bool

/-- How far the one value y that an approximated function forms lies from f(x), as a signed count of 2^-32 units in the
last place of f(x), R128 (log 16). `approxWithin` cuts it to the bound of Table 5.4. Arguments: the opcode and the operand. -/
opaque Config.approxError : Nat → Word → Int

/-- Whether an access whose cached translation differs from the page table uses the table, R315 (log 17). -/
opaque Config.freshTranslation : Nat → Nat → Bool

/-- The address at which a thread runs in the privileged runtime after a trap; R251 states no address (log 18). -/
opaque Config.runtimeEntry : BitVec 45

/-- The address at which a thread runs for the debugger after a trap; R156 states no address (log 18). -/
opaque Config.debuggerEntry : BitVec 45

/-- The key pair of the n-th key that the logic dies generate, the data key in the lower half, R453 (log 8). -/
opaque Config.freshKey : Nat → BitVec 512

/-- Whether the level of a sweep counts where a record that it starts would stand one below the nesting limit (R420, log
112). -/
opaque Config.sweepCounts : Bool

/-- The opaque routing word of a gcall record, R469 (log 19). -/
opaque Config.routingWord : Nat → DWord

/-- The function number of the `gcall.rt` that requests an attestation report; R443 states none (log 21). -/
opaque Config.attestFn : BitVec 16

/-- The signature that the package's own key gives a report under a leaf index: 2,964 bytes. The key is made at manufacture,
R441, R443 (log 88). -/
opaque Config.attestSignature : Nat → List Byte → Vector Byte 2964

/-- A byte of a saved block in the bivouac area: the spec gives the state that the area holds and no layout, R424 (log 109).
Arguments: the save's number, the line, the byte of the line. -/
opaque Config.areaByte : Nat → Nat → Nat → Byte

/-- GAIN of a task record below TASKCNT that no `spawn` has entered in a task launch, R395 (log 106). Arguments: the launch
and the record. -/
opaque Config.unenteredGain : Nat → Nat → Word

/-- The value of an unstated result (log 20). Arguments: the step's fresh number and a number that tells the
places of one step apart. -/
opaque Config.freeWord : Nat → Nat → Word

end Sys2Proof
end

