-- ==== Sys2Proof/Syntax.lean ====
section
/-! DEFINITION. The instructions: one constructor of `Instr` for every row of spec/opcode_table.json. Rows that are
words take the common fields first (`Ctl`); rows that are steps of another agent take what names the agent. -/

namespace Sys2Proof

/-- The special sources of Table 4.6 (R88). -/
inductive Special where
  | zero | tidx | tidy | tidz | tid | tnum | warp | lane | sib | blkx | blky | blkz | blk
  | bdimx | bdimy | bdimz | gdimx | gdimy | gdimz | core | cluster | die | ones | fone
  | clocklo | clockhi | nest
deriving DecidableEq, Repr

/-- A source operand of the operand space (R87, Table 4.5). -/
inductive Opd where
  | v (n : Nat)
  | s (n : Nat)
  | g (n : Nat)
  | sp (x : Special)
deriving DecidableEq, Repr

/-- A destination operand: a register, or %zero, which discards (R89). -/
inductive Dst where
  | v (n : Nat)
  | s (n : Nat)
  | g (n : Nat)
  | none
deriving DecidableEq, Repr

/-- A last source that may be an immediate (R85, R106). -/
inductive Src where
  | reg (o : Opd)
  | imm (w : BitVec 20)
deriving DecidableEq, Repr

/-- The last two sources of bfi and prmt: two registers, or the immediate (R115, R121). -/
inductive Src2 where
  | regs (b c : Opd)
  | imm (w : BitVec 20)
deriving DecidableEq, Repr

/-- The rounding field (R84, R104). -/
inductive Rnd where
  | dflt | rn | rz | ru | rd
deriving DecidableEq, Repr

/-- The fields that every full instruction has: predicate, rounding, flag select, register-cache hint (R84). -/
structure Ctl where
  pred : BitVec 3
  neg : Bool
  rnd : Rnd
  fsel : Bool
  reuse : Bool
deriving DecidableEq, Repr

/-- The type codes of Table 3.1 (R43). -/
inductive Ty where
  | f32 | f16 | e16 | f8 | l8 | l6 | a26 | i8 | i32
deriving DecidableEq, Repr

/-- Conditions of icmp (R116). -/
inductive ICond where
  | eq | ne | lt | le | gt | ge | lo | hs
deriving DecidableEq, Repr

/-- Conditions of fcmp (R130). -/
inductive FCond where
  | eq | ne | lt | le | gt | ge | ord | unord
deriving DecidableEq, Repr

/-- The destination of fclass: a class word, or a predicate with its class mask (R131). -/
inductive ClassDst where
  | word (d : Dst)
  | pred (p : BitVec 3) (mask : BitVec 10)
deriving DecidableEq, Repr

/-- The restricted opcodes of a paired word (Table 4.8). -/
inductive POp where
  | iadd | isub | imul | and | or | xor | shl | shr | sar | mov | movi | fadd | fsub | fmul | fmin | fmax
  | sel | cvtF16 | cvtF32 | nop
deriving DecidableEq, Repr

/-- One half of a paired word, its operand codes as they stand: R94 checks them at issue (R93). -/
structure Half where
  op : POp
  d : BitVec 10
  a : BitVec 10
  pred : BitVec 3
  neg : Bool
deriving DecidableEq, Repr

inductive VoteMode where
  | all | any | uni
deriving DecidableEq, Repr

inductive ShflMode where
  | idx | up | down | xor
deriving DecidableEq, Repr

/-- The operation of redux (R199). -/
inductive ReduxOp where
  | add | min | max | and | or
deriving DecidableEq, Repr

inductive FlagMode where
  | inc | dec | set
deriving DecidableEq, Repr

/-- The window codes of Table 10.2 (R231). -/
inductive Win where
  | mm | sp | adj | sh | spill | far
deriving DecidableEq, Repr

/-- The width codes of Table 10.3. -/
inductive Width where
  | w8 | i8 | w16 | i16 | w32 | i32 | f32 | w64 | i64 | w128
deriving DecidableEq, Repr

/-- The scope codes of Table 10.7 (R242). -/
inductive Scope where
  | warp | block | cluster | die | device | system
deriving DecidableEq, Repr

/-- The kinds of fence (R243). -/
inductive FenceKind where
  | acq | rel | ar | sc
deriving DecidableEq, Repr

/-- The operations of Tables 10.6 and 14.3. -/
inductive AtomOp where
  | add | min | max | minu | maxu | and | or | xor | exch | cas | inc
deriving DecidableEq, Repr

/-- The types of Tables 10.6 and 14.3; `f32x` is the triple type of atom alone. -/
inductive AtomTy where
  | w32 | f32 | w64 | f32x
deriving DecidableEq, Repr

/-- The fields of the memory word that its instructions share (R230). -/
structure MemWord where
  data : Opd
  base : Opd
  win : Win
  width : Width
  off : BitVec 12
deriving DecidableEq, Repr

/-- What gainget reads (R396). -/
inductive GainWhat where
  | gain | pend | state
deriving DecidableEq, Repr

/-- The control registers, by name (R250, R279, Tables 18.9, 22.3 to 22.10, 23.2, 25.4). -/
inductive CtlReg where
  | seedlo | seedhi | drawctr | istat | imask | cancelth | fpstat | fpmask | handler | trapinfo | trappc | regionpc
  | mode | dmode | tapepos | tapecap | icntcancel | icntsplit | icntzdiv | rstack | dstack
  | trapopa | trapopb | trapopc | trapres | trapaddrlo | trapaddrhi | wissue | wbeat | wunif | wsplit | cpylast
  | tapebase | tapestride | corecfg | spillcfg | shsize
  | mopcnt | lantstat | hcount
  | resid0 | resid1 | resid2 | gaintol | gqstat | heapstat | taskbase | taskcnt | maxlive | tasklive
  | energylo | energyhi | ltstat | boardid
  | priv | owner | carve | epc | wdebug | svqstat | sptroot | qepoch | qdone | qfree | qtake
  | ltbase | bivsize | tsctl | ckstat | enstatic | mptroot
  | entab (k : Nat) | bp (k : Nat) | bpctx | dbgctl | trctl | trbase | trhead | wpstat | eccstat | func
deriving DecidableEq, Repr

/-- The errors that fence functions (Table 23.1, R437). -/
inductive ErrorSite where
  | cluster (die cl : Nat)
  | dieUnit (die : Nat)
  | dieLink (die0 die1 : Nat)
  | memoryLogic
  | port (p : Nat)
deriving DecidableEq, Repr

/-- An image: its bytes, its signature, and the address in main memory at which it is loaded (R441). -/
structure Image where
  bytes : List Byte
  signature : List Byte
  load : Nat
deriving DecidableEq, Repr

/-- Where the code of a service warp begins, and the registers that it is given (R280). -/
structure ServiceEntry where
  pc : Addr
  vregs : Nat
  uregs : Nat
deriving DecidableEq, Repr

/-- One function of the signed configuration (R436): its clusters, its range of tags, its ports with the neighbour
of each (0 the companion, p + 1 peer package p), its service-warp code (R441), and where that begins; none where the code
is known by its effect alone (log 27). -/
structure FuncConfig where
  clusters : List (Nat × Nat)
  tagLo : BitVec 12
  tagHi : BitVec 12
  ports : List (Nat × Nat)
  service : Image
  entry : Option ServiceEntry
deriving DecidableEq, Repr

/-- What boot brings (R441, R442, R436, R430, R466, R469): the first stage, the later images, the functions with their
configuration records, the weights, the board, the call ring, and MPTROOT of the firmware's context. -/
structure BootConfig where
  stage : Image
  images : List Image
  funcs : List (FuncConfig × List Byte)
  entab : List (BitVec 16)
  perus : BitVec 16
  boardCount : BitVec 3
  pkg : BitVec 3
  ringBase : Nat
  root : Word
deriving DecidableEq, Repr

/-- The instructions and steps of the machine: one constructor per row of the opcode table. -/
inductive Instr where
  -- thread: integer (05)
  | iadd (c : Ctl) (d : Dst) (a : Opd) (b : Src) (sat : Bool)
  | isub (c : Ctl) (d : Dst) (a : Opd) (b : Src) (sat : Bool)
  | imul (c : Ctl) (d : Dst) (a : Opd) (b : Src)
  | imulh (c : Ctl) (d : Dst) (a : Opd) (b : Src) (u : Bool)
  | imad (c : Ctl) (d : Dst) (a b e : Opd) (hi u : Bool)
  | imin (c : Ctl) (d : Dst) (a : Opd) (b : Src) (u : Bool)
  | imax (c : Ctl) (d : Dst) (a : Opd) (b : Src) (u : Bool)
  | iabs (c : Ctl) (d : Dst) (a : Opd) (sat : Bool)
  | ineg (c : Ctl) (d : Dst) (a : Opd) (sat : Bool)
  | idiv (c : Ctl) (d : Dst) (a : Opd) (b : Src) (u : Bool)
  | irem (c : Ctl) (d : Dst) (a : Opd) (b : Src) (u : Bool)
  | and (c : Ctl) (d : Dst) (a : Opd) (b : Src)
  | or (c : Ctl) (d : Dst) (a : Opd) (b : Src)
  | xor (c : Ctl) (d : Dst) (a : Opd) (b : Src)
  | andn (c : Ctl) (d : Dst) (a : Opd) (b : Src)
  | not (c : Ctl) (d : Dst) (a : Opd)
  | shl (c : Ctl) (d : Dst) (a : Opd) (b : Src)
  | shr (c : Ctl) (d : Dst) (a : Opd) (b : Src)
  | sar (c : Ctl) (d : Dst) (a : Opd) (b : Src)
  | rot (c : Ctl) (d : Dst) (a : Opd) (b : Src)
  | popc (c : Ctl) (d : Dst) (a : Opd)
  | clz (c : Ctl) (d : Dst) (a : Opd)
  | brev (c : Ctl) (d : Dst) (a : Opd)
  | bfx (c : Ctl) (d : Dst) (a : Opd) (b : Src) (sgn : Bool)
  | bfi (c : Ctl) (d : Dst) (a : Opd) (b : Src2)
  | icmp (c : Ctl) (p : BitVec 3) (cc : ICond) (a : Opd) (b : Src)
  | sel (c : Ctl) (d : Dst) (a b : Opd) (p : BitVec 3) (neg : Bool)
  | mov (c : Ctl) (d : Dst) (a : Opd)
  | movi (c : Ctl) (d : Dst) (imm : BitVec 20) (z : Bool)
  | movh (c : Ctl) (d : Dst) (imm : BitVec 16)
  | ldlit (c : Ctl) (d : Dst) (imm : BitVec 20) (idx : Option Opd)
  | lea (c : Ctl) (d : Dst) (a : Opd) (b : Src) (sh : BitVec 2)
  | iaddc (c : Ctl) (d : Dst) (a b : Opd) (ci co : BitVec 3) (cin sub : Bool)
  | prmt (c : Ctl) (d : Dst) (a : Opd) (b : Src2)
  -- thread: conversions and floating point (05)
  | cvt (c : Ctl) (d : Dst) (a : Opd) (dest frm : Ty) (e : BitVec 2)
  | cvtpk (c : Ctl) (d : Dst) (a b : Opd) (dest frm : Ty) (h : Bool)
  | unpk (c : Ctl) (d : Nat) (a : Opd) (dest frm : Ty) (h : Bool)
  | fadd (c : Ctl) (d : Dst) (a : Opd) (b : Src)
  | fsub (c : Ctl) (d : Dst) (a : Opd) (b : Src)
  | fmul (c : Ctl) (d : Dst) (a : Opd) (b : Src)
  | fma (c : Ctl) (d : Dst) (a b e : Opd) (np nc : Bool)
  | fmin (c : Ctl) (d : Dst) (a : Opd) (b : Src)
  | fmax (c : Ctl) (d : Dst) (a : Opd) (b : Src)
  | fdiv (c : Ctl) (d : Dst) (a b : Opd)
  | fsqrt (c : Ctl) (d : Dst) (a : Opd)
  | frcp (c : Ctl) (d : Dst) (a : Opd)
  | frsq (c : Ctl) (d : Dst) (a : Opd)
  | fexp2 (c : Ctl) (d : Dst) (a : Opd)
  | flog2 (c : Ctl) (d : Dst) (a : Opd)
  | fsin (c : Ctl) (d : Dst) (a : Opd)
  | fcos (c : Ctl) (d : Dst) (a : Opd)
  | fcmp (c : Ctl) (p : BitVec 3) (cc : FCond) (a : Opd) (b : Src)
  | fclass (c : Ctl) (d : ClassDst) (a : Opd)
  | fint (c : Ctl) (d : Dst) (a : Opd)
  | fscale (c : Ctl) (d : Dst) (a : Opd) (b : Src)
  | hadd2 (c : Ctl) (d : Dst) (a b : Opd) (e16 : Bool)
  | hmul2 (c : Ctl) (d : Dst) (a b : Opd) (e16 : Bool)
  | hfma2 (c : Ctl) (d : Dst) (a b e : Opd) (e16 : Bool)
  -- thread: stochastic (05)
  | digits (c : Ctl) (d : Dst) (a : Opd)
  | spread (c : Ctl) (d : Dst) (a : Opd)
  | mean (c : Ctl) (d : Dst) (a : Opd)
  | sibget (c : Ctl) (d : Dst) (a : Opd) (j : BitVec 2)
  | sibset (c : Ctl) (d : Dst) (a b e : Opd)
  | draw (c : Ctl) (d : Dst) (packed : Bool)
  | rnd (c : Ctl) (d : Dst) (f32 : Bool)
  | maskgen (c : Ctl) (d : Dst) (a b e : Opd)
  | istat (c : Ctl) (d : Dst) (clr : Bool)
  | iclr (c : Ctl) (mask : BitVec 20)
  | exact (c : Ctl) (d : Dst) (a b : Opd) (mul : Bool)
  | pairedWord (h1 h2 : Half)
  -- control (06)
  | bra (c : Ctl) (off : BitVec 20)
  | jmp (c : Ctl) (a : Opd)
  | call (c : Ctl) (off : BitVec 20)
  | callr (c : Ctl) (a : Opd)
  | ret (c : Ctl)
  | exit (c : Ctl)
  | trap (c : Ctl) (n : BitVec 16)
  | brk (c : Ctl)
  | nop (c : Ctl)
  | yield (c : Ctl)
  | tret (c : Ctl)
  -- warp (08)
  | join (c : Ctl) (k : Nat)
  | leave (c : Ctl) (k : Nat)
  | wait (c : Ctl) (k : Nat)
  | mset (c : Ctl) (k : Nat) (a : Opd)
  | mget (c : Ctl) (d : Dst) (k : Nat)
  | vote (c : Ctl) (m : VoteMode) (p : BitVec 3) (ps : BitVec 3) (neg : Bool)
  | ballot (c : Ctl) (d : Dst) (ps : BitVec 3) (neg thr : Bool)
  | shfl (c : Ctl) (m : ShflMode) (d a : Nat) (b : Src)
  | bfly (c : Ctl) (base : Nat) (w m m2 dcode : BitVec 3)
  | redux (c : Ctl) (op : ReduxOp) (ty : Ty) (u : Bool) (d : Dst) (a : Nat)
  | elect (c : Ctl) (p : BitVec 3)
  | gcall (c : Ctl) (host : Bool) (fn : BitVec 16) (a : Nat)
  | gcallReply (route : DWord) (words : List Word)
  | gcallRingEntry
  | gret (c : Ctl) (d : Nat)
  | cflag (c : Ctl) (m : FlagMode) (f : Nat) (n : BitVec 6)
  -- core memory and barriers (10)
  | ld (c : Ctl) (m : MemWord)
  | st (c : Ctl) (m : MemWord)
  | ldx (c : Ctl) (m : MemWord)
  | stx (c : Ctl) (m : MemWord)
  | push (c : Ctl) (a : Nat) (n : BitVec 3)
  | pop (c : Ctl) (d : Nat) (n : BitVec 3)
  | atom (c : Ctl) (d : Option Nat) (a b : Opd) (op : AtomOp) (ty : AtomTy)
  | fence (c : Ctl) (k : FenceKind) (sc : Scope)
  | ldacq (c : Ctl) (m : MemWord) (sc : Scope)
  | strel (c : Ctl) (m : MemWord) (sc : Scope)
  | acqrem (c : Ctl) (m : MemWord) (sc : Scope)
  | barinit (c : Ctl) (a : Opd) (b : Src)
  | bararr (c : Ctl) (d : Nat) (a : Opd)
  | barwait (c : Ctl) (a : Opd) (b : Src) (done : Bool)
  | barsync (c : Ctl) (a : Opd)
  | bardrop (c : Ctl) (a : Opd) (b : Src)
  | hangWatchdog (wid thr : Nat)
  | pref (c : Ctl) (m : MemWord) (ex : Bool)
  -- control registers (10)
  | ctlget (c : Ctl) (d : Dst) (r : CtlReg)
  | ctlset (c : Ctl) (r : CtlReg) (b : Src)
  | drawctrWrite (c : Ctl) (b : Src)
  | trappcWrite (c : Ctl) (b : Src)
  | handlerWrite (c : Ctl) (b : Src)
  | dstackWrite (c : Ctl) (b : Src)
  | tapeposWrite (c : Ctl) (b : Src)
  | tapecapWrite (c : Ctl) (b : Src)
  | carveWrite (c : Ctl) (b : Src)
  | sptrootWrite (c : Ctl) (b : Src)
  | qfreeWrite (c : Ctl) (b : Src)
  | qtakeRead (c : Ctl) (d : Dst)
  | resid0Read (c : Ctl) (d : Dst)
  | bivsizeWrite (c : Ctl) (b : Src)
  | tsctlWrite (c : Ctl) (b : Src)
  | energyloWrite (c : Ctl) (b : Src)
  | energyhiWrite (c : Ctl) (b : Src)
  | dbgctlWrite (c : Ctl) (b : Src)
  | eret (c : Ctl)
  | eretRegion (c : Ctl)
  | eretEpc (c : Ctl)
  -- cluster (13, 14)
  | qdecl (c : Ctl) (q : Nat) (b : Src)
  | mma (c : Ctl) (q : Nat) (a : Nat) (desc : Nat) (tA tB tAcc tRes : BitVec 4)
  | signsetPendingEntry (die cl q : Nat)
  | matrixPassStart (die cl : Nat)
  | matrixKstep (die cl : Nat)
  | matrixPartResume (die cl entry : Nat)
  | accrd (c : Ctl) (d vc : Nat) (t : Nat) (run : BitVec 2)
  | acczero (c : Ctl) (t : Nat)
  | accst (c : Ctl) (d a : Nat) (t : Nat) (run : BitVec 2)
  | accstSh (c : Ctl) (a b : Opd) (t : Nat) (triple : Bool)
  | accwait (c : Ctl) (t : Nat)
  | lanttake (c : Ctl) (a : Nat) (len : BitVec 3)
  | lantpass (c : Ctl)
  | lantpassRel (c : Ctl)
  | ratom (c : Ctl) (d : Option Nat) (a b : Opd) (op : AtomOp) (ty : AtomTy) (adj far : Bool)
  | rred (c : Ctl) (a b : Opd) (op : AtomOp) (ty : AtomTy) (adj far : Bool)
  | rcas (c : Ctl) (d : Nat) (a b : Opd) (ty : AtomTy) (adj far : Bool)
  | remoteRequestEnqueue (die core : Nat)
  | remoteReply (die cl : Nat)
  | svrecv (c : Ctl) (d : Nat) (p : BitVec 3) (wt : Bool)
  | svreply (c : Ctl) (a b : Nat)
  -- die (16, 18, 19)
  | cpy (c : Ctl) (a : Opd)
  | cpyst (c : Ctl) (d : Dst) (a : Opd)
  | cpysus (c : Ctl) (a : Opd)
  | cpyres (c : Ctl) (a : Opd)
  | copyChunk (die slot : Nat)
  | copyFaultResume (die slot : Nat)
  | gpost (c : Ctl) (d : Dst) (a : Opd) (p : BitVec 3)
  | graphNodeFinish (die slot : Nat)
  | gwait (c : Ctl) (a : Opd)
  | launch (c : Ctl) (d : Dst) (a : Opd) (p : BitVec 3)
  | lwait (c : Ctl) (a : Opd)
  | hostLaunch (tag : BitVec 12) (record : List Word)
  | blockPlace (grid die : Nat)
  | gridRetire (grid : Nat)
  | runtimeEndLaunch (grid : Nat) (status : Byte)
  | spawn (c : Ctl) (d : Dst) (a : Opd) (p : BitVec 3)
  | gainadd (c : Ctl) (a : Opd) (b : Src) (ch : Bool)
  | gainset (c : Ctl) (a : Opd) (b : Src) (ch : Bool)
  | gainget (c : Ctl) (d : Dst) (a : Opd) (what : GainWhat) (ch : Bool)
  | residget (c : Ctl) (d : Dst) (ch : Bool)
  | taskdone (c : Ctl) (b : Src)
  | heapDispatch (grid die : Nat)
  | heapOverflowEntry (grid die : Nat)
  | residPartExchange (grid die : Nat)
  | dmodeFwd (c : Ctl)
  | dmodeRev (c : Ctl)
  | tapemark (c : Ctl) (d : Dst)
  | tapedrop (c : Ctl) (a : Opd)
  | adjld (c : Ctl) (m : MemWord)
  | adjclr (c : Ctl) (m : MemWord)
  | qpush (c : Ctl) (a b : Opd)
  | qpop (c : Ctl) (d : Nat) (a : Opd) (p : BitVec 3)
  | qclose (c : Ctl) (a : Opd)
  | tlbinv (c : Ctl) (a : Opd)
  | tlbinvCtx (c : Ctl)
  | tlbinvAll (c : Ctl)
  | qwait (c : Ctl) (a : Opd)
  | qepochAdvance (die : Nat)
  | translationWalkComplete (die : Nat)
  | sliceLineRequest (die cl : Nat)
  -- warp issue, caches, replicas (07, 09)
  | lineArrival (wid thr : Nat)
  | parkedLineHoldExpiry (die core : Nat)
  | longLatencyComplete (wid pid : Nat)
  | gReplicaUpdate (bid rank : Nat)
  | activeSetEntry (wid : Nat)
  | activeSetIdleLeave (wid : Nat)
  | activeSetDisplace (wid victim : Nat)
  | yieldHoldExpiry (wid thr : Nat)
  -- package (22, 23, 24, 25)
  | lpush (c : Ctl) (a : Opd) (p : BitVec 3)
  | lsweep (c : Ctl) (d : Dst) (a : Opd) (p : BitVec 3)
  | lsweepNextStart (tag : BitVec 12)
  | preempt (c : Ctl) (d : Dst) (a b : Opd)
  | bivouacSaveEnd (bid : Nat)
  | blockResume (bid : Nat)
  | timeSliceExpiry (die core : Nat)
  | sliceTransferEnd (die core : Nat)
  | halt (c : Ctl) (a : Opd)
  | haltKeep (c : Ctl) (a : Opd)
  | ckmark (c : Ctl) (a : Opd) (p : BitVec 3)
  | checkpointDrainPage (page : Nat)
  | enrd (c : Ctl) (d : Dst)
  | enrdClr (c : Ctl) (d : Dst)
  | energyTick (die core : Nat)
  | trace (c : Ctl) (a : Opd) (id : BitVec 16)
  | traceDrain (die cl : Nat)
  | powerGate (die core : Nat)
  | powerWake (die core : Nat)
  | wpset (c : Ctl) (n : BitVec 2) (a : Nat)
  | keysetPlain (c : Ctl) (a : Opd)
  | keysetLoad (c : Ctl) (a : Opd) (b : Nat)
  | keysetGen (c : Ctl) (a : Opd)
  | functionFence (site : ErrorSite)
  | thermalLimit (stall : Bool) (fenceAll : Bool)
  | priroFlitReceive (port : Nat) (crcOk : Bool)
  | boot (cfg : BootConfig)
  | unassignedOpcodeWord (w : DWord)
  | gWriteHomeArrival (bid : Nat)
  | sharedPortionAccessArrival (bid : Nat)
  | heapOperationArrival (grid die : Nat)
  | firmwareReinitialisation (fn : Nat)
  | powerLoss
deriving DecidableEq, Repr

end Sys2Proof
end

