-- ==== Sys2Proof/WellFormed.lean ====
section
/-! DEFINITION. Which terms of `Instr` are instructions of the machine: register numbers within their prefixes
(Table 1.2), rounding only where Dir is resolved (R104), the flag select only on long-latency instructions (R76), and
the limits that each entry states for its fields. A word instruction that is well formed has an encoding. -/

namespace Sys2Proof

/-- A register of the operand space, or a special (Table 4.5). -/
def Opd.wf : Opd → Bool
  | .v n => decide (n < 640)
  | .s n => decide (n < 256)
  | .g n => decide (n < 64)
  | .sp _ => true

/-- A destination of the operand space (R89). -/
def Dst.wf : Dst → Bool
  | .v n => decide (n < 640)
  | .s n => decide (n < 256)
  | .g n => decide (n < 64)
  | .none => true

def Src.wf : Src → Bool
  | .reg o => o.wf
  | .imm _ => true

/-- A register source, or an immediate that meets `f`. -/
def Src.wfImm (f : BitVec 20 → Bool) : Src → Bool
  | .reg o => o.wf
  | .imm w => f w

def Src2.wfImm (f : BitVec 20 → Bool) : Src2 → Bool
  | .regs b c => b.wf && c.wf
  | .imm w => f w

/-- A v or an s register. -/
def Opd.isVS : Opd → Bool
  | .v n => decide (n < 640)
  | .s n => decide (n < 256)
  | .g _ => false
  | .sp _ => false

/-- A v register. -/
def Opd.isV : Opd → Bool
  | .v n => decide (n < 640)
  | .s _ => false
  | .g _ => false
  | .sp _ => false

/-- The head of a run of registers: at most v`lv` or s`ls` (R383, R390). -/
def Opd.isRun (lv ls : Nat) : Opd → Bool
  | .v n => decide (n ≤ lv)
  | .s n => decide (n ≤ ls)
  | .g _ => false
  | .sp _ => false

/-- A v or an s register as destination. -/
def Dst.isVS : Dst → Bool
  | .v n => decide (n < 640)
  | .s n => decide (n < 256)
  | .g _ => false
  | .none => false

/-- A v or an s register, or %zero, as destination. -/
def Dst.isVSZ : Dst → Bool
  | .v n => decide (n < 640)
  | .s n => decide (n < 256)
  | .g _ => false
  | .none => true

/-- A v register number. -/
def isVReg (n : Nat) : Bool := decide (n < 640)

/-- A v register number, or %zero. -/
def isVRegZ : Option Nat → Bool
  | some n => decide (n < 640)
  | none => true

/-- The common fields of a short-latency instruction that takes no direction. -/
def Ctl.plain (c : Ctl) : Bool := decide (c.rnd = .dflt) && !c.fsel

/-- The common fields of a short-latency instruction that rounds. -/
def Ctl.rounds (c : Ctl) : Bool := !c.fsel

/-- The common fields of a long-latency instruction that takes no direction. -/
def Ctl.long (c : Ctl) : Bool := decide (c.rnd = .dflt)

/-- No common field set: `eret` (R251). -/
def Ctl.bare (c : Ctl) : Bool :=
  decide (c.rnd = .dflt) && !c.fsel && !c.reuse && !c.neg && decide (c.pred = 0)

/-- Every bit of `w` outside `m` is 0. -/
def within {k : Nat} (w m : BitVec k) : Bool := decide (w &&& ~~~m = 0)

/-- The position and length of an immediate bit field (R114). -/
def immField (w : BitVec 20) : Bool := within w 0x7FF#20

/-- Bytes moved by a width (Table 10.3). -/
def Width.bytes : Width → Nat
  | .w8 => 1 | .i8 => 1
  | .w16 => 2 | .i16 => 2
  | .w32 => 4 | .i32 => 4 | .f32 => 4
  | .w64 => 8 | .i64 => 8
  | .w128 => 16

/-- Registers used by a width (Table 10.3). -/
def Width.regs : Width → Nat
  | .w8 => 1 | .i8 => 1
  | .w16 => 1 | .i16 => 1
  | .w32 => 1 | .i32 => 1 | .f32 => 1
  | .w64 => 2 | .i64 => 2
  | .w128 => 4

/-- The base of a memory word: with WIN 5 a v or s register (R231). -/
def MemWord.baseOk (m : MemWord) : Bool :=
  if m.win = .far then m.base.isVS else m.base.wf

/-- The data register of a load: v, s or %zero, and v for a run (R231, R232). -/
def MemWord.loadOk (m : MemWord) : Bool :=
  m.baseOk &&
    (if m.width.regs = 1 then m.data.isVS || decide (m.data = .sp .zero) else m.data.isV)

/-- The data register of a store: any readable operand, and v for a run (R231, R232). -/
def MemWord.storeOk (m : MemWord) : Bool :=
  m.baseOk && (if m.width.regs = 1 then m.data.wf else m.data.isV)

/-- The windows that a scratchpad instruction may name (R245, R248). -/
def MemWord.spWin (m : MemWord) : Bool := decide (m.win = .sp) || decide (m.win = .adj) || decide (m.win = .far)

/-- The operations and types of Table 10.6. -/
def atomLegal : AtomOp → AtomTy → Bool
  | .add, _ => true
  | .min, t | .max, t => decide (t = .w32) || decide (t = .f32)
  | .minu, t | .maxu, t | .inc, t => decide (t = .w32)
  | .and, t | .or, t | .xor, t => decide (t = .w32) || decide (t = .w64)
  | .exch, _ => true
  | .cas, t => decide (t ≠ .f32x)

/-- The operand of a two-register type is a v or s pair (R239, R300). -/
def pairOk (ty : AtomTy) (b : Opd) : Bool := if ty = .w64 then b.isVS else b.wf

/-- The address of a remote atomic (R300). -/
def farOk (a : Opd) (adj far : Bool) : Bool := if far then a.isVS && !adj else a.wf

/-- Types that hold 16-bit elements. -/
def Ty.is16 (t : Ty) : Bool := decide (t = .f16) || decide (t = .e16)

/-- Types that hold four elements to a register (R44). -/
def Ty.is8 (t : Ty) : Bool := decide (t = .f8) || decide (t = .l8) || decide (t = .l6) || decide (t = .i8)

/-- The number of elements of a packed register (R44). -/
def Ty.elems (t : Ty) : Nat := if t.is16 then 2 else if t.is8 then 4 else 1

/-- The destination of `fclass` (R131). -/
def ClassDst.wf : ClassDst → Bool
  | .word d => d.wf
  | .pred _ _ => true

/-- The legal pairs of `redux` (R199). -/
def reduxLegal (op : ReduxOp) (ty : Ty) (u : Bool) (c : Ctl) : Bool :=
  match ty with
  | .i32 => decide (c.rnd = .dflt) && (!u || decide (op = .min) || decide (op = .max))
  | .f32 => !u && (decide (op = .add) || (decide (c.rnd = .dflt) && (decide (op = .min) || decide (op = .max))))
  | .f16 | .e16 | .f8 | .l8 | .l6 | .a26 | .i8 => false

/-- The limits of `bfly` but for the distance, which depends on the mode (R198). -/
def bflyOk (w m m2 dcode : BitVec 3) : Bool :=
  decide (w ≠ 0) && decide (m < w) && decide (m2 < w) && decide (dcode < 6) &&
    (if dcode = 0 then decide (m ≠ m2) else decide (m2 = 0))

/-- Which control registers `ctlget` reads through an instruction of its own (opcode-table rows). -/
def CtlReg.readApart : CtlReg → Bool
  | .qtake => true
  | .resid0 => true
  | _ => false

/-- Which control registers `ctlset` writes through an instruction of its own (opcode-table rows). -/
def CtlReg.writeApart : CtlReg → Bool
  | .drawctr | .trappc | .handler | .dstack | .tapepos | .tapecap | .carve | .sptroot | .qfree | .bivsize | .tsctl
  | .energylo | .energyhi | .dbgctl => true
  | _ => false

/-- The numbered registers of a family lie in their range. -/
def CtlReg.wf : CtlReg → Bool
  | .entab k => decide (k < 32)
  | .bp k => decide (k < 8)
  | _ => true

/-- The immediate of `iclr` names ISTAT[3:0] and FPSTAT[4:0] only (R143). -/
def iclrOk (w : BitVec 20) : Bool := within w 0x01F0F#20

/-- The opcodes of Table 4.9 (R96). -/
def assignedOpcode (n : Nat) : Bool :=
  decide (n ≤ 0x21) || (decide (0x30 ≤ n) && decide (n ≤ 0x32)) || (decide (0x40 ≤ n) && decide (n ≤ 0x54)) ||
  (decide (0x60 ≤ n) && decide (n ≤ 0x6A)) || (decide (0x100 ≤ n) && decide (n ≤ 0x10A)) ||
  (decide (0x180 ≤ n) && decide (n ≤ 0x18D)) || (decide (0x200 ≤ n) && decide (n ≤ 0x212)) ||
  (decide (0x280 ≤ n) && decide (n ≤ 0x28A)) || (decide (0x300 ≤ n) && decide (n ≤ 0x315)) ||
  (decide (0x380 ≤ n) && decide (n ≤ 0x383)) || (decide (0x3C0 ≤ n) && decide (n ≤ 0x3C9))

/-- A word that names no assigned opcode: a pool header, a full word of an unassigned opcode, or a paired word with a
reserved POP (R81, R94, R96). -/
def unassignedWord (w : DWord) : Bool :=
  match (w >>> 62).toNat with
  | 0 => !assignedOpcode ((w >>> 52).toNat % 1024)
  | 1 => decide (0x14 ≤ (w >>> 55).toNat % 128) || decide (0x14 ≤ (w >>> 24).toNat % 128)
  | 2 => false
  | _ => true

/-- A die number (R6). -/
def dieOk (d : Nat) : Bool := decide (d < 4)
/-- A cluster number within its die (R6). -/
def clusterOk (c : Nat) : Bool := decide (c < 40)
/-- A core number within its die (Table 4.6). -/
def coreOk (c : Nat) : Bool := decide (c < 160)

/-- An image is loaded in stacked memory (Table 25.3). -/
def Image.ok (x : Image) : Bool := decide (x.load + x.bytes.length ≤ 2 ^ 42)

/-- A service warp begins at a word, within the allocations that a warp may have (R71, R90). -/
def ServiceEntry.ok (x : ServiceEntry) : Bool :=
  decide (x.pc.toNat % 8 = 0) && decide (1 ≤ x.vregs) && decide (x.vregs ≤ 640) && decide (4 ≤ x.uregs) && decide (x.uregs ≤ 256)

/-- A function's configuration: its clusters and ports exist, and its tags leave out 000h (R436, R462, R466). -/
def FuncConfig.ok (f : FuncConfig) : Bool :=
  f.service.ok && f.entry.all ServiceEntry.ok &&
  f.clusters.all (fun x => dieOk x.1 && clusterOk x.2) && f.ports.all (fun x => decide (x.1 < 12) && decide (x.2 ≤ 8)) &&
    decide (f.tagLo ≠ 0) && decide (f.tagLo ≤ f.tagHi)

/-- Two functions share no cluster, tag or port (R436). -/
def FuncConfig.apart (f g : FuncConfig) : Bool :=
  f.clusters.all (fun x => decide (x ∉ g.clusters)) && (decide (f.tagHi < g.tagLo) || decide (g.tagHi < f.tagLo)) &&
    f.ports.all fun x => g.ports.all fun y => decide (x.1 ≠ y.1)

/-- A signed configuration: up to 16 functions, apart from each other, and 32 weights. -/
def BootConfig.ok (c : BootConfig) : Bool :=
  decide (c.funcs.length ≤ 16) && c.funcs.all (fun x => x.1.ok) && decide (c.entab.length = 32) && c.stage.ok &&
    c.images.all Image.ok &&
    (List.range c.funcs.length).all fun i => (c.funcs.drop (i + 1)).all fun y =>
      ((c.funcs[i]?).map fun x => x.1.apart y.1).getD true

/-- The well-formed instructions. -/
def Instr.wf : Instr → Bool
  | .iadd c d a b _ | .isub c d a b _ => c.plain && d.wf && a.wf && b.wf
  | .imul c d a b => c.plain && d.wf && a.wf && b.wf
  | .imulh c d a b _ | .imin c d a b _ | .imax c d a b _ => c.plain && d.wf && a.wf && b.wf
  | .imad c d a b e _ _ => c.plain && d.wf && a.wf && b.wf && e.wf
  | .iabs c d a _ | .ineg c d a _ => c.plain && d.wf && a.wf
  | .idiv c d a b _ | .irem c d a b _ => c.plain && d.wf && a.wf && b.wf
  | .and c d a b | .or c d a b | .xor c d a b | .andn c d a b => c.plain && d.wf && a.wf && b.wf
  | .not c d a => c.plain && d.wf && a.wf
  | .shl c d a b | .shr c d a b | .sar c d a b | .rot c d a b => c.plain && d.wf && a.wf && b.wf
  | .popc c d a | .clz c d a | .brev c d a => c.plain && d.wf && a.wf
  | .bfx c d a b _ => c.plain && d.wf && a.wf && b.wfImm immField
  | .bfi c d a b => c.plain && d.wf && a.wf && b.wfImm immField
  | .icmp c _ _ a b => c.plain && a.wf && b.wf
  | .sel c d a b _ _ => c.plain && d.wf && a.wf && b.wf
  | .mov c d a => c.plain && d.wf && a.wf
  | .movi c d _ _ => c.plain && d.wf
  | .movh c d _ => c.plain && d.wf
  | .ldlit c d _ x => c.plain && d.wf && (match x with | some a => a.wf | none => true)
  | .lea c d a b sh => c.plain && d.wf && a.wf &&
      (match b with | .reg o => o.wf | .imm _ => decide (sh = 0))
  | .iaddc c d a b _ _ _ _ => c.plain && d.wf && a.wf && b.wf
  | .prmt c d a b => c.plain && d.wf && a.wf && b.wfImm (fun w => within w 0xFFFF#20)
  | .cvt c d a dest frm e => c.rounds && d.wf && a.wf && decide (dest ≠ .a26) && decide (frm ≠ .a26) &&
      decide (e.toNat < frm.elems)
  | .cvtpk c d a b dest frm h => c.rounds && d.wf && a.wf && b.wf && (decide (frm = .f32) || decide (frm = .i32)) &&
      (dest.is8 || (dest.is16 && !h))
  | .unpk c d a dest frm h => c.plain && decide (d < 639) && a.wf &&
      ((decide (dest = .f32) && ((frm.is16 && !h) || (frm.is8 && decide (frm ≠ .i8)))) ||
        (decide (dest = .i32) && decide (frm = .i8)))
  | .fadd c d a b | .fsub c d a b | .fmul c d a b => c.rounds && d.wf && a.wf && b.wf
  | .fma c d a b e _ _ => c.rounds && d.wf && a.wf && b.wf && e.wf
  | .fmin c d a b | .fmax c d a b => c.plain && d.wf && a.wf && b.wf
  | .fdiv _ d a b => d.wf && a.wf && b.wf
  | .fsqrt _ d a | .frcp _ d a | .frsq _ d a | .fexp2 _ d a | .flog2 _ d a | .fsin _ d a | .fcos _ d a =>
      d.wf && a.wf
  | .fcmp c _ _ a b => c.plain && a.wf && b.wf
  | .fclass c d a => c.plain && d.wf && a.wf
  | .fint c d a => c.rounds && d.wf && a.wf
  | .fscale c d a b => c.rounds && d.wf && a.wf && b.wf
  | .hadd2 c d a b _ | .hmul2 c d a b _ => c.rounds && d.wf && a.wf && b.wf
  | .hfma2 c d a b e _ => c.rounds && d.wf && a.wf && b.wf && e.wf
  | .digits c d a | .spread c d a | .mean c d a => c.plain && d.wf && a.wf
  | .sibget c d a j => c.plain && d.wf && a.wf && decide (j ≠ 3)
  | .sibset c d a b e => c.plain && d.wf && a.wf && b.wf && e.wf
  | .draw c d _ | .rnd c d _ => c.plain && d.wf
  | .maskgen c d a b e => c.plain && d.wf && a.wf && b.wf && e.wf
  | .istat c d _ => c.plain && d.wf
  | .iclr c m => c.plain && iclrOk m
  | .exact c d a b _ => c.plain && d.wf && a.wf && b.wf
  | .pairedWord _ _ => true
  | .bra c _ | .call c _ => c.plain
  | .jmp c a | .callr c a => c.plain && a.wf
  | .ret c | .exit c | .brk c | .nop c | .yield c => c.plain
  | .trap c _ => c.plain
  | .tret c => c.plain && decide (c.pred = 0) && !c.neg
  | .join c k | .leave c k | .wait c k => c.plain && decide (k < 12)
  | .mset c k a => c.plain && decide (k < 12) && a.wf && !a.isV
  | .mget c d k => c.plain && d.isVS && decide (k < 12)
  | .vote c _ _ _ _ => c.plain
  | .ballot c d _ _ _ => c.plain && d.isVS
  | .shfl c _ d a b => c.plain && isVReg d && isVReg a && b.wf
  | .bfly c base w m m2 dc => c.plain && isVReg base && bflyOk w m m2 dc
  | .redux c op ty u d a => !c.fsel && reduxLegal op ty u c && d.wf && decide (d ≠ .none) && isVReg a
  | .elect c _ => c.plain
  | .gcall c _ _ a => c.long && decide (a ≤ 632)
  | .gcallReply _ ws => decide (ws.length ≤ 24)
  | .gcallRingEntry => true
  | .gret c d => c.plain && isVReg d
  | .cflag c _ f _ => c.plain && decide (f < 12)
  | .ld c m => c.long && m.loadOk
  | .st c m => c.plain && m.storeOk
  | .ldx c m => c.long && m.loadOk && decide (m.width = .w32)
  | .stx c m => c.plain && m.storeOk && decide (m.width = .w32)
  | .push c a _ => c.plain && isVReg a
  | .pop c d _ => c.long && isVReg d
  | .atom c d a b op ty =>
      (decide (c.rnd = .dflt) || (decide (op = .add) && decide (ty = .f32))) &&
      isVRegZ d && (d.isSome || decide (op ≠ .cas)) && a.wf && pairOk ty b && atomLegal op ty
  | .fence c _ _ => c.plain
  | .ldacq c m _ => c.long && m.loadOk && decide (m.width ≠ .w128)
  | .strel c m _ => c.plain && m.storeOk && decide (m.width ≠ .w128)
  | .acqrem c m sc => c.long && m.loadOk && m.spWin && decide (4 ≤ m.width.bytes) && decide (m.width.bytes ≤ 8) &&
      (decide (sc = .cluster) || decide (sc = .die) || decide (sc = .device))
  | .barinit c a b => c.plain && a.wf && b.wf
  | .bararr c d a => c.long && isVReg d && a.wf
  | .barwait c a b _ => c.plain && a.wf && b.wf
  | .barsync c a => c.plain && a.wf
  | .bardrop c a b => c.plain && a.wf && b.wf
  | .hangWatchdog _ _ => true
  | .pref c m _ => c.plain && m.baseOk && m.spWin && decide (m.width = .w8) && decide (m.data = .v 0)
  | .ctlget c d r => c.plain && d.isVS && r.wf && !r.readApart
  | .ctlset c r b => c.plain && b.wf && r.wf && !r.writeApart
  | .drawctrWrite c b | .trappcWrite c b | .handlerWrite c b | .dstackWrite c b | .tapeposWrite c b
  | .tapecapWrite c b | .carveWrite c b | .sptrootWrite c b | .qfreeWrite c b | .bivsizeWrite c b | .tsctlWrite c b
  | .energyloWrite c b | .energyhiWrite c b | .dbgctlWrite c b => c.plain && b.wf
  | .qtakeRead c d | .resid0Read c d => c.plain && d.isVS
  | .eret c | .eretRegion c | .eretEpc c => c.bare
  | .qdecl c q b => c.plain && decide (q < 32) && b.wf
  | .mma c q a desc _ _ _ _ => c.long && decide (q < 32) && isVReg a && decide (desc < 32)
  | .signsetPendingEntry d cl q => dieOk d && clusterOk cl && decide (q < 32)
  | .matrixPassStart d cl | .matrixKstep d cl => dieOk d && clusterOk cl
  | .matrixPartResume d cl _ => dieOk d && clusterOk cl
  | .accrd c d vc t run => c.long && isVReg d && isVReg vc && decide (t < 32) &&
      !(decide (d ≤ vc) && decide (vc < d + 2 ^ run.toNat))
  | .acczero c t | .accwait c t => c.long && decide (t < 32)
  | .accst c d a t _ => c.long && isVReg d && isVReg a && decide (t < 32)
  | .accstSh c a b t _ => c.long && a.wf && b.wf && decide (t < 32)
  | .lanttake c a _ => c.plain && decide (a < 256)
  | .lantpass c | .lantpassRel c => c.plain
  | .ratom c d a b op ty adj far => c.long && isVRegZ d && farOk a adj far && pairOk ty b && atomLegal op ty &&
      decide (op ≠ .cas) && decide (ty ≠ .f32x)
  | .rred c a b op ty adj far => c.long && farOk a adj far && pairOk ty b && atomLegal op ty &&
      decide (op ≠ .cas) && decide (ty ≠ .f32x)
  | .rcas c d a b ty adj far => c.long && isVReg d && farOk a adj far && pairOk ty b && decide (ty ≠ .f32x)
  | .remoteRequestEnqueue d k => dieOk d && coreOk k
  | .remoteReply d cl => dieOk d && clusterOk cl
  | .svrecv c d _ _ => c.long && isVReg d
  | .svreply c a b => c.plain && isVReg a && isVReg b
  | .cpy c a => c.long && a.isRun 632 248
  | .cpyst c d a => c.long && d.isVS && a.isVS
  | .cpysus c a | .cpyres c a => c.long && a.isVS
  | .copyChunk d _ | .copyFaultResume d _ => dieOk d
  | .gpost c d a _ => c.plain && d.isVSZ && a.isRun 624 240
  | .graphNodeFinish d _ => dieOk d
  | .gwait c a | .lwait c a => c.plain && a.isVS
  | .launch c d a _ | .spawn c d a _ => c.plain && d.isVSZ && a.isVS
  | .hostLaunch _ r => decide (r.length = 16)
  | .blockPlace _ d => dieOk d
  | .gridRetire _ => true
  | .runtimeEndLaunch _ _ => true
  | .gainadd c a b _ | .gainset c a b _ => c.plain && a.isVS && b.wf
  | .gainget c d a _ _ => c.plain && d.isVS && a.isVS
  | .residget c d _ => c.plain && d.isVS
  | .taskdone c b => c.plain && b.wf
  | .heapDispatch _ d | .heapOverflowEntry _ d | .residPartExchange _ d => dieOk d
  | .dmodeFwd c | .dmodeRev c => c.plain
  | .tapemark c d => c.plain && d.isVS
  | .tapedrop c a => c.plain && a.wf
  | .adjld c m => c.long && m.loadOk && decide (m.width = .f32) && (decide (m.win = .sp) || decide (m.win = .far))
  | .adjclr c m => c.plain && m.baseOk && decide (m.width = .f32) && (decide (m.win = .sp) || decide (m.win = .far)) &&
      decide (m.data = .v 0)
  | .qpush c a b => c.plain && a.wf && b.isVS
  | .qpop c d a _ => c.plain && isVReg d && a.wf
  | .qclose c a => c.plain && a.wf
  | .tlbinv c a => c.plain && a.wf
  | .tlbinvCtx c | .tlbinvAll c => c.plain
  | .qwait c a => c.plain && a.isVS
  | .qepochAdvance d | .translationWalkComplete d => dieOk d
  | .sliceLineRequest d cl => dieOk d && clusterOk cl
  | .lineArrival _ _ => true
  | .parkedLineHoldExpiry d k => dieOk d && coreOk k
  | .longLatencyComplete _ _ => true
  | .gReplicaUpdate _ _ => true
  | .activeSetEntry _ | .activeSetIdleLeave _ => true
  | .activeSetDisplace _ _ => true
  | .yieldHoldExpiry _ _ => true
  | .lpush c a _ => c.plain && a.isVS
  | .lsweep c d a _ => c.plain && d.isVSZ && a.isVS
  | .lsweepNextStart _ => true
  | .preempt c d a b => c.plain && d.isVS && a.isVS && b.isVS
  | .bivouacSaveEnd _ | .blockResume _ => true
  | .timeSliceExpiry d k | .sliceTransferEnd d k => dieOk d && coreOk k
  | .halt c a | .haltKeep c a => c.plain && a.isVS
  | .ckmark c a _ => c.plain && a.isVS
  | .checkpointDrainPage _ => true
  | .enrd c d | .enrdClr c d => c.plain && d.isVS && (match d with | .s n => decide (n % 2 = 0) | _ => true)
  | .energyTick d k => dieOk d && coreOk k
  | .trace c a _ => c.plain && a.wf
  | .traceDrain d cl => dieOk d && clusterOk cl
  | .powerGate d k | .powerWake d k => dieOk d && coreOk k
  | .wpset c _ a => c.plain && isVReg a
  | .keysetPlain c a => c.plain && a.isVS
  | .keysetLoad c a b => c.plain && a.isVS && isVReg b
  | .keysetGen c a => c.plain && a.isVS
  | .functionFence _ => true
  | .thermalLimit _ _ => true
  | .priroFlitReceive _ _ => true
  | .boot cfg => cfg.ok
  | .unassignedOpcodeWord w => unassignedWord w
  | .gWriteHomeArrival _ => true
  | .sharedPortionAccessArrival _ => true
  | .heapOperationArrival _ d => dieOk d
  | .firmwareReinitialisation f => decide (f < 16)
  | .powerLoss => true

end Sys2Proof
end

