-- ==== Sys2Proof/Decode.lean ====
section
/-! DEFINITION. The instruction word of spec/04: the fields of a full word (Table 4.4), of a paired word (Table 4.7)
and of a memory word (Table 10.1); the decoder of every 64-bit word, total, refusing by name; and the encoder written
from the same tables. A word of an unassigned opcode is itself a row of the opcode table and decodes to it. -/

namespace Sys2Proof

/-- Why a word is no instruction. Both raise the illegal-instruction trap, subcode FIELD. -/
inductive DecodeErr where
  /-- A clause header stands where an instruction is wanted (R75). -/
  | header
  /-- A field of the word breaks R85, R89, R104 or its entry (R86 step 3). -/
  | field
deriving DecidableEq, Repr

/-! ## The full word -/

/-- The fields of Table 4.4. -/
structure Raw where
  op : BitVec 10
  d : BitVec 10
  a : BitVec 10
  b : BitVec 10
  e : BitVec 10
  pred : BitVec 3
  neg : Bool
  rnd : BitVec 3
  fsel : Bool
  reuse : Bool
  mod : BitVec 3
deriving DecidableEq, Repr

/-- The word of Table 4.4. -/
def Raw.word (r : Raw) : DWord :=
  0#2 ++ r.op ++ r.d ++ r.a ++ r.b ++ r.e ++ r.pred ++ BitVec.ofBool r.neg ++ r.rnd ++ BitVec.ofBool r.fsel ++
    BitVec.ofBool r.reuse ++ r.mod

/-- The fields that a word has under Table 4.4. -/
def Raw.ofWord (w : DWord) : Raw :=
  { op := w.extractLsb' 52 10, d := w.extractLsb' 42 10, a := w.extractLsb' 32 10, b := w.extractLsb' 22 10,
    e := w.extractLsb' 12 10, pred := w.extractLsb' 9 3, neg := w.getLsbD 8, rnd := w.extractLsb' 5 3,
    fsel := w.getLsbD 4, reuse := w.getLsbD 3, mod := w.extractLsb' 0 3 }

/-- IMM20 stands in the places of OPB and OPC (R85). -/
def Raw.imm20 (r : Raw) : BitVec 20 := r.b ++ r.e

/-- The upper ten bits of IMM20. -/
def immHi (w : BitVec 20) : BitVec 10 := w.extractLsb' 10 10
/-- The lower ten bits of IMM20. -/
def immLo (w : BitVec 20) : BitVec 10 := w.extractLsb' 0 10

/-! ## Codes of the fields -/

/-- The codes of Table 4.6. -/
def Special.code : Special → Nat
  | .zero => 960
  | .tidx => 961
  | .tidy => 962
  | .tidz => 963
  | .tid => 964
  | .tnum => 965
  | .warp => 966
  | .lane => 967
  | .sib => 968
  | .blkx => 969
  | .blky => 970
  | .blkz => 971
  | .blk => 972
  | .bdimx => 973
  | .bdimy => 974
  | .bdimz => 975
  | .gdimx => 976
  | .gdimy => 977
  | .gdimz => 978
  | .core => 979
  | .cluster => 980
  | .die => 981
  | .ones => 982
  | .fone => 983
  | .clocklo => 984
  | .clockhi => 985
  | .nest => 986

/-- The special of a code of Table 4.6. -/
def Special.ofCode : Nat → Option Special
  | 960 => some .zero
  | 961 => some .tidx
  | 962 => some .tidy
  | 963 => some .tidz
  | 964 => some .tid
  | 965 => some .tnum
  | 966 => some .warp
  | 967 => some .lane
  | 968 => some .sib
  | 969 => some .blkx
  | 970 => some .blky
  | 971 => some .blkz
  | 972 => some .blk
  | 973 => some .bdimx
  | 974 => some .bdimy
  | 975 => some .bdimz
  | 976 => some .gdimx
  | 977 => some .gdimy
  | 978 => some .gdimz
  | 979 => some .core
  | 980 => some .cluster
  | 981 => some .die
  | 982 => some .ones
  | 983 => some .fone
  | 984 => some .clocklo
  | 985 => some .clockhi
  | 986 => some .nest
  | _ => none

/-- The operand code of a source (Table 4.5). -/
def Opd.code : Opd → BitVec 10
  | .v n => BitVec.ofNat 10 n
  | .s n => BitVec.ofNat 10 (640 + n)
  | .g n => BitVec.ofNat 10 (896 + n)
  | .sp x => BitVec.ofNat 10 x.code

/-- The source of an operand code; codes from 987 are reserved (R89). -/
def opdOf (c : BitVec 10) : Option Opd :=
  if c.toNat < 640 then some (.v c.toNat)
  else if c.toNat < 896 then some (.s (c.toNat - 640))
  else if c.toNat < 960 then some (.g (c.toNat - 896))
  else (Special.ofCode c.toNat).map .sp

/-- The operand code of a destination. -/
def Dst.code : Dst → BitVec 10
  | .v n => BitVec.ofNat 10 n
  | .s n => BitVec.ofNat 10 (640 + n)
  | .g n => BitVec.ofNat 10 (896 + n)
  | .none => 960#10

/-- The destination of an operand code; a special other than %zero is none (R89). -/
def dstOf (c : BitVec 10) : Option Dst :=
  if c.toNat < 640 then some (.v c.toNat)
  else if c.toNat < 896 then some (.s (c.toNat - 640))
  else if c.toNat < 960 then some (.g (c.toNat - 896))
  else if c.toNat = 960 then some .none
  else none

/-- The code of a v register. -/
def vCode (n : Nat) : BitVec 10 := BitVec.ofNat 10 n

/-- A v register. -/
def vOf (c : BitVec 10) : Option Nat := if c.toNat < 640 then some c.toNat else none

/-- The code of a v register or %zero. -/
def vzCode : Option Nat → BitVec 10
  | some n => BitVec.ofNat 10 n
  | none => 960#10

/-- A v register or %zero. -/
def vzOf (c : BitVec 10) : Option (Option Nat) :=
  if c.toNat < 640 then some (some c.toNat) else if c.toNat = 960 then some none else none

/-- A field of `k` bits at the foot of a 10-bit field, the rest zero. -/
def lowOf (k : Nat) (c : BitVec 10) : Option (BitVec k) :=
  if c.toNat < 2 ^ k then some (BitVec.ofNat k c.toNat) else none

/-- A number below `n` in a 10-bit field, the rest zero. -/
def numOf (n : Nat) (c : BitVec 10) : Option Nat := if c.toNat < n then some c.toNat else none

/-- A predicate with a negate bit at [3], the rest zero (R117, R189). -/
def predNegOf (c : BitVec 10) : Option (BitVec 3 × Bool) :=
  if c.toNat < 16 then some (c.extractLsb' 0 3, c.getLsbD 3) else none

def predNegCode (p : BitVec 3) (n : Bool) : BitVec 10 := 0#6 ++ BitVec.ofBool n ++ p

/-- An element of a field of codes, when `o` holds. -/
def guardOf {α : Type} (o : Bool) (x : Option α) : Option α := if o then x else none

def Rnd.code : Rnd → Nat
  | .dflt => 0
  | .rn => 1
  | .rz => 2
  | .ru => 3
  | .rd => 4

def Rnd.ofCode : Nat → Option Rnd
  | 0 => some .dflt
  | 1 => some .rn
  | 2 => some .rz
  | 3 => some .ru
  | 4 => some .rd
  | _ => none

def Ty.code : Ty → Nat
  | .f32 => 0
  | .f16 => 1
  | .e16 => 2
  | .f8 => 3
  | .l8 => 4
  | .l6 => 5
  | .a26 => 6
  | .i8 => 7
  | .i32 => 8

def Ty.ofCode : Nat → Option Ty
  | 0 => some .f32
  | 1 => some .f16
  | 2 => some .e16
  | 3 => some .f8
  | 4 => some .l8
  | 5 => some .l6
  | 6 => some .a26
  | 7 => some .i8
  | 8 => some .i32
  | _ => none

def ICond.code : ICond → Nat
  | .eq => 0
  | .ne => 1
  | .lt => 2
  | .le => 3
  | .gt => 4
  | .ge => 5
  | .lo => 6
  | .hs => 7

def ICond.ofCode : Nat → Option ICond
  | 0 => some .eq
  | 1 => some .ne
  | 2 => some .lt
  | 3 => some .le
  | 4 => some .gt
  | 5 => some .ge
  | 6 => some .lo
  | 7 => some .hs
  | _ => none

def FCond.code : FCond → Nat
  | .eq => 0
  | .ne => 1
  | .lt => 2
  | .le => 3
  | .gt => 4
  | .ge => 5
  | .ord => 6
  | .unord => 7

def FCond.ofCode : Nat → Option FCond
  | 0 => some .eq
  | 1 => some .ne
  | 2 => some .lt
  | 3 => some .le
  | 4 => some .gt
  | 5 => some .ge
  | 6 => some .ord
  | 7 => some .unord
  | _ => none

def POp.code : POp → Nat
  | .iadd => 0
  | .isub => 1
  | .imul => 2
  | .and => 3
  | .or => 4
  | .xor => 5
  | .shl => 6
  | .shr => 7
  | .sar => 8
  | .mov => 9
  | .movi => 10
  | .fadd => 11
  | .fsub => 12
  | .fmul => 13
  | .fmin => 14
  | .fmax => 15
  | .sel => 16
  | .cvtF16 => 17
  | .cvtF32 => 18
  | .nop => 19

def POp.ofCode : Nat → Option POp
  | 0 => some .iadd
  | 1 => some .isub
  | 2 => some .imul
  | 3 => some .and
  | 4 => some .or
  | 5 => some .xor
  | 6 => some .shl
  | 7 => some .shr
  | 8 => some .sar
  | 9 => some .mov
  | 10 => some .movi
  | 11 => some .fadd
  | 12 => some .fsub
  | 13 => some .fmul
  | 14 => some .fmin
  | 15 => some .fmax
  | 16 => some .sel
  | 17 => some .cvtF16
  | 18 => some .cvtF32
  | 19 => some .nop
  | _ => none

def VoteMode.code : VoteMode → Nat
  | .all => 0
  | .any => 1
  | .uni => 2

def VoteMode.ofCode : Nat → Option VoteMode
  | 0 => some .all
  | 1 => some .any
  | 2 => some .uni
  | _ => none

def ShflMode.code : ShflMode → Nat
  | .idx => 0
  | .up => 1
  | .down => 2
  | .xor => 3

def ShflMode.ofCode : Nat → Option ShflMode
  | 0 => some .idx
  | 1 => some .up
  | 2 => some .down
  | 3 => some .xor
  | _ => none

def ReduxOp.code : ReduxOp → Nat
  | .add => 0
  | .min => 1
  | .max => 2
  | .and => 3
  | .or => 4

def ReduxOp.ofCode : Nat → Option ReduxOp
  | 0 => some .add
  | 1 => some .min
  | 2 => some .max
  | 3 => some .and
  | 4 => some .or
  | _ => none

def FlagMode.code : FlagMode → Nat
  | .inc => 0
  | .dec => 1
  | .set => 2

def FlagMode.ofCode : Nat → Option FlagMode
  | 0 => some .inc
  | 1 => some .dec
  | 2 => some .set
  | _ => none

def Win.code : Win → Nat
  | .mm => 0
  | .sp => 1
  | .adj => 2
  | .sh => 3
  | .spill => 4
  | .far => 5

def Win.ofCode : Nat → Option Win
  | 0 => some .mm
  | 1 => some .sp
  | 2 => some .adj
  | 3 => some .sh
  | 4 => some .spill
  | 5 => some .far
  | _ => none

def Width.code : Width → Nat
  | .w8 => 0
  | .i8 => 1
  | .w16 => 2
  | .i16 => 3
  | .w32 => 4
  | .i32 => 5
  | .f32 => 6
  | .w64 => 7
  | .i64 => 8
  | .w128 => 9

def Width.ofCode : Nat → Option Width
  | 0 => some .w8
  | 1 => some .i8
  | 2 => some .w16
  | 3 => some .i16
  | 4 => some .w32
  | 5 => some .i32
  | 6 => some .f32
  | 7 => some .w64
  | 8 => some .i64
  | 9 => some .w128
  | _ => none

def Scope.code : Scope → Nat
  | .warp => 0
  | .block => 1
  | .cluster => 2
  | .die => 3
  | .device => 4
  | .system => 5

def Scope.ofCode : Nat → Option Scope
  | 0 => some .warp
  | 1 => some .block
  | 2 => some .cluster
  | 3 => some .die
  | 4 => some .device
  | 5 => some .system
  | _ => none

def FenceKind.code : FenceKind → Nat
  | .acq => 0
  | .rel => 1
  | .ar => 2
  | .sc => 3

def FenceKind.ofCode : Nat → Option FenceKind
  | 0 => some .acq
  | 1 => some .rel
  | 2 => some .ar
  | 3 => some .sc
  | _ => none

def AtomOp.code : AtomOp → Nat
  | .add => 0
  | .min => 1
  | .max => 2
  | .minu => 3
  | .maxu => 4
  | .and => 5
  | .or => 6
  | .xor => 7
  | .exch => 8
  | .cas => 9
  | .inc => 10

def AtomOp.ofCode : Nat → Option AtomOp
  | 0 => some .add
  | 1 => some .min
  | 2 => some .max
  | 3 => some .minu
  | 4 => some .maxu
  | 5 => some .and
  | 6 => some .or
  | 7 => some .xor
  | 8 => some .exch
  | 9 => some .cas
  | 10 => some .inc
  | _ => none

def AtomTy.code : AtomTy → Nat
  | .w32 => 0
  | .f32 => 1
  | .w64 => 2
  | .f32x => 3

def AtomTy.ofCode : Nat → Option AtomTy
  | 0 => some .w32
  | 1 => some .f32
  | 2 => some .w64
  | 3 => some .f32x
  | _ => none

def GainWhat.code : GainWhat → Nat
  | .gain => 0
  | .pend => 1
  | .state => 2

def GainWhat.ofCode : Nat → Option GainWhat
  | 0 => some .gain
  | 1 => some .pend
  | 2 => some .state
  | _ => none

/-- The numbers of the control registers (Table 10.9 and the register maps of the later chapters). -/
def CtlReg.code : CtlReg → Nat
  | .seedlo => 0x000
  | .seedhi => 0x001
  | .drawctr => 0x002
  | .istat => 0x003
  | .imask => 0x004
  | .cancelth => 0x005
  | .fpstat => 0x006
  | .fpmask => 0x007
  | .handler => 0x008
  | .trapinfo => 0x009
  | .trappc => 0x00A
  | .regionpc => 0x00B
  | .mode => 0x00C
  | .dmode => 0x00D
  | .tapepos => 0x00E
  | .tapecap => 0x00F
  | .icntcancel => 0x010
  | .icntsplit => 0x011
  | .icntzdiv => 0x012
  | .rstack => 0x013
  | .dstack => 0x014
  | .trapopa => 0x015
  | .trapopb => 0x016
  | .trapopc => 0x017
  | .trapres => 0x018
  | .trapaddrlo => 0x019
  | .trapaddrhi => 0x01A
  | .wissue => 0x01B
  | .wbeat => 0x01C
  | .wunif => 0x01D
  | .wsplit => 0x01E
  | .cpylast => 0x01F
  | .tapebase => 0x040
  | .tapestride => 0x041
  | .corecfg => 0x042
  | .spillcfg => 0x043
  | .shsize => 0x044
  | .mopcnt => 0x080
  | .lantstat => 0x081
  | .hcount => 0x082
  | .resid0 => 0x0C0
  | .resid1 => 0x0C1
  | .resid2 => 0x0C2
  | .gaintol => 0x0C3
  | .gqstat => 0x0C4
  | .heapstat => 0x0C5
  | .taskbase => 0x0C6
  | .taskcnt => 0x0C7
  | .maxlive => 0x0C8
  | .tasklive => 0x0C9
  | .energylo => 0x100
  | .energyhi => 0x101
  | .ltstat => 0x102
  | .boardid => 0x103
  | .priv => 0x200
  | .owner => 0x201
  | .carve => 0x202
  | .epc => 0x203
  | .wdebug => 0x208
  | .svqstat => 0x210
  | .sptroot => 0x213
  | .qepoch => 0x214
  | .qdone => 0x215
  | .qfree => 0x216
  | .qtake => 0x217
  | .ltbase => 0x220
  | .bivsize => 0x221
  | .tsctl => 0x222
  | .ckstat => 0x223
  | .enstatic => 0x224
  | .mptroot => 0x225
  | .bpctx => 0x268
  | .dbgctl => 0x269
  | .trctl => 0x26A
  | .trbase => 0x26B
  | .trhead => 0x26C
  | .wpstat => 0x26D
  | .eccstat => 0x26E
  | .func => 0x26F
  | .entab k => 0x240 + k
  | .bp k => 0x260 + k

/-- The registers with one name each. -/
def CtlReg.ofNumber : Nat → Option CtlReg
  | 0x000 => some .seedlo
  | 0x001 => some .seedhi
  | 0x002 => some .drawctr
  | 0x003 => some .istat
  | 0x004 => some .imask
  | 0x005 => some .cancelth
  | 0x006 => some .fpstat
  | 0x007 => some .fpmask
  | 0x008 => some .handler
  | 0x009 => some .trapinfo
  | 0x00A => some .trappc
  | 0x00B => some .regionpc
  | 0x00C => some .mode
  | 0x00D => some .dmode
  | 0x00E => some .tapepos
  | 0x00F => some .tapecap
  | 0x010 => some .icntcancel
  | 0x011 => some .icntsplit
  | 0x012 => some .icntzdiv
  | 0x013 => some .rstack
  | 0x014 => some .dstack
  | 0x015 => some .trapopa
  | 0x016 => some .trapopb
  | 0x017 => some .trapopc
  | 0x018 => some .trapres
  | 0x019 => some .trapaddrlo
  | 0x01A => some .trapaddrhi
  | 0x01B => some .wissue
  | 0x01C => some .wbeat
  | 0x01D => some .wunif
  | 0x01E => some .wsplit
  | 0x01F => some .cpylast
  | 0x040 => some .tapebase
  | 0x041 => some .tapestride
  | 0x042 => some .corecfg
  | 0x043 => some .spillcfg
  | 0x044 => some .shsize
  | 0x080 => some .mopcnt
  | 0x081 => some .lantstat
  | 0x082 => some .hcount
  | 0x0C0 => some .resid0
  | 0x0C1 => some .resid1
  | 0x0C2 => some .resid2
  | 0x0C3 => some .gaintol
  | 0x0C4 => some .gqstat
  | 0x0C5 => some .heapstat
  | 0x0C6 => some .taskbase
  | 0x0C7 => some .taskcnt
  | 0x0C8 => some .maxlive
  | 0x0C9 => some .tasklive
  | 0x100 => some .energylo
  | 0x101 => some .energyhi
  | 0x102 => some .ltstat
  | 0x103 => some .boardid
  | 0x200 => some .priv
  | 0x201 => some .owner
  | 0x202 => some .carve
  | 0x203 => some .epc
  | 0x208 => some .wdebug
  | 0x210 => some .svqstat
  | 0x213 => some .sptroot
  | 0x214 => some .qepoch
  | 0x215 => some .qdone
  | 0x216 => some .qfree
  | 0x217 => some .qtake
  | 0x220 => some .ltbase
  | 0x221 => some .bivsize
  | 0x222 => some .tsctl
  | 0x223 => some .ckstat
  | 0x224 => some .enstatic
  | 0x225 => some .mptroot
  | 0x268 => some .bpctx
  | 0x269 => some .dbgctl
  | 0x26A => some .trctl
  | 0x26B => some .trbase
  | 0x26C => some .trhead
  | 0x26D => some .wpstat
  | 0x26E => some .eccstat
  | 0x26F => some .func
  | _ => none

/-- The control register of a number, none where it is unassigned. -/
def CtlReg.ofCode (n : Nat) : Option CtlReg :=
  if 0x240 ≤ n ∧ n < 0x260 then some (.entab (n - 0x240))
  else if 0x260 ≤ n ∧ n < 0x268 then some (.bp (n - 0x260))
  else CtlReg.ofNumber n

/-- A register that only the supervisor view names (R249). -/
def CtlReg.privileged (r : CtlReg) : Bool := decide (0x200 ≤ r.code)

/-- The common fields; RND other than 0 only where `rounds`, FSEL only where `long` (R76, R104). -/
def Raw.ctlOf (r : Raw) (rounds long : Bool) : Option Ctl :=
  match Rnd.ofCode r.rnd.toNat with
  | none => none
  | some m =>
    if (rounds || decide (m = .dflt)) && (long || !r.fsel) then
      some { pred := r.pred, neg := r.neg, rnd := m, fsel := r.fsel, reuse := r.reuse }
    else none

/-- A full word's fields from its common fields and its own. -/
def Ctl.raw (c : Ctl) (op : Nat) (d a b e : BitVec 10) (mod : BitVec 3) : Raw :=
  { op := BitVec.ofNat 10 op, d := d, a := a, b := b, e := e, pred := c.pred, neg := c.neg,
    rnd := BitVec.ofNat 3 c.rnd.code, fsel := c.fsel, reuse := c.reuse, mod := mod }

/-- A full word's fields with IMM20. -/
def Ctl.rawImm (c : Ctl) (op : Nat) (d a : BitVec 10) (imm : BitVec 20) (mod : BitVec 3) : Raw :=
  c.raw op d a (immHi imm) (immLo imm) mod

/-- The last source, chosen by `i`: IMM20, or the register in OPB with OPC zero (R106). -/
def Raw.srcB (r : Raw) (i : Bool) : Option Src :=
  if i then some (.imm r.imm20) else if r.e = 0 then (opdOf r.b).map .reg else none

def Src.bits : Src → BitVec 10 × BitVec 10
  | .reg o => (o.code, 0)
  | .imm w => (immHi w, immLo w)

def Src.isImm : Src → Bool
  | .reg _ => false
  | .imm _ => true

/-- A modifier from its three bits, the high one first. -/
def mod3 (m2 m1 m0 : Bool) : BitVec 3 := BitVec.ofBool m2 ++ BitVec.ofBool m1 ++ BitVec.ofBool m0

/-- The fields of a word whose last source has an immediate form with I at MOD[0]. -/
def Ctl.rawSrc (c : Ctl) (op : Nat) (d a : BitVec 10) (b : Src) (m2 m1 : Bool) : Raw :=
  c.raw op d a b.bits.1 b.bits.2 (mod3 m2 m1 b.isImm)

/-! ## The memory word -/

/-- The memory word of Table 10.1: WIN, WIDTH and OFF in the places of OPB and OPC. -/
def Raw.memOf (r : Raw) : Option MemWord :=
  match opdOf r.d, opdOf r.a, Win.ofCode (r.b.extractLsb' 6 4).toNat, Width.ofCode (r.b.extractLsb' 2 4).toNat with
  | some d, some a, some w, some k =>
    some { data := d, base := a, win := w, width := k, off := r.b.extractLsb' 0 2 ++ r.e }
  | _, _, _, _ => none

def MemWord.hi (m : MemWord) : BitVec 10 :=
  BitVec.ofNat 4 m.win.code ++ BitVec.ofNat 4 m.width.code ++ m.off.extractLsb' 10 2

def MemWord.lo (m : MemWord) : BitVec 10 := m.off.extractLsb' 0 10

def Ctl.rawMem (c : Ctl) (op : Nat) (m : MemWord) (mod : BitVec 3) : Raw :=
  c.raw op m.data.code m.base.code m.hi m.lo mod

/-! ## Decoding a full word

Each group gives the instruction that the fields name, whatever the values of its operands; `decodeFull` then keeps it
only where it is well formed, which is where the limits of the entries stand. -/

/-- A destination and operand A, with OPB and OPC zero. -/
def Raw.unary (r : Raw) (f : Dst → Opd → Instr) : Option Instr :=
  match dstOf r.d, opdOf r.a with
  | some d, some a => if r.b = 0 ∧ r.e = 0 then some (f d a) else none
  | _, _ => none

/-- A destination, operand A and the last source under I at MOD[0]. -/
def Raw.binary (r : Raw) (f : Dst → Opd → Src → Instr) : Option Instr :=
  match dstOf r.d, opdOf r.a, r.srcB (r.mod.getLsbD 0) with
  | some d, some a, some b => some (f d a b)
  | _, _, _ => none

/-- A destination and two register operands, with OPC zero. -/
def Raw.binaryR (r : Raw) (f : Dst → Opd → Opd → Instr) : Option Instr :=
  match dstOf r.d, opdOf r.a, opdOf r.b with
  | some d, some a, some b => if r.e = 0 then some (f d a b) else none
  | _, _, _ => none

/-- A destination and three register operands. -/
def Raw.ternary (r : Raw) (f : Dst → Opd → Opd → Opd → Instr) : Option Instr :=
  match dstOf r.d, opdOf r.a, opdOf r.b, opdOf r.e with
  | some d, some a, some b, some e => some (f d a b e)
  | _, _, _, _ => none

/-- A destination alone. -/
def Raw.nullary (r : Raw) (f : Dst → Instr) : Option Instr :=
  match dstOf r.d with
  | some d => if r.a = 0 ∧ r.b = 0 ∧ r.e = 0 then some (f d) else none
  | none => none

/-- Operand A alone. -/
def Raw.source (r : Raw) (f : Opd → Instr) : Option Instr :=
  match opdOf r.a with
  | some a => if r.d = 0 ∧ r.b = 0 ∧ r.e = 0 then some (f a) else none
  | none => none

/-- No operand. -/
def Raw.bare (r : Raw) (i : Instr) : Option Instr :=
  if r.d = 0 ∧ r.a = 0 ∧ r.b = 0 ∧ r.e = 0 then some i else none

/-- Operand A and the last source under I at MOD[0], without destination. -/
def Raw.sourceB (r : Raw) (f : Opd → Src → Instr) : Option Instr :=
  match opdOf r.a, r.srcB (r.mod.getLsbD 0) with
  | some a, some b => if r.d = 0 then some (f a b) else none
  | _, _ => none

/-- A destination, operand A and a predicate in OPC. -/
def Raw.withPred (r : Raw) (f : Dst → Opd → BitVec 3 → Instr) : Option Instr :=
  match dstOf r.d, opdOf r.a, lowOf 3 r.e with
  | some d, some a, some p => if r.b = 0 then some (f d a p) else none
  | _, _, _ => none

/-- The type pair of `cvt`, `cvtpk` and `unpk`: TO at [3:0], FROM at [7:4] (R122). -/
def typesOf (c : BitVec 10) : Option (Ty × Ty) :=
  match Ty.ofCode (c.extractLsb' 0 4).toNat, Ty.ofCode (c.extractLsb' 4 6).toNat with
  | some t, some f => some (t, f)
  | _, _ => none

def typesCode (t f : Ty) : BitVec 10 := BitVec.ofNat 6 f.code ++ BitVec.ofNat 4 t.code

/-- OP at [3:0], TYPE at [5:4], ADJ at [6] (Table 14.1). -/
def atomOf (c : BitVec 10) : Option (AtomOp × AtomTy × Bool) :=
  match AtomOp.ofCode (c.extractLsb' 0 4).toNat, AtomTy.ofCode (c.extractLsb' 4 2).toNat with
  | some o, some t => if c.toNat < 128 then some (o, t, c.getLsbD 6) else none
  | _, _ => none

def atomCode (o : AtomOp) (t : AtomTy) (adj : Bool) : BitVec 10 :=
  0#3 ++ BitVec.ofBool adj ++ BitVec.ofNat 2 t.code ++ BitVec.ofNat 4 o.code

/-- The integer instructions, 000h to 021h (05). -/
def decodeInteger (r : Raw) (c : Ctl) : Option Instr :=
  let i := r.mod.getLsbD 0
  let m1 := r.mod.getLsbD 1
  let m2 := r.mod.getLsbD 2
  match r.op.toNat with
  | 0x000 => guardOf (!m2) (r.binary fun d a b => .iadd c d a b m1)
  | 0x001 => guardOf (!m2) (r.binary fun d a b => .isub c d a b m1)
  | 0x002 => guardOf (!m2 && !m1) (r.binary fun d a b => .imul c d a b)
  | 0x003 => guardOf (!m2) (r.binary fun d a b => .imulh c d a b m1)
  | 0x004 => guardOf (!i) (r.ternary fun d a b e => .imad c d a b e m1 m2)
  | 0x005 => guardOf (!m2) (r.binary fun d a b => .imin c d a b m1)
  | 0x006 => guardOf (!m2) (r.binary fun d a b => .imax c d a b m1)
  | 0x007 => guardOf (!m2 && !i) (r.unary fun d a => .iabs c d a m1)
  | 0x008 => guardOf (!m2 && !i) (r.unary fun d a => .ineg c d a m1)
  | 0x009 => guardOf (!m2) (r.binary fun d a b => .idiv c d a b m1)
  | 0x00A => guardOf (!m2) (r.binary fun d a b => .irem c d a b m1)
  | 0x00B => guardOf (!m2 && !m1) (r.binary fun d a b => .and c d a b)
  | 0x00C => guardOf (!m2 && !m1) (r.binary fun d a b => .or c d a b)
  | 0x00D => guardOf (!m2 && !m1) (r.binary fun d a b => .xor c d a b)
  | 0x00E => guardOf (!m2 && !m1) (r.binary fun d a b => .andn c d a b)
  | 0x00F => guardOf (decide (r.mod = 0)) (r.unary fun d a => .not c d a)
  | 0x010 => guardOf (!m2 && !m1) (r.binary fun d a b => .shl c d a b)
  | 0x011 => guardOf (!m2 && !m1) (r.binary fun d a b => .shr c d a b)
  | 0x012 => guardOf (!m2 && !m1) (r.binary fun d a b => .sar c d a b)
  | 0x013 => guardOf (!m2 && !m1) (r.binary fun d a b => .rot c d a b)
  | 0x014 => guardOf (decide (r.mod = 0)) (r.unary fun d a => .popc c d a)
  | 0x015 => guardOf (decide (r.mod = 0)) (r.unary fun d a => .clz c d a)
  | 0x016 => guardOf (decide (r.mod = 0)) (r.unary fun d a => .brev c d a)
  | 0x017 => guardOf (!m2) (r.binary fun d a b => .bfx c d a b m1)
  | 0x018 => guardOf (!m2 && !m1)
      (if i then
        match dstOf r.d, opdOf r.a with
        | some d, some a => some (.bfi c d a (.imm r.imm20))
        | _, _ => none
      else r.ternary fun d a b e => .bfi c d a (.regs b e))
  | 0x019 =>
    match lowOf 4 r.d, ICond.ofCode r.mod.toNat, opdOf r.a, r.srcB (r.d.getLsbD 3) with
    | some p, some cc, some a, some b => some (.icmp c (p.extractLsb' 0 3) cc a b)
    | _, _, _, _ => none
  | 0x01A =>
    match dstOf r.d, opdOf r.a, opdOf r.b, predNegOf r.e with
    | some d, some a, some b, some p => guardOf (decide (r.mod = 0)) (some (.sel c d a b p.1 p.2))
    | _, _, _, _ => none
  | 0x01B => guardOf (decide (r.mod = 0)) (r.unary fun d a => .mov c d a)
  | 0x01C => guardOf (!m2 && !m1 && decide (r.a = 0)) ((dstOf r.d).map fun d => .movi c d r.imm20 i)
  | 0x01D => guardOf (decide (r.mod = 0) && decide (r.a = 0) && decide (r.imm20.toNat < 65536))
      ((dstOf r.d).map fun d => .movh c d (r.imm20.setWidth 16))
  | 0x01E => guardOf (!m2 && !m1)
      (if i then
        match dstOf r.d, opdOf r.a with
        | some d, some a => some (.ldlit c d r.imm20 (some a))
        | _, _ => none
      else guardOf (decide (r.a = 0)) ((dstOf r.d).map fun d => .ldlit c d r.imm20 none))
  | 0x01F => r.binary fun d a b => .lea c d a b (r.mod.extractLsb' 1 2)
  | 0x020 => guardOf (!i && decide (r.e.toNat < 128) && !r.e.getLsbD 3)
      (match dstOf r.d, opdOf r.a, opdOf r.b with
      | some d, some a, some b => some (.iaddc c d a b (r.e.extractLsb' 0 3) (r.e.extractLsb' 4 3) m1 m2)
      | _, _, _ => none)
  | 0x021 => guardOf (!m2 && !m1)
      (if i then
        match dstOf r.d, opdOf r.a with
        | some d, some a => some (.prmt c d a (.imm r.imm20))
        | _, _ => none
      else r.ternary fun d a b e => .prmt c d a (.regs b e))
  | _ => none

/-- The conversions and floating-point instructions, 030h to 054h (05). -/
def decodeFloat (r : Raw) (c : Ctl) : Option Instr :=
  let i := r.mod.getLsbD 0
  let m1 := r.mod.getLsbD 1
  let m2 := r.mod.getLsbD 2
  let z := decide (r.mod = 0)
  match r.op.toNat with
  | 0x030 => guardOf (!m2 && decide (r.e = 0))
      (match dstOf r.d, opdOf r.a, typesOf r.b with
      | some d, some a, some t => some (.cvt c d a t.1 t.2 (r.mod.extractLsb' 0 2))
      | _, _, _ => none)
  | 0x031 => guardOf (!m2 && !m1)
      (match dstOf r.d, opdOf r.a, opdOf r.b, typesOf r.e with
      | some d, some a, some b, some t => some (.cvtpk c d a b t.1 t.2 i)
      | _, _, _, _ => none)
  | 0x032 => guardOf (!m2 && !m1 && decide (r.e = 0))
      (match vOf r.d, opdOf r.a, typesOf r.b with
      | some d, some a, some t => some (.unpk c d a t.1 t.2 i)
      | _, _, _ => none)
  | 0x040 => guardOf (!m2 && !m1) (r.binary fun d a b => .fadd c d a b)
  | 0x041 => guardOf (!m2 && !m1) (r.binary fun d a b => .fsub c d a b)
  | 0x042 => guardOf (!m2 && !m1) (r.binary fun d a b => .fmul c d a b)
  | 0x043 => guardOf (!i) (r.ternary fun d a b e => .fma c d a b e m1 m2)
  | 0x044 => guardOf (!m2 && !m1) (r.binary fun d a b => .fmin c d a b)
  | 0x045 => guardOf (!m2 && !m1) (r.binary fun d a b => .fmax c d a b)
  | 0x046 => guardOf z (r.binaryR fun d a b => .fdiv c d a b)
  | 0x047 => guardOf z (r.unary fun d a => .fsqrt c d a)
  | 0x048 => guardOf z (r.unary fun d a => .frcp c d a)
  | 0x049 => guardOf z (r.unary fun d a => .frsq c d a)
  | 0x04A => guardOf z (r.unary fun d a => .fexp2 c d a)
  | 0x04B => guardOf z (r.unary fun d a => .flog2 c d a)
  | 0x04C => guardOf z (r.unary fun d a => .fsin c d a)
  | 0x04D => guardOf z (r.unary fun d a => .fcos c d a)
  | 0x04E =>
    match lowOf 4 r.d, FCond.ofCode r.mod.toNat, opdOf r.a, r.srcB (r.d.getLsbD 3) with
    | some p, some cc, some a, some b => some (.fcmp c (p.extractLsb' 0 3) cc a b)
    | _, _, _, _ => none
  | 0x04F => guardOf (!m2 && !m1)
      (if i then
        match lowOf 3 r.d, opdOf r.a with
        | some p, some a => guardOf (decide (r.b = 0)) (some (.fclass c (.pred p r.e) a))
        | _, _ => none
      else r.unary fun d a => .fclass c (.word d) a)
  | 0x050 => guardOf z (r.unary fun d a => .fint c d a)
  | 0x051 => guardOf (!m2 && !m1) (r.binary fun d a b => .fscale c d a b)
  | 0x052 => guardOf (!m2 && !m1) (r.binaryR fun d a b => .hadd2 c d a b i)
  | 0x053 => guardOf (!m2 && !m1) (r.binaryR fun d a b => .hmul2 c d a b i)
  | 0x054 => guardOf (!m2 && !m1) (r.ternary fun d a b e => .hfma2 c d a b e i)
  | _ => none

/-- The stochastic instructions, 060h to 06Ah (05). -/
def decodeStoch (r : Raw) (c : Ctl) : Option Instr :=
  let i := r.mod.getLsbD 0
  let m1 := r.mod.getLsbD 1
  let m2 := r.mod.getLsbD 2
  let z := decide (r.mod = 0)
  match r.op.toNat with
  | 0x060 => guardOf z (r.unary fun d a => .digits c d a)
  | 0x061 => guardOf z (r.unary fun d a => .spread c d a)
  | 0x062 => guardOf z (r.unary fun d a => .mean c d a)
  | 0x063 => guardOf (!m2) (r.unary fun d a => .sibget c d a (r.mod.extractLsb' 0 2))
  | 0x064 => guardOf z (r.ternary fun d a b e => .sibset c d a b e)
  | 0x065 => guardOf (!m2 && !m1) (r.nullary fun d => .draw c d i)
  | 0x066 => guardOf (!m2 && !m1) (r.nullary fun d => .rnd c d i)
  | 0x067 => guardOf z (r.ternary fun d a b e => .maskgen c d a b e)
  | 0x068 => guardOf (!m2 && !m1) (r.nullary fun d => .istat c d i)
  | 0x069 => guardOf (z && decide (r.d = 0) && decide (r.a = 0)) (some (.iclr c r.imm20))
  | 0x06A => guardOf (!m2 && !m1) (r.binaryR fun d a b => .exact c d a b i)
  | _ => none

/-- The control instructions, 100h to 10Ah (Table 6.1). -/
def decodeControl (r : Raw) (c : Ctl) : Option Instr :=
  guardOf (decide (r.mod = 0))
    (match r.op.toNat with
    | 0x100 => guardOf (decide (r.d = 0) && decide (r.a = 0)) (some (.bra c r.imm20))
    | 0x101 => r.source fun a => .jmp c a
    | 0x102 => guardOf (decide (r.d = 0) && decide (r.a = 0)) (some (.call c r.imm20))
    | 0x103 => r.source fun a => .callr c a
    | 0x104 => r.bare (.ret c)
    | 0x105 => r.bare (.exit c)
    | 0x106 => guardOf (decide (r.d = 0) && decide (r.a = 0) && decide (r.imm20.toNat < 65536))
        (some (.trap c (r.imm20.setWidth 16)))
    | 0x107 => r.bare (.brk c)
    | 0x108 => r.bare (.nop c)
    | 0x109 => r.bare (.yield c)
    | 0x10A => r.bare (.tret c)
    | _ => none)

/-- The warp instructions, 180h to 18Dh (Table 8.1). -/
def decodeWarp (r : Raw) (c : Ctl) : Option Instr :=
  let i := r.mod.getLsbD 0
  let z := decide (r.mod = 0)
  match r.op.toNat with
  | 0x180 => guardOf (z && decide (r.d = 0) && decide (r.b = 0) && decide (r.e = 0))
      ((numOf 12 r.a).map fun k => .join c k)
  | 0x181 => guardOf (z && decide (r.d = 0) && decide (r.b = 0) && decide (r.e = 0))
      ((numOf 12 r.a).map fun k => .leave c k)
  | 0x182 => guardOf (z && decide (r.d = 0) && decide (r.b = 0) && decide (r.e = 0))
      ((numOf 12 r.a).map fun k => .wait c k)
  | 0x183 => guardOf (z && decide (r.b = 0) && decide (r.e = 0))
      (match numOf 12 r.d, opdOf r.a with
      | some k, some a => some (.mset c k a)
      | _, _ => none)
  | 0x184 => guardOf (z && decide (r.b = 0) && decide (r.e = 0))
      (match dstOf r.d, numOf 12 r.a with
      | some d, some k => some (.mget c d k)
      | _, _ => none)
  | 0x185 => guardOf (decide (r.b = 0) && decide (r.e = 0))
      (match VoteMode.ofCode r.mod.toNat, lowOf 3 r.d, predNegOf r.a with
      | some m, some p, some q => some (.vote c m p q.1 q.2)
      | _, _, _ => none)
  | 0x186 => guardOf (decide (r.mod.toNat < 2) && decide (r.b = 0) && decide (r.e = 0))
      (match dstOf r.d, predNegOf r.a with
      | some d, some q => some (.ballot c d q.1 q.2 i)
      | _, _ => none)
  | 0x187 =>
    match ShflMode.ofCode (r.mod.extractLsb' 1 2).toNat, vOf r.d, vOf r.a, r.srcB i with
    | some m, some d, some a, some b => some (.shfl c m d a b)
    | _, _, _, _ => none
  | 0x188 => guardOf (decide (r.b = 0) && decide (r.e = 0) && decide (r.a.toNat < 512))
      ((vOf r.d).map fun v =>
        .bfly c v (r.a.extractLsb' 6 3) (r.a.extractLsb' 0 3) (r.a.extractLsb' 3 3) r.mod)
  | 0x189 => guardOf (decide (r.b.toNat < 32) && decide (r.e = 0))
      (match ReduxOp.ofCode r.mod.toNat, Ty.ofCode (r.b.extractLsb' 0 4).toNat, dstOf r.d, vOf r.a with
      | some o, some t, some d, some a => some (.redux c o t (r.b.getLsbD 4) d a)
      | _, _, _, _ => none)
  | 0x18A => guardOf (z && decide (r.a = 0) && decide (r.b = 0) && decide (r.e = 0))
      ((lowOf 3 r.d).map fun p => .elect c p)
  | 0x18B => guardOf (z && decide (r.d = 0) && decide (r.imm20.toNat < 131072))
      ((vOf r.a).map fun a => .gcall c (r.imm20.getLsbD 16) (r.imm20.setWidth 16) a)
  | 0x18C => guardOf (z && decide (r.a = 0) && decide (r.b = 0) && decide (r.e = 0))
      ((vOf r.d).map fun d => .gret c d)
  | 0x18D => guardOf (decide (r.d = 0) && decide (r.imm20.toNat < 64))
      (match FlagMode.ofCode r.mod.toNat, numOf 12 r.a with
      | some m, some f => some (.cflag c m f (r.imm20.setWidth 6))
      | _, _ => none)
  | _ => none

/-- A memory word's instruction. -/
def Raw.mem (r : Raw) (f : MemWord → Instr) : Option Instr := r.memOf.map f

/-- A memory word's instruction with a scope in MOD (Table 10.7). -/
def Raw.memScope (r : Raw) (f : MemWord → Scope → Instr) : Option Instr :=
  match r.memOf, Scope.ofCode r.mod.toNat with
  | some m, some s => some (f m s)
  | _, _ => none

/-- The read of a control register (R249); the rows of the opcode table that read one register stand apart. -/
def readReg (c : Ctl) (d : Dst) : CtlReg → Instr
  | .qtake => .qtakeRead c d
  | .resid0 => .resid0Read c d
  | r => .ctlget c d r

/-- The write of a control register (R249); the rows of the opcode table that write one register stand apart. -/
def writeReg (c : Ctl) (b : Src) : CtlReg → Instr
  | .drawctr => .drawctrWrite c b
  | .trappc => .trappcWrite c b
  | .handler => .handlerWrite c b
  | .dstack => .dstackWrite c b
  | .tapepos => .tapeposWrite c b
  | .tapecap => .tapecapWrite c b
  | .carve => .carveWrite c b
  | .sptroot => .sptrootWrite c b
  | .qfree => .qfreeWrite c b
  | .bivsize => .bivsizeWrite c b
  | .tsctl => .tsctlWrite c b
  | .energylo => .energyloWrite c b
  | .energyhi => .energyhiWrite c b
  | .dbgctl => .dbgctlWrite c b
  | r => .ctlset c r b

/-- The core instructions, 200h to 212h (10). -/
def decodeCore (r : Raw) (c : Ctl) : Option Instr :=
  let i := r.mod.getLsbD 0
  let m1 := r.mod.getLsbD 1
  let m2 := r.mod.getLsbD 2
  let z := decide (r.mod = 0)
  match r.op.toNat with
  | 0x200 => guardOf z (r.mem fun m => .ld c m)
  | 0x201 => guardOf z (r.mem fun m => .st c m)
  | 0x202 => guardOf z (r.mem fun m => .ldx c m)
  | 0x203 => guardOf z (r.mem fun m => .stx c m)
  | 0x204 => guardOf (decide (r.d = 0) && decide (r.b = 0) && decide (r.e = 0))
      ((vOf r.a).map fun a => .push c a r.mod)
  | 0x205 => guardOf (decide (r.a = 0) && decide (r.b = 0) && decide (r.e = 0))
      ((vOf r.d).map fun d => .pop c d r.mod)
  | 0x206 => guardOf z
      (match vzOf r.d, opdOf r.a, opdOf r.b, atomOf r.e with
      | some d, some a, some b, some t => guardOf (!t.2.2) (some (.atom c d a b t.1 t.2.1))
      | _, _, _, _ => none)
  | 0x207 => guardOf (decide (r.d = 0) && decide (r.a = 0) && decide (r.b = 0))
      (match FenceKind.ofCode r.e.toNat, Scope.ofCode r.mod.toNat with
      | some k, some s => some (.fence c k s)
      | _, _ => none)
  | 0x208 => r.memScope fun m s => .ldacq c m s
  | 0x209 => r.memScope fun m s => .strel c m s
  | 0x20A => r.memScope fun m s => .acqrem c m s
  | 0x20B => guardOf (!m2 && !m1) (r.sourceB fun a b => .barinit c a b)
  | 0x20C => guardOf (z && decide (r.b = 0) && decide (r.e = 0))
      (match vOf r.d, opdOf r.a with
      | some d, some a => some (.bararr c d a)
      | _, _ => none)
  | 0x20D => guardOf (!m2) (r.sourceB fun a b => .barwait c a b m1)
  | 0x20E => guardOf z (r.source fun a => .barsync c a)
  | 0x20F => guardOf (!m2 && !m1) (r.sourceB fun a b => .bardrop c a b)
  | 0x210 => guardOf (!m2 && !m1) (r.mem fun m => .pref c m i)
  | 0x211 => guardOf (z && decide (r.b = 0) && decide (r.e = 0))
      (match dstOf r.d, CtlReg.ofCode r.a.toNat with
      | some d, some n => some (readReg c d n)
      | _, _ => none)
  | 0x212 => guardOf (!m2 && !m1)
      (match CtlReg.ofCode r.d.toNat with
      | none => none
      | some n =>
        if i then guardOf (decide (r.a = 0)) (some (writeReg c (.imm r.imm20) n))
        else guardOf (decide (r.b = 0) && decide (r.e = 0)) ((opdOf r.a).map fun a => writeReg c (.reg a) n))
  | _ => none

/-- The operand B of a wide or plain remote atomic and its operation (Table 14.1). -/
def Raw.remote (r : Raw) (f : Opd → Opd → AtomOp × AtomTy × Bool → Instr) : Option Instr :=
  guardOf (decide (r.mod.toNat < 2))
    (match opdOf r.a, opdOf r.b, atomOf r.e with
    | some a, some b, some t => some (f a b t)
    | _, _, _ => none)

/-- The cluster instructions, 280h to 28Ah (Table 14.1). -/
def decodeCluster (r : Raw) (c : Ctl) : Option Instr :=
  let i := r.mod.getLsbD 0
  let m1 := r.mod.getLsbD 1
  let z := decide (r.mod = 0)
  match r.op.toNat with
  | 0x280 => guardOf (z && decide ((r.imm20.extractLsb' 0 4) = 0))
      ((vOf r.a).map fun a =>
        .mma c (r.d.extractLsb' 5 5).toNat a (r.d.extractLsb' 0 5).toNat (r.imm20.extractLsb' 16 4)
          (r.imm20.extractLsb' 12 4) (r.imm20.extractLsb' 8 4) (r.imm20.extractLsb' 4 4))
  | 0x281 => guardOf (decide (r.mod.toNat < 2) && decide (r.a = 0))
      (match numOf 32 r.d, r.srcB i with
      | some q, some b => some (.qdecl c q b)
      | _, _ => none)
  | 0x282 => guardOf (decide (r.mod.toNat < 4) && decide (r.b = 0))
      (match vOf r.d, vOf r.a, numOf 32 r.e with
      | some d, some a, some t => some (.accrd c d a t (r.mod.extractLsb' 0 2))
      | _, _, _ => none)
  | 0x283 => guardOf (z && decide (r.d = 0) && decide (r.a = 0) && decide (r.b = 0))
      ((numOf 32 r.e).map fun t => .acczero c t)
  | 0x284 =>
    if i then
      match opdOf r.a, opdOf r.b, numOf 32 r.e with
      | some a, some b, some t => guardOf (decide (r.mod.toNat < 4) && decide (r.d = 0)) (some (.accstSh c a b t m1))
      | _, _, _ => none
    else
      match vOf r.d, vOf r.a, numOf 32 r.e with
      | some d, some a, some t => guardOf (decide (r.b = 0)) (some (.accst c d a t (r.mod.extractLsb' 1 2)))
      | _, _, _ => none
  | 0x285 => guardOf (z && decide (r.d = 0) && decide (r.a = 0) && decide (r.b = 0))
      ((numOf 32 r.e).map fun t => .accwait c t)
  | 0x286 => guardOf (decide (r.d = 0) && decide (r.b = 0) && decide (r.e = 0))
      (match opdOf r.a with
      | some (.s a) => some (.lanttake c a r.mod)
      | _ => none)
  | 0x287 => guardOf (decide (r.mod.toNat < 2)) (r.bare (if i then .lantpassRel c else .lantpass c))
  | 0x288 =>
    match vzOf r.d with
    | some d => r.remote fun a b t => .ratom c d a b t.1 t.2.1 t.2.2 i
    | none => none
  | 0x289 => guardOf (decide (r.d = 0)) (r.remote fun a b t => .rred c a b t.1 t.2.1 t.2.2 i)
  | 0x28A =>
    match vOf r.d with
    | some d => guardOf (decide (r.e.extractLsb' 0 4 = 0)) (r.remote fun a b t => .rcas c d a b t.2.1 t.2.2 i)
    | none => none
  | _ => none

/-- The operand of `taskdone`: OPA, or IMM20 (Table 19.1). -/
def Raw.srcA (r : Raw) (i : Bool) : Option Src :=
  if i then guardOf (decide (r.a = 0)) (some (.imm r.imm20))
  else guardOf (decide (r.b = 0) && decide (r.e = 0)) ((opdOf r.a).map .reg)

/-- The die instructions, 300h to 315h (Table 19.1). -/
def decodeDie (r : Raw) (c : Ctl) : Option Instr :=
  let i := r.mod.getLsbD 0
  let m1 := r.mod.getLsbD 1
  let m2 := r.mod.getLsbD 2
  let z := decide (r.mod = 0)
  match r.op.toNat with
  | 0x300 => guardOf z (r.source fun a => .cpy c a)
  | 0x301 => guardOf z (r.unary fun d a => .cpyst c d a)
  | 0x302 => guardOf z (r.source fun a => .cpysus c a)
  | 0x303 => guardOf z (r.source fun a => .cpyres c a)
  | 0x304 => guardOf z (r.withPred fun d a p => .gpost c d a p)
  | 0x305 => guardOf z (r.source fun a => .gwait c a)
  | 0x306 => guardOf z (r.withPred fun d a p => .launch c d a p)
  | 0x307 => guardOf z (r.source fun a => .lwait c a)
  | 0x308 => guardOf z (r.withPred fun d a p => .spawn c d a p)
  | 0x309 => guardOf (!m2) (r.sourceB fun a b => .gainadd c a b m1)
  | 0x30A => guardOf (!m2) (r.sourceB fun a b => .gainset c a b m1)
  | 0x30B =>
    match GainWhat.ofCode (r.mod.extractLsb' 1 2).toNat with
    | some w => r.unary fun d a => .gainget c d a w i
    | none => none
  | 0x30C => guardOf (!m2 && !m1 && decide (r.d = 0)) ((r.srcA i).map fun b => .taskdone c b)
  | 0x30D => guardOf (!m2 && !m1) (r.bare (if i then .dmodeRev c else .dmodeFwd c))
  | 0x30E => guardOf z (r.nullary fun d => .tapemark c d)
  | 0x30F => guardOf z (r.source fun a => .tapedrop c a)
  | 0x310 => guardOf z (r.mem fun m => .adjld c m)
  | 0x311 => guardOf z (r.mem fun m => .adjclr c m)
  | 0x312 => guardOf (z && decide (r.d = 0) && decide (r.e = 0))
      (match opdOf r.a, opdOf r.b with
      | some a, some b => some (.qpush c a b)
      | _, _ => none)
  | 0x313 => guardOf (z && decide (r.b = 0))
      (match vOf r.d, opdOf r.a, lowOf 3 r.e with
      | some d, some a, some p => some (.qpop c d a p)
      | _, _, _ => none)
  | 0x314 => guardOf z (r.source fun a => .qclose c a)
  | 0x315 => guardOf (!m2 && !m1) (r.nullary fun d => .residget c d i)
  | _ => none

/-- The package instructions, 380h to 383h (Tables 22.11, 23.5). -/
def decodePackage (r : Raw) (c : Ctl) : Option Instr :=
  let z := decide (r.mod = 0)
  match r.op.toNat with
  | 0x380 => guardOf (z && decide (r.d = 0) && decide (r.b = 0))
      (match opdOf r.a, lowOf 3 r.e with
      | some a, some p => some (.lpush c a p)
      | _, _ => none)
  | 0x381 => guardOf z (r.withPred fun d a p => .lsweep c d a p)
  | 0x382 => guardOf (z && decide (r.d = 0) && decide (r.imm20.toNat < 65536))
      ((opdOf r.a).map fun a => .trace c a (r.imm20.setWidth 16))
  | 0x383 => guardOf (decide (r.mod.toNat < 2))
      (r.nullary fun d => if r.mod.getLsbD 0 then .enrdClr c d else .enrd c d)
  | _ => none

/-- The privileged instructions, 3C0h to 3C9h (R97). -/
def decodePrivileged (r : Raw) (c : Ctl) : Option Instr :=
  let i := r.mod.getLsbD 0
  let z := decide (r.mod = 0)
  match r.op.toNat with
  | 0x3C0 =>
    match r.mod.toNat with
    | 0 => r.bare (.eret c)
    | 1 => r.bare (.eretRegion c)
    | 2 => r.bare (.eretEpc c)
    | _ => none
  | 0x3C1 => guardOf (decide (r.mod.toNat < 2) && decide (r.a = 0) && decide (r.b = 0))
      (match vOf r.d, lowOf 3 r.e with
      | some d, some p => some (.svrecv c d p i)
      | _, _ => none)
  | 0x3C2 => guardOf (z && decide (r.d = 0) && decide (r.e = 0))
      (match vOf r.a, vOf r.b with
      | some a, some b => some (.svreply c a b)
      | _, _ => none)
  | 0x3C3 =>
    match r.mod.toNat with
    | 0 => r.source fun a => .tlbinv c a
    | 1 => r.bare (.tlbinvCtx c)
    | 2 => r.bare (.tlbinvAll c)
    | _ => none
  | 0x3C4 => guardOf (z && decide (r.d = 0) && decide (r.b = 0))
      (match opdOf r.a, lowOf 3 r.e with
      | some a, some p => some (.ckmark c a p)
      | _, _ => none)
  | 0x3C5 => guardOf z (r.binaryR fun d a b => .preempt c d a b)
  | 0x3C6 => guardOf (decide (r.mod.toNat < 2)) (r.source fun a => if i then .haltKeep c a else .halt c a)
  | 0x3C7 => guardOf (z && decide (r.b = 0) && decide (r.e = 0))
      (match lowOf 2 r.d, vOf r.a with
      | some n, some a => some (.wpset c n a)
      | _, _ => none)
  | 0x3C8 => guardOf (decide (r.d = 0) && decide (r.e = 0))
      (match r.mod.toNat, opdOf r.a, vOf r.b with
      | 0, some a, some b => guardOf (decide (b = 0)) (some (.keysetPlain c a))
      | 1, some a, some b => some (.keysetLoad c a b)
      | 2, some a, some b => guardOf (decide (b = 0)) (some (.keysetGen c a))
      | _, _, _ => none)
  | 0x3C9 => guardOf z (r.source fun a => .qwait c a)
  | _ => none

/-- The opcodes whose words may hold an RND (R104, R199, R239). -/
def roundingOpcode (n : Nat) : Bool :=
  decide (n = 0x030) || decide (n = 0x031) || (decide (0x040 ≤ n) && decide (n ≤ 0x043)) ||
  (decide (0x046 ≤ n) && decide (n ≤ 0x04D)) || (decide (0x050 ≤ n) && decide (n ≤ 0x054)) ||
  decide (n = 0x189) || decide (n = 0x206)

/-- The long-latency opcodes (R76 and the latency columns of the entries). -/
def longOpcode (n : Nat) : Bool :=
  (decide (0x046 ≤ n) && decide (n ≤ 0x04D)) || decide (n = 0x18B) || decide (n = 0x200) || decide (n = 0x202) ||
  decide (n = 0x205) || decide (n = 0x206) || decide (n = 0x208) || decide (n = 0x20A) || decide (n = 0x20C) ||
  decide (n = 0x280) || (decide (0x282 ≤ n) && decide (n ≤ 0x285)) || (decide (0x288 ≤ n) && decide (n ≤ 0x28A)) ||
  (decide (0x300 ≤ n) && decide (n ≤ 0x303)) || decide (n = 0x310) || decide (n = 0x3C1)

/-- The instruction that the fields of a full word name. -/
def decodeOp (r : Raw) : Option Instr :=
  match r.ctlOf (roundingOpcode r.op.toNat) (longOpcode r.op.toNat) with
  | none => none
  | some c =>
    if r.op.toNat < 0x030 then decodeInteger r c
    else if r.op.toNat < 0x060 then decodeFloat r c
    else if r.op.toNat < 0x100 then decodeStoch r c
    else if r.op.toNat < 0x180 then decodeControl r c
    else if r.op.toNat < 0x200 then decodeWarp r c
    else if r.op.toNat < 0x280 then decodeCore r c
    else if r.op.toNat < 0x300 then decodeCluster r c
    else if r.op.toNat < 0x380 then decodeDie r c
    else if r.op.toNat < 0x3C0 then decodePackage r c
    else decodePrivileged r c

/-- A full word's fields decoded: the instruction they name, where it is well formed. -/
def decodeRaw (r : Raw) : Except DecodeErr Instr :=
  match decodeOp r with
  | some i => if i.wf then .ok i else .error .field
  | none => .error .field

/-! ## The paired word -/

/-- The bits of one half (Table 4.7). -/
def Half.bits (h : Half) : BitVec 31 :=
  BitVec.ofNat 7 h.op.code ++ h.d ++ h.a ++ h.pred ++ BitVec.ofBool h.neg

/-- The half that 31 bits hold; none for a reserved POP (R94). -/
def halfOf (x : BitVec 31) : Option Half :=
  (POp.ofCode (x.extractLsb' 24 7).toNat).map fun p =>
    { op := p, d := x.extractLsb' 14 10, a := x.extractLsb' 4 10, pred := x.extractLsb' 1 3, neg := x.getLsbD 0 }

/-! ## Words -/

/-- The instruction of a word that stands inside a clause (R70). -/
def decode (w : DWord) : Except DecodeErr Instr :=
  match (w >>> 62).toNat with
  | 0 => if assignedOpcode ((w >>> 52).toNat % 1024) then decodeRaw (Raw.ofWord w) else .ok (.unassignedOpcodeWord w)
  | 1 =>
    match halfOf (w.extractLsb' 31 31), halfOf (w.extractLsb' 0 31) with
    | some h1, some h2 => .ok (.pairedWord h1 h2)
    | _, _ => .ok (.unassignedOpcodeWord w)
  | 2 => .error .header
  | _ => .ok (.unassignedOpcodeWord w)

/-- Whether a word is refused in the user view before its fields are looked at (R86 step 2): an opcode from 3C0h, `ctlget` or
`ctlset` of a number from 200h, or `enrd.clr` (R433). -/
def privilegedWord (w : DWord) : Bool :=
  decide ((w >>> 62).toNat = 0) &&
    (let r := Raw.ofWord w
     let n := r.op.toNat
     (decide (0x3C0 ≤ n) && decide (n ≤ 0x3C9)) || (decide (n = 0x383) && r.mod.getLsbD 0) || (decide (n = 0x211) && decide (0x200 ≤ r.a.toNat)) ||
       (decide (n = 0x212) && decide (0x200 ≤ r.d.toNat)))

/-- The word of eight bytes, little-endian (R70); none for fewer. -/
def wordOfBytes : List Byte → Option (DWord × List Byte)
  | b0 :: b1 :: b2 :: b3 :: b4 :: b5 :: b6 :: b7 :: rest => some (b7 ++ b6 ++ b5 ++ b4 ++ b3 ++ b2 ++ b1 ++ b0, rest)
  | _ => none

/-- The bytes of a word, lowest address first (R44, R70). -/
def bytesOfWord (w : DWord) : List Byte :=
  [w.extractLsb' 0 8, w.extractLsb' 8 8, w.extractLsb' 16 8, w.extractLsb' 24 8, w.extractLsb' 32 8,
    w.extractLsb' 40 8, w.extractLsb' 48 8, w.extractLsb' 56 8]

/-- The instruction at the head of a list of bytes, with the bytes after it; none where fewer than eight are left. -/
def decodeBytes (bs : List Byte) : Option (Except DecodeErr Instr × List Byte) :=
  (wordOfBytes bs).map fun x => (decode x.1, x.2)

/-- The decoder on a word given as the opcode table numbers its bits: bits above `nbits` are 0, and the word's bytes
pass through the byte form. -/
def decodeTableWord (nbits w : Nat) : Option Instr :=
  match decodeBytes (bytesOfWord (BitVec.ofNat 64 (w % 2 ^ nbits))) with
  | some (.ok i, _) => some i
  | _ => none

/-! ## Clause headers -/

/-- The fields of a clause header (Table 4.2). -/
structure Header where
  wait : BitVec 12
  aflag : Nat
  avalid : Bool
  bflag : Nat
  bvalid : Bool
  count : Nat
  re : Bool
  yld : Bool
deriving DecidableEq, Repr

/-- Whether a word is a clause header by its kind (Table 4.1). -/
def isHeader (w : DWord) : Bool := decide ((w >>> 62).toNat = 2)

/-- Whether a word is a pool header by its kind (Table 4.1). -/
def isPool (w : DWord) : Bool := decide ((w >>> 62).toNat = 3)

/-- The legal clause header that a word of kind 10b holds (R75). -/
def headerOf (w : DWord) : Option Header :=
  let h : Header :=
    { wait := w.extractLsb' 0 12, aflag := (w.extractLsb' 12 4).toNat, avalid := w.getLsbD 16,
      bflag := (w.extractLsb' 17 4).toNat, bvalid := w.getLsbD 21, count := (w.extractLsb' 22 4).toNat,
      re := w.getLsbD 26, yld := w.getLsbD 27 }
  if w.extractLsb' 28 34 ≠ 0 ∨ h.count = 0 ∨ 11 < h.aflag ∨ 11 < h.bflag ∨ (h.avalid = false ∧ h.aflag ≠ 0) ∨
      (h.bvalid = false ∧ h.bflag ≠ 0) then none
  else some h

/-- The word of a clause header. -/
def Header.word (h : Header) : DWord :=
  2#2 ++ 0#34 ++ BitVec.ofBool h.yld ++ BitVec.ofBool h.re ++ BitVec.ofNat 4 h.count ++ BitVec.ofBool h.bvalid ++
    BitVec.ofNat 4 h.bflag ++ BitVec.ofBool h.avalid ++ BitVec.ofNat 4 h.aflag ++ h.wait

/-! ## The encoder -/

/-- The fields of a `ctlget` (R249). -/
def Ctl.rawGet (c : Ctl) (d : Dst) (r : CtlReg) : Raw := c.raw 0x211 d.code (BitVec.ofNat 10 r.code) 0 0 0

/-- The fields of a `ctlset` (R249). -/
def Ctl.rawSet (c : Ctl) (r : CtlReg) : Src → Raw
  | .reg a => c.raw 0x212 (BitVec.ofNat 10 r.code) a.code 0 0 0
  | .imm w => c.rawImm 0x212 (BitVec.ofNat 10 r.code) 0 w 1

/-- The fields of the full word of an instruction; none for a step of another agent, and for the words that are not
full words. -/
def encodeRaw : Instr → Option Raw
  | .iadd c d a b sat => some (c.rawSrc 0x000 d.code a.code b false sat)
  | .isub c d a b sat => some (c.rawSrc 0x001 d.code a.code b false sat)
  | .imul c d a b => some (c.rawSrc 0x002 d.code a.code b false false)
  | .imulh c d a b u => some (c.rawSrc 0x003 d.code a.code b false u)
  | .imad c d a b e hi u => some (c.raw 0x004 d.code a.code b.code e.code (mod3 u hi false))
  | .imin c d a b u => some (c.rawSrc 0x005 d.code a.code b false u)
  | .imax c d a b u => some (c.rawSrc 0x006 d.code a.code b false u)
  | .iabs c d a sat => some (c.raw 0x007 d.code a.code 0 0 (mod3 false sat false))
  | .ineg c d a sat => some (c.raw 0x008 d.code a.code 0 0 (mod3 false sat false))
  | .idiv c d a b u => some (c.rawSrc 0x009 d.code a.code b false u)
  | .irem c d a b u => some (c.rawSrc 0x00A d.code a.code b false u)
  | .and c d a b => some (c.rawSrc 0x00B d.code a.code b false false)
  | .or c d a b => some (c.rawSrc 0x00C d.code a.code b false false)
  | .xor c d a b => some (c.rawSrc 0x00D d.code a.code b false false)
  | .andn c d a b => some (c.rawSrc 0x00E d.code a.code b false false)
  | .shl c d a b => some (c.rawSrc 0x010 d.code a.code b false false)
  | .shr c d a b => some (c.rawSrc 0x011 d.code a.code b false false)
  | .sar c d a b => some (c.rawSrc 0x012 d.code a.code b false false)
  | .rot c d a b => some (c.rawSrc 0x013 d.code a.code b false false)
  | .not c d a => some (c.raw 0x00F d.code a.code 0 0 0)
  | .popc c d a => some (c.raw 0x014 d.code a.code 0 0 0)
  | .clz c d a => some (c.raw 0x015 d.code a.code 0 0 0)
  | .brev c d a => some (c.raw 0x016 d.code a.code 0 0 0)
  | .mov c d a => some (c.raw 0x01B d.code a.code 0 0 0)
  | .fsqrt c d a => some (c.raw 0x047 d.code a.code 0 0 0)
  | .frcp c d a => some (c.raw 0x048 d.code a.code 0 0 0)
  | .frsq c d a => some (c.raw 0x049 d.code a.code 0 0 0)
  | .fexp2 c d a => some (c.raw 0x04A d.code a.code 0 0 0)
  | .flog2 c d a => some (c.raw 0x04B d.code a.code 0 0 0)
  | .fsin c d a => some (c.raw 0x04C d.code a.code 0 0 0)
  | .fcos c d a => some (c.raw 0x04D d.code a.code 0 0 0)
  | .fint c d a => some (c.raw 0x050 d.code a.code 0 0 0)
  | .digits c d a => some (c.raw 0x060 d.code a.code 0 0 0)
  | .spread c d a => some (c.raw 0x061 d.code a.code 0 0 0)
  | .mean c d a => some (c.raw 0x062 d.code a.code 0 0 0)
  | .bfx c d a b sgn => some (c.rawSrc 0x017 d.code a.code b false sgn)
  | .bfi c d a (.regs b e) => some (c.raw 0x018 d.code a.code b.code e.code 0)
  | .bfi c d a (.imm w) => some (c.rawImm 0x018 d.code a.code w 1)
  | .icmp c p cc a b => some (c.raw 0x019 (0#6 ++ BitVec.ofBool b.isImm ++ p) a.code b.bits.1 b.bits.2 (BitVec.ofNat 3 cc.code))
  | .sel c d a b p n => some (c.raw 0x01A d.code a.code b.code (predNegCode p n) 0)
  | .movi c d w z => some (c.rawImm 0x01C d.code 0 w (mod3 false false z))
  | .movh c d w => some (c.rawImm 0x01D d.code 0 (0#4 ++ w) 0)
  | .ldlit c d w none => some (c.rawImm 0x01E d.code 0 w 0)
  | .ldlit c d w (some a) => some (c.rawImm 0x01E d.code a.code w 1)
  | .lea c d a b sh => some (c.raw 0x01F d.code a.code b.bits.1 b.bits.2 (sh ++ BitVec.ofBool b.isImm))
  | .iaddc c d a b ci co cin sub => some (c.raw 0x020 d.code a.code b.code (0#3 ++ co ++ 0#1 ++ ci) (mod3 sub cin false))
  | .prmt c d a (.regs b e) => some (c.raw 0x021 d.code a.code b.code e.code 0)
  | .prmt c d a (.imm w) => some (c.rawImm 0x021 d.code a.code w 1)
  | .cvt c d a dest frm e => some (c.raw 0x030 d.code a.code (typesCode dest frm) 0 (0#1 ++ e))
  | .cvtpk c d a b dest frm h => some (c.raw 0x031 d.code a.code b.code (typesCode dest frm) (mod3 false false h))
  | .unpk c d a dest frm h => some (c.raw 0x032 (vCode d) a.code (typesCode dest frm) 0 (mod3 false false h))
  | .fadd c d a b => some (c.rawSrc 0x040 d.code a.code b false false)
  | .fsub c d a b => some (c.rawSrc 0x041 d.code a.code b false false)
  | .fmul c d a b => some (c.rawSrc 0x042 d.code a.code b false false)
  | .fmin c d a b => some (c.rawSrc 0x044 d.code a.code b false false)
  | .fmax c d a b => some (c.rawSrc 0x045 d.code a.code b false false)
  | .fscale c d a b => some (c.rawSrc 0x051 d.code a.code b false false)
  | .fma c d a b e np nc => some (c.raw 0x043 d.code a.code b.code e.code (mod3 nc np false))
  | .fdiv c d a b => some (c.raw 0x046 d.code a.code b.code 0 0)
  | .fcmp c p cc a b => some (c.raw 0x04E (0#6 ++ BitVec.ofBool b.isImm ++ p) a.code b.bits.1 b.bits.2 (BitVec.ofNat 3 cc.code))
  | .fclass c (.word d) a => some (c.raw 0x04F d.code a.code 0 0 0)
  | .fclass c (.pred p m) a => some (c.raw 0x04F (0#7 ++ p) a.code 0 m 1)
  | .hadd2 c d a b e16 => some (c.raw 0x052 d.code a.code b.code 0 (mod3 false false e16))
  | .hmul2 c d a b e16 => some (c.raw 0x053 d.code a.code b.code 0 (mod3 false false e16))
  | .hfma2 c d a b e e16 => some (c.raw 0x054 d.code a.code b.code e.code (mod3 false false e16))
  | .sibget c d a j => some (c.raw 0x063 d.code a.code 0 0 (0#1 ++ j))
  | .sibset c d a b e => some (c.raw 0x064 d.code a.code b.code e.code 0)
  | .draw c d k => some (c.raw 0x065 d.code 0 0 0 (mod3 false false k))
  | .rnd c d k => some (c.raw 0x066 d.code 0 0 0 (mod3 false false k))
  | .maskgen c d a b e => some (c.raw 0x067 d.code a.code b.code e.code 0)
  | .istat c d k => some (c.raw 0x068 d.code 0 0 0 (mod3 false false k))
  | .iclr c m => some (c.rawImm 0x069 0 0 m 0)
  | .exact c d a b k => some (c.raw 0x06A d.code a.code b.code 0 (mod3 false false k))
  | .bra c w => some (c.rawImm 0x100 0 0 w 0)
  | .jmp c a => some (c.raw 0x101 0 a.code 0 0 0)
  | .call c w => some (c.rawImm 0x102 0 0 w 0)
  | .callr c a => some (c.raw 0x103 0 a.code 0 0 0)
  | .ret c => some (c.raw 0x104 0 0 0 0 0)
  | .exit c => some (c.raw 0x105 0 0 0 0 0)
  | .trap c n => some (c.rawImm 0x106 0 0 (0#4 ++ n) 0)
  | .brk c => some (c.raw 0x107 0 0 0 0 0)
  | .nop c => some (c.raw 0x108 0 0 0 0 0)
  | .yield c => some (c.raw 0x109 0 0 0 0 0)
  | .tret c => some (c.raw 0x10A 0 0 0 0 0)
  | .join c k => some (c.raw 0x180 0 (BitVec.ofNat 10 k) 0 0 0)
  | .leave c k => some (c.raw 0x181 0 (BitVec.ofNat 10 k) 0 0 0)
  | .wait c k => some (c.raw 0x182 0 (BitVec.ofNat 10 k) 0 0 0)
  | .mset c k a => some (c.raw 0x183 (BitVec.ofNat 10 k) a.code 0 0 0)
  | .mget c d k => some (c.raw 0x184 d.code (BitVec.ofNat 10 k) 0 0 0)
  | .vote c m p ps n => some (c.raw 0x185 (0#7 ++ p) (predNegCode ps n) 0 0 (BitVec.ofNat 3 m.code))
  | .ballot c d ps n thr => some (c.raw 0x186 d.code (predNegCode ps n) 0 0 (mod3 false false thr))
  | .shfl c m d a b => some (c.raw 0x187 (vCode d) (vCode a) b.bits.1 b.bits.2 (BitVec.ofNat 2 m.code ++ BitVec.ofBool b.isImm))
  | .bfly c v w m m2 dc => some (c.raw 0x188 (vCode v) (0#1 ++ w ++ m2 ++ m) 0 0 dc)
  | .redux c op ty u d a => some (c.raw 0x189 d.code (vCode a) (0#5 ++ BitVec.ofBool u ++ BitVec.ofNat 4 ty.code) 0 (BitVec.ofNat 3 op.code))
  | .elect c p => some (c.raw 0x18A (0#7 ++ p) 0 0 0 0)
  | .gcall c host fn a => some (c.rawImm 0x18B 0 (vCode a) (0#3 ++ BitVec.ofBool host ++ fn) 0)
  | .gret c d => some (c.raw 0x18C (vCode d) 0 0 0 0)
  | .cflag c m f n => some (c.rawImm 0x18D 0 (BitVec.ofNat 10 f) (0#14 ++ n) (BitVec.ofNat 3 m.code))
  | .ld c m => some (c.rawMem 0x200 m 0)
  | .st c m => some (c.rawMem 0x201 m 0)
  | .ldx c m => some (c.rawMem 0x202 m 0)
  | .stx c m => some (c.rawMem 0x203 m 0)
  | .adjld c m => some (c.rawMem 0x310 m 0)
  | .adjclr c m => some (c.rawMem 0x311 m 0)
  | .push c a n => some (c.raw 0x204 0 (vCode a) 0 0 n)
  | .pop c d n => some (c.raw 0x205 (vCode d) 0 0 0 n)
  | .atom c d a b op ty => some (c.raw 0x206 (vzCode d) a.code b.code (atomCode op ty false) 0)
  | .fence c k sc => some (c.raw 0x207 0 0 0 (BitVec.ofNat 10 k.code) (BitVec.ofNat 3 sc.code))
  | .ldacq c m sc => some (c.rawMem 0x208 m (BitVec.ofNat 3 sc.code))
  | .strel c m sc => some (c.rawMem 0x209 m (BitVec.ofNat 3 sc.code))
  | .acqrem c m sc => some (c.rawMem 0x20A m (BitVec.ofNat 3 sc.code))
  | .barinit c a b => some (c.rawSrc 0x20B 0 a.code b false false)
  | .bararr c d a => some (c.raw 0x20C (vCode d) a.code 0 0 0)
  | .barwait c a b done => some (c.rawSrc 0x20D 0 a.code b false done)
  | .barsync c a => some (c.raw 0x20E 0 a.code 0 0 0)
  | .bardrop c a b => some (c.rawSrc 0x20F 0 a.code b false false)
  | .pref c m ex => some (c.rawMem 0x210 m (mod3 false false ex))
  | .ctlget c d r => some (c.rawGet d r)
  | .ctlset c r b => some (c.rawSet r b)
  | .drawctrWrite c b => some (c.rawSet .drawctr b)
  | .trappcWrite c b => some (c.rawSet .trappc b)
  | .handlerWrite c b => some (c.rawSet .handler b)
  | .dstackWrite c b => some (c.rawSet .dstack b)
  | .tapeposWrite c b => some (c.rawSet .tapepos b)
  | .tapecapWrite c b => some (c.rawSet .tapecap b)
  | .carveWrite c b => some (c.rawSet .carve b)
  | .sptrootWrite c b => some (c.rawSet .sptroot b)
  | .qfreeWrite c b => some (c.rawSet .qfree b)
  | .bivsizeWrite c b => some (c.rawSet .bivsize b)
  | .tsctlWrite c b => some (c.rawSet .tsctl b)
  | .energyloWrite c b => some (c.rawSet .energylo b)
  | .energyhiWrite c b => some (c.rawSet .energyhi b)
  | .dbgctlWrite c b => some (c.rawSet .dbgctl b)
  | .qtakeRead c d => some (c.rawGet d .qtake)
  | .resid0Read c d => some (c.rawGet d .resid0)
  | .eret c => some (c.raw 0x3C0 0 0 0 0 0)
  | .eretRegion c => some (c.raw 0x3C0 0 0 0 0 1)
  | .eretEpc c => some (c.raw 0x3C0 0 0 0 0 2)
  | .mma c q a desc tA tB tAcc tRes => some (c.rawImm 0x280 (BitVec.ofNat 5 q ++ BitVec.ofNat 5 desc) (vCode a) (tA ++ tB ++ tAcc ++ tRes ++ 0#4) 0)
  | .qdecl c q b => some (c.rawSrc 0x281 (BitVec.ofNat 10 q) 0 b false false)
  | .accrd c d vc t run => some (c.raw 0x282 (vCode d) (vCode vc) 0 (BitVec.ofNat 10 t) (0#1 ++ run))
  | .acczero c t => some (c.raw 0x283 0 0 0 (BitVec.ofNat 10 t) 0)
  | .accst c d a t run => some (c.raw 0x284 (vCode d) (vCode a) 0 (BitVec.ofNat 10 t) (run ++ 0#1))
  | .accstSh c a b t triple => some (c.raw 0x284 0 a.code b.code (BitVec.ofNat 10 t) (mod3 false triple true))
  | .accwait c t => some (c.raw 0x285 0 0 0 (BitVec.ofNat 10 t) 0)
  | .lanttake c a len => some (c.raw 0x286 0 (Opd.s a).code 0 0 len)
  | .lantpass c => some (c.raw 0x287 0 0 0 0 0)
  | .lantpassRel c => some (c.raw 0x287 0 0 0 0 1)
  | .ratom c d a b op ty adj far => some (c.raw 0x288 (vzCode d) a.code b.code (atomCode op ty adj) (mod3 false false far))
  | .rred c a b op ty adj far => some (c.raw 0x289 0 a.code b.code (atomCode op ty adj) (mod3 false false far))
  | .rcas c d a b ty adj far => some (c.raw 0x28A (vCode d) a.code b.code (atomCode .add ty adj) (mod3 false false far))
  | .svrecv c d p wt => some (c.raw 0x3C1 (vCode d) 0 0 (0#7 ++ p) (mod3 false false wt))
  | .svreply c a b => some (c.raw 0x3C2 0 (vCode a) (vCode b) 0 0)
  | .cpy c a => some (c.raw 0x300 0 a.code 0 0 0)
  | .cpysus c a => some (c.raw 0x302 0 a.code 0 0 0)
  | .cpyres c a => some (c.raw 0x303 0 a.code 0 0 0)
  | .gwait c a => some (c.raw 0x305 0 a.code 0 0 0)
  | .lwait c a => some (c.raw 0x307 0 a.code 0 0 0)
  | .tapedrop c a => some (c.raw 0x30F 0 a.code 0 0 0)
  | .qclose c a => some (c.raw 0x314 0 a.code 0 0 0)
  | .qwait c a => some (c.raw 0x3C9 0 a.code 0 0 0)
  | .cpyst c d a => some (c.raw 0x301 d.code a.code 0 0 0)
  | .gpost c d a p => some (c.raw 0x304 d.code a.code 0 (0#7 ++ p) 0)
  | .launch c d a p => some (c.raw 0x306 d.code a.code 0 (0#7 ++ p) 0)
  | .spawn c d a p => some (c.raw 0x308 d.code a.code 0 (0#7 ++ p) 0)
  | .lsweep c d a p => some (c.raw 0x381 d.code a.code 0 (0#7 ++ p) 0)
  | .gainadd c a b ch => some (c.rawSrc 0x309 0 a.code b false ch)
  | .gainset c a b ch => some (c.rawSrc 0x30A 0 a.code b false ch)
  | .gainget c d a what ch => some (c.raw 0x30B d.code a.code 0 0 (BitVec.ofNat 2 what.code ++ BitVec.ofBool ch))
  | .residget c d ch => some (c.raw 0x315 d.code 0 0 0 (mod3 false false ch))
  | .taskdone c (.reg a) => some (c.raw 0x30C 0 a.code 0 0 0)
  | .taskdone c (.imm w) => some (c.rawImm 0x30C 0 0 w 1)
  | .dmodeFwd c => some (c.raw 0x30D 0 0 0 0 0)
  | .dmodeRev c => some (c.raw 0x30D 0 0 0 0 1)
  | .tapemark c d => some (c.raw 0x30E d.code 0 0 0 0)
  | .qpush c a b => some (c.raw 0x312 0 a.code b.code 0 0)
  | .qpop c d a p => some (c.raw 0x313 (vCode d) a.code 0 (0#7 ++ p) 0)
  | .tlbinv c a => some (c.raw 0x3C3 0 a.code 0 0 0)
  | .tlbinvCtx c => some (c.raw 0x3C3 0 0 0 0 1)
  | .tlbinvAll c => some (c.raw 0x3C3 0 0 0 0 2)
  | .lpush c a p => some (c.raw 0x380 0 a.code 0 (0#7 ++ p) 0)
  | .ckmark c a p => some (c.raw 0x3C4 0 a.code 0 (0#7 ++ p) 0)
  | .preempt c d a b => some (c.raw 0x3C5 d.code a.code b.code 0 0)
  | .halt c a => some (c.raw 0x3C6 0 a.code 0 0 0)
  | .haltKeep c a => some (c.raw 0x3C6 0 a.code 0 0 1)
  | .enrd c d => some (c.raw 0x383 d.code 0 0 0 0)
  | .enrdClr c d => some (c.raw 0x383 d.code 0 0 0 1)
  | .trace c a id => some (c.rawImm 0x382 0 a.code (0#4 ++ id) 0)
  | .wpset c n a => some (c.raw 0x3C7 (0#8 ++ n) (vCode a) 0 0 0)
  | .keysetPlain c a => some (c.raw 0x3C8 0 a.code 0 0 0)
  | .keysetLoad c a b => some (c.raw 0x3C8 0 a.code (vCode b) 0 1)
  | .keysetGen c a => some (c.raw 0x3C8 0 a.code 0 0 2)
  | .gcallReply _ _ => none
  | .gcallRingEntry => none
  | .hangWatchdog _ _ => none
  | .signsetPendingEntry _ _ _ => none
  | .matrixPassStart _ _ => none
  | .matrixKstep _ _ => none
  | .matrixPartResume _ _ _ => none
  | .remoteRequestEnqueue _ _ => none
  | .remoteReply _ _ => none
  | .copyChunk _ _ => none
  | .copyFaultResume _ _ => none
  | .graphNodeFinish _ _ => none
  | .hostLaunch _ _ => none
  | .blockPlace _ _ => none
  | .gridRetire _ => none
  | .runtimeEndLaunch _ _ => none
  | .heapDispatch _ _ => none
  | .heapOverflowEntry _ _ => none
  | .residPartExchange _ _ => none
  | .qepochAdvance _ => none
  | .translationWalkComplete _ => none
  | .sliceLineRequest _ _ => none
  | .lineArrival _ _ => none
  | .parkedLineHoldExpiry _ _ => none
  | .longLatencyComplete _ _ => none
  | .gReplicaUpdate _ _ => none
  | .activeSetEntry _ => none
  | .activeSetIdleLeave _ => none
  | .activeSetDisplace _ _ => none
  | .yieldHoldExpiry _ _ => none
  | .lsweepNextStart _ => none
  | .bivouacSaveEnd _ => none
  | .blockResume _ => none
  | .timeSliceExpiry _ _ => none
  | .sliceTransferEnd _ _ => none
  | .checkpointDrainPage _ => none
  | .energyTick _ _ => none
  | .traceDrain _ _ => none
  | .powerGate _ _ => none
  | .powerWake _ _ => none
  | .functionFence _ => none
  | .thermalLimit _ _ => none
  | .priroFlitReceive _ _ => none
  | .boot _ => none
  | .gWriteHomeArrival _ => none
  | .sharedPortionAccessArrival _ => none
  | .heapOperationArrival _ _ => none
  | .firmwareReinitialisation _ => none
  | .powerLoss => none
  | .pairedWord _ _ => none
  | .unassignedOpcodeWord _ => none

/-- The word of an instruction; none for a step of another agent, which has no word. -/
def encode (i : Instr) : Option DWord :=
  match i with
  | .pairedWord h1 h2 => some (1#2 ++ h1.bits ++ h2.bits)
  | .unassignedOpcodeWord w => some w
  | i => (encodeRaw i).map Raw.word

end Sys2Proof
end

