-- ==== Sys2Proof/Machine/State.lean ====
section
/-! DEFINITION. The state of the machine: every piece of state the spec names, as plain data, and `State.reset`. The
reset values that the spec does not give are named in the assumption log (1 to 10). -/

namespace Sys2Proof.Machine

/-- Why the machine stops. -/
inductive Fault where
  /-- Raised by `step` alone: power is lost and nothing runs (R442, R443). Safe: a machine without power has no next
  state. -/
  | poweredOff
deriving DecidableEq, Repr

/-- Why an instruction has no meaning. -/
inductive Refusal where
  /-- Raised by an arm of `exec` for an instruction that the model has not reached. Safe: nothing is claimed of it. -/
  | notModelled (mnemonic : String)
deriving DecidableEq, Repr

/-! ## Memory -/

/-- Bytes by address, strictly rising, without an entry that equals what an unlisted address reads as. -/
abbrev Mem := List Host.Cell

/-- What a byte that nothing has written reads as: 0 (log 1). -/
def Mem.blank : Byte := 0

/-- The canonical form of a memory. -/
abbrev Mem.wf (m : Mem) : Prop := List.Pairwise (fun a b => a.1 < b.1) m ∧ ∀ c ∈ m, c.2 ≠ Mem.blank

/-! ## The thread (02, 06) -/

/-- The issue states of Table 7.2. HELD is computed from the handler mode of the warp's other threads and the held
bit. -/
inductive ThState where
  | eligible | stalled | waiting | parked | ended
deriving DecidableEq, Repr

/-- Where a thread stands in its clause, with the clause's flags (R74, R79). Position 0 is a header not begun. -/
structure Clause where
  pos : Nat
  count : Nat
  aflag : Nat
  avalid : Bool
  bflag : Nat
  bvalid : Bool
deriving DecidableEq, Repr

/-- A thread that stands at a header. -/
def Clause.none : Clause := { pos := 0, count := 0, aflag := 0, avalid := false, bflag := 0, bvalid := false }

/-- One view's trap registers (Tables 6.4, 6.6, 6.8). -/
structure TrapRegs where
  info : Word
  pc : Word
  opa : Triple
  opb : Triple
  opc : Triple
  res : Triple
  addr : Addr
deriving DecidableEq, Repr

def TrapRegs.zero : TrapRegs :=
  { info := 0, pc := 0, opa := .all 0, opb := .all 0, opc := .all 0, res := .all 0, addr := 0 }

/-- A trap record as it will be written (R161, R162). -/
structure TrapRec where
  code : Nat
  sub : Nat
  arg : BitVec 16
  half : Bool
  pos : Nat
  pc : Addr
  opa : Triple
  opb : Triple
  opc : Triple
  res : Triple
  addr : Addr
deriving DecidableEq, Repr

/-- What entry to the user handler saves (R158), with the traps still due on return (R181). -/
structure HandlerSave where
  pc : Addr
  cl : Clause
  c : Word
  regionPc : Word
  shC : Word
  shIstat : BitVec 4
  due : List TrapRec
deriving DecidableEq, Repr

/-- What entry to the runtime or the debugger saves (R251). -/
structure RuntimeSave where
  pc : Addr
  cl : Clause
  due : List TrapRec
deriving DecidableEq, Repr

/-- A stream-queue access that waits at its header's home (R332). -/
inductive QOp where
  | push (lo hi : Word)
  | pop (d : Nat) (p : BitVec 3)
deriving DecidableEq, Repr

/-- What holds a word back before it issues, for one thread of its group (R170). -/
inductive Hold where
  /-- A long-latency word whose flag stands at 63 (R76); a `cflag` inc that does not fit (R200). -/
  | flagRoom (f n : Nat)
  /-- A transfer while an earlier memory instruction may still fault (R152). -/
  | faults
  /-- A release while an earlier access is not performed (R343). -/
  | settled
  /-- `exit` and `taskdone` until the long-latency instructions of the thread, or of the warp, have completed (R153, R397). -/
  | drained (all : Bool)
  /-- A remote request for which its core has no room (R282). -/
  | room (n : Nat)
  /-- Physical lines that a copy claims or a service warp holds (R312, R320), and, for a write, lines held in a core
  cache for a parked thread (R178). -/
  | lines (wr : Bool) (lines : List Nat)
  /-- Likewise of the lines that a heap or graph unit would access for the word (R349). -/
  | unit (wr : Bool) (lines : List Nat)
  /-- A heap operation of the thread that is still carried to another die (R408). -/
  | heapOps
  /-- An access that follows an acquire whose reads are not all performed (R343). -/
  | acquire
  /-- `gcall` before the reply buffer is free (R202). -/
  | gcallBuf
deriving DecidableEq, Repr

/-- What a thread that does not issue waits for (R170 and the entries of the instructions that may wait). -/
inductive Wait where
  /-- A word that cannot issue yet: its group waits until every hold of its threads, by index, is over. -/
  | held (on : List (Nat × Hold))
  /-- `wait k` (R191). -/
  | mask (k : Nat)
  /-- A barrier wait at an offset of block shared memory for Passed(PHASE, target), with the cycle its watchdog
  count started from and the PHASE last seen (R222, R225). -/
  | barrier (off : Nat) (target : BitVec 16) (since : Nat) (seen : BitVec 16)
  /-- A `barsync` whose arrival is on its way to another core (R221, R227). -/
  | arriving (off : Nat)
  /-- `gret` before the reply, with the register that the word goes to (R203). -/
  | gret (d : Nat)
  /-- `qdecl` of a register that another block owns: its count, the number of the issue, and the word with its clause
  fields (R265, R287). -/
  | qdecl (q count stamp : Nat) (pc : Addr) (cl : Clause)
  /-- `lanttake` while the lantern is held: the ring, the number of the issue, and the word with its clause fields
  (R274). -/
  | lantern (ring : List Nat) (stamp : Nat) (pc : Addr) (cl : Clause)
  /-- `gwait`, `lwait` (R391, R393). -/
  | node (handle : Word)
  | grid (handle : Word)
  /-- `qpush`, `qpop`: the order of arrival, the header's offset, the access, and the word with its clause fields
  (R332). -/
  | queue (stamp off : Nat) (op : QOp) (pc : Addr) (cl : Clause)
  /-- `qwait` (R403). -/
  | epoch (e : Word)
  /-- `preempt` and `halt` until the cores are free (R421, R427). -/
  | vacate (saveId : Nat) (d : Dst)
  | ending (tag : BitVec 12)
  /-- A header whose WAIT names flags that are not zero (R77). -/
  | header (mask : BitVec 12)
  /-- The sectors, by system physical address / 32, that a parked thread's load fetches (R178). -/
  | fetch (sectors : List Nat)
  /-- The result of a long-latency instruction whose trap is enabled (R471). -/
  | result (pid : Nat)
deriving DecidableEq, Repr

/-- One thread (Table 2.1 and the tables of 06, 10, 18, 19). -/
structure Thread where
  idx : Nat
  pc : Addr
  cl : Clause
  st : ThState
  age : Nat
  v : List Triple
  p : List (BitVec 3)
  c : Word
  istat : BitVec 4
  imask : BitVec 3
  cancelth : BitVec 5
  fpstat : BitVec 5
  fpmask : BitVec 5
  rs : List Addr
  rsp : Nat
  dsp : Nat
  handler : Word
  trap : TrapRegs
  strap : TrapRegs
  trappcWritten : Bool
  regionPc : Word
  shC : Word
  shIstat : BitVec 4
  inHandler : Option HandlerSave
  super : Bool
  owner : BitVec 12
  runtime : Option RuntimeSave
  epc : Word
  rev : Bool
  tapepos : Nat
  tapecap : Nat
  cpylast : Word
  clockhi : Word
  residLatch : Option (Word × Word)
  carveCore : BitVec 8
  wait : Option Wait
  /-- The word at which the thread passes breakpoints and watchpoints once (R444). -/
  passOnce : Bool
  /-- Traps of words already issued, taken before the thread's next word: the step trap (R181), and a trap that waits
  for a long-latency result (R471). -/
  due : List TrapRec
  /-- Poisoned copies of vector registers: 3 × register + sibling (R439). -/
  poison : List Nat
  /-- The outstanding split load that the thread issues again (R178). -/
  split : Option Nat
deriving DecidableEq, Repr

/-! ## The warp (07, 08) -/

/-- A register of a thread that an outstanding long-latency instruction will write, and its result. -/
structure Part where
  thr : Nat
  reg : Nat
  val : Triple
deriving DecidableEq, Repr

/-- When an outstanding long-latency instruction may complete. -/
inductive Until where
  /-- Its result stands; completion may come at any step. -/
  | ready
  /-- Its accesses were not all made at the issue: it is ready when no thread is parked for it (R178), no access is
  carried to another core for it (R227) and no remote request for it is without a reply (R284). -/
  | parts
  /-- Copies of its issue that are not DONE or FAILED (R385), as (die, slot). -/
  | copies (cs : List (Nat × Nat))
  /-- Copies that must reach a chunk boundary (R388). -/
  | stopped (cs : List (Nat × Nat))
  /-- The acknowledgement of a promotion: threads, as (warp, thread), with an access that is not performed (R245). -/
  | promoted (ts : List (Nat × Nat))
  /-- A matrix operation or an entry of a handle order, by its number (R268, R297). -/
  | matrix (n : Nat)
  /-- The reply of a `gcall` (R201). -/
  | gcall
  /-- At least one request in the slice's queue, with the destinations of `svrecv` (R303). -/
  | request (d : Nat) (p : BitVec 3)
deriving DecidableEq, Repr

/-- A register-cache entry, most recent first (R176). -/
structure RcEntry where
  reg : Nat
  dirty : Bool
  hold : Bool
deriving DecidableEq, Repr

/-- What a sampled memory instruction will report (R447, Table 23.3). -/
structure Sample where
  thr : Nat
  pc : Addr
  active : Nat
  sectors : Nat
  reissues : Nat
deriving DecidableEq, Repr

/-- An outstanding long-latency instruction (R76). -/
structure Pend where
  id : Nat
  flag : Nat
  wait : Until
  parts : List Part
  /-- Results for uniform and block registers: (key, value). -/
  sparts : List (Nat × Word)
  /-- Results for predicates: (thread, predicate, bits) (R303). -/
  preds : List (Nat × BitVec 3 × BitVec 3)
  /-- Threads it serves. -/
  thrs : List Nat
  /-- The epoch in which its scratchpad address was translated (R317). -/
  epoch : Option Word
  sample : Option Sample
  /-- The traps, by thread, that it raises when its flag falls where it has met poison (R292). -/
  traps : List (Nat × TrapRec) := []
  poisoned : Bool := false
  /-- Registers that other instructions have written since its issue (R78): v registers as (thread, register), uniform
  and block registers by key. -/
  written : List (Nat × Nat) := []
  writtenS : List Nat := []
  /-- Threads whose later accesses follow its reads: it is an acquire, or stands before one (R243, R343). -/
  acq : List Nat := []
deriving DecidableEq, Repr

/-- The reply buffer of a warp (R202). -/
structure GcallBuf where
  thrs : List Nat
  consumed : List Nat
  words : Option (List Word)
  route : Option DWord
deriving DecidableEq, Repr

/-- One warp (Table 7.1, 07, 08). -/
structure Warp where
  wid : Nat
  bid : Nat
  index : Nat
  die : Nat
  core : Nat
  rank : Nat
  slot : Nat
  /-- A service warp stands outside the warp slots (R280). -/
  service : Bool
  placed : Nat
  threads : List Thread
  vregs : Nat
  s : List Word
  k : List (BitVec 24)
  flags : List Nat
  step : Bool
  held : Bool
  wissue : Word
  wbeat : Word
  wunif : Word
  wsplit : Word
  utag : List Bool
  rcache : List RcEntry
  gcall : Option GcallBuf
  pend : List Pend
  spill : Mem
  /-- Poisoned 32-byte sectors of the spill window (R439). -/
  spillPoison : List Nat
  active : Bool
  /-- The cycle since which an active warp has not been ready (R174). -/
  idleSince : Option Nat
  /-- Groups held back by `yield`: threads, until cycle, and the warps still to issue (R155). -/
  yields : List (List Nat × Nat × List Nat)
  /-- Saved in the bivouac area (R422). -/
  saved : Bool
deriving DecidableEq, Repr

/-! ## Blocks and grids (09, 16, 18, 22) -/

/-- A write of a g register on its way (R218). -/
structure GWrite where
  rank : Nat
  slot : Nat
  reg : Nat
  val : Word
  /-- The cycle of its issue (R219). -/
  since : Nat
deriving DecidableEq, Repr

/-- The operand of an atomic: the siblings of its register and, for 64 bits, the second register's word; the compare
value likewise; and the direction of each sibling's add. -/
structure AtomArgs where
  b : Triple
  bHi : Word
  cv : Triple
  cvHi : Word
  dirs : List Rnd
deriving DecidableEq, Repr

/-- What an access does to block shared memory at the core that holds the portion (R227). -/
inductive PortionOp where
  | store (bytes : List Byte)
  | load (width : Width) (raw : Bool)
  | atom (op : AtomOp) (ty : AtomTy) (x : AtomArgs)
  | arrive (wait : Bool)
  | drop (n : Nat)
  | init (count : Nat)
  /-- A barrier wait until a phase has passed. -/
  | await (target : BitVec 16)
deriving DecidableEq, Repr

/-- An access to block shared memory, carried where it goes to another rank's portion. -/
structure PortionAcc where
  wid : Nat
  thr : Nat
  /-- Its place in the key order of R218, and the number of its warp's issue. -/
  key : Nat
  issue : Word
  /-- The IEEE trap that it raises where it meets a signalling NaN and the flag's trap is enabled (R133, R240). -/
  trap : Option TrapRec
  pid : Option Nat
  dest : Option Opd
  off : Nat
  op : PortionOp
deriving DecidableEq, Repr

/-- One block or task (09, 13). -/
structure Block where
  bid : Nat
  gid : Nat
  linear : Nat
  die : Nat
  /-- The core of each rank (R214). -/
  cores : List Nat
  triple : Bool
  shBytes : Nat
  shared : Mem
  /-- Offsets of the barrier objects that barrier instructions have named (R220, R226). -/
  bars : List Nat
  /-- Poisoned 32-byte sectors of block shared memory (R439). -/
  shPoison : List Nat
  g : List Word
  greps : List (Nat × List Word)
  gflight : List GWrite
  gupdates : List (Nat × GWrite)
  portions : List PortionAcc
  mopcnt : Word
  hcount : Nat
  /-- Engine slots of t0 to t(n-1), as (cluster, slot) (R261). -/
  handles : List (Nat × Nat)
  /-- The warp that waits for the lantern again after a resume, with its ring (R278). -/
  lanternAgain : Option (Nat × List Nat)
  wids : List Nat
  /-- Order of saving, bytes saved, and whether kept for inspection (R424, R425, R427). -/
  saveId : Option Nat
  saveBytes : Nat
  kept : Bool
  /-- The watchdog of a barrier wait has fired and the warps are stopped (R225). -/
  hung : Bool
  task : Option Nat
  /-- The cycle and the key of the last word or arrival that the key order of R218 places. -/
  lastKey : Option (Nat × Nat) := none
  /-- For each g register, the cycle and the key of the last write at the home (R218). -/
  gLast : List (Nat × Nat × Nat) := []
  /-- The lines of the bivouac area that hold its saved state (R424). -/
  saveLines : List Nat := []
deriving DecidableEq, Repr

/-- A launch record, field by field (Table 22.1). -/
structure Record where
  gain : Bool
  triple : Bool
  prio : Nat
  curve : Nat
  group : Nat
  hcount : Nat
  spillK : Nat
  dies : BitVec 4
  imask : BitVec 3
  tableLen : Nat
  table : Nat
  seed : DWord
  entry : Word
  codeHi : BitVec 16
  handler : Word
  x : Nat
  y : Nat
  z : Nat
  bx : Nat
  by' : Nat
  bz : Nat
  taskBase : Nat
  taskCnt : Nat
  maxLive : Nat
  tol : Word
  regs : Nat
  uregs : Nat
  shared : Nat
  tapeBase : Word
  tapeStride : Word
  tapeCap : Nat
deriving DecidableEq, Repr

/-- The states of a task (Table 18.5). -/
inductive TaskSt where
  | idle | queued | running | retired
deriving DecidableEq, Repr

/-- What the heap unit holds of a task (R370, R372). -/
structure Task where
  n : Nat
  gain : Word
  pend : Word
  st : TaskSt
  bin : Nat
  stamp : Nat
  /-- Queued but waiting for heap room (R374). -/
  overflowed : Bool
deriving DecidableEq, Repr

/-- A heap operation carried from another die (R380). -/
structure HeapOp where
  n : Nat
  /-- 0 `gainadd`, 1 `gainset`. -/
  set : Bool
  val : Word
  /-- The thread that issued it, by warp and index. -/
  wid : Nat
  thr : Nat
deriving DecidableEq, Repr

/-- The heap of one named die of a gain or task launch (R370 to R380). -/
structure Heap where
  die : Nat
  tasks : List Task
  curbin : Nat
  stop : Bool
  nang : Bool
  nextStamp : Nat
  /-- The latest parts received from the other named dies (R380), as (die, part). -/
  parts : List (Nat × Nat)
  ops : List HeapOp
  lastExchange : Nat
  /-- The task that a dispatch has chosen and that waits for room, with its gain then (R375). -/
  chosen : Option (Nat × Word)
  /-- The part of the residual that the tasks left queued at the end of the launch keep (R378, R379). -/
  kept : Nat
deriving DecidableEq, Repr

/-- How a grid came to be. -/
inductive GridKind where
  | host | child | node (die slot : Nat) | sweep | tasks
  /-- A record that a sweep has started. -/
  | swept (sweep : Nat)
  /-- No launch: what a service warp runs under (R280). -/
  | service
deriving DecidableEq, Repr

/-- The distributor's state for one named die (R334 to R337): the next group it assigns, the groups assigned and not
all placed, as (group, cluster, next sequence number). -/
structure Share where
  die : Nat
  next : Nat
  assigned : List (Nat × Nat × Nat)
deriving DecidableEq, Repr

/-- The record of a trap or hang that an end record gives (Table 22.2): TRAPINFO, T, TRAPPC, address. -/
abbrev Report := Word × Word × Word × DWord

/-- The end of a launch that the runtime has begun (R416, R427): whether its warps are kept in the bivouac area, its STATUS,
the record to report and, of a double trap, the handler's beside it (R159), and the thread whose trap ends it, by warp and
index. -/
structure Ending where
  keep : Bool
  status : Byte
  report : Option Report
  handler : Option Report
  trapped : Option (Nat × Nat)
deriving DecidableEq, Repr

/-- One launch (22, 16, 18). -/
structure Grid where
  gid : Nat
  kind : GridKind
  tag : BitVec 12
  lr : Record
  parent : Option Nat
  nest : Nat
  /-- Its child-grid entry: die, entry, generation (R392). -/
  entry : Option (Nat × Nat × Nat)
  table : List Nat
  shares : List Share
  /-- Blocks that have ended. -/
  ended : Nat
  icnt : Word × Word × Word
  heaps : List Heap
  /-- Its child task launch (R394). -/
  tasksOf : Option Nat
  /-- The most recent child that has a heap, which the heap instructions name with CH = 1 (R395, R410). -/
  heapChild : Option Nat
  /-- The launch has ended and waits for its children (R153). -/
  done : Bool
  /-- Its residual and heap stay readable after retirement (R379). -/
  retired : Bool
  /-- Its end has begun: its warps stop (R416, R427). -/
  ending : Option Ending
  /-- The hang to report in the end record (Table 22.2). -/
  report : Option Report
deriving DecidableEq, Repr

/-! ## Cores and clusters (07, 09, 13, 14, 22, 23) -/

/-- A line in a core cache: physical line, valid sectors, exclusive, and the parked threads that it is held for, as
(warp, thread, since) (R178, R217). -/
structure CLine where
  line : Nat
  sectors : BitVec 4
  excl : Bool
  held : List (Nat × Nat × Nat)
deriving DecidableEq, Repr

/-- A request record (Table 13.6). -/
structure Request where
  kind : Nat
  op : AtomOp
  ty : AtomTy
  mode : BitVec 2
  ret : Bool
  acc : Bool
  triple : Bool
  tag : BitVec 12
  die : Nat
  core : Nat
  slot : Nat
  wid : Nat
  thr : Nat
  pid : Nat
  /-- The register that a reply goes to, and the DEST field of the word. -/
  dest : Option Nat
  destCode : Nat
  va : Addr
  /-- The system physical bytes, as the requester translated the address. -/
  bytes : List Nat
  t : Word
  c : Word
  dirs : List Rnd
  operand : Triple
  /-- The second word of a 64-bit operand and compare value. -/
  operandHi : Word
  cmp : Triple
  cmpHi : Word
  pc : Addr
  pos : Nat
  pass : Bool
deriving DecidableEq, Repr

/-- The system physical address of a request: its first byte decides the home slice. -/
def Request.pa (r : Request) : Nat := r.bytes.headD 0

/-- The phases of a time slice (R426). -/
inductive SlicePhase where
  | running | saving | restoring
deriving DecidableEq, Repr

/-- The slicing of one core (R426, R456, R457). -/
structure Slice where
  tag : BitVec 12
  expiry : Nat
  phase : SlicePhase
deriving DecidableEq, Repr

/-- One core. -/
structure Core where
  die : Nat
  core : Nat
  regStep : Nat
  shStep : Nat
  lines : List CLine
  /-- Remote requests not yet delivered to a queue (R282). -/
  reqs : List Request
  tsctl : Word
  slice : Option Slice
  perus : BitVec 16
  gated : Bool
  sampled : Nat
  lastTick : Nat
  /-- For each issue slot, the first cycle in which its datapath is free (R175). -/
  busy : List (Nat × Nat) := []
  /-- The cycle and the issue slot of the last word issued (R227). -/
  lastIssue : Option (Nat × Nat) := none
deriving DecidableEq, Repr

/-- One element of an accumulator handle: three A26 planes and three outer sums (R260). -/
structure Elem where
  a : List (BitVec 26)
  o : List Word
deriving DecidableEq, Repr

/-- One handle slot of an engine. Elements that are all +0 are not listed. -/
structure Handle where
  slot : Nat
  bid : Nat
  h : Nat
  kc : Word
  acc : BitVec 4
  res : BitVec 4
  ores : BitVec 8
  /-- The tile coordinates of the handle's element (0, 0) and the last operation's number and K-step (R66). -/
  row0 : Nat
  col0 : Nat
  lastOp : Nat
  lastK : Nat
  elems : List (Nat × Elem)
  /-- In the bivouac area (R278). -/
  saved : Bool := false
deriving DecidableEq, Repr

/-- A signer's contribution: its warp, thread, T, pending instruction and fragment words (R267). -/
structure Signer where
  wid : Nat
  thr : Nat
  t : Word
  pid : Nat
  reuse : Bool
  frag : List Triple
deriving DecidableEq, Repr

/-- An `mma` descriptor with its types (Table 14.2). -/
structure MDesc where
  tA : BitVec 4
  tB : BitVec 4
  tAcc : BitVec 4
  tRes : BitVec 4
  w0 : Word
  w1 : Word
  w2 : Word
  w3 : Word
deriving DecidableEq, Repr

inductive QState where
  | free | openSet | pending
deriving DecidableEq, Repr

/-- A sign register (Table 13.1), with its operand latch (R270). -/
structure SignReg where
  q : Nat
  st : QState
  bid : Nat
  expect : Nat
  desc : Option MDesc
  signers : List Signer
  /-- The issued operation of a PENDING register, and the engines still to enter. -/
  opcount : Nat
  opId : Nat
  toEnter : List Nat
  frag : List Triple
  /-- The latch: the block that filled it, A type, M, K, and the words. -/
  latch : Option (Nat × BitVec 4 × Nat × Nat × List Triple)
  /-- In the bivouac area (R278). -/
  saved : Bool := false
deriving DecidableEq, Repr

/-- What stands in a handle's order (R276). -/
inductive OrderKind where
  | op
  | acczero
  | accst (dst : List (Nat × Nat × Nat)) (wid : Nat) (pid : Nat)
  | accstSh (base stride : Nat) (triple : Bool)
  | accwait
deriving DecidableEq, Repr

/-- An entry of a reservation table (R271), or an accumulator instruction that waits in a handle order (R297). -/
structure REntry where
  id : Nat
  opId : Nat
  kind : OrderKind
  bid : Nat
  desc : Option MDesc
  opcount : Nat
  frag : List Triple
  /-- Handles of this part with the next K-step of each (block handle number, next). -/
  handles : List (Nat × Nat)
  rr : Nat
  prio : Nat
  entered : Nat
  triple : Bool
  /-- A part that stopped at an unmapped page of B (R292). -/
  blocked : Bool
  tag : BitVec 12
  poisoned : Bool
  /-- In the bivouac area (R278). -/
  saved : Bool := false
deriving DecidableEq, Repr

/-- The running pass of an engine (R272). -/
structure Pass where
  entry : Nat
  h : Nat
  left : Nat
deriving DecidableEq, Repr

/-- One cluster: matrix engine, service queue, trace buffer. -/
structure Cluster where
  die : Nat
  cl : Nat
  handles : List Handle
  signs : List SignReg
  table : List REntry
  pass : Option Pass
  lantern : Option (Nat × List Nat × Option Nat)
  queue : List Request
  delivered : List Request
  /-- Replies that `svreply` has queued: request, status, data. -/
  replies : List (Request × Nat × Triple)
  svDone : BitVec 16
  trace : List (List Word)
  dropped : Nat
  gated : Bool
  stopped : Bool
deriving DecidableEq, Repr

/-! ## Dies (16, 18, 19, 22, 23) -/

/-- A cached entry of a page table: context, window (false scratchpad, true main memory), page, entry (R315). `core` none
stands for the walk cache. Level 0 is a leaf, 1 and 2 a pointer entry of that level. A walk carries the pointer entries that
it went by, and an entry the root that it was reached from. -/
structure Tlb where
  core : Option Nat
  tag : BitVec 12
  main : Bool
  page : Nat
  leaf : Nat
  big : Bool
  level : Nat := 0
  path : List Nat := []
  root : Word := 0
deriving DecidableEq, Repr

/-- The state of a copy (Table 19.4). -/
inductive CopySt where
  | queued | running | suspended | faulted | done | failed
deriving DecidableEq, Repr

/-- A copy descriptor (Table 19.2). -/
structure CopyDesc where
  src : Nat
  dst : Nat
  trans : Bool
  esize : Nat
  rowBytes : Nat
  rows : Nat
  sstride : Nat
  dstride : Nat
deriving DecidableEq, Repr

/-- One copy in a slot (R319 to R325, R386). -/
structure Copy where
  slot : Nat
  gen : Nat
  st : CopySt
  cause : Nat
  hold : Bool
  p : Nat
  /-- Chunks written ahead of their turn by a recall (R313). -/
  ahead : List Nat
  claims : List Nat
  /-- The scratchpad pages of the destination as they were translated, as (page, system physical address), and the epoch
  of the translation (R317, R320). -/
  pages : List (Nat × Nat)
  epoch : Word
  row : List (Option Byte)
  desc : CopyDesc
  tag : BitVec 12
  prio : Nat
  order : Nat
  gid : Nat
  bid : Option Nat
  node : Option Nat
  /-- It was asked to stop at the next chunk boundary, with the cause (R323). -/
  stopAt : Option Nat
  /-- The address at which it faulted last (R324, R325). -/
  fault : Option Nat
  /-- T of the thread that issued or posted it. -/
  t : Word
deriving DecidableEq, Repr

inductive NodeSt where
  | waiting | running
deriving DecidableEq, Repr

/-- A node of the dependence graph (R327 to R330). -/
structure Node where
  slot : Nat
  gen : Nat
  st : NodeSt
  kernel : Bool
  pred : Nat
  succ : List Nat
  desc : Option CopyDesc
  recAddr : Nat
  gid : Nat
  bid : Option Nat
  /-- The order in which its count reached 0. -/
  ready : Option Nat
  tag : BitVec 12
  child : Option Nat
  /-- The child-grid entry that a kernel node holds until its grid starts. -/
  entry : Option Nat
  /-- Its copy has ended FAILED, and a `cpyst` has freed the copy's slot (R329, R386). -/
  failed : Bool
  /-- T of the thread that posted it. -/
  t : Word
deriving DecidableEq, Repr

/-- A watchpoint (R452). -/
structure Watch where
  addr : Nat
  rd : Bool
  wr : Bool
  en : Bool
  mask : BitVec 64
deriving DecidableEq, Repr

/-- Cores being vacated of a context (R421): its number, the tag, the cores, the blocks still to be saved, and the cores whose
state has found no room (R424). -/
structure Save where
  id : Nat
  tag : BitVec 12
  cores : List Nat
  bids : List Nat
  refused : List Nat := []
deriving DecidableEq, Repr

/-- One die. -/
structure Die where
  die : Nat
  tlbs : List Tlb
  walks : List Tlb
  qepoch : Word
  lastEpoch : Nat
  quarantine : List (Nat × Word)
  copies : List Copy
  copyGens : List (Nat × Nat)
  nodes : List Node
  nodeGens : List (Nat × Nat)
  gerr : Bool
  gridGens : List (Nat × Nat)
  bivSize : Nat
  saves : List Save
  bps : List Word
  bpctx : Word
  dbgctl : Word
  trctl : Word
  trbase : Word
  trhead : Word
  wpstat : BitVec 4
  ecc : Word
  watches : List Watch
  /-- The last event of the die's heap unit: its cycle, and its place in that cycle's order (R373). -/
  heapKey : Option (Nat × Nat) := none
deriving DecidableEq, Repr

/-! ## Contexts and the package (22, 23, 25) -/

/-- A launch-tape sweep (R420). -/
structure Sweep where
  gid : Nat
  /-- The update records still to start. -/
  updates : List (List Word)
  /-- The update list has started. -/
  started : Bool
deriving DecidableEq, Repr

/-- A root that a write has replaced and that other threads may still use (R314, R315), with what a `tlbinv` has
covered since: a die's page, or all of a die's. -/
structure OldRoot where
  root : Word
  covered : List (Nat × Option Nat)
deriving DecidableEq, Repr

/-- What belongs to a context, by owner tag. -/
structure Ctx where
  tag : BitVec 12
  sptroot : Word
  /-- Replaced roots not yet covered, and the thread that wrote the current one, as (warp, thread). -/
  oldRoots : List OldRoot
  rootBy : Option (Nat × Nat)
  mptroot : Word
  energy : BitVec 48
  sat : Bool
  elatch : Option Word
  ltbase : Word
  ltpos : Nat
  lterr : Bool
  sweep : Option Sweep
  noExec : List Nat
deriving DecidableEq, Repr

/-- A key slot (R440). -/
inductive Key where
  | plain
  | keyed (number : Nat)
deriving DecidableEq, Repr

/-- A function of the package (R436). -/
structure Func where
  num : Nat
  cfg : FuncConfig
  started : Bool
  fenced : Bool
  chain : BitVec 256
deriving DecidableEq, Repr

/-- A Priro port (R462, R463). -/
structure Port where
  port : Nat
  fn : Nat
  neighbour : Nat
  fenced : Bool
  retries : Nat
deriving DecidableEq, Repr

/-- A checkpoint drain: the marked pages not yet drained with their destinations, in entry order, and the tag it acts
under (R428, R429). -/
structure Drain where
  moves : List (Nat × Nat)
  tag : BitVec 12
deriving DecidableEq, Repr

/-- What leaves the device: end records (Table 22.2), hang records (R225), fault reports (R324, R292), reports of
`gcall.rt` (R201), attestation reports with their signatures (R443). -/
inductive Msg where
  | endRecord (gid : Nat) (status : Byte) (info t pc : Word) (addr energy : DWord)
  /-- The handler's record of a double trap, beside the end record (R159). -/
  | handlerRecord (gid : Nat) (info t pc : Word) (addr : DWord)
  | hang (bid : Nat) (off : Nat) (word : DWord) (t : Word) (phase : BitVec 16) (waiting : Nat)
  | copyFault (die slot : Nat) (addr : Nat)
  | matrixFault (die cl entry : Nat) (addr : Nat)
  | gcall (wid : Nat) (record : List Byte)
  | attest (wid thr : Nat) (report signature : List Byte)
deriving DecidableEq, Repr

/-- What the package holds once. -/
structure Package where
  /-- The part is an FV3-M480L, the reduced bin (R2). A package keeps its form for good. -/
  reduced : Bool
  /-- The public key under which images verify (R441). A package keeps it for good. -/
  imageKey : List Byte
  powered : Bool
  booted : Bool
  thermalStall : Bool
  funcs : List Func
  ports : List Port
  boardCount : BitVec 3
  pkg : BitVec 3
  entab : List (BitVec 16)
  keys : List (BitVec 12 × Key)
  nextKey : Nat
  /-- The key each 64-byte unit of main memory was written under, where not PLAIN (R440). -/
  written : List (Nat × Nat)
  chain : BitVec 256
  leaf : Nat
  ringBase : Nat
  ringNext : Nat
  /-- Occupied slots with their routing words. -/
  ringUsed : List (Nat × DWord)
  ringWait : List (Nat × List Byte)
  ckBusy : Option Drain
  ckPoison : Bool
  ckDone : Nat
  /-- Poisoned units: the address of a 32-byte sector on chip, of a 64-byte unit in stacked memory (R439). -/
  poison : List Nat
  /-- Soft errors not yet met by a read: address, and whether correctable (R438, R439). -/
  latent : List (Nat × Bool)
deriving DecidableEq, Repr

/-- The group that issues a word: warp, threads, and the word's address. -/
structure Issue where
  wid : Nat
  thrs : List Nat
  pc : Addr
deriving DecidableEq, Repr

/-- What a soft error strikes (R438, R439): a byte of the system physical space; one sibling's copy of a vector
register, as 3 × register + sibling; a byte of a block's shared memory; a byte of a warp's spill window. -/
inductive ErrorAt where
  | phys (addr : Nat)
  | reg (wid thr copy : Nat)
  | shared (bid off : Nat)
  | spill (wid off : Nat)
deriving DecidableEq, Repr

/-- What the outside does: an act of the instruction table; the runtime's allocation of lines of a scratchpad to a
context (R228); a soft error, correctable or not (R438, R439); the runtime's freeing of blocks kept by `halt.keep` (R427). -/
inductive Input where
  | act (i : Instr)
  | allocate (tag : BitVec 12) (lines : List Nat)
  | softError (site : ErrorAt) (correctable : Bool)
  | freeKept (bids : List Nat)
deriving DecidableEq, Repr

/-- The state of the machine. -/
structure State where
  grids : List Grid
  blocks : List Block
  warps : List Warp
  cores : List Core
  clusters : List Cluster
  dies : List Die
  ctxs : List Ctx
  /-- The system physical address space: main memory, scratchpads, companion memory (Table 25.3). -/
  mem : Mem
  /-- Owner tags of scratchpad lines, where not 000h (R228). -/
  tags : List (Nat × BitVec 12)
  pkg : Package
  out : List Msg
  /-- Cycles since reset: the die cycle counter (Table 4.6). -/
  now : Nat
  /-- The model's own: the next number that a free value is drawn with. -/
  fresh : Nat
  /-- The model's own: the next number of a grid, block, warp, pending instruction or stamp. -/
  uid : Nat
  /-- The model's own: the group that issues, while a word is executed. -/
  cur : Option Issue
  /-- The model's own: what the outside is about to do, read one per step. -/
  inputs : List Input
deriving DecidableEq, Repr

/-- The state of the package before boot. -/
def Package.reset : Package :=
  { reduced := false, imageKey := [], powered := true, booted := false, thermalStall := false, funcs := [], ports := [],
    boardCount := 0, pkg := 0, entab := List.replicate 32 0, keys := [], nextKey := 1, written := [], chain := 0, leaf := 0, ringBase := 0,
    ringNext := 0, ringUsed := [], ringWait := [], ckBusy := none, ckPoison := false, ckDone := 0, poison := [],
    latent := [] }

/-- The machine right after reset. Cores, clusters, dies and contexts that no list names stand at the reset values of
`Core.blank`, `Cluster.blank`, `Die.blank` and `Ctx.blank`. -/
def State.reset : State :=
  { grids := [], blocks := [], warps := [], cores := [], clusters := [], dies := [], ctxs := [], mem := [], tags := [],
    pkg := Package.reset, out := [], now := 0, fresh := 0, uid := 1, cur := none, inputs := [] }

/-- A core that nothing has changed: REGSTEP 1 and SHSTEP 2 (R208), TSCTL 0, PERUS 0 (log 4). -/
def Core.blank (die core : Nat) : Core :=
  { die := die, core := core, regStep := 1, shStep := 2, lines := [], reqs := [], tsctl := 0, slice := none, perus := 0,
    gated := false, sampled := 0, lastTick := 0 }

/-- A cluster that nothing has changed: every sign register FREE, every table empty (Table 13.1). -/
def Cluster.blank (die cl : Nat) : Cluster :=
  { die := die, cl := cl, handles := [], signs := [], table := [], pass := none, lantern := none, queue := [],
    delivered := [], replies := [], svDone := 0, trace := [], dropped := 0, gated := false, stopped := false }

/-- A die that nothing has changed: BIVSIZE 64 (Table 22.5), the rest 0. QDONE is computed from QEPOCH and the accesses
in flight (R317). -/
def Die.blank (die : Nat) : Die :=
  { die := die, tlbs := [], walks := [], qepoch := 0, lastEpoch := 0,
    quarantine := [], copies := [], copyGens := [], nodes := [], nodeGens := [], gerr := false, gridGens := [],
    bivSize := 64, saves := [], bps := List.replicate 8 0, bpctx := 0, dbgctl := 0, trctl := 0, trbase := 0, trhead := 0,
    wpstat := 0, ecc := 0, watches := [] }

/-- A context that nothing has changed: every register 0 (Tables 16.3, 22.4, 22.10, 25.2). -/
def Ctx.blank (tag : BitVec 12) : Ctx :=
  { tag := tag, sptroot := 0, oldRoots := [], rootBy := none, mptroot := 0, energy := 0, sat := false, elatch := none,
    ltbase := 0, ltpos := 0, lterr := false, sweep := none, noExec := [] }

end Sys2Proof.Machine
end

