-- ==== Sys2Proof/Machine/Formats.lean ====
section
/-! DEFINITION. Number formats (03): exact values, Round, the nine types, the logarithmic table, conversions, and the
draws and generators of 02. Every arithmetic result is formed exactly here and rounded once (R12). -/

namespace Sys2Proof.Machine

/-! ## Exact values -/

/-- The exact value (-1)^neg × mag × 2^exp; with `sticky` it lies strictly above mag and below mag + 1 in magnitude,
as a quotient, root or series does. -/
structure Ex where
  neg : Bool
  mag : Nat
  exp : Int
  sticky : Bool
deriving DecidableEq, Repr

/-- A real number, an infinity or a NaN (R46). -/
inductive FVal where
  | nan (signalling : Bool)
  | inf (neg : Bool)
  | fin (x : Ex)
deriving DecidableEq, Repr

def Ex.ofInt (n : Int) (exp : Int) : Ex := { neg := decide (n < 0), mag := n.natAbs, exp := exp, sticky := false }

/-- The signed integer mag of an exact value. -/
def Ex.int (x : Ex) : Int := if x.neg then -(x.mag : Int) else x.mag

/-- The value as an integer count of 2^e, for e at most its exponent. -/
def Ex.at (x : Ex) (e : Int) : Int := x.int * (2 ^ (x.exp - e).toNat : Nat)

def Ex.isZero (x : Ex) : Bool := decide (x.mag = 0) && !x.sticky

/-- The sum of two dyadic values. The sign of an exact zero is that of both operands where they agree, else plus; the
rounding gives it the sign of R125. -/
def Ex.add (x y : Ex) : Ex :=
  let e := min x.exp y.exp
  let n := x.at e + y.at e
  if n = 0 then { neg := x.neg && y.neg, mag := 0, exp := e, sticky := false }
  else { neg := decide (n < 0), mag := n.natAbs, exp := e, sticky := false }

def Ex.mul (x y : Ex) : Ex := { neg := x.neg != y.neg, mag := x.mag * y.mag, exp := x.exp + y.exp, sticky := false }

def Ex.negate (x : Ex) : Ex := { x with neg := !x.neg }

def Ex.scale (x : Ex) (k : Int) : Ex := { x with exp := x.exp + k }

/-- The quotient of two dyadic values, to at least `bits` bits and sticky (y not zero). -/
def Ex.divBits (bits : Nat) (x y : Ex) : Ex :=
  let k := bits + Nat.log2 y.mag
  let n := x.mag <<< k
  { neg := x.neg != y.neg, mag := n / y.mag, exp := x.exp - y.exp - k, sticky := decide (n % y.mag ≠ 0) }

def Ex.div (x y : Ex) : Ex := Ex.divBits 64 x y

/-- One third of a dyadic value. -/
def Ex.third (x : Ex) : Ex := x.div { neg := false, mag := 3, exp := 0, sticky := false }

/-- The integer square root by bits: the greatest r below 2^k with r × r at most n. -/
def isqrtBits : Nat → Nat → Nat → Nat
  | 0, _, r => r
  | k + 1, n, r => if (r + 2 ^ k) * (r + 2 ^ k) ≤ n then isqrtBits k n (r + 2 ^ k) else isqrtBits k n r

/-- The integer square root. -/
def isqrt (n : Nat) : Nat := isqrtBits (Nat.log2 n / 2 + 1) n 0

/-- The square root of a dyadic value that is not negative. -/
def Ex.sqrt (x : Ex) : Ex :=
  let k : Nat := if (x.exp % 2) = 0 then 80 else 81
  let n := x.mag <<< k
  let r := isqrt n
  { neg := false, mag := r, exp := (x.exp - k) / 2, sticky := decide (r * r ≠ n) }

/-- Comparison of two dyadic values. -/
def Ex.lt (x y : Ex) : Bool :=
  let e := min x.exp y.exp
  decide (x.at e < y.at e)

def Ex.eq (x y : Ex) : Bool :=
  let e := min x.exp y.exp
  decide (x.at e = y.at e)

def Ex.le (x y : Ex) : Bool := x.lt y || x.eq y

/-! ## Flags -/

/-- The IEEE flags in FPSTAT order: NV, DZ, OF, UF, IX from bit 0 (Table 5.6). -/
abbrev Flags := BitVec 5

def Flags.nv : Flags := 1
def Flags.dz : Flags := 2
def Flags.of : Flags := 4
def Flags.uf : Flags := 8
def Flags.ix : Flags := 16

def flagIf (b : Bool) (f : Flags) : Flags := if b then f else 0

/-! ## The binary formats -/

/-- A binary format: fraction bits, exponent bits, bias (R46, R47, R54). -/
structure Fmt where
  frac : Nat
  ebits : Nat
  bias : Nat
deriving DecidableEq, Repr

def Fmt.f32 : Fmt := { frac := 23, ebits := 8, bias := 127 }
def Fmt.f16 : Fmt := { frac := 10, ebits := 5, bias := 15 }
def Fmt.e16 : Fmt := { frac := 7, ebits := 8, bias := 127 }
def Fmt.f8 : Fmt := { frac := 3, ebits := 4, bias := 7 }
def Fmt.a26 : Fmt := { frac := 17, ebits := 8, bias := 127 }
/-- An F32 with an 18-bit fraction: the mean of a compact word (R39). -/
def Fmt.c18 : Fmt := { frac := 18, ebits := 8, bias := 127 }

/-- The exponent of the last place of the subnormals. -/
def Fmt.emin (f : Fmt) : Int := 1 - (f.bias : Int) - f.frac

/-- The code of infinity, without its sign; F8 has none and its NaN code is greater than its largest by one. -/
def Fmt.infCode (f : Fmt) : Nat := (2 ^ f.ebits - 1) * 2 ^ f.frac

def Fmt.signBit (f : Fmt) : Nat := 2 ^ (f.ebits + f.frac)

/-- The value of a code of a format with infinities. -/
def Fmt.decode (f : Fmt) (code : Nat) : FVal :=
  let neg := decide (code / f.signBit % 2 = 1)
  let e := code / 2 ^ f.frac % 2 ^ f.ebits
  let m := code % 2 ^ f.frac
  if e = 2 ^ f.ebits - 1 then
    if m = 0 then .inf neg else .nan (decide (m < 2 ^ (f.frac - 1)))
  else if e = 0 then .fin { neg := neg, mag := m, exp := f.emin, sticky := false }
  else .fin { neg := neg, mag := m + 2 ^ f.frac, exp := f.emin + (e - 1 : Nat), sticky := false }

/-- The value of an F8 code (R47). -/
def decodeF8 (code : Nat) : FVal :=
  let neg := decide (code / 128 % 2 = 1)
  if code % 128 = 127 then .nan false
  else
    let e := code / 8 % 16
    if e = 0 then .fin { neg := neg, mag := code % 8, exp := -9, sticky := false }
    else .fin { neg := neg, mag := code % 8 + 8, exp := -9 + (e - 1 : Nat), sticky := false }

/-- Whether a magnitude n with remainder r out of 2^sh, and a sticky part below it, is rounded up in `dir`. -/
def roundsUp (dir : Rnd) (neg : Bool) (n r sh : Nat) (sticky : Bool) : Bool :=
  match dir with
  | .dflt | .rn =>
    if sh = 0 then false
    else decide (2 ^ (sh - 1) < r) || (decide (r = 2 ^ (sh - 1)) && (sticky || decide (n % 2 = 1)))
  | .rz => false
  | .ru => !neg && (decide (r ≠ 0) || sticky)
  | .rd => neg && (decide (r ≠ 0) || sticky)

/-- A magnitude rounded to a count of 2^q: the count, and whether anything was lost. -/
def Ex.roundAt (x : Ex) (dir : Rnd) (q : Int) : Nat × Bool :=
  if x.exp < q then
    let sh := (q - x.exp).toNat
    let n := x.mag / 2 ^ sh
    let r := x.mag % 2 ^ sh
    (if roundsUp dir x.neg n r sh x.sticky then n + 1 else n, decide (r ≠ 0) || x.sticky)
  else
    let n := x.mag * 2 ^ (x.exp - q).toNat
    (if x.sticky && roundsUp dir x.neg n 1 2 true then n + 1 else n, x.sticky)

/-- The exponent of the last place that a magnitude keeps with an unbounded exponent range. -/
def Ex.lastPlace (x : Ex) (f : Fmt) : Int := x.exp + (Nat.log2 x.mag : Int) - f.frac

/-- Whether an infinite result is due on overflow (IEEE 754, R52). -/
def overflowsToInf (dir : Rnd) (neg : Bool) : Bool :=
  match dir with
  | .dflt | .rn => true
  | .rz => false
  | .ru => !neg
  | .rd => neg

/-- The sign bit of a code. -/
def Fmt.sign (f : Fmt) (neg : Bool) : Nat := if neg then f.signBit else 0

/-- Round of a finite exact value to a binary format with infinities, with the flags of R133. -/
def Fmt.round (f : Fmt) (dir : Rnd) (x : Ex) : Nat × Flags :=
  if x.isZero then (f.sign x.neg, 0)
  else
    let q := x.lastPlace f
    let (n, ix) := x.roundAt dir (max q f.emin)
    let code := (max q f.emin - f.emin).toNat * 2 ^ f.frac + n
    if f.infCode ≤ code then
      (f.sign x.neg + (if overflowsToInf dir x.neg then f.infCode else f.infCode - 1), Flags.of ||| Flags.ix)
    else
      let u := (x.roundAt dir q).1
      let tiny := decide (q < f.emin) && decide (u < 2 ^ (f.frac + (f.emin - q).toNat))
      (f.sign x.neg + code, flagIf ix Flags.ix ||| flagIf (ix && tiny) Flags.uf)

/-- Round of a finite exact value to F8: saturating in every direction (R52). -/
def roundF8 (dir : Rnd) (x : Ex) : Nat × Flags :=
  if x.isZero then (Fmt.f8.sign x.neg, 0)
  else
    let q := x.lastPlace Fmt.f8
    let (n, ix) := x.roundAt dir (max q Fmt.f8.emin)
    let code := (max q Fmt.f8.emin - Fmt.f8.emin).toNat * 8 + n
    if 0x7F ≤ code then (Fmt.f8.sign x.neg + 0x7E, Flags.of ||| Flags.ix)
    else
      let u := (x.roundAt dir q).1
      let tiny := decide (q < Fmt.f8.emin) && decide (u < 2 ^ (3 + (Fmt.f8.emin - q).toNat))
      (Fmt.f8.sign x.neg + code, flagIf ix Flags.ix ||| flagIf (ix && tiny) Flags.uf)

/-- Round to A26: an x below 2^-126 flushes before rounding (R53, R54). -/
def roundA26 (dir : Rnd) (x : Ex) : Nat :=
  if x.isZero || decide (x.exp + (Nat.log2 x.mag : Int) < -126) then Fmt.a26.sign x.neg
  else (Fmt.a26.round dir x).1

/-! ## The logarithmic formats -/

/-- Table 3.3. -/
def ltab : Nat → Nat
  | 0 => 0
  | 1 => 11863
  | 2 => 24800
  | 3 => 38907
  | 4 => 54292
  | 5 => 71069
  | 6 => 89364
  | _ => 109315

/-- The value of a logarithm in eighths (R49). -/
def logValue (neg : Bool) (pe : Int) : Ex :=
  { neg := neg, mag := 2 ^ 17 + ltab (pe % 8).toNat, exp := pe / 8 - 17, sticky := false }

/-- A logarithmic format: width of LOG and eighths per step (R49). -/
structure LFmt where
  bits : Nat
  step : Nat
deriving DecidableEq, Repr

def LFmt.l8 : LFmt := { bits := 7, step := 1 }
def LFmt.l6 : LFmt := { bits := 5, step := 2 }

/-- The most negative LOG as a code. -/
def LFmt.zero (f : LFmt) : Nat := 2 ^ (f.bits - 1)

def LFmt.nar (f : LFmt) : Nat := 2 ^ f.bits + 2 ^ (f.bits - 1)

/-- The sign and LOG of a code; none for zero and NaR. -/
def LFmt.logOf (f : LFmt) (code : Nat) : Option (Bool × Int) :=
  let l := code % 2 ^ f.bits
  if l = f.zero then none
  else some (decide (code / 2 ^ f.bits % 2 = 1), if l < f.zero then l else (l : Int) - 2 ^ f.bits)

/-- The value of a code. -/
def LFmt.decode (f : LFmt) (code : Nat) : FVal :=
  match f.logOf code with
  | some (neg, l) => .fin (logValue neg (f.step * l))
  | none =>
    if code / 2 ^ f.bits % 2 = 1 then .nan false else .fin { neg := false, mag := 0, exp := 0, sticky := false }

/-- The code of a sign and a LOG. -/
def LFmt.code (f : LFmt) (neg : Bool) (l : Int) : Nat :=
  (if neg then 2 ^ f.bits else 0) + (l % (2 ^ f.bits : Nat)).toNat

/-- The greatest entry of LTAB not above a fraction given as count and place: `m` lies in [2^k, 2^(k+1)). -/
def ltabFloor (m k : Nat) : Nat → Nat
  | 0 => 0
  | i + 1 => if (2 ^ 17 + ltab (i + 1)) * 2 ^ k ≤ m * 2 ^ 17 then i + 1 else ltabFloor m k i

/-- The greatest logarithm in eighths whose value is not above the magnitude. -/
def peFloor (x : Ex) : Int :=
  let k := Nat.log2 x.mag
  8 * (x.exp + k) + ltabFloor x.mag k 7

/-- Whether 2 × |x| lies above, at or below the sum of two logarithmic values. -/
def cmpMid (x : Ex) (lo hi : Ex) : Ordering :=
  let s := lo.add hi
  let y : Ex := { neg := false, mag := 2 * x.mag, exp := x.exp, sticky := false }
  let e := min s.exp y.exp
  if y.at e < s.at e then .lt else if s.at e < y.at e then .gt else if x.sticky then .gt else .eq

/-- Round of a finite exact value to a logarithmic format with result offset `o` (R51 to R53, R62), with the flags of
R133. -/
def LFmt.round (f : LFmt) (dir : Rnd) (o : Int) (x : Ex) : Nat × Flags :=
  if x.isZero then (f.zero, 0)
  else
    let lmax : Int := 2 ^ (f.bits - 1) - 1
    let val := fun (l : Int) => logValue false (f.step * l + o)
    let lo := (peFloor x - o) / (f.step : Int)
    let y : Ex := { x with neg := false, sticky := false }
    let isExact := !x.sticky && y.eq (val lo)
    let up : Bool :=
      if isExact then false
      else match dir with
        | .dflt | .rn =>
          match cmpMid x (val lo) (val (lo + 1)) with
          | .lt => false
          | .gt => true
          | .eq => decide (lo % 2 ≠ 0)
        | .rz => false
        | .ru => !x.neg
        | .rd => x.neg
    let l := if up then lo + 1 else lo
    if lo < -lmax then
      let small := val (-lmax)
      let up : Bool :=
        match dir with
        | .dflt | .rn => cmpMid x { neg := false, mag := 0, exp := 0, sticky := false } small == .gt
        | .rz => false
        | .ru => !x.neg
        | .rd => x.neg
      (if up then f.code x.neg (-lmax) else f.zero, Flags.uf ||| Flags.ix)
    else if lmax < l then (f.code x.neg lmax, Flags.of ||| Flags.ix)
    else (f.code x.neg (min l lmax), flagIf (!isExact) Flags.ix)

/-- An integer clamped to a range, and whether it lay in it (R55). -/
def clamp (lo hi n : Int) : Int × Bool := if n < lo then (lo, false) else if hi < n then (hi, false) else (n, true)

/-- A finite exact value rounded to an integer. -/
def Ex.roundInt (x : Ex) (dir : Rnd) : Int × Bool :=
  let (n, ix) := x.roundAt dir 0
  (if x.neg then -(n : Int) else n, ix)

end Sys2Proof.Machine

namespace Sys2Proof

open Machine

/-! ## Types -/

/-- The value of the low bits of a register as a type; integers have none of these. -/
def Ty.value (t : Ty) (w : Word) : FVal :=
  match t with
  | .f32 => Fmt.f32.decode w.toNat
  | .f16 => Fmt.f16.decode (w.toNat % 2 ^ 16)
  | .e16 => Fmt.e16.decode (w.toNat % 2 ^ 16)
  | .f8 => decodeF8 (w.toNat % 256)
  | .l8 => LFmt.l8.decode (w.toNat % 256)
  | .l6 => LFmt.l6.decode (w.toNat % 64)
  | .a26 => Fmt.a26.decode (w.toNat % 2 ^ 26)
  | .i8 => .fin (Ex.ofInt (w.setWidth 8).toInt 0)
  | .i32 => .fin (Ex.ofInt w.toInt 0)

/-- The canonical NaN or NaR of a type (R48). -/
def Ty.nan : Ty → Nat
  | .f32 => 0x7FC00000
  | .f16 => 0x7E00
  | .e16 => 0x7FC0
  | .f8 => 0x7F
  | .l8 => 0xC0
  | .l6 => 0x30
  | .a26 => 0x1FF0000
  | .i8 => 0
  | .i32 => 0

/-- The range of an integer type. -/
def Ty.range (t : Ty) : Int × Int := if t = .i8 then (-128, 127) else (-2147483648, 2147483647)

/-- A two's-complement pattern of a type's width. -/
def Ty.pattern (t : Ty) (n : Int) : Nat := if t = .i8 then (n % 256).toNat else (n % 4294967296).toNat

/-- Round of a finite exact value to a type with result offset `o` for the logarithmic ones (R51 to R53, R56, R62,
R133). -/
def Ty.round (t : Ty) (dir : Rnd) (o : Int) (x : Ex) : Nat × Flags :=
  match t with
  | .f32 => Fmt.f32.round dir x
  | .f16 => Fmt.f16.round dir x
  | .e16 => Fmt.e16.round dir x
  | .f8 => roundF8 dir x
  | .l8 => LFmt.l8.round dir o x
  | .l6 => LFmt.l6.round dir o x
  | .a26 => (roundA26 dir x, 0)
  | .i8 | .i32 =>
    let (n, ix) := x.roundInt dir
    let (m, inRange) := clamp t.range.1 t.range.2 n
    (t.pattern m, if inRange then flagIf ix Flags.ix else Flags.nv)

/-- An infinity as a type (R52, Table 3.6, R133). -/
def Ty.infinity (t : Ty) (neg : Bool) : Nat × Flags :=
  match t with
  | .f32 => (Fmt.f32.sign neg + Fmt.f32.infCode, 0)
  | .f16 => (Fmt.f16.sign neg + Fmt.f16.infCode, 0)
  | .e16 => (Fmt.e16.sign neg + Fmt.e16.infCode, 0)
  | .a26 => (Fmt.a26.sign neg + Fmt.a26.infCode, 0)
  | .f8 => (Fmt.f8.sign neg + 0x7E, Flags.of ||| Flags.ix)
  | .l8 => (LFmt.l8.code neg 63, Flags.of ||| Flags.ix)
  | .l6 => (LFmt.l6.code neg 15, Flags.of ||| Flags.ix)
  | .i8 => (if neg then 0x80 else 0x7F, Flags.nv)
  | .i32 => (if neg then 0x80000000 else 0x7FFFFFFF, Flags.nv)

/-- A value as a type, with the flags raised (R48, R56, R133). -/
def Ty.ofVal (t : Ty) (dir : Rnd) (x : FVal) : Nat × Flags :=
  match x with
  | .nan s => (t.nan, if t = .i8 ∨ t = .i32 then Flags.nv else flagIf s Flags.nv)
  | .inf neg => t.infinity neg
  | .fin x => t.round dir 0 x

/-- The mask of a type's width. -/
def Ty.width (t : Ty) : Nat :=
  match t with
  | .f32 | .i32 => 32
  | .f16 | .e16 => 16
  | .f8 | .l8 | .i8 => 8
  | .l6 => 6
  | .a26 => 26

/-- One element of a packed register (R44). -/
def Ty.elem (t : Ty) (w : Word) (e : Nat) : Word := w >>> (t.width * e) &&& BitVec.ofNat 32 (2 ^ t.width - 1)

end Sys2Proof

namespace Sys2Proof.Machine

/-- A conversion of one element (R56 to R58). -/
def convert (dest frm : Ty) (dir : Rnd) (w : Word) : Word × Flags :=
  if dest = frm then (BitVec.ofNat 32 (w.toNat % 2 ^ frm.width), 0)
  else
    let (n, fl) := dest.ofVal dir (frm.value w)
    (BitVec.ofNat 32 n, fl)

/-! ## F32 values -/

/-- The value of an F32 pattern. -/
def f32v (w : Word) : FVal := Fmt.f32.decode w.toNat

def canonNan : Word := 0x7FC00000

/-- A value as an F32 pattern with its flags. -/
def f32r (dir : Rnd) (x : FVal) : Word × Flags :=
  let (n, fl) := Ty.f32.ofVal dir x
  (BitVec.ofNat 32 n, fl)

def FVal.isNan : FVal → Bool
  | .nan _ => true
  | _ => false

def FVal.isSig : FVal → Bool
  | .nan s => s
  | _ => false

def FVal.isInf : FVal → Bool
  | .inf _ => true
  | _ => false

def FVal.isFin : FVal → Bool
  | .fin _ => true
  | _ => false

def FVal.isZero : FVal → Bool
  | .fin x => x.isZero
  | _ => false

def FVal.neg : FVal → Bool
  | .nan _ => false
  | .inf n => n
  | .fin x => x.neg

def FVal.negate : FVal → FVal
  | .nan s => .nan s
  | .inf n => .inf (!n)
  | .fin x => .fin x.negate

/-- The sign of an exact zero sum of operands whose signs differ: minus under RD (R125). -/
def zeroSumNeg (dir : Rnd) (a b : Bool) : Bool := if a = b then a else decide (dir = .rd)

/-- A sum, whose exact zero takes its sign under `dir` (R125), and the invalid flag. -/
def FVal.add (dir : Rnd) (x y : FVal) : FVal × Flags :=
  match x, y with
  | .nan s, y => (.nan false, flagIf (s || y.isSig) Flags.nv)
  | _, .nan s => (.nan false, flagIf s Flags.nv)
  | .inf a, .inf b => if a = b then (.inf a, 0) else (.nan false, Flags.nv)
  | .inf a, .fin _ => (.inf a, 0)
  | .fin _, .inf b => (.inf b, 0)
  | .fin x, .fin y =>
    let s := x.add y
    (.fin (if s.isZero then { s with neg := zeroSumNeg dir x.neg y.neg } else s), 0)

/-- A product, and the invalid flag. -/
def FVal.mul (x y : FVal) : FVal × Flags :=
  match x, y with
  | .nan s, y => (.nan false, flagIf (s || y.isSig) Flags.nv)
  | _, .nan s => (.nan false, flagIf s Flags.nv)
  | .inf a, .inf b => (.inf (a != b), 0)
  | .inf a, .fin y => if y.isZero then (.nan false, Flags.nv) else (.inf (a != y.neg), 0)
  | .fin x, .inf b => if x.isZero then (.nan false, Flags.nv) else (.inf (x.neg != b), 0)
  | .fin x, .fin y => (.fin (x.mul y), 0)

/-- A quotient, with the invalid and divide-by-zero flags (Table 5.5). -/
def FVal.div (x y : FVal) : FVal × Flags :=
  match x, y with
  | .nan s, y => (.nan false, flagIf (s || y.isSig) Flags.nv)
  | _, .nan s => (.nan false, flagIf s Flags.nv)
  | .inf _, .inf _ => (.nan false, Flags.nv)
  | .inf a, .fin y => (.inf (a != y.neg), 0)
  | .fin x, .inf b => (.fin { neg := x.neg != b, mag := 0, exp := 0, sticky := false }, 0)
  | .fin x, .fin y =>
    if y.isZero then
      if x.isZero then (.nan false, Flags.nv) else (.inf (x.neg != y.neg), Flags.dz)
    else if x.isZero then (.fin { neg := x.neg != y.neg, mag := 0, exp := 0, sticky := false }, 0)
    else (.fin (x.div y), 0)

/-- A comparison of two values that are not NaN. -/
def FVal.lt : FVal → FVal → Bool
  | .inf a, .inf b => a && !b
  | .inf a, .fin _ => a
  | .fin _, .inf b => !b
  | .fin x, .fin y => x.lt y
  | _, _ => false

def FVal.eq : FVal → FVal → Bool
  | .inf a, .inf b => a == b
  | .fin x, .fin y => x.eq y
  | _, _ => false

/-- A rounded F32 sum with its flags (R125, R126). -/
def f32add (dir : Rnd) (a b : Word) : Word × Flags :=
  let (x, fl) := (f32v a).add dir (f32v b)
  let (r, fl') := f32r dir x
  (r, fl ||| fl')

/-- A rounded F32 product with its flags. -/
def f32mul (dir : Rnd) (a b : Word) : Word × Flags :=
  let (x, fl) := (f32v a).mul (f32v b)
  let (r, fl') := f32r dir x
  (r, fl ||| fl')

/-- The negation of an F32 pattern. -/
def f32neg (a : Word) : Word := a ^^^ 0x80000000

/-- `fma`: the exact product plus c, rounded once (R126). -/
def f32fma (dir : Rnd) (np nc : Bool) (a b c : Word) : Word × Flags :=
  let (p, fl) := (f32v a).mul (f32v b)
  let p := if np then p.negate else p
  let c := if nc then (f32v c).negate else f32v c
  let (x, fl') := p.add dir c
  let (r, fl'') := f32r dir x
  (r, fl ||| fl' ||| fl'')

/-- `fmin`, `fmax` (R127). -/
def f32minmax (isMax : Bool) (a b : Word) : Word × Flags :=
  let x := f32v a
  let y := f32v b
  let fl := flagIf (x.isSig || y.isSig) Flags.nv
  if x.isNan && y.isNan then (canonNan, fl)
  else if x.isNan then (b, fl)
  else if y.isNan then (a, fl)
  else
    let less := x.lt y || (x.eq y && x.neg && !y.neg)
    (if less != isMax then a else b, fl)

/-! ## Means and digits -/

/-- The exact sum of three F32 siblings with the sign of a zero sum under RN, and the flags. -/
def sum3 (t : Triple) : FVal × Flags :=
  let (x, f1) := (f32v t.s0).add .rn (f32v t.s1)
  let (y, f2) := x.add .rn (f32v t.s2)
  (y, f1 ||| f2)

/-- The exact mean of the siblings (R36, R240). -/
def FVal.third : FVal → FVal
  | .fin x => .fin (if x.isZero then x else x.third)
  | x => x

/-- The mean rounded to nearest even (R36, R137). Three infinities of one sign keep it; a NaN, or infinities of both
signs, give the canonical NaN. -/
def mean3 (t : Triple) : Word :=
  (f32r .rn (sum3 t).1.third).1

/-- Digits of three exact values (R28). -/
def digitsEx (x0 x1 x2 : Ex) : Nat :=
  let e := min x0.exp (min x1.exp x2.exp)
  let a := x0.at e
  let b := x1.at e
  let c := x2.at e
  let s := a + b + c
  let u := 3 * (a * a + b * b + c * c) - s * s
  if u = 0 then 24
  else ((List.range 25).filter fun d => decide (37 * (4 ^ d : Nat) * u ≤ 4 * s * s)).getLast?.getD 0

/-- Digits of three values; non-finite siblings as R28 gives. -/
def digitsVal (x y z : FVal) : Nat :=
  match x, y, z with
  | .fin a, .fin b, .fin c => digitsEx a b c
  | .inf a, .inf b, .inf c => if a = b ∧ b = c then 24 else 0
  | _, _, _ => 0

/-- Digits of a triple of F32 siblings. -/
def digits3 (t : Triple) : Nat := digitsVal (f32v t.s0) (f32v t.s1) (f32v t.s2)

/-- The majority of three bits (R17). -/
def majority (b : BitVec 3) : Bool :=
  (b.getLsbD 0 && b.getLsbD 1) || (b.getLsbD 1 && b.getLsbD 2) || (b.getLsbD 0 && b.getLsbD 2)

/-! ## Draws and generators -/

/-- The XOR of all bits. -/
def parity (x : Word) : Bool := (List.range 32).foldl (fun p i => p != x.getLsbD i) false

/-- The sibling masks of R18. -/
def drawMask : Nat → Word
  | 0 => 0x9E3779B9
  | 1 => 0x7F4A7C15
  | _ => 0xF39CC060

/-- Draw(T, C, j) under the launch seed (R18). -/
def drawBit (seed : DWord) (t c : Word) (j : Nat) : Bool :=
  let x := c ^^^ t.rotateLeft 11 ^^^ seed.extractLsb' 0 32 ^^^ (seed.extractLsb' 32 32).rotateLeft 5
  let y := x ^^^ (x.rotateLeft 1 &&& x.rotateLeft 2)
  parity (y &&& drawMask j)

/-- One round of the generator of R26. -/
def arxRound (i : Nat) (r : Nat) (ab : Word × Word) : Word × Word :=
  let a := ab.1 + ab.2
  let b := ab.2.rotateLeft r ^^^ a
  (a.rotateLeft 16 + 0x9E3779B9 * BitVec.ofNat 32 (i + 1), b)

/-- The four rounds of R26. -/
def arx (a b : Word) : Word :=
  let r := arxRound 3 18 (arxRound 2 13 (arxRound 1 9 (arxRound 0 7 (a, b))))
  r.1 ^^^ r.2

/-- Rand(T, C) (R26). -/
def rand (seed : DWord) (t c : Word) : Word := arx (t ^^^ seed.extractLsb' 0 32) (c ^^^ seed.extractLsb' 32 32)

/-- MaskRand(E, N) (R27). -/
def maskRand (seed : DWord) (e n : Word) : Word :=
  arx (e ^^^ seed.extractLsb' 0 32) (n ^^^ seed.extractLsb' 32 32 ^^^ 0x6A09E667)

/-! ## The approximated functions (R128, log 16)

Each forms one value y from the operand alone: a reference to more than 56 bits, moved by `Config.approxError` and kept
where every rounding of y lies within Table 5.4 of f(x). -/

/-- The spacing of F32 values, as the exponent of a count of 2^e, at a real number strictly between n and n + 1 counts;
the exponent range is unbounded upwards. -/
def f32Step (e n : Int) : Nat :=
  (max (e + (Nat.log2 (if n < 0 then -n - 1 else n).toNat : Int) - 23) Fmt.f32.emin - e).toNat

/-- The least F32 value that is not below a real number strictly between n and n + 1 counts of 2^e, as a count. -/
def f32Above (e n : Int) : Int := (n / (2 ^ f32Step e n : Nat) + 1) * (2 ^ f32Step e n : Nat)

/-- The greatest F32 value that is not above such a number, as a count. -/
def f32Below (e n : Int) : Int := n / (2 ^ f32Step e n : Nat) * (2 ^ f32Step e n : Nat)

/-- The value y of an approximated function (R128): the reference moved by `err` counts of 2^-32 units in its last
place, and cut to the F32 values that lie within `ulps` units in the last place of f(x), or within 2^k of it where
`abs` is some k and that is more. -/
def approxWithin (ulps : Nat) (abs : Option Int) (err : Int) (ref : Ex) : Ex :=
  let f : Int := if ref.neg then -(ref.mag : Int) - 1 else ref.mag
  let q := f32Step ref.exp f
  let bound : Int := max (ulps * 2 ^ q : Nat)
    (match abs with
      | some k => (2 ^ (k - ref.exp).toNat : Nat)
      | none => 0)
  let unit : Int := (2 ^ (q - 32) : Nat)
  Ex.ofInt (max (f32Above ref.exp (f - bound)) (min (f32Below ref.exp (f + bound)) ((f / unit + err) * unit))) ref.exp

/-- The power series of exp(t) - 1 for t a count of 2^-128, by fuel. -/
def expSeries : Nat → Nat → Nat → Nat → Nat
  | 0, _, _, _ => 0
  | k + 1, i, t, term =>
    let nxt := term * t / 2 ^ 128 / i
    nxt + expSeries k (i + 1) t nxt

/-- 2^f for f a count of 2^-128 below 1, as a count of 2^-128. -/
def exp2Fixed (f : Nat) : Nat := 2 ^ 128 + expSeries 40 1 (f * 235865763225513294137944142764154484399 / 2 ^ 128) (2 ^ 128)

/-- 2^x for a finite x that is not zero. -/
def exp2Ref (x : Ex) : Ex :=
  if x.exp + (Nat.log2 x.mag : Int) < -60 then
    { neg := false, mag := if x.neg then 2 ^ 60 - 1 else 2 ^ 60, exp := -60, sticky := true }
  else if 11 ≤ x.exp + (Nat.log2 x.mag : Int) then
    { neg := false, mag := 2 ^ 60, exp := if x.neg then -1084 else 964, sticky := true }
  else
    let n : Int := if 0 ≤ x.exp then x.int * 2 ^ (x.exp.toNat + 128) else x.int * 2 ^ 128 / (2 ^ (-x.exp).toNat : Nat)
    { neg := false, mag := exp2Fixed (n % (2 ^ 128 : Nat)).toNat, exp := n / (2 ^ 128 : Nat) - 128, sticky := true }

/-- The next bits of log2 by squaring: m is a count of 2^-120 in [1, 2). -/
def log2Bits : Nat → Nat → Nat → Nat
  | 0, _, acc => acc
  | k + 1, m, acc =>
    let q := m * m / 2 ^ 120
    if 2 ^ 121 ≤ q then log2Bits k (q / 2) (2 * acc + 1) else log2Bits k q (2 * acc)

/-- log2 of a positive finite x that is not a power of two, as a count of 2^-90. -/
def log2Ref (x : Ex) : Ex :=
  let k := Nat.log2 x.mag
  let m := if k ≤ 120 then x.mag * 2 ^ (120 - k) else x.mag / 2 ^ (k - 120)
  let e : Int := x.exp + k
  { Ex.ofInt (e * 2 ^ 90 + log2Bits 90 m 0) (-90) with sticky := true }

/-- floor(2/pi × 2^400). -/
def twoOverPi : Nat :=
  1643911329583902420875415334500933844528715375594949448028823594483032746353267717644494237032291291638281598697874456093

/-- floor(pi/2 × 2^200). -/
def halfPi : Nat := 2524172377308996935986705070621218418107321710744331485767684

/-- The alternating series of sine or cosine: term × t² / (i (i + 1)), t² a count of 2^-200. -/
def trigSeries : Nat → Nat → Nat → Int → Int
  | 0, _, _, _ => 0
  | k + 1, i, t2, term => term + trigSeries k (i + 2) t2 (-(term * t2 / (2 ^ 200 : Nat) / ((i * (i + 1) : Nat) : Int)))

/-- |x| as quadrant and rest in [0, pi/2), a count of 2^-200, with exact argument reduction (R128). -/
def trigReduce (x : Ex) : Nat × Nat :=
  let y := x.mag * twoOverPi
  let n := if 0 ≤ x.exp then y * 2 ^ x.exp.toNat else y / 2 ^ (-x.exp).toNat
  (n / 2 ^ 400, n % 2 ^ 400 / 2 ^ 200 * halfPi / 2 ^ 200)

/-- The sine of a rest, as a count of 2^-200. -/
def sinFixed (r : Nat) : Int := trigSeries 40 2 (r * r / 2 ^ 200) r

/-- The cosine of a rest, as a count of 2^-200. -/
def cosFixed (r : Nat) : Int := trigSeries 40 1 (r * r / 2 ^ 200) (2 ^ 200 : Nat)

/-- The sine of a finite x that is not zero. -/
def sinRef (x : Ex) : Ex :=
  if x.exp + (Nat.log2 x.mag : Int) < -40 then { x with mag := x.mag * 2 ^ 80 - 1, exp := x.exp - 80, sticky := true }
  else
    let (q, r) := trigReduce x
    let v : Int := match q % 4 with
      | 0 => sinFixed r
      | 1 => cosFixed r
      | 2 => -sinFixed r
      | _ => -cosFixed r
    { Ex.ofInt (if x.neg then -v else v) (-200) with sticky := true }

/-- The cosine of a finite x that is not zero. -/
def cosRef (x : Ex) : Ex :=
  if x.exp + (Nat.log2 x.mag : Int) < -40 then { neg := false, mag := 2 ^ 80 - 1, exp := -80, sticky := true }
  else
    let (q, r) := trigReduce x
    let v : Int := match q % 4 with
      | 0 => cosFixed r
      | 1 => -sinFixed r
      | 2 => -cosFixed r
      | _ => sinFixed r
    { Ex.ofInt v (-200) with sticky := true }

/-- 1/sqrt(x) of a positive finite x. -/
def rsqRef (x : Ex) : Ex :=
  let s := x.sqrt
  ({ neg := false, mag := 1, exp := 0, sticky := false } : Ex).divBits 100 { s with sticky := false }

end Sys2Proof.Machine
end

