-- ==== Sys2Proof/Machine/Ops.lean ====
section
/-! DEFINITION. The named operations over the state: looking up and replacing its records, bytes of memory, energy,
the registers of a thread, taking a trap and returning from one (R156 to R161, R251). -/

namespace Sys2Proof.Machine

/-! ## Records by key -/

/-- The list with the first element that meets `p` replaced by `x`, or with `x` at its end. -/
def putBy {α : Type} (p : α → Bool) (x : α) : List α → List α
  | [] => [x]
  | y :: l => if p y then x :: l else y :: putBy p x l

/-- The list with `f` applied to the elements that meet `p`. -/
def mapIf {α : Type} (p : α → Bool) (f : α → α) (l : List α) : List α := l.map fun x => if p x then f x else x

/-- The list without the elements that meet `p`. -/
def dropIf {α : Type} (p : α → Bool) (l : List α) : List α := l.filter fun x => !p x

/-- The list with element `n` replaced, where it has one. -/
def setAt {α : Type} : List α → Nat → α → List α
  | [], _, _ => []
  | _ :: l, 0, x => x :: l
  | y :: l, n + 1, x => y :: setAt l n x

/-- The value under a key in an association list. -/
def lookupD {α : Type} (k : Nat) (d : α) (l : List (Nat × α)) : α :=
  match l.find? fun x => x.1 = k with
  | some x => x.2
  | none => d

/-- An association list with a key set. -/
def setKey {α : Type} (k : Nat) (v : α) (l : List (Nat × α)) : List (Nat × α) := putBy (fun x => x.1 = k) (k, v) l

/-- An element put into a list that rises by a key, after those of an equal key. -/
def insertOn {α : Type} (key : α → Nat) (x : α) : List α → List α
  | [] => [x]
  | y :: l => if key x < key y then x :: y :: l else y :: insertOn key x l

/-- An element put before the first that meets `p`, else at the end. -/
def insertBefore {α : Type} (p : α → Bool) (x : α) : List α → List α
  | [] => [x]
  | y :: l => if p y then x :: y :: l else y :: insertBefore p x l

/-- A list in rising order of a key; elements of one key keep their order. -/
def sortOn {α : Type} (key : α → Nat) (l : List α) : List α := l.foldl (fun acc x => insertOn key x acc) []

/-- The first of the elements of least key. -/
def leastOn {α : Type} (key : α → Nat) (l : List α) : Option α :=
  l.foldl (fun o x => match o with
    | none => some x
    | some y => if key x < key y then some x else some y) none

/-! ## The part (R2) -/

/-- Cores of a die: 160, on the reduced bin 120 (R2). -/
def State.dieCores (s : State) : Nat := if s.pkg.reduced then 120 else 160

/-- Clusters of a die: 40, on the reduced bin 30 (R2). -/
def State.dieClusters (s : State) : Nat := if s.pkg.reduced then 30 else 40

/-! ## Memory -/

/-- One byte. -/
def Mem.read : Mem → Nat → Byte
  | [], _ => Mem.blank
  | c :: m, a => if c.1 = a then c.2 else Mem.read m a

/-- One byte written; the form stays canonical. -/
def Mem.write : Mem → Nat → Byte → Mem
  | [], a, b => if b = Mem.blank then [] else [(a, b)]
  | c :: m, a, b =>
    if a < c.1 then (if b = Mem.blank then c :: m else (a, b) :: c :: m)
    else if a = c.1 then (if b = Mem.blank then m else (a, b) :: m)
    else c :: Mem.write m a b

/-- `n` bytes from `a`, lowest address first. -/
def Mem.readBytes (m : Mem) (a : Nat) : Nat → List Byte
  | 0 => []
  | n + 1 => m.read a :: Mem.readBytes m (a + 1) n

/-- Bytes written from `a` upwards. -/
def Mem.writeBytes (m : Mem) (a : Nat) : List Byte → Mem
  | [] => m
  | b :: bs => Mem.writeBytes (m.write a b) (a + 1) bs

/-- The little-endian number of a list of bytes (R44). -/
def leNat : List Byte → Nat
  | [] => 0
  | b :: bs => b.toNat + 256 * leNat bs

/-- The `n` bytes of a number, lowest first (R44). -/
def leBytes : Nat → Nat → List Byte
  | 0, _ => []
  | n + 1, x => BitVec.ofNat 8 x :: leBytes n (x / 256)

def Mem.readNat (m : Mem) (a n : Nat) : Nat := leNat (m.readBytes a n)

def Mem.writeNat (m : Mem) (a n x : Nat) : Mem := m.writeBytes a (leBytes n x)

/-- Bytes cleared. -/
def Mem.clear (m : Mem) (a n : Nat) : Mem := m.filter fun c => decide (c.1 < a) || decide (a + n ≤ c.1)

/-! ## The records of the state -/

def State.warp? (s : State) (wid : Nat) : Option Warp := s.warps.find? fun w => w.wid = wid

def State.setWarp (s : State) (w : Warp) : State := { s with warps := putBy (fun x => x.wid = w.wid) w s.warps }

def State.updWarp (s : State) (wid : Nat) (f : Warp → Warp) : State :=
  { s with warps := mapIf (fun w => w.wid = wid) f s.warps }

def State.block? (s : State) (bid : Nat) : Option Block := s.blocks.find? fun b => b.bid = bid

def State.updBlock (s : State) (bid : Nat) (f : Block → Block) : State :=
  { s with blocks := mapIf (fun b => b.bid = bid) f s.blocks }

def State.grid? (s : State) (gid : Nat) : Option Grid := s.grids.find? fun g => g.gid = gid

def State.updGrid (s : State) (gid : Nat) (f : Grid → Grid) : State :=
  { s with grids := mapIf (fun g => g.gid = gid) f s.grids }

def State.core (s : State) (d k : Nat) : Core :=
  (s.cores.find? fun c => c.die = d && c.core = k).getD (Core.blank d k)

def State.setCore (s : State) (c : Core) : State :=
  { s with cores := putBy (fun x => x.die = c.die && x.core = c.core) c s.cores }

def State.cluster (s : State) (d c : Nat) : Cluster :=
  (s.clusters.find? fun x => x.die = d && x.cl = c).getD (Cluster.blank d c)

def State.setCluster (s : State) (c : Cluster) : State :=
  { s with clusters := putBy (fun x => x.die = c.die && x.cl = c.cl) c s.clusters }

def State.die (s : State) (d : Nat) : Die := (s.dies.find? fun x => x.die = d).getD (Die.blank d)

def State.setDie (s : State) (d : Die) : State := { s with dies := putBy (fun x => x.die = d.die) d s.dies }

def State.ctx (s : State) (t : BitVec 12) : Ctx := (s.ctxs.find? fun x => x.tag = t).getD (Ctx.blank t)

def State.setCtx (s : State) (c : Ctx) : State := { s with ctxs := putBy (fun x => x.tag = c.tag) c s.ctxs }

/-- Thread `i` of a warp. -/
def Warp.thread? (w : Warp) (i : Nat) : Option Thread := w.threads.find? fun t => t.idx = i

def Warp.updThread (w : Warp) (i : Nat) (f : Thread → Thread) : Warp :=
  { w with threads := mapIf (fun t => t.idx = i) f w.threads }

def State.updThread (s : State) (wid i : Nat) (f : Thread → Thread) : State :=
  s.updWarp wid fun w => w.updThread i f

def State.thread? (s : State) (wid i : Nat) : Option Thread := (s.warp? wid).bind fun w => w.thread? i

/-- A number that no record carries yet, and the state that has used it. -/
def State.newId (s : State) : Nat × State := (s.uid, { s with uid := s.uid + 1 })

/-- A number to draw a free value with, and the state that has used it. -/
def State.draw (s : State) : Nat × State := (s.fresh, { s with fresh := s.fresh + 1 })

/-- The function that holds a cluster (R436). -/
def State.funcOf (s : State) (d cl : Nat) : Option Func := s.pkg.funcs.find? fun f => decide ((d, cl) ∈ f.cfg.clusters)

def State.send (s : State) (m : Msg) : State := { s with out := s.out ++ [m] }

/-! ## Energy (R430) -/

/-- The counter with an exact addition, saturating (R430). -/
def Ctx.addEnergy (c : Ctx) (n : Nat) : Ctx :=
  if c.energy.toNat + n < 2 ^ 48 then { c with energy := BitVec.ofNat 48 (c.energy.toNat + n) }
  else { c with energy := BitVec.allOnes 48, sat := true }

/-- `n` events of class `k` charged to a context. -/
def State.charge (s : State) (tag : BitVec 12) (k n : Nat) : State :=
  let wt := (s.pkg.entab.getD k 0).toNat
  if n * wt = 0 then s else s.setCtx ((s.ctx tag).addEnergy (n * wt))

/-! ## What a group issues -/

/-- What the issuing group sees: its warp as it stood at the issue, its block and its grid. -/
structure Env where
  iss : Issue
  w : Warp
  b : Block
  g : Grid
deriving DecidableEq, Repr

/-- What a group of threads of a warp sees. -/
def State.envAt (s : State) (i : Issue) : Option Env :=
  match s.warp? i.wid with
  | none => none
  | some w =>
    match s.block? w.bid with
    | none => none
    | some b =>
      match s.grid? b.gid with
      | none => none
      | some g => some { iss := i, w := w, b := b, g := g }

/-- The issuing group, where there is one (R171). -/
def State.env (s : State) : Option Env :=
  match s.cur with
  | none => none
  | some i => s.envAt i

/-- The threads of the group as they stood at the issue. -/
def Env.group (e : Env) : List Thread := e.w.threads.filter fun t => decide (t.idx ∈ e.iss.thrs)

/-- Whether the thread's predicate is true (R11, R17). -/
def Thread.predTrue (t : Thread) (p : BitVec 3) (neg : Bool) : Bool :=
  (if p = 0 then true else majority (t.p.getD p.toNat 0)) != neg

/-- The three sibling bits of a predicate (R11). -/
def Thread.predBits (t : Thread) (p : BitVec 3) : BitVec 3 := if p = 0 then 7 else t.p.getD p.toNat 0

/-- The value that readers of a predicate take (R17). -/
def Thread.predVal (t : Thread) (p : BitVec 3) : Bool := majority (t.predBits p)

/-- The participants of the word (R185). -/
def Env.parts (e : Env) (c : Ctl) : List Thread := e.group.filter fun t => t.predTrue c.pred c.neg

/-- Threads of a warp: 8 in triple mode, 24 in single-lane mode (R8). -/
def warpThreads (triple : Bool) : Nat := if triple then 8 else 24

def Env.triple (e : Env) : Bool := e.b.triple

/-- Threads of one block of the launch (R7, R9). -/
def Env.blockSize (e : Env) : Nat :=
  if e.b.task.isSome then warpThreads e.b.triple else e.g.lr.bx * e.g.lr.by' * e.g.lr.bz

/-- index_in_block (R7). -/
def Env.inBlock (e : Env) (t : Thread) : Nat := e.w.index * warpThreads e.b.triple + t.idx

/-- The thread number T (R7, R9). -/
def Env.tnum (e : Env) (t : Thread) : Word := BitVec.ofNat 32 (e.b.linear * e.blockSize + e.inBlock t)

/-- T of a thread of a warp of a block of a grid. -/
def tnumOf (w : Warp) (b : Block) (g : Grid) (i : Nat) : Word :=
  let n := if b.task.isSome then warpThreads b.triple else g.lr.bx * g.lr.by' * g.lr.bz
  BitVec.ofNat 32 (b.linear * n + (w.index * warpThreads b.triple + i))

/-- Dir(sib): the direction of a sibling under the rounding field (R104). -/
def dirOf (rnd : Rnd) (triple : Bool) (seed : DWord) (t c : Word) (j : Nat) : Rnd :=
  match rnd with
  | .dflt => if triple then (if drawBit seed t c j then .ru else .rd) else .rn
  | r => r

/-- Dir of a thread of the group at its draw counter. -/
def Env.dir (e : Env) (rnd : Rnd) (t : Thread) (j : Nat) : Rnd :=
  dirOf rnd e.triple e.g.lr.seed (e.tnum t) t.c j

/-- The upper bits of every PC of the launch (R145). -/
def Env.codeHi (e : Env) : BitVec 16 := e.g.lr.codeHi

/-- A PC in the code region. -/
def codePc (hi : BitVec 16) (lo : Word) : Addr := hi ++ lo

/-! ## Reading operands (R78, R87, R88) -/

/-- The value of a special for a thread (Table 4.6). -/
def Env.special (e : Env) (now : Nat) (t : Thread) (x : Special) : Triple :=
  let w := fun (n : Nat) => Triple.all (BitVec.ofNat 32 n)
  let task := e.b.task.isSome
  let ib := e.inBlock t
  let r := e.g.lr
  match x with
  | .zero => .all 0
  | .tidx => w (if task then t.idx else ib % r.bx)
  | .tidy => w (if task then 0 else ib / r.bx % r.by')
  | .tidz => w (if task then 0 else ib / (r.bx * r.by'))
  | .tid => w (if task then t.idx else ib)
  | .tnum => .all (e.tnum t)
  | .warp => w (if task then 0 else e.w.index)
  | .lane => w (if e.triple then 3 * t.idx else t.idx)
  | .sib => if e.triple then { s0 := 0, s1 := 1, s2 := 2 } else .all 0
  | .blkx => w (if task then e.b.linear else e.b.linear % r.x)
  | .blky => w (if task then 0 else e.b.linear / r.x % r.y)
  | .blkz => w (if task then 0 else e.b.linear / (r.x * r.y))
  | .blk => w e.b.linear
  | .bdimx => w (if task then warpThreads e.triple else r.bx)
  | .bdimy => w (if task then 1 else r.by')
  | .bdimz => w (if task then 1 else r.bz)
  | .gdimx => w (if task then (if e.g.kind = .tasks then 2 ^ 24 else r.taskCnt) else r.x)
  | .gdimy => w (if task then 1 else r.y)
  | .gdimz => w (if task then 1 else r.z)
  | .core => w e.w.core
  | .cluster => w (e.w.core / 4)
  | .die => w e.w.die
  | .ones => .all 0xFFFFFFFF
  | .fone => .all 0x3F800000
  | .clocklo => w now
  | .clockhi => .all t.clockhi
  | .nest => w e.g.nest

/-- A register of a thread: for each outstanding long-latency result for it, each sibling is what stood before or the
result, as `Config.hazardRead` says (R78, log 15). A single-lane thread has one value. -/
def Warp.readV (w : Warp) (triple : Bool) (fresh : Nat) (t : Thread) (n : Nat) : Triple :=
  w.pend.foldl (fun x p => match p.parts.find? fun q => q.thr = t.idx && q.reg = n with
    | none => x
    | some q =>
      let pick := fun (j : Nat) => if Config.hazardRead fresh p.id t.idx n j then q.val.get j else x.get j
      if triple then .ofFn pick else .all (pick 0)) (t.v.getD n (.all 0))

/-- The key of a block register among a warp's outstanding one-copy results; uniform registers have their number. -/
def gKey (n : Nat) : Nat := 256 + n

/-- A register of one copy with old value `old`, likewise (R78). -/
def Warp.read1 (w : Warp) (fresh key : Nat) (old : Word) : Word :=
  w.pend.foldl (fun x p => match p.sparts.find? fun q => q.1 = key with
    | none => x
    | some q => if Config.hazardRead fresh p.id 0 (640 + key) 0 then q.2 else x) old

def Warp.readS (w : Warp) (fresh : Nat) (n : Nat) : Word := w.read1 fresh n (w.s.getD n 0)

/-- A block register as the warp's core sees it (R218, R219). -/
def Env.readG (e : Env) (fresh : Nat) (n : Nat) : Word :=
  e.w.read1 fresh (gKey n)
    (if e.w.rank = 0 then e.b.g.getD n 0 else (lookupD e.w.rank e.b.g e.b.greps).getD n 0)

/-- The registers carry the tag under which the thread reads: that of its launch. Under another OWNER they read zeros
(R228). The spec states no tag for the registers of a service warp: they read as they are (log 97). -/
def Env.ownRegs (e : Env) (t : Thread) : Bool := e.w.service || decide (t.owner = e.g.tag)

/-- An operand as a thread reads it at issue (R78, R228, Table 4.5). -/
def Env.read (e : Env) (s : State) (t : Thread) (o : Opd) : Triple :=
  match o with
  | .v n => if e.ownRegs t then e.w.readV e.b.triple s.fresh t n else .all 0
  | .s n => if e.ownRegs t then .all (e.w.readS s.fresh n) else .all 0
  | .g n => if e.ownRegs t then .all (e.readG s.fresh n) else .all 0
  | .sp x => e.special s.now t x

/-- Sibling 0 of an operand (R16). -/
def Env.read0 (e : Env) (s : State) (t : Thread) (o : Opd) : Word := (e.read s t o).s0

/-! ## Writing registers (R78, R89, R188) -/

/-- The list with an element, once. -/
def addNew {α : Type} [DecidableEq α] (x : α) (l : List α) : List α := if x ∈ l then l else l ++ [x]

/-- A v register of a thread written: noted by every outstanding long-latency instruction (R78), and poison of the
register clears (R439). -/
def Warp.writeV (w : Warp) (thr n : Nat) (x : Triple) : Warp :=
  { w with
    threads := mapIf (fun t => t.idx = thr)
      (fun t => { t with v := setAt t.v n x, poison := dropIf (fun k => k / 3 = n) t.poison }) w.threads
    pend := w.pend.map fun p => { p with written := addNew (thr, n) p.written } }

/-- A write of a register of one copy, noted likewise (R78). -/
def Warp.touch1 (w : Warp) (key : Nat) : Warp :=
  { w with pend := w.pend.map fun p => { p with writtenS := addNew key p.writtenS } }

/-- A uniform register written. -/
def Warp.writeS (w : Warp) (n : Nat) (x : Word) : Warp := { w.touch1 n with s := setAt w.s n x }

def State.writeV (s : State) (wid thr n : Nat) (x : Triple) : State := s.updWarp wid fun w => w.writeV thr n x

def State.writeS (s : State) (wid n : Nat) (x : Word) : State := s.updWarp wid fun w => w.writeS n x

/-- The key of a write in the home order (R218). -/
def GWrite.key (x : GWrite) : Nat := x.rank * 512 + x.slot

/-- A write is applied at the home in cycle `now`, and an update goes to every replica. Where a write of a larger key has
been applied in the same cycle, that one prevails, and it is what the replicas see last (R218). -/
def Block.homeWrite (b : Block) (now : Nat) (x : GWrite) : Block :=
  let up := fun (y : GWrite) => ((List.range b.cores.length).filter fun r => r ≠ 0).map fun r => (r, y)
  match b.gLast.find? fun y => decide (y.1 = x.reg) && decide (y.2.1 = now) && decide (x.key < y.2.2) with
  | some y =>
    let later : GWrite := { rank := y.2.2 / 512, slot := y.2.2 % 512, reg := x.reg, val := b.g.getD x.reg 0, since := x.since }
    { b with gupdates := b.gupdates ++ up later }
  | none =>
    { b with
      g := setAt b.g x.reg x.val
      gLast := putBy (fun y => decide (y.1 = x.reg)) (x.reg, now, x.key) b.gLast
      gupdates := b.gupdates ++ up x }

/-- A block register written from a core of the block: at the home at once from rank 0, else the writer's replica at
once and the home later (R218, R219). Of the writes of one cycle on one core the one of the higher slot prevails. -/
def State.writeG (s : State) (bid rank slot n : Nat) (x : Word) : State :=
  let gw : GWrite := { rank := rank, slot := slot, reg := n, val := x, since := s.now }
  let s := { s with warps := mapIf (fun w => w.bid = bid) (fun w => w.touch1 (gKey n)) s.warps }
  s.updBlock bid fun b =>
    if rank = 0 then b.homeWrite s.now gw
    else
      let later := fun (y : GWrite) =>
        decide (y.rank = rank) && decide (y.reg = n) && decide (y.since = s.now) && decide (gw.key < y.key)
      { b with
        greps := if b.gflight.any later then b.greps else setKey rank (setAt (lookupD rank b.g b.greps) n x) b.greps
        gflight := insertBefore later gw b.gflight }

/-- The predicate's three bits written; a write to p0 is discarded (R11, R107). -/
def Thread.setPred (t : Thread) (p : BitVec 3) (bits : BitVec 3) : Thread :=
  if p = 0 then t else { t with p := setAt t.p p.toNat bits }

/-- A predicate result of one value, in all three bits (R107). -/
def boolBits (b : Bool) : BitVec 3 := if b then 7 else 0

def State.setPred (s : State) (wid thr : Nat) (p : BitVec 3) (bits : BitVec 3) : State :=
  s.updThread wid thr fun t => t.setPred p bits

/-- The uniform tag of a register after a write-back: every thread that has not ended holds one triple (R177). -/
def Warp.retag (w : Warp) (n : Nat) : Warp :=
  let vals := (w.threads.filter fun t => t.st ≠ .ended).map fun t => t.v.getD n (.all 0)
  { w with utag := setAt w.utag n (match vals with | [] => true | x :: xs => xs.all fun y => y = x) }

/-! ## Traps (R156 to R162, R251) -/

/-- TRAPINFO of a record (Table 6.4). -/
def TrapRec.info (r : TrapRec) : Word :=
  r.arg ++ BitVec.ofNat 4 r.pos ++ BitVec.ofBool r.half ++ BitVec.ofNat 3 r.sub ++ 0#3 ++ BitVec.ofNat 5 r.code

/-- The trap registers that a record writes. -/
def TrapRec.regs (r : TrapRec) : TrapRegs :=
  { info := r.info, pc := r.pc.setWidth 32, opa := r.opa, opb := r.opb, opc := r.opc, res := r.res, addr := r.addr }

/-- A record without operands, argument or address. -/
def TrapRec.plain (code sub pos : Nat) (pc : Addr) : TrapRec :=
  { code := code, sub := sub, arg := 0, half := false, pos := pos, pc := pc, opa := .all 0, opb := .all 0, opc := .all 0,
    res := .all 0, addr := 0 }

/-- Where a trap goes (Table 6.3). -/
inductive TrapDest where
  | runtime | handler | debugger
deriving DecidableEq, Repr

/-- The codes whose destination is the user handler. -/
def userTrap (code : Nat) : Bool := (decide (7 ≤ code) && decide (code ≤ 13)) || decide (code = 18)

/-- A debugger is attached to the thread's context on this die (R444). -/
def State.attached (s : State) (d : Nat) (tag : BitVec 12) : Bool :=
  let t := (s.die d).bpctx.extractLsb' 0 12
  decide (t ≠ 0) && decide (t = tag)

/-- The destination of a trap for a thread: R156, R157 without a handler, R159 in handler mode. -/
def trapDest (t : Thread) (attached : Bool) (code : Nat) : TrapDest :=
  let user := if t.inHandler.isSome ∨ t.handler = 0 then TrapDest.runtime else .handler
  if userTrap code then user
  else if code = 15 then (if attached then .debugger else user)
  else if code = 16 ∨ code = 17 then .debugger
  else .runtime

/-- Entry to the user handler (R158): the return point, C, REGIONPC and the region shadow are saved, the trap registers
written, the handler-mode bit set, and the PC is HANDLER, whose first clause is a region entry (R24). -/
def Thread.enterHandler (t : Thread) (hi : BitVec 16) (r : TrapRec) (pc : Addr) (cl : Clause) : Thread :=
  { t with
    inHandler := some
      { pc := pc, cl := cl, c := t.c, regionPc := t.regionPc, shC := t.shC, shIstat := t.shIstat, due := t.due }
    due := []
    trap := r.regs
    trappcWritten := false
    pc := codePc hi t.handler
    cl := Clause.none
    regionPc := t.handler
    shC := t.c
    shIstat := t.istat
    st := .eligible
    age := 0
    wait := none
    split := none }

/-- Entry to the runtime or the debugger (R251): SUPER is set, the return point with its clause fields saved, EPC
written with the trapping word's address, and that view's trap registers written (R161). -/
def Thread.enterSuper (t : Thread) (entry : BitVec 45) (r : TrapRec) (pc : Addr) (cl : Clause) : Thread :=
  { t with
    super := true
    runtime := some { pc := pc, cl := cl, due := t.due }
    due := []
    epc := r.pc.setWidth 32
    strap := r.regs
    pc := entry ++ 0#3
    cl := Clause.none
    st := .eligible
    age := 0
    wait := none
    split := none }

/-- A thread takes a trap, resuming at `pc` with clause fields `cl`. -/
def Thread.trapTo (t : Thread) (attached : Bool) (hi : BitVec 16) (r : TrapRec) (pc : Addr) (cl : Clause) : Thread :=
  match trapDest t attached r.code with
  | .handler => t.enterHandler hi r pc cl
  | .runtime => t.enterSuper Config.runtimeEntry r pc cl
  | .debugger => t.enterSuper Config.debuggerEntry r pc cl

/-- The code region of a warp's launch. -/
def State.hiOf (s : State) (wid : Nat) : BitVec 16 :=
  match (s.warp? wid).bind fun w => (s.block? w.bid).bind fun b => s.grid? b.gid with
  | some g => g.lr.codeHi
  | none => 0

/-- The owner tag of a warp's launch. -/
def State.tagOfWarp (s : State) (w : Warp) : Option (BitVec 12) :=
  ((s.block? w.bid).bind fun b => s.grid? b.gid).map fun g => g.tag

/-- A thread of a warp takes a trap. -/
def State.trap (s : State) (wid thr : Nat) (r : TrapRec) (pc : Addr) (cl : Clause) : State :=
  match s.warp? wid with
  | none => s
  | some w =>
    s.updThread wid thr fun t => t.trapTo (s.attached w.die t.owner) (s.hiOf wid) r pc cl

/-- A trap taken before the word: the thread is as it stood at the issue, and resumes at the word (R156). -/
def Env.trapBefore (e : Env) (s : State) (t : Thread) (r : TrapRec) : State :=
  s.updThread e.w.wid t.idx fun _ => t.trapTo (s.attached e.w.die t.owner) e.codeHi r t.pc t.cl

/-- A trap taken after the word, at the word that follows. -/
def Env.trapAfter (e : Env) (s : State) (t : Thread) (r : TrapRec) : State :=
  s.updThread e.w.wid t.idx fun u => u.trapTo (s.attached e.w.die u.owner) e.codeHi r u.pc u.cl

/-- The record of a trap of the issued word. -/
def Env.record (e : Env) (t : Thread) (code sub : Nat) : TrapRec :=
  TrapRec.plain code sub t.cl.pos e.iss.pc

/-- Subcodes of the illegal-instruction trap (Table 6.5). -/
def subOpcode : Nat := 0
def subField : Nat := 1
def subPool : Nat := 2
def subPair : Nat := 3
def subMatrixType : Nat := 4
def subShape : Nat := 5

/-- The illegal-instruction trap of the issued word, before it. -/
def Env.illegal (e : Env) (s : State) (t : Thread) (sub : Nat) : State := e.trapBefore s t (e.record t 0 sub)

/-- Traps of every thread of a list, in turn. -/
def forThreads {α : Type} (s : State) (l : List α) (f : State → α → State) : State := l.foldl f s

/-! ## Returning from a trap -/

/-- The thread stands at an address as a transfer leaves it (R72). -/
def Thread.goTo (t : Thread) (pc : Addr) : Thread := { t with pc := pc, cl := Clause.none }

/-- `tret` for a thread in handler mode (R160): C, REGIONPC and the shadow are restored and the bit cleared; the thread
resumes at TRAPPC where it was written, else at the saved point inside its clause. -/
def Thread.leaveHandler (t : Thread) (hi : BitVec 16) (h : HandlerSave) : Thread :=
  let t' := { t with
    inHandler := none
    c := h.c
    regionPc := h.regionPc
    shC := h.shC
    shIstat := h.shIstat
    due := h.due ++ t.due }
  if t.trappcWritten then t'.goTo (codePc hi t.trap.pc) else { t' with pc := h.pc, cl := h.cl }

/-- The traps still due once the runtime's record is left. -/
def Thread.dueBack (t : Thread) : List TrapRec :=
  match t.runtime with
  | some r => r.due ++ t.due
  | none => t.due

/-- `eret` (R251). A thread that resumes at a breakpointed or watched word passes it once (R444). -/
def Thread.leaveRuntime (t : Thread) (r : RuntimeSave) : Thread :=
  let code := t.strap.info.extractLsb' 0 5
  { t with
    super := false
    runtime := none
    due := t.dueBack
    pc := r.pc
    cl := r.cl
    passOnce := decide (code = 17) || (decide (code = 15) && decide (t.strap.info.extractLsb' 8 3 = 1)) }

/-- `eret.region`: C and ISTAT come from the region shadow (R167). -/
def Thread.leaveToRegion (t : Thread) (hi : BitVec 16) : Thread :=
  { t with
    super := false
    runtime := none
    due := t.dueBack
    c := t.shC
    istat := t.shIstat
    pc := codePc hi t.regionPc
    cl := Clause.none }

/-- `eret.epc`. -/
def Thread.leaveToEpc (t : Thread) (hi : BitVec 16) : Thread :=
  { t with
    super := false
    runtime := none
    due := t.dueBack
    pc := codePc hi t.epc
    cl := Clause.none }

end Sys2Proof.Machine
end

