-- ==== Sys2Proof/Machine/Atomics.lean ====
section
/-! DEFINITION. The read-modify-writes of `atom` (R239, R240) and of the service warps (R283, R302), on the bytes of one
access. -/

namespace Sys2Proof.Machine

/-- A number of `w` bits as a signed number. -/
def signedOf (w n : Nat) : Int := if n < 2 ^ (w - 1) then n else (n : Int) - (2 ^ w : Nat)

/-- An integer or bitwise operation on values of `w` bits (Tables 10.6, 14.3). -/
def intAtom (op : AtomOp) (w old b cv : Nat) : Nat :=
  match op with
  | .add => (old + b) % 2 ^ w
  | .min => if signedOf w b < signedOf w old then b else old
  | .max => if signedOf w old < signedOf w b then b else old
  | .minu => min old b
  | .maxu => max old b
  | .and => old &&& b
  | .or => old ||| b
  | .xor => old ^^^ b
  | .exch => b
  | .cas => if old = cv then b else old
  | .inc => if b ≤ old then 0 else old + 1

/-- old plus the exact mean of the siblings, rounded once (R240, R283). For three equal siblings it is old plus the one
value. -/
def addMean (dir : Rnd) (old : Word) (b : Triple) : Word :=
  match f32v old, (sum3 b).1 with
  | .fin o, .fin s =>
    let n := s.add (o.mul { neg := false, mag := 3, exp := 0, sticky := false })
    (f32r dir (.fin (if n.isZero then { n with neg := zeroSumNeg dir o.neg s.neg } else n.third))).1
  | x, y => (f32r dir (x.add dir y).1).1

/-- The one F32 value of an operand: its mean in triple mode (R137, R240). -/
def oneF32 (triple : Bool) (b : Triple) : Word := if triple then mean3 b else b.s0

/-- An F32 operation on one word (R240, R302). -/
def f32Atom (op : AtomOp) (triple : Bool) (dir : Rnd) (old : Word) (b cv : Triple) : Word :=
  match op with
  | .add => addMean dir old b
  | .min => (f32minmax false old (oneF32 triple b)).1
  | .max => (f32minmax true old (oneF32 triple b)).1
  | .cas => if old = oneF32 triple cv then oneF32 triple b else old
  | _ => oneF32 triple b

/-- An F32 operation on one sibling's word of a triple. -/
def sibAtom (op : AtomOp) (dir : Rnd) (old b : Word) : Word :=
  match op with
  | .add => (f32add dir old b).1
  | .min => (f32minmax false old b).1
  | .max => (f32minmax true old b).1
  | _ => b

def AtomArgs.dir (x : AtomArgs) (j : Nat) : Rnd := x.dirs.getD j .rn

def pair64 (hi lo : Word) : Nat := hi.toNat * 2 ^ 32 + lo.toNat

/-- A word of a list of bytes. -/
def wordAt (bs : List Byte) (k : Nat) : Word := BitVec.ofNat 32 (leNat ((bs.drop (4 * k)).take 4))

def wordBytes (w : Word) : List Byte := leBytes 4 w.toNat

/-- The three words of 12 bytes. -/
def tripleAt (bs : List Byte) : Triple := { s0 := wordAt bs 0, s1 := wordAt bs 1, s2 := wordAt bs 2 }

def tripleBytes (t : Triple) : List Byte := wordBytes t.s0 ++ wordBytes t.s1 ++ wordBytes t.s2

/-- Bytes that an atomic of a type touches on a page without sibling storage. -/
def AtomTy.bytes' (ty : AtomTy) : Nat :=
  match ty with
  | .w32 => 4
  | .f32 => 4
  | .w64 => 8
  | .f32x => 12

/-- One operation on plain bytes: the bytes after, and what the destination registers receive (R239, R240). -/
def atomPlain (op : AtomOp) (ty : AtomTy) (triple : Bool) (x : AtomArgs) (old : List Byte) :
    List Byte × List Triple :=
  match ty with
  | .w32 =>
    let o := wordAt old 0
    (leBytes 4 (intAtom op 32 o.toNat x.b.s0.toNat x.cv.s0.toNat), [.all o])
  | .f32 =>
    let o := wordAt old 0
    (wordBytes (f32Atom op triple (x.dir 0) o x.b x.cv), [.all o])
  | .w64 =>
    let o := leNat (old.take 8)
    (leBytes 8 (intAtom op 64 o (pair64 x.bHi x.b.s0) (pair64 x.cvHi x.cv.s0)), [.all (wordAt old 0), .all (wordAt old 1)])
  | .f32x =>
    let o := tripleAt old
    let new := Triple.ofFn fun j => sibAtom op (x.dir j) (o.get j) (x.b.get j)
    (tripleBytes new, [if triple then o else .all o.s0])

/-- The IEEE flags of an operation on plain bytes: invalid, where a `min` or `max` meets a signalling NaN (R127, R240). -/
def atomFlags (op : AtomOp) (ty : AtomTy) (triple : Bool) (x : AtomArgs) (old : List Byte) : Flags :=
  match ty, op with
  | .f32, .min => (f32minmax false (wordAt old 0) (oneF32 triple x.b)).2
  | .f32, .max => (f32minmax true (wordAt old 0) (oneF32 triple x.b)).2
  | _, _ => 0

/-- One operation on the 12 bytes of a triple page (R302). -/
def atomTriple (op : AtomOp) (ty : AtomTy) (triple : Bool) (x : AtomArgs) (old : List Byte) :
    List Byte × List Triple :=
  let o := tripleAt old
  match ty with
  | .f32 | .f32x =>
    let new :=
      if op = .cas then (if o = x.cv then x.b else o)
      else Triple.ofFn fun j => sibAtom op (x.dir j) (o.get j) (x.b.get j)
    (tripleBytes new, [if triple then o else .all o.s0])
  | .w32 | .w64 =>
    let n := BitVec.ofNat 32 (intAtom op 32 o.s0.toNat x.b.s0.toNat x.cv.s0.toNat)
    (tripleBytes (.all n), [.all o.s0])

end Sys2Proof.Machine
end

