-- ==== Sys2Proof/Machine/Operands.lean ====
section
/-! DEFINITION. Operand forms: immediates and their extensions (R85, R106), the registers that a word names, and the
writing of one result by every participant or once for the warp (R16, R188). -/

namespace Sys2Proof

/-- The operand that follows in a run of registers (R231). -/
def Opd.plus (o : Opd) (k : Nat) : Opd :=
  match o with
  | .v n => .v (n + k)
  | .s n => .s (n + k)
  | .g n => .g (n + k)
  | .sp x => .sp x

/-- The registers of a last source. -/
def Src.opds : Src → List Opd
  | .reg o => [o]
  | .imm _ => []

def Src2.opds : Src2 → List Opd
  | .regs b c => [b, c]
  | .imm _ => []

/-- A destination as an operand code. -/
def Dst.opds : Dst → List Opd
  | .v n => [.v n]
  | .s n => [.s n]
  | .g n => [.g n]
  | .none => []

/-- A destination of one copy: an s or a g register (R188). -/
def Dst.single : Dst → Bool
  | .v _ => false
  | .s _ => true
  | .g _ => true
  | .none => false

/-- `k` consecutive registers from `o` (R231). -/
def Opd.run (o : Opd) (k : Nat) : List Opd := (List.range k).map o.plus

end Sys2Proof

namespace Sys2Proof.Machine

/-- The value of a destination before the instruction; %zero reads 0. -/
def Env.oldDst (e : Env) (s : State) (t : Thread) (d : Dst) : Triple :=
  match d with
  | .v n => e.read s t (.v n)
  | .s n => e.read s t (.s n)
  | .g n => e.read s t (.g n)
  | .none => .all 0

/-- How an entry widens IMM20 (R85, R106): sign-extended, zero-extended, or placed in bits [31:12] (R126). -/
inductive Ext where
  | sign | zero | high
deriving DecidableEq, Repr

def Ext.word (x : Ext) (imm : BitVec 20) : Word :=
  match x with
  | .sign => imm.signExtend 32
  | .zero => imm.setWidth 32
  | .high => imm ++ 0#12

/-- A last source: a register, or an immediate that reaches all siblings alike (R85). -/
def Env.src (e : Env) (s : State) (t : Thread) (x : Ext) (b : Src) : Triple :=
  match b with
  | .reg o => e.read s t o
  | .imm w => .all (x.word w)

/-- `k` consecutive v registers. -/
def vrun (n k : Nat) : List Opd := (List.range k).map fun i => .v (n + i)

/-- A word of a run, sibling 0. -/
def Env.runWord (e : Env) (s : State) (t : Thread) (o : Opd) (i : Nat) : Word := e.read0 s t (o.plus i)

/-- The threads for which a word with this destination computes: every participant, or the lowest one alone (R188). -/
def computing (d : Dst) (ps : List Thread) : List Thread := if d.single then ps.take 1 else ps

/-- One result written to the destination: a v register of the thread, or sibling 0 of the result to the one copy
(R188). -/
def State.writeDst (s : State) (e : Env) (t : Thread) (d : Dst) (x : Triple) : State :=
  match d with
  | .v n => s.writeV e.w.wid t.idx n x
  | .s n => s.writeS e.w.wid n x.s0
  | .g n => s.writeG e.b.bid e.w.rank e.w.slot n x.s0
  | .none => s

/-- The write-back of a vector destination sets or clears its tag (R177). -/
def State.retag (s : State) (wid : Nat) (n : Nat) : State := s.updWarp wid fun w => w.retag n

def State.retagDst (s : State) (wid : Nat) (d : Dst) : State :=
  match d with
  | .v n => s.retag wid n
  | .s _ => s
  | .g _ => s
  | .none => s

/-- Every thread of `ps` writes its own result. -/
def State.writeAll (s : State) (e : Env) (ps : List Thread) (d : Dst) (x : Thread → Triple) : State :=
  ((computing d ps).foldl (fun s t => s.writeDst e t d (x t)) s).retagDst e.w.wid d

/-- Every thread of `ps` writes one predicate (R107). -/
def State.predAll (s : State) (e : Env) (ps : List Thread) (p : BitVec 3) (x : Thread → BitVec 3) : State :=
  ps.foldl (fun s t => s.setPred e.w.wid t.idx p (x t)) s

/-- A change of every thread of `ps`. -/
def State.eachThread (s : State) (e : Env) (ps : List Thread) (f : Thread → Thread) : State :=
  ps.foldl (fun s t => s.updThread e.w.wid t.idx f) s

/-- The draw counter of every thread of `ps` advances by one (R20, R21). -/
def State.advanceC (s : State) (e : Env) (ps : List Thread) : State := s.eachThread e ps fun t => { t with c := t.c + 1 }

end Sys2Proof.Machine
end

