-- ==== Sys2Proof/Machine/Issue.lean ====
section
/-! DEFINITION. The issue of a word for its group: the checks of R86 in their order, the holds of Table 7.2, counting,
energy and register cache, the advance past the word, and the traps due after it. -/

namespace Sys2Proof.Machine

/-! ## Cycles -/

/-- The start of a barrier wait's count as time passes from `now`: it stands still while a warp of the block is saved, and
the count restarts while one is held (R225, R226). -/
def Thread.waitTime (t : Thread) (held saved : Bool) (now dt : Nat) : Thread :=
  match t.wait with
  | some (.barrier off target since seen) =>
    { t with wait := some (.barrier off target (if held then now + dt else if saved then since + dt else since) seen) }
  | _ => t

/-- Cycles pass. -/
def State.passCycles (s : State) (dt : Nat) : State :=
  { s with
    now := s.now + dt
    warps := s.warps.map fun w =>
      if w.threads.all fun t => t.wait.isNone then w
      else
        let mine := s.warps.filter fun x => decide (x.bid = w.bid)
        let held := mine.any fun x => x.held
        let saved := mine.any fun x => x.saved
        { w with threads := w.threads.map fun t => t.waitTime held saved s.now dt } }

/-! ## Who may issue (R158, R170, R171) -/

/-- The ELIGIBLE threads: HELD are all threads of a held warp, and while some thread is in handler mode, the others. -/
def Warp.eligible (w : Warp) : List Thread :=
  if w.held then []
  else
    let hm := w.threads.any fun t => t.inHandler.isSome
    w.threads.filter fun t => decide (t.st = .eligible) && (!hm || t.inHandler.isSome)

/-- The PC of the word that follows; PC[47:32] stays (R145). -/
def nextPc (pc : Addr) : Addr := codePc (pc.extractLsb' 32 16) (pc.extractLsb' 0 32 + 8)

/-- The clause position after a word: the next word of the span, or the header that follows the clause. -/
def Clause.next (c : Clause) : Clause := if c.pos < c.count then { c with pos := c.pos + 1 } else Clause.none

/-! ## The form of a word -/

/-- What issue looks at. `src` and `dst` spell out every register of a run. `bad` is a check of R86 that depends on the
thread, with its code, subcode and half. -/
structure Form where
  c : Ctl
  priv : Bool
  long : Bool
  last : Bool
  src : List Opd
  dst : List Opd
  /-- The energy class of its lane operations, 2 or 3, or 0 (Table 22.8). -/
  lanes : Nat
  /-- The words whose beats it takes (R198). -/
  words : Nat
  /-- Operand A, which REUSE keeps in the register cache (R85, R176). -/
  opa : Option Opd
  bad : Env → Thread → Option (Nat × Nat × Bool)
  /-- The operands that a participant reads. -/
  reads : Thread → List Opd
  /-- It makes an access, which follows an earlier acquire of its thread (R343). -/
  access : Bool := false
  /-- The key order of R218 places it among the words of its block's warps that issue in one cycle (R221, R287, R297). -/
  keyed : Bool := false
  /-- It goes before every word of its block that the key order places in its cycle (R297). -/
  first : Bool := false
  /-- It is an event of its die's heap unit (R373). -/
  heap : Bool := false

/-- A short-latency word. -/
def Form.short (c : Ctl) (src dst : List Opd) : Form :=
  { c := c, priv := false, long := false, last := false, src := src, dst := dst, lanes := 0, words := 1,
    opa := src.head?, bad := fun _ _ => none, reads := fun _ => src }

/-- A short-latency floating-point word. -/
def Form.fp (c : Ctl) (src dst : List Opd) : Form := { Form.short c src dst with lanes := 2 }

/-- A long-latency word. -/
def Form.longLat (c : Ctl) (src dst : List Opd) : Form := { Form.short c src dst with long := true }

/-- The form of a word that makes an access. -/
def Form.accesses (f : Form) : Form := { f with access := true }

/-- The form of a word that has no operand A. -/
def Form.noA (f : Form) : Form := { f with opa := none }

/-- A word that only the supervisor view may issue (R97). -/
def Form.sup (c : Ctl) (src dst : List Opd) : Form := { Form.short c src dst with priv := true }

/-- An operand code beyond the warp's allocation (R92). -/
def Warp.beyond (w : Warp) : Opd → Bool
  | .v n => decide (w.vregs ≤ n)
  | .s n => decide (w.s.length ≤ n)
  | .g _ => false
  | .sp _ => false

/-- The flag that the word selects is valid in its clause (R76). -/
def Clause.flagValid (c : Clause) (b : Bool) : Bool := if b then c.bvalid else c.avalid

def Clause.flag (c : Clause) (b : Bool) : Nat := if b then c.bflag else c.aflag

/-- The first failing check of R86 for a thread, as code, subcode and half: privilege, fields, register bounds. -/
def Env.check (e : Env) (f : Form) (t : Thread) : Option (Nat × Nat × Bool) :=
  if f.priv && !t.super then some (2, 0, false)
  else if f.last && decide (t.cl.pos ≠ t.cl.count) then some (0, subField, false)
  else if f.long && !t.cl.flagValid f.c.fsel then some (0, subField, false)
  else match f.bad e t with
    | some x => some x
    | none => if (f.src ++ f.dst).any e.w.beyond then some (1, 0, false) else none

/-- The threads of the group that fail a check take its trap before the word; the word is not issued (R86, R182). -/
def State.trapChecks (s : State) (e : Env) (f : Form) (l : List Thread) : State :=
  l.foldl (fun s t => match e.check f t with
    | some (code, sub, half) => e.trapBefore s t { e.record t code sub with half := half }
    | none => s) s

/-! ## Holds -/

/-- The issue state of a thread that waits. -/
def Wait.state : Wait → ThState
  | .header _ => .stalled
  | .held l => if l.any fun x => decide (x.2 = .gcallBuf) then .waiting else .stalled
  | _ => .waiting

def Thread.block (t : Thread) (x : Wait) : Thread := { t with st := x.state, wait := some x }

/-- A thread that waits no more; its age starts from 0 (R171). -/
def Thread.release (t : Thread) : Thread := { t with st := .eligible, age := 0, wait := none }

/-- The remote requests without a reply: at their cores, in a slice's queue, delivered, or with the reply queued
(R281 to R285). -/
def State.requests (s : State) : List Request :=
  (s.cores.map fun c => c.reqs).flatten ++
    (s.clusters.map fun c => c.queue ++ c.delivered ++ c.replies.map fun r => r.1).flatten

/-- The remote requests of a thread. -/
def State.requestsOf (s : State) (wid i : Nat) : List Request :=
  s.requests.filter fun r => decide (r.wid = wid) && decide (r.thr = i)

/-- A memory instruction of the thread may still raise a fault (R152): a request is without its status, or an `mma` that
it signed may still meet poison (R292). -/
def State.mayFault (s : State) (wid i : Nat) : Bool :=
  !(s.requestsOf wid i).isEmpty ||
    (match s.warp? wid with
      | none => false
      | some w => w.pend.any fun p => p.traps.any fun x => decide (x.1 = i))

/-- Accesses of a thread on their way to another core of its block (R227). -/
def State.carried (s : State) (e : Env) (t : Thread) : Bool :=
  match s.block? e.b.bid with
  | none => false
  | some b => b.portions.any fun p => decide (p.wid = e.w.wid) && decide (p.thr = t.idx)

/-- A write of a g register by the warp that some core of the block has not seen (R218, R219). -/
def State.gPending (s : State) (e : Env) : Bool :=
  let mine := fun (x : GWrite) => decide (x.rank = e.w.rank) && decide (x.slot = e.w.slot)
  match s.block? e.b.bid with
  | none => false
  | some b => b.gflight.any mine || b.gupdates.any fun x => mine x.2

/-- A release of the thread cannot take effect yet: an access of it is not performed (R343), or a write of a g register
is not seen everywhere (R219). -/
def State.unsettled (s : State) (e : Env) (t : Thread) : Bool :=
  !(s.requestsOf e.w.wid t.idx).isEmpty || s.carried e t || s.gPending e

/-- A long-latency instruction of the thread is outstanding (R153). -/
def Warp.busy (w : Warp) (i : Nat) : Bool := w.pend.any fun p => decide (i ∈ p.thrs)

/-- The hold of a transfer (R152). -/
def holdTransfer (s : State) (e : Env) (t : Thread) : Option Hold :=
  if s.mayFault e.w.wid t.idx then some .faults else none

/-- The hold of a release for a participant (R343). -/
def holdRelease (c : Ctl) (s : State) (e : Env) (t : Thread) : Option Hold :=
  if t.predTrue c.pred c.neg && s.unsettled e t then some .settled else none

/-- A read of the thread that an acquire has made, or that stands before one, is not performed (R343). -/
def State.acquiring (s : State) (wid i : Nat) : Bool :=
  match s.warp? wid with
  | none => false
  | some w => (w.pend.filter fun p => decide (p.wait ≠ .ready) && decide (i ∈ p.acq)).any fun p =>
      (match p.wait with
        | .promoted _ => true
        | _ => false) ||
      (s.requestsOf wid i).any (fun r => decide (r.pid = p.id)) ||
      (match s.block? w.bid with
        | none => false
        | some b => b.portions.any fun x => decide (x.wid = wid) && decide (x.thr = i) && decide (x.pid = some p.id))

/-- No hold beyond R76. -/
def noHold (_ : State) (_ : Env) (_ : Thread) : Option Hold := none

/-- What holds a thread's word: a flag that stands at 63 (R76), an acquire before an access (R343), or what the word's own
entry gives. -/
def Env.hold (e : Env) (s : State) (f : Form) (h : State → Env → Thread → Option Hold) (t : Thread) : Option Hold :=
  if f.long && t.split.isNone && decide (e.w.flags.getD (t.cl.flag f.c.fsel) 0 = 63) then some (.flagRoom (t.cl.flag f.c.fsel) 1)
  else if f.access && t.predTrue f.c.pred f.c.neg && s.acquiring e.w.wid t.idx then some .acquire
  else h s e t

/-- The threads of a list that something holds, by index, with it. -/
def holdsOf (h : Thread → Option Hold) (l : List Thread) : List (Nat × Hold) :=
  l.filterMap fun t => (h t).map fun x => (t.idx, x)

/-- The group does not issue: all its threads wait for what holds any of them (R76, R200, R282, R343). -/
def State.holdAll (s : State) (e : Env) (l : List (Nat × Hold)) : State :=
  e.group.foldl (fun s t => s.updThread e.w.wid t.idx fun u => u.block (.held l)) s

/-! ## Poisoned operands and breakpoints -/

/-- A register operand of the thread is poisoned (R439). -/
def Form.poisoned (f : Form) (t : Thread) : Bool :=
  (f.reads t).any fun o => match o with
    | .v n => t.poison.any fun k => decide (k / 3 = n)
    | _ => false

/-- The word stands at an armed breakpoint of the thread's context (R444). -/
def State.breaks (s : State) (e : Env) (t : Thread) : Bool :=
  let d := s.die e.w.die
  s.attached e.w.die t.owner && !t.passOnce && decide (d.bpctx.extractLsb' 12 16 = e.iss.pc.extractLsb' 32 16) &&
    d.bps.any fun b => b.getLsbD 0 && decide (b.extractLsb' 3 29 = e.iss.pc.extractLsb' 3 29)

/-! ## The cycle of an issue (R173, R175, R227) -/

/-- The warp's place in the key order of R218. -/
def Warp.key (w : Warp) : Nat := w.rank * 512 + w.slot

/-- The first cycle in which the word may issue: its slot's datapath is free (R175), the words that its core issues in one
cycle go by ascending issue slot (R227), and those that the key order places go by their keys (R218), also at the heap unit
(R373). A service warp issues from a context of its own (R280). -/
def State.turn (s : State) (e : Env) (f : Form) : Nat :=
  let c := s.core e.w.die e.w.core
  let free := if e.w.service then s.now else max s.now (lookupD (e.w.slot % 8) 0 c.busy)
  let slot := match c.lastIssue with
    | some (n, k) => if n = s.now ∧ e.w.slot % 8 ≤ k ∧ !e.w.service then s.now + 1 else s.now
    | none => s.now
  let key := match e.b.lastKey with
    | some (n, k) => if n = s.now ∧ (f.first ∨ f.keyed ∧ e.w.key ≤ k) then s.now + 1 else s.now
    | none => s.now
  let heap := match (s.die e.w.die).heapKey with
    | some (n, k) => if n = s.now ∧ f.heap ∧ e.w.key < k then s.now + 1 else s.now
    | none => s.now
  max free (max slot (max key heap))

/-- The heap unit of a die has taken an event at a place of its cycle's order. -/
def State.heapAt (s : State) (d k : Nat) : State := s.setDie { s.die d with heapKey := some (s.now, k) }

/-- The word takes the slot's datapath for `n` beats, and its place in the orders of its cycle. -/
def State.takeSlot (s : State) (e : Env) (f : Form) (n : Nat) : State :=
  let c := s.core e.w.die e.w.core
  let s1 := if e.w.service then s
    else s.setCore { c with
      busy := setKey (e.w.slot % 8) (s.now + n) c.busy
      lastIssue := some (s.now, e.w.slot % 8) }
  let s2 := if f.keyed then s1.updBlock e.b.bid fun b => { b with lastKey := some (s.now, e.w.key) } else s1
  if f.heap then s2.heapAt e.w.die e.w.key else s2

/-- The next state where the word does not issue: a failing check, a hold, a poisoned operand, a breakpoint, or a cycle in
which its slot cannot issue it. -/
def State.gate (s : State) (e : Env) (f : Form) (h : State → Env → Thread → Option Hold) : Option State :=
  if e.group.any fun t => (e.check f t).isSome then some (s.trapChecks e f e.group)
  else if e.group.any fun t => (e.hold s f h t).isSome then some (s.holdAll e (holdsOf (e.hold s f h) e.group))
  else if (e.parts f.c).any f.poisoned then
    some (((e.parts f.c).filter f.poisoned).foldl (fun s t => e.trapBefore s t (e.record t 6 0)) s)
  else if e.group.any fun t => s.breaks e t then
    some ((e.group.filter fun t => s.breaks e t).foldl (fun s t => e.trapBefore s t (e.record t 15 1)) s)
  else if s.now < s.turn e f then some (s.passCycles (s.turn e f - s.now))
  else none

/-! ## Counting, energy and the register cache -/

/-- Beats of a group of `a` threads (R175). -/
def beats (triple : Bool) (a : Nat) : Nat := max 1 (if triple then (a + 3) / 4 else (a + 11) / 12)

/-- The register-cache entry evicted to make room: the least recently used without a hold, else the oldest (R176). -/
def rcVictim (l : List RcEntry) : Option RcEntry :=
  match l.reverse.find? fun x => !x.hold with
  | some x => some x
  | none => l.getLast?

/-- One register taken into the cache: the cache after it and the fills and write-backs it caused (class 4). -/
def rcTouch (l : List RcEntry) (n : Nat) (wr hold : Bool) : List RcEntry × Nat :=
  match l.find? fun x => x.reg = n with
  | some x => ({ x with dirty := x.dirty || wr, hold := x.hold || hold } :: dropIf (fun y => y.reg = n) l, 0)
  | none =>
    let new : RcEntry := { reg := n, dirty := wr, hold := hold }
    if l.length < 6 then (new :: l, 1)
    else match rcVictim l with
      | none => (new :: l, 1)
      | some v => (new :: dropIf (fun y => y.reg = v.reg) l, if v.dirty then 2 else 1)

/-- The vector registers of a list of operand codes. -/
def vregsOf (l : List Opd) : List Nat :=
  l.filterMap fun o => match o with
    | .v n => some n
    | _ => none

/-- A word's vector operands, in the order of its form, and then its destinations taken into the cache (R176, log 94). -/
def rcWord (l : List RcEntry) (f : Form) : List RcEntry × Nat :=
  let step := fun (wr : Bool) (acc : List RcEntry × Nat) (n : Nat) =>
    let r := rcTouch acc.1 n wr false
    (r.1, acc.2 + r.2)
  let a := (vregsOf f.src).foldl (step false) (l, 0)
  let unheld := a.1.map fun x => { x with hold := false }
  let b := (vregsOf f.dst).foldl (step true) (unheld, a.2)
  match f.c.reuse, f.opa with
  | true, some (.v n) => (mapIf (fun x => x.reg = n) (fun x => { x with hold := true }) b.1, b.2)
  | _, _ => b

/-- A thread of the group past the word: the next PC and position, age 0, the passed breakpoint forgotten, and with the
warp's step bit set, the step trap due, but not within the runtime or the debugger (R171, R181, log 95). -/
def Env.advance (e : Env) (t : Thread) : Thread :=
  { t with
    pc := nextPc e.iss.pc
    cl := t.cl.next
    age := 0
    passOnce := false
    due := if e.w.step && t.runtime.isNone then t.due ++ [e.record t 16 0] else t.due }

/-- The thread has read %clocklo (Table 4.6). A word that reads %clockhi too reads the earlier latch (log 102). -/
def latchClock (f : Form) (now : Nat) (t : Thread) : Thread :=
  if f.src.any fun o => o = .sp .clocklo then { t with clockhi := BitVec.ofNat 32 (now / 2 ^ 32) } else t

/-- The state in which the word executes: counted, its group past the word, the other ELIGIBLE threads one older. -/
def State.issued (s : State) (e : Env) (f : Form) : State :=
  let n := f.words * beats e.triple e.iss.thrs.length
  let rc := rcWord e.w.rcache f
  let el := e.w.eligible.map fun t => t.idx
  let ps := (e.parts f.c).map fun t => t.idx
  let uni := ((vregsOf f.src).filter fun k => e.w.utag.getD k false).length
  let s := s.updWarp e.w.wid fun w =>
    { w with
      wissue := w.wissue + 1
      wbeat := w.wbeat + BitVec.ofNat 32 n
      wunif := w.wunif + BitVec.ofNat 32 uni
      rcache := rc.1
      threads := w.threads.map fun t =>
        if t.idx ∈ e.iss.thrs then
          (if t.idx ∈ ps then latchClock f s.now (e.advance t) else e.advance t)
        else if t.idx ∈ el then { t with age := min 255 (t.age + 1) }
        else t }
  let s := (((s.takeSlot e f n).charge e.g.tag 0 1).charge e.g.tag 1 n).charge e.g.tag 4 rc.2
  if f.lanes = 0 then s else s.charge e.g.tag f.lanes (ps.length * (if e.triple then 3 else 1))

/-! ## Traps due -/

/-- The first trap due to an ELIGIBLE thread is taken, before its next word (R181, R471). -/
def State.takeDue (s : State) (wid i : Nat) : State :=
  match s.thread? wid i with
  | none => s
  | some t =>
    match t.due with
    | [] => s
    | r :: rest =>
      if t.st = .eligible then
        (s.updThread wid i fun t => { t with due := rest }).trap wid i r t.pc t.cl
      else s

/-- Every thread of the group takes what is due to it. -/
def State.finish (s : State) (e : Env) : State := e.iss.thrs.foldl (fun s i => s.takeDue e.w.wid i) s

/-! ## The word -/

/-- The issue of a word: stopped by the gate, or counted and executed by `body` (R86, R171). Where no group issues, the
state stays. -/
def issue (f : Form) (h : State → Env → Thread → Option Hold) (body : Env → State → State) (s : State) : State :=
  match s.env with
  | none => s
  | some e =>
    match s.gate e f h with
    | some s' => s'
    | none => (body e (s.issued e f)).finish e

/-- A step of the machine: every instruction that the model holds answers a next state. -/
abbrev Out := Host.Outcome State Fault Refusal

end Sys2Proof.Machine
end

