-- ==== Sys2Proof/Machine/Flags.lean ====
section
/-! DEFINITION. IEEE flags and instability events: what a computation raises, what is masked, and the one trap taken
(R29 to R33, R133, R159). -/

namespace Sys2Proof.Machine

/-- What one thread's computation gives: the value or predicate bits per sibling, the IEEE flags raised by any sibling,
the instability events, the ARG of codes 7, 8 and 9, and the operands as read (R161). -/
structure Res where
  val : Triple
  fl : Flags
  cancel : Bool
  split : Bool
  zdiv : Bool
  cancelArg : BitVec 16
  splitArg : BitVec 16
  zdivArg : BitVec 16
  opa : Triple
  opb : Triple
  opc : Triple
deriving DecidableEq, Repr

/-- A result that raises nothing. -/
def Res.plain (x : Triple) : Res :=
  { val := x, fl := 0, cancel := false, split := false, zdiv := false, cancelArg := 0, splitArg := 0, zdivArg := 0,
    opa := .all 0, opb := .all 0, opc := .all 0 }

/-- A result with the flags of its three siblings. -/
def Res.ofSibs (f : Nat → Word × Flags) (a b c : Triple) : Res :=
  { Res.plain { s0 := (f 0).1, s1 := (f 1).1, s2 := (f 2).1 } with
    fl := (f 0).2 ||| (f 1).2 ||| (f 2).2, opa := a, opb := b, opc := c }

/-- The computation of sibling 0 alone: what a destination of one copy receives and raises (R188). -/
def Res.ofSib0 (f : Nat → Word × Flags) (a b c : Triple) : Res :=
  { Res.plain (.all (f 0).1) with fl := (f 0).2, opa := a, opb := b, opc := c }

/-- One result by destination. -/
def Res.ofDst (d : Dst) (f : Nat → Word × Flags) (a b c : Triple) : Res :=
  if d.single then Res.ofSib0 f a b c else Res.ofSibs f a b c

/-! ## The choice among traps (R32, R95, R133) -/

/-- The kinds of trap in the order of R32. -/
inductive EvKind where
  | zdiv | cancel | split | ieee
deriving DecidableEq, Repr

/-- Whether a result raises a kind. -/
def Res.raises (r : Res) : EvKind → Bool
  | .zdiv => r.zdiv
  | .cancel => r.cancel
  | .split => r.split
  | .ieee => decide (r.fl ≠ 0)

/-- Whether a result raises a kind whose trap the thread has enabled; in handler mode none is (R159). -/
def Res.enabled (r : Res) (t : Thread) (k : EvKind) : Bool :=
  t.inHandler.isNone && r.raises k &&
    (match k with
      | .zdiv => t.imask.getLsbD 2
      | .cancel => t.imask.getLsbD 0
      | .split => t.imask.getLsbD 1
      | .ieee => decide (r.fl &&& t.fpmask ≠ 0))

/-- The trap taken for the word: the first kind of R32 that some half raises enabled, with the first such half. -/
def chosen (t : Thread) (rs : List (Bool × Res)) : Option (EvKind × Bool × Res) :=
  [EvKind.zdiv, .cancel, .split, .ieee].findSome? fun k =>
    (rs.find? fun x => x.2.enabled t k).map fun x => (k, x.1, x.2)

/-- The code of a kind (Table 6.3). -/
def EvKind.code : EvKind → Nat
  | .cancel => 7
  | .split => 8
  | .zdiv => 9
  | .ieee => 10

/-- ARG of a trap (Table 6.4). -/
def Res.arg (r : Res) : EvKind → BitVec 16
  | .cancel => r.cancelArg
  | .split => r.splitArg
  | .zdiv => r.zdivArg
  | .ieee => r.fl.setWidth 16

/-- The record of the trap taken. -/
def Env.eventRecord (e : Env) (t : Thread) (k : EvKind) (half : Bool) (r : Res) : TrapRec :=
  { e.record t k.code 0 with arg := r.arg k, half := half, opa := r.opa, opb := r.opb, opc := r.opc, res := r.val }

/-- The masked part of a half's events: ISTAT bits and FPSTAT bits set. `took` is the kind taken for this half. -/
def Res.mask (r : Res) (took : Option EvKind) (t : Thread) : Thread :=
  let on := fun (k : EvKind) => r.raises k && decide (took ≠ some k)
  let bits : BitVec 4 :=
    (if on .cancel then 1 else 0) ||| (if on .split then 2 else 0) ||| (if on .zdiv then 4 else 0)
  { t with
    istat := t.istat ||| bits
    fpstat := t.fpstat ||| (if took = some .ieee then r.fl &&& ~~~t.fpmask else r.fl) }

/-- A counter saturating at FFFF_FFFFh (R33). -/
def satInc (w : Word) (b : Bool) : Word := if b && decide (w ≠ 0xFFFFFFFF) then w + 1 else w

/-- The per-launch counters after a half's masked events (R32, R33). -/
def Res.count (r : Res) (took : Option EvKind) (n : Word × Word × Word) : Word × Word × Word :=
  let on := fun (k : EvKind) => r.raises k && decide (took ≠ some k)
  (satInc n.1 (on .cancel), satInc n.2.1 (on .split), satInc n.2.2 (on .zdiv))

/-- The kind taken, for the half with number `half`. -/
def tookOf (ch : Option (EvKind × Bool × Res)) (half : Bool) : Option EvKind :=
  match ch with
  | some (k, h, _) => if h = half then some k else none
  | none => none

/-- The masked events of every half of a thread. -/
def State.maskEvents (s : State) (e : Env) (i : Nat) (ch : Option (EvKind × Bool × Res)) (rs : List (Bool × Res)) :
    State :=
  rs.foldl (fun s x =>
    let took := tookOf ch x.1
    (s.updThread e.w.wid i (x.2.mask took)).updGrid e.g.gid fun g => { g with icnt := x.2.count took g.icnt }) s

/-- The events of a thread's word, its results written: the masked ones set their bits and counters, and the trap
chosen is taken before the thread's next word (R32, R133). -/
def State.events (s : State) (e : Env) (t : Thread) (rs : List (Bool × Res)) : State :=
  let ch := chosen t rs
  let s := s.maskEvents e t.idx ch rs
  match ch with
  | none => s
  | some (k, half, r) => e.trapAfter s t (e.eventRecord t k half r)

/-! ## Words that compute (R16, R20, R105, R188) -/

/-- A word with one result per thread: every participant's destination and events, and its draw counter where `adv`
says so (R20). -/
def aluWord (f : Form) (d : Dst) (adv : Bool) (comp : Env → State → Thread → Res) : State → State :=
  issue f noHold fun e s =>
    let ps := e.parts f.c
    let s1 := if adv then s.advanceC e ps else s
    let s2 := s1.writeAll e ps d fun t => (comp e s t).val
    (computing d ps).foldl (fun s' t => s'.events e t [(false, comp e s t)]) s2

/-- A word whose result raises nothing and moves no draw counter. -/
def plainWord (f : Form) (d : Dst) (comp : Env → State → Thread → Triple) : State → State :=
  issue f noHold fun e s => s.writeAll e (e.parts f.c) d (comp e s)

/-- A word that writes a predicate, with its events (R107). -/
def predWord (f : Form) (p : BitVec 3) (comp : Env → State → Thread → BitVec 3 × Res) : State → State :=
  issue f noHold fun e s =>
    let ps := e.parts f.c
    ps.foldl (fun s' t => s'.events e t [(false, (comp e s t).2)])
      (s.predAll e ps p fun t => (comp e s t).1)

end Sys2Proof.Machine
end

