-- ==== Sys2Proof/Machine/Control.lean ====
section
/-! DEFINITION. Control instructions: transfers, the return stack, ending, traps, `tret` (R145 to R168) and the three
forms of `eret` (R251). -/

namespace Sys2Proof.Machine

/-! ## Targets -/

/-- PC + 8 × IMM20 within the 4 GiB region of the word (R145, R147). -/
def relTarget (pc : Addr) (off : BitVec 20) : Addr :=
  codePc (pc.extractLsb' 32 16) (pc.extractLsb' 0 32 + 8 * off.signExtend 32)

/-- The target of a register transfer, sibling 0 (R148). -/
def Env.regTarget (e : Env) (s : State) (t : Thread) (a : Opd) : Addr :=
  codePc (e.iss.pc.extractLsb' 32 16) (e.read0 s t a)

def misaligned (a : Addr) : Bool := decide (a.extractLsb' 0 3 ≠ 0)

/-! ## The spill window (R213) -/

/-- SPILLSZ of a launch, in bytes. -/
def Grid.spillSize (g : Grid) : Nat := g.lr.spillK * 1024

/-- The offset of a thread's area in its warp's spill window. -/
def areaOf (g : Grid) (i : Nat) : Nat := i * g.spillSize

/-! ## The return stack (R149) -/

/-- What a push does to a thread and, where the oldest entry spills, the offset and record written; none on
overflow. -/
def pushRet (g : Grid) (t : Thread) (ra : Addr) : Option (Thread × Option (Nat × DWord)) :=
  if t.rs.length < 4 then some ({ t with rs := t.rs ++ [ra] }, none)
  else if g.spillSize < t.rsp + 8 + t.dsp then none
  else
    some ({ t with rsp := t.rsp + 8, rs := t.rs.drop 1 ++ [ra] },
      some (areaOf g t.idx + g.spillSize - (t.rsp + 8), 1#1 ++ 0#15 ++ t.rs.headD 0))

/-- A pop: the thread and the address, or the code and subcode of the trap with its address. A record gives PC[31:0];
PC[47:32] is the code region's, `hi` (R145, log 93). -/
def popRet (g : Grid) (hi : BitVec 16) (m : Mem) (t : Thread) : Except (Nat × Nat × Addr) (Thread × Addr) :=
  match t.rs.getLast? with
  | some ra => .ok ({ t with rs := t.rs.dropLast }, ra)
  | none =>
    if t.rsp = 0 then .error (19, 1, 0)
    else
      let word : DWord := BitVec.ofNat 64 (m.readNat (areaOf g t.idx + g.spillSize - t.rsp) 8)
      if !word.getLsbD 63 || decide (word.extractLsb' 48 15 ≠ 0) then .error (19, 2, 0)
      else
        let ra := codePc hi (word.extractLsb' 0 32)
        if misaligned ra then .error (3, 0, ra) else .ok ({ t with rsp := t.rsp - 8 }, ra)

/-- Bytes written in the warp's spill window. -/
def State.spillWrite (s : State) (wid off : Nat) (bs : List Byte) : State :=
  s.updWarp wid fun w => { w with spill := w.spill.writeBytes off bs }

/-- A call by one thread: the target's alignment, then the push, then the transfer. -/
def State.callTo (s : State) (e : Env) (t : Thread) (target : Addr) : State :=
  if misaligned target then e.trapBefore s t { e.record t 3 0 with addr := target }
  else
    match pushRet e.g t (nextPc e.iss.pc) with
    | none => e.trapBefore s t (e.record t 19 0)
    | some (t', w) =>
      let s := match w with
        | some (off, r) => s.spillWrite e.w.wid off (leBytes 8 r.toNat)
        | none => s
      s.updThread e.w.wid t.idx fun u => { u.goTo target with rs := t'.rs, rsp := t'.rsp }

/-! ## Ending (R153) -/

/-- The bits of a thread in a mask register (R190). -/
def lanesOf (triple : Bool) (i : Nat) : BitVec 24 := if triple then 7#24 <<< (3 * i) else 1#24 <<< i

/-- A thread is removed from every mask register, with the effect of `leave`. -/
def Warp.leaveMasks (w : Warp) (triple : Bool) (i : Nat) : Warp :=
  { w with k := w.k.map fun m => m &&& ~~~(lanesOf triple i) }

/-- The thread ends. -/
def Thread.ended (t : Thread) : Thread := { t with st := .ended, wait := none, inHandler := none, due := [] }

def State.endThread (s : State) (wid i : Nat) (triple : Bool) : State :=
  s.updWarp wid fun w => (w.updThread i Thread.ended).leaveMasks triple i

/-! ## Meanings -/

/-- BRA (R147, R148). -/
def execBra (c : Ctl) (off : BitVec 20) (s : State) : Out :=
  .next (issue { Form.short c [] [] with last := true } noHold (fun e s =>
    s.eachThread e (e.parts c) fun t => t.goTo (relTarget e.iss.pc off)) s)

/-- A control word that stands last and is held under R152. -/
def transferForm (c : Ctl) (src : List Opd) : Form := { Form.short c src [] with last := true }

/-- JMP (R148). -/
def execJmp (c : Ctl) (a : Opd) (s : State) : Out :=
  .next (issue (transferForm c [a]) holdTransfer (fun e s =>
    (e.parts c).foldl (fun s' t =>
      let target := e.regTarget s t a
      if misaligned target then e.trapBefore s' t { e.record t 3 0 with addr := target }
      else s'.updThread e.w.wid t.idx fun u => u.goTo target) s) s)

/-- CALL (R149). -/
def execCall (c : Ctl) (off : BitVec 20) (s : State) : Out :=
  .next (issue (transferForm c []) holdTransfer (fun e s =>
    (e.parts c).foldl (fun s' t => s'.callTo e t (relTarget e.iss.pc off)) s) s)

/-- CALLR (R149). -/
def execCallr (c : Ctl) (a : Opd) (s : State) : Out :=
  .next (issue (transferForm c [a]) holdTransfer (fun e s =>
    (e.parts c).foldl (fun s' t => s'.callTo e t (e.regTarget s t a)) s) s)

/-- RET (R148, R149). -/
def execRet (c : Ctl) (s : State) : Out :=
  .next (issue (transferForm c []) holdTransfer (fun e s =>
    (e.parts c).foldl (fun s' t =>
      match popRet e.g (e.iss.pc.extractLsb' 32 16) e.w.spill t with
      | .error (code, sub, a) => e.trapBefore s' t { e.record t code sub with addr := a }
      | .ok (t', ra) => s'.updThread e.w.wid t.idx fun u => { u.goTo ra with rs := t'.rs, rsp := t'.rsp }) s) s)

/-- The hold of `exit`: a participant's long-latency instructions have not all completed (R153), a store of it is still
carried (R352), or R152. -/
def holdExit (c : Ctl) (s : State) (e : Env) (t : Thread) : Option Hold :=
  if s.mayFault e.w.wid t.idx then some .faults
  else if t.predTrue c.pred c.neg && e.w.busy t.idx then some (.drained false)
  else if t.predTrue c.pred c.neg && s.carried e t then some .settled
  else none

/-- EXIT (R153). -/
def execExit (c : Ctl) (s : State) : Out :=
  .next (issue (transferForm c []) (holdExit c) (fun e s =>
    (e.parts c).foldl (fun s' t => s'.endThread e.w.wid t.idx e.triple) s) s)

/-- TRAP (R154): user trap, code 18, after the instruction. -/
def execTrap (c : Ctl) (n : BitVec 16) (s : State) : Out :=
  .next (issue (Form.short c [] []) noHold (fun e s =>
    (e.parts c).foldl (fun s' t => e.trapAfter s' t { e.record t 18 0 with arg := n }) s) s)

/-- BRK (R154): breakpoint, code 15, after the instruction. -/
def execBrk (c : Ctl) (s : State) : Out :=
  .next (issue (Form.short c [] []) noHold (fun e s =>
    (e.parts c).foldl (fun s' t => e.trapAfter s' t (e.record t 15 0)) s) s)

/-- NOP (R155). -/
def execNop (c : Ctl) (s : State) : Out := .next (issue (Form.short c [] []) noHold (fun _ s => s) s)

/-- The other ready members of the issue slot's active set (R155, R173). -/
def State.slotReady (s : State) (w : Warp) : List Nat :=
  (s.warps.filter fun x => x.active && !x.saved && decide (x.die = w.die) && decide (x.core = w.core) &&
    decide (x.slot % 8 = w.slot % 8) && decide (x.wid ≠ w.wid) && !x.eligible.isEmpty).map fun x => x.wid

/-- YIELD (R155): the group is held back until the other ready members have issued or 64 cycles have passed. -/
def execYield (c : Ctl) (s : State) : Out :=
  .next (issue (Form.short c [] []) noHold (fun e s =>
    if (e.parts c).isEmpty then s
    else s.updWarp e.w.wid fun w => { w with yields := w.yields ++ [(e.iss.thrs, s.now + 64, s.slotReady e.w)] }) s)

/-- TRET (R160, R164). -/
def execTret (c : Ctl) (s : State) : Out :=
  .next (issue { transferForm c [] with
      bad := fun _ t => if t.inHandler.isSome then none else some (0, subField, false) }
    holdTransfer (fun e s =>
    e.group.foldl (fun s' t =>
      match t.inHandler with
      | none => s'
      | some h =>
        s'.updWarp e.w.wid fun w =>
          let w := w.updThread t.idx fun u => u.leaveHandler (e.iss.pc.extractLsb' 32 16) h
          if t.trappcWritten then w.leaveMasks e.triple t.idx else w) s) s)

/-- What issue looks at for `eret`: privileged, last in its clause, with a runtime entry to leave (R251). -/
def eretForm (c : Ctl) : Form :=
  { Form.sup c [] [] with
    last := true
    bad := fun _ t => if t.runtime.isSome then none else some (0, subField, false) }

/-- ERET (R251): to the saved return point. -/
def execEret (c : Ctl) (s : State) : Out :=
  .next (issue (eretForm c) noHold (fun e s =>
    (e.parts c).foldl (fun s' t => match t.runtime with
      | none => s'
      | some r => s'.updThread e.w.wid t.idx fun u => u.leaveRuntime r) s) s)

/-- ERET_REGION (R251, R167). -/
def execEretRegion (c : Ctl) (s : State) : Out :=
  .next (issue (eretForm c) noHold (fun e s =>
    s.eachThread e (e.parts c) fun t => t.leaveToRegion e.codeHi) s)

/-- ERET_EPC (R251). -/
def execEretEpc (c : Ctl) (s : State) : Out :=
  .next (issue (eretForm c) noHold (fun e s =>
    s.eachThread e (e.parts c) fun t => t.leaveToEpc e.codeHi) s)

end Sys2Proof.Machine
end

