-- ==== Sys2Proof/Machine/Shared.lean ====
section
/-! DEFINITION. Block shared memory: portions (R215), barrier objects (R220 to R226), and the accesses performed at the
core that holds a portion (R227). -/

namespace Sys2Proof.Machine

/-- Bytes written one by one. -/
def Mem.writeAll (m : Mem) (l : List (Nat × Byte)) : Mem := l.foldl (fun m x => m.write x.1 x.2) m

/-- The bytes of a run of addresses. -/
def upFrom (a n : Nat) : List Nat := (List.range n).map fun i => a + i

/-- Bytes of block shared memory that each core of a block holds (R215). -/
def Block.portion (b : Block) : Nat :=
  let c := max 1 b.cores.length
  ((b.shBytes + c - 1) / c + 1023) / 1024 * 1024

/-- The rank that holds an offset of block shared memory. -/
def Block.rankOf (b : Block) (off : Nat) : Nat := off / max 1 b.portion

/-! ## Barrier objects (Table 9.4) -/

def barExpected (x : DWord) : Nat := (x.extractLsb' 32 16).toNat
def barArrived (x : DWord) : Nat := (x.extractLsb' 16 16).toNat
def barPhase (x : DWord) : BitVec 16 := x.extractLsb' 0 16

/-- A barrier word as barrier instructions write it: [63:49] zero. -/
def barWord (expected arrived : Nat) (phase : BitVec 16) : DWord :=
  0#16 ++ BitVec.ofNat 16 expected ++ BitVec.ofNat 16 arrived ++ phase

/-- Arrive (R221): the object after, and the phase of arrival. -/
def barArrive (x : DWord) : DWord × BitVec 16 :=
  let a := barPhase x
  let n := barArrived x + 1
  if 0 < barExpected x ∧ n < barExpected x then (barWord (barExpected x) n a, a)
  else (barWord (barExpected x) 0 (a + 1), a)

/-- Drop (R223). -/
def barDrop (x : DWord) (n : Nat) : DWord :=
  let ex := barExpected x - n
  if 0 < barArrived x ∧ ex ≤ barArrived x then barWord ex 0 (barPhase x + 1)
  else barWord ex (barArrived x) (barPhase x)

/-- Passed (R222). -/
def passed (p ph : BitVec 16) : Bool := decide ((p - ph).toNat < 0x8000)

/-- The word of a barrier as it stands. -/
def Block.bar (b : Block) (off : Nat) : DWord := BitVec.ofNat 64 (b.shared.readNat off 8)

/-- A word of block shared memory becomes known as a barrier (R226). -/
def Block.named (b : Block) (off : Nat) : Block := if off ∈ b.bars then b else { b with bars := b.bars ++ [off] }

def Block.setBar (b : Block) (off : Nat) (x : DWord) : Block :=
  { b.named off with shared := b.shared.writeNat off 8 x.toNat }

/-- Some warp of the block has its held bit set (R226). -/
def State.blockHeld (s : State) (bid : Nat) : Bool := s.warps.any fun w => decide (w.bid = bid) && w.held

/-- A byte of block shared memory as it reads: HELD of a barrier is the device's (R224, R226). -/
def State.sharedByte (s : State) (b : Block) (a : Nat) : Byte :=
  let x := b.shared.read a
  if a % 8 = 6 ∧ a - 6 ∈ b.bars then
    let w := b.bar (a - 6)
    let on := s.blockHeld b.bid && decide (barArrived w < barExpected w)
    (x &&& 0xFE) ||| (if on then 1 else 0)
  else x

def State.sharedBytes (s : State) (b : Block) (off n : Nat) : List Byte := (upFrom off n).map (s.sharedByte b)

/-! ## Values of loads (Table 10.3, R37, R237) -/

/-- The registers that a load on a plain page fills. -/
def widthValues (w : Width) (bs : List Byte) : List Triple :=
  let n := leNat bs
  match w with
  | .w8 | .w16 | .w32 | .i32 | .f32 => [.all (BitVec.ofNat 32 n)]
  | .i8 => [.all ((BitVec.ofNat 8 n).signExtend 32)]
  | .i16 => [.all ((BitVec.ofNat 16 n).signExtend 32)]
  | .w64 | .i64 => [.all (wordAt bs 0), .all (wordAt bs 1)]
  | .w128 => [.all (wordAt bs 0), .all (wordAt bs 1), .all (wordAt bs 2), .all (wordAt bs 3)]

/-- The value of 4 or 12 raw bytes. -/
def rawValue (bs : List Byte) : Triple := if bs.length = 12 then tripleAt bs else .all (wordAt bs 0)

/-! ## Results of outstanding instructions -/

/-- The registers from a destination on that receive a list of values. -/
def destParts (i : Nat) (d : Opd) (vals : List Triple) : List Part × List (Nat × Word) :=
  match d with
  | .v n => ((List.range vals.length).map fun k =>
      { thr := i, reg := n + k, val := vals.getD k (.all 0) }, [])
  | .s n => ([], [(n, (vals.headD (.all 0)).s0)])
  | .g n => ([], [(gKey n, (vals.headD (.all 0)).s0)])
  | .sp _ => ([], [])

/-- A sampled instruction's record names the thread whose data return last (R446). -/
def State.sampleLast (s : State) (wid pid i : Nat) : State :=
  s.updWarp wid fun w =>
    { w with pend := mapIf (fun p => p.id = pid) (fun p => { p with sample := p.sample.map fun x => { x with thr := i } }) w.pend }

/-- Values added to an outstanding instruction. -/
def State.addParts (s : State) (wid pid i : Nat) (d : Opd) (vals : List Triple) : State :=
  s.updWarp wid fun w =>
    { w with pend := mapIf (fun p => p.id = pid) (fun p =>
        { p with parts := p.parts ++ (destParts i d vals).1, sparts := p.sparts ++ (destParts i d vals).2 }) w.pend }

/-! ## Barrier waits (R222, R224, R225) -/

/-- A thread that has arrived waits for the phase to pass (R221, R222). -/
def Thread.atBarrier (t : Thread) (off : Nat) (target phase : BitVec 16) (now : Nat) : Thread :=
  t.block (.barrier off target now phase)

/-- PHASE of a barrier as a thread reads it: zero under another owner tag (R228). -/
def Block.phaseFor (b : Block) (tag : BitVec 12) (t : Thread) (off : Nat) : BitVec 16 :=
  if t.owner = tag then barPhase (b.bar off) else 0

/-- A waiting thread at a PHASE: a change restarts its watchdog count (R225), and it waits no more once its target has
passed (R222). -/
def Thread.seePhase (t : Thread) (b : Block) (tag : BitVec 12) (now : Nat) : Thread :=
  match t.wait with
  | some (.barrier off target _ seen) =>
    let ph := b.phaseFor tag t off
    if passed ph target then t.release
    else if ph = seen then t
    else { t with wait := some (.barrier off target now ph) }
  | _ => t

/-- The barrier waits of a block tested again, as at each change of a PHASE (R222, R224). -/
def State.seePhases (s : State) (bid : Nat) : State :=
  match s.block? bid with
  | none => s
  | some b =>
    let tag := ((s.grid? b.gid).map fun g => g.tag).getD 0
    let see := fun (w : Warp) => { w with threads := w.threads.map fun t => t.seePhase b tag s.now }
    { s with warps := mapIf (fun w => decide (w.bid = bid) && !w.saved) see s.warps }

/-- Block shared memory written: the waiters of its barriers see the PHASE that is left (R224), and poison of a sector
covered whole is cleared (R439). -/
def State.writeShared (s : State) (bid : Nat) (l : List (Nat × Byte)) : State :=
  let whole := fun (u : Nat) => (List.range 32).all fun i => l.any fun x => decide (x.1 = u + i)
  let s1 := s.updBlock bid fun b =>
    { b with
      shared := b.shared.writeAll l
      shPoison := if b.shPoison.isEmpty then [] else dropIf whole b.shPoison }
  s1.seePhases bid

/-! ## Accesses at the core of a portion (R227) -/

/-- The bytes of an access to block shared memory. -/
def PortionOp.size (op : PortionOp) (triple : Bool) : Nat :=
  match op with
  | .store bs => bs.length
  | .load w raw => if raw then (if triple then 12 else 4) else w.bytes
  | .atom _ ty _ => AtomTy.bytes' ty
  | .arrive _ | .drop _ | .init _ | .await _ => 8

/-- The results of an access go to the instruction that waits for them. -/
def State.portionResult (s : State) (acc : PortionAcc) (vals : List Triple) : State :=
  match acc.pid, acc.dest with
  | some pid, some d => (s.addParts acc.wid pid acc.thr d vals).sampleLast acc.wid pid acc.thr
  | _, _ => s

/-- The invalid flag of an atomic that has met a signalling NaN: set, or with its trap enabled the trap due (R133,
R240). -/
def State.raiseAtom (s : State) (acc : PortionAcc) (fl : Flags) (old : Triple) : State :=
  if fl = 0 then s
  else
    s.updThread acc.wid acc.thr fun t => match acc.trap with
      | some r => { t with due := { r with arg := fl.setWidth 16, res := old } :: t.due }
      | none => { t with fpstat := t.fpstat ||| fl }

/-- One access performed in the order of its portion: the block after it and the results. -/
def State.applyPortion (s : State) (b : Block) (acc : PortionAcc) : State :=
  let off := acc.off
  match acc.op with
  | .store bs => s.writeShared b.bid ((upFrom off bs.length).zip bs)
  | .load w raw =>
    let bs := s.sharedBytes b off (acc.op.size b.triple)
    s.portionResult acc (if raw then [rawValue bs] else widthValues w bs)
  | .atom op ty x =>
    let old := s.sharedBytes b off (AtomTy.bytes' ty)
    let r := atomPlain op ty b.triple x old
    ((s.writeShared b.bid ((upFrom off r.1.length).zip r.1)).portionResult acc r.2).raiseAtom acc
      (atomFlags op ty b.triple x old) (r.2.headD (.all 0))
  | .arrive wait =>
    let r := barArrive (b.bar off)
    let s1 := s.updBlock b.bid fun b => b.setBar off r.1
    let s2 := if wait then s1.updThread acc.wid acc.thr fun t => t.atBarrier off (r.2 + 1) r.2 s.now
      else s1.portionResult acc [.all (r.2.setWidth 32)]
    s2.seePhases b.bid
  | .drop n => (s.updBlock b.bid fun b => b.setBar off (barDrop (b.bar off) n)).seePhases b.bid
  | .init count => (s.updBlock b.bid fun b => b.setBar off (barWord count 0 0)).seePhases b.bid
  | .await target =>
    let s1 := s.updBlock b.bid fun b => b.named off
    let tag := ((s.grid? b.gid).map fun g => g.tag).getD 0
    (s1.updThread acc.wid acc.thr fun t => t.atBarrier off target (b.phaseFor tag t off) s.now).seePhases b.bid

/-- An access of the issued word to block shared memory, without a result. -/
def Env.portionAcc (e : Env) (t : Thread) (off : Nat) (op : PortionOp) : PortionAcc :=
  { wid := e.w.wid, thr := t.idx, key := e.w.key, issue := e.w.wissue, trap := none, pid := none, dest := none, off := off,
    op := op }

/-- An access to block shared memory: performed at once at the thread's own core, else carried to the core of its
portion (R215, R227). -/
def State.portionAccess (s : State) (bid rank : Nat) (acc : PortionAcc) : State :=
  match s.block? bid with
  | none => s
  | some b =>
    if b.rankOf acc.off = rank then s.applyPortion b acc
    else s.updBlock bid fun b => { b with portions := b.portions ++ [acc] }

/-- Two accesses touch a byte in common. -/
def PortionAcc.meets (x y : PortionAcc) (triple : Bool) : Bool :=
  decide (x.off < y.off + y.op.size triple) && decide (y.off < x.off + x.op.size triple)

/-- Two accesses of one warp to one location keep their order: those of one thread (R227), and those of one issue, in
ascending thread index (R232). -/
def PortionAcc.follows (x y : PortionAcc) (triple : Bool) : Bool :=
  decide (x.wid = y.wid) && (decide (x.thr = y.thr) || decide (x.issue = y.issue)) && x.meets y triple

/-- The carried accesses that may arrive: those that follow none still on its way. -/
def arriving (triple : Bool) : List PortionAcc → List PortionAcc → List PortionAcc
  | _, [] => []
  | before, x :: l =>
    (if before.any fun y => x.follows y triple then [] else [x]) ++ arriving triple (before ++ [x]) l

/-- The key order of R218 places an event of a block: it takes its place in this cycle, or, where a later one has taken
its place already, in the next. -/
def State.placeKey (s : State) (bid key : Nat) : State :=
  match s.block? bid with
  | none => s
  | some b =>
    let s1 := match b.lastKey with
      | some (n, k) => if n = s.now ∧ key < k then s.passCycles 1 else s
      | none => s
    s1.updBlock bid fun b => { b with lastKey := some (s1.now, key) }

/-- An access is a barrier arrival, which the key order places (R221). -/
def PortionOp.arrives : PortionOp → Bool
  | .arrive _ => true
  | _ => false

/-- SHARED_PORTION_ACCESS_ARRIVAL (R227): one carried access arrives and is performed. Which of those that may arrive
comes first is open (log 13); barrier arrivals of one cycle come in the key order (R221). -/
def execSharedPortionAccessArrival (bid : Nat) (s : State) : Out :=
  match s.block? bid with
  | none => .next s
  | some b =>
    let first := arriving b.triple [] b.portions
    let k := if first.length ≤ 1 then 0 else Config.pick (s.fresh + 1) % first.length
    match first.drop k with
    | [] => .next s
    | p :: _ =>
      let b' := { b with portions := b.portions.erase p }
      let s1 := s.updBlock bid fun _ => b'
      .next ((if p.op.arrives then s1.placeKey bid p.key else s1).applyPortion b' p)

end Sys2Proof.Machine
end

