-- ==== Sys2Proof/Machine/Aes.lean ====
section
/-! DEFINITION. AES-XTS-256 on one data unit of 64 bytes, for the encryption of main memory (R440). The spec names the
cipher; its rounds are those of FIPS 197 and its tweaks those of IEEE 1619 (log 104). -/

namespace Sys2Proof.Machine

/-! ## Bytes as elements of the field of 256 -/

/-- Twice an element. -/
def gfDouble (x : Byte) : Byte := if x.msb then (x <<< 1) ^^^ 0x1b else x <<< 1

/-- The product of two elements. -/
def gfMul (x y : Byte) : Byte :=
  ((List.range 8).foldl (fun (acc : Byte × Byte) i => (if y.getLsbD i then acc.1 ^^^ acc.2 else acc.1, gfDouble acc.2))
    (0, x)).1

/-- The inverse of an element, 0 of 0: its 254th power. -/
def gfInv (x : Byte) : Byte := (List.range 7).foldl (fun acc _ => gfMul (gfMul acc acc) (gfMul x x)) 1

/-- The substitution of one byte. -/
def aesSub (x : Byte) : Byte :=
  let b := gfInv x
  b ^^^ b.rotateLeft 1 ^^^ b.rotateLeft 2 ^^^ b.rotateLeft 3 ^^^ b.rotateLeft 4 ^^^ 0x63

/-- Its table, and the table of its inverse. -/
def aesBox : List Byte := (List.range 256).map fun n => aesSub (BitVec.ofNat 8 n)

def aesBoxInv : List Byte := (List.range 256).map fun n => BitVec.ofNat 8 (aesBox.findIdx fun y => y = BitVec.ofNat 8 n)

def subBytes (box l : List Byte) : List Byte := l.map fun x => box.getD x.toNat 0

def xorBytes (a b : List Byte) : List Byte := (a.zip b).map fun x => x.1 ^^^ x.2

/-! ## Rounds, on the sixteen bytes of a block, column by column -/

/-- Row `r` moves left by `r` columns, or right. -/
def shiftRows (l : List Byte) : List Byte := (List.range 16).map fun i => l.getD ((i + 4 * (i % 4)) % 16) 0

def shiftRowsBack (l : List Byte) : List Byte := (List.range 16).map fun i => l.getD ((i + 12 * (i % 4)) % 16) 0

/-- Every column multiplied by the matrix whose first row is given. -/
def mixColumns (row l : List Byte) : List Byte :=
  (List.range 16).map fun i =>
    (List.range 4).foldl (fun acc k => acc ^^^ gfMul (row.getD ((k + 4 - i % 4) % 4) 0) (l.getD (i / 4 * 4 + k) 0)) 0

def mixRow : List Byte := [2, 3, 1, 1]
def mixRowBack : List Byte := [14, 11, 13, 9]

/-- The next word of the key schedule of a 256-bit key; `w` holds the words so far. -/
def aesNextWord (w : List (List Byte)) : List Byte :=
  let n := w.length
  let t := w.getD (n - 1) []
  let x := if n % 8 = 0 then
      xorBytes (subBytes aesBox (t.drop 1 ++ t.take 1)) [(List.range (n / 8 - 1)).foldl (fun r _ => gfDouble r) 1, 0, 0, 0]
    else if n % 8 = 4 then subBytes aesBox t else t
  xorBytes (w.getD (n - 8) []) x

/-- The fifteen round keys of a key of 32 bytes. -/
def aesKeys (key : List Byte) : List (List Byte) :=
  let w := (List.range 52).foldl (fun w _ => w ++ [aesNextWord w]) ((List.range 8).map fun i => (key.drop (4 * i)).take 4)
  (List.range 15).map fun r => ((w.drop (4 * r)).take 4).flatten

/-- A block encrypted. -/
def aesEncrypt (keys : List (List Byte)) (l : List Byte) : List Byte :=
  let k := fun (r : Nat) => keys.getD r []
  let mid := (List.range 13).foldl
    (fun x r => xorBytes (mixColumns mixRow (shiftRows (subBytes aesBox x))) (k (r + 1))) (xorBytes l (k 0))
  xorBytes (shiftRows (subBytes aesBox mid)) (k 14)

/-- A block decrypted. -/
def aesDecrypt (keys : List (List Byte)) (l : List Byte) : List Byte :=
  let k := fun (r : Nat) => keys.getD r []
  let back := fun (x : List Byte) => subBytes aesBoxInv (shiftRowsBack x)
  let mid := (List.range 13).foldl
    (fun x r => mixColumns mixRowBack (xorBytes (back x) (k (13 - r)))) (xorBytes l (k 14))
  xorBytes (back mid) (k 0)

/-! ## XTS -/

/-- A tweak doubled, as an element of the field of 2^128 with its first byte the least significant. -/
def tweakDouble (l : List Byte) : List Byte :=
  let n := leNat l
  let m := 2 * n % 2 ^ 128
  leBytes 16 (if n < 2 ^ 127 then m else m ^^^ 0x87)

/-- The tweaks of the four blocks of data unit `unit`. -/
def xtsTweaks (key2 : List Byte) (unit : Nat) : List (List Byte) :=
  let t := aesEncrypt (aesKeys key2) (leBytes 16 unit)
  [t, tweakDouble t, tweakDouble (tweakDouble t), tweakDouble (tweakDouble (tweakDouble t))]

/-- A data unit of four blocks, each between two additions of its tweak. -/
def xtsUnit (f : List Byte → List Byte) (tweaks : List (List Byte)) (data : List Byte) : List Byte :=
  ((List.range 4).map fun i =>
    let t := tweaks.getD i []
    xorBytes (f (xorBytes ((data.drop (16 * i)).take 16) t)) t).flatten

/-- The two keys of a pair: the data key is the lower half. -/
def dataKey (pair : Nat) : List Byte := leBytes 32 (pair % 2 ^ 256)

def tweakKey (pair : Nat) : List Byte := leBytes 32 (pair / 2 ^ 256 % 2 ^ 256)

/-- Data unit `unit` encrypted, and decrypted, under a key pair. -/
def xtsEncrypt (pair unit : Nat) (data : List Byte) : List Byte :=
  xtsUnit (aesEncrypt (aesKeys (dataKey pair))) (xtsTweaks (tweakKey pair) unit) data

def xtsDecrypt (pair unit : Nat) (data : List Byte) : List Byte :=
  xtsUnit (aesDecrypt (aesKeys (dataKey pair))) (xtsTweaks (tweakKey pair) unit) data

end Sys2Proof.Machine
end

