-- ==== Sys2Proof/Machine/Translate.lean ====
section
/-! DEFINITION. Translation: the scratchpad tables of R314, the main-memory tables of R464, stale cached entries (R315),
the system physical map (R465), reads of main memory under a key (R440), and the fetch of a word (R71). -/

namespace Sys2Proof.Machine

/-! ## Physical addresses (Table 25.3) -/

/-- System physical address of byte 0 of a die's scratchpad. -/
def State.spBase (s : State) (d : Nat) : Nat := 0x40000000000 + s.pkg.pkg.toNat * 2 ^ 32 + d * 2 ^ 28

/-- Bytes of scratchpad of a die: 160 MiB (R311). -/
def spSize : Nat := 0xA000000

/-- What lies at a system physical address. -/
inductive Region where
  | stacked (package : Nat)
  | scratch (package die : Nat)
  | companion
  | reserved
deriving DecidableEq, Repr

def regionOf (a : Nat) : Region :=
  if a < 2 ^ 42 then .stacked (a / 2 ^ 39)
  else if a < 2 ^ 42 + 2 ^ 35 then
    (if a % 2 ^ 28 < spSize ∧ a / 2 ^ 28 % 16 < 4 then .scratch ((a - 2 ^ 42) / 2 ^ 32) (a / 2 ^ 28 % 16) else .reserved)
  else if a < 0x400000000000 then .reserved
  else if a < 2 ^ 47 then .companion
  else .reserved

/-! ## Keys (R440) -/

/-- The number of the key in a slot; 0 for a PLAIN slot. -/
def State.keyNum (s : State) (tag : BitVec 12) : Nat :=
  match s.pkg.keys.find? fun x => x.1 = tag with
  | some (_, .keyed n) => n
  | _ => 0

/-- The key that a byte of stacked memory was written under. -/
def State.writtenKey (s : State) (a : Nat) : Nat := lookupD (a / 64) 0 s.pkg.written

/-- The key pair of a numbered key: even numbers are loaded keys, odd ones generated (R453). -/
def keyPairOf (n : Nat) : Nat := if n % 2 = 0 then (n - 2) / 2 else (Config.freshKey (n / 2)).toNat

/-- A data unit of stacked memory that was written under one key, as it reads under another: the ciphertext, decrypted
with the reader's key. Key 0 is no encryption; the tweak is bits [47:6] of the address (R440). -/
def recrypt (kw kr unit : Nat) (data : List Byte) : List Byte :=
  let stored := if kw = 0 then data else xtsEncrypt (keyPairOf kw) unit data
  if kr = 0 then stored else xtsDecrypt (keyPairOf kr) unit stored

/-- A byte at a system physical address as an access under a tag reads it. -/
def State.readPhys (s : State) (tag : BitVec 12) (a : Nat) : Byte :=
  if a < 2 ^ 42 then
    let kw := s.writtenKey a
    let kr := s.keyNum tag
    if kw = kr then s.mem.read a
    else (recrypt kw kr (a / 64) ((List.range 64).map fun i => s.mem.read (a / 64 * 64 + i))).getD (a % 64) 0
  else s.mem.read a

def State.readPhysBytes (s : State) (tag : BitVec 12) (a : Nat) : Nat → List Byte
  | 0 => []
  | n + 1 => s.readPhys tag a :: State.readPhysBytes s tag (a + 1) n

def State.readPhysNat (s : State) (tag : BitVec 12) (a n : Nat) : Nat := leNat (s.readPhysBytes tag a n)

/-! ## Scratchpad pages (R314) -/

/-- An 8-byte table entry in the scratchpad of a die; a table beyond the scratchpad has none. -/
def State.spEntry (s : State) (d pa : Nat) : Option DWord :=
  if pa + 8 ≤ spSize then some (BitVec.ofNat 64 (s.mem.readNat (s.spBase d + pa) 8)) else none

/-- V is 1 and [57:28] is zero (Table 16.2). -/
def entryValid (x : DWord) : Bool := x.getLsbD 63 && decide (x.extractLsb' 28 30 = 0)

/-- The level-1 entry for an offset of the 8 GiB space under a root. -/
def State.spFirst (s : State) (d : Nat) (root : Word) (off : Nat) : Option DWord :=
  s.spEntry d ((root.extractLsb' 15 13).toNat * 2 ^ 15 + 8 * (off / 2 ^ 21 % 4096))

/-- The leaf that a level-1 entry leads to, and whether it is a 2 MiB leaf. -/
def State.spSecond (s : State) (d : Nat) (off : Nat) (e1 : DWord) : Option (DWord × Bool) :=
  if !entryValid e1 then none
  else if e1.getLsbD 62 then some (e1, true)
  else if e1.extractLsb' 58 4 ≠ 0 then none
  else
    match s.spEntry d ((e1.extractLsb' 8 20).toNat * 256 + 8 * (off / 2 ^ 16 % 32)) with
    | none => none
    | some e2 => if !entryValid e2 || e2.getLsbD 62 then none else some (e2, false)

/-- The leaf entry for an offset of the 8 GiB space, and whether it is a 2 MiB leaf (R314). -/
def State.walkSp (s : State) (d : Nat) (root : Word) (off : Nat) : Option (DWord × Bool) :=
  (s.spFirst d root off).bind (s.spSecond d off)

/-- The physical address that a leaf gives to an offset. -/
def leafPa (x : DWord) (big : Bool) (off : Nat) : Nat :=
  if big then (x.extractLsb' 21 7).toNat * 2 ^ 21 + off % 2 ^ 21 else (x.extractLsb' 16 12).toNat * 2 ^ 16 + off % 2 ^ 16

def leafMode (x : DWord) : Nat := (x.extractLsb' 60 2).toNat
def leafD (x : DWord) : Bool := x.getLsbD 59
def leafWr (x : DWord) : Bool := x.getLsbD 58

/-- A cached leaf that covers a 64 KiB page of a window (R315). -/
def Tlb.covers (x : Tlb) (core : Option Nat) (tag : BitVec 12) (main : Bool) (page : Nat) : Bool :=
  (decide (x.core = none) || decide (x.core = core)) && decide (x.tag = tag) && (x.main == main) && decide (x.level = 0) &&
    (if x.big then decide (x.page / 32 = page / 32) else decide (x.page = page))

/-- Pages that a pointer entry of a level reaches: of the scratchpad 2 MiB, of main memory 2^37 and 2^27 bytes (R314,
R464). -/
def pointerPages (main : Bool) (level : Nat) : Nat := if !main then 32 else if level = 1 then 2 ^ 21 else 2 ^ 11

/-- A cached pointer entry of a level on the path to a page. -/
def Tlb.points (x : Tlb) (level : Nat) (tag : BitVec 12) (main : Bool) (page : Nat) : Bool :=
  decide (x.level = level) && decide (0 < level) && decide (x.tag = tag) && (x.main == main) &&
    decide (x.page / pointerPages main level = page / pointerPages main level)

/-- A `tlbinv` on the die has covered the page, or the 2 MiB leaf on which it lies, since the root was replaced (R402). -/
def OldRoot.covers (r : OldRoot) (d page : Nat) (big : Bool) : Bool :=
  r.covered.any fun x => decide (x.1 = d) && (match x.2 with
    | none => true
    | some p => if big then decide (p / 32 = page / 32) else decide (p = page))

/-- The leaf of a replaced root, where no `tlbinv` has covered it. -/
def State.oldRootLeaf (s : State) (d page : Nat) (r : OldRoot) : Option (DWord × Bool) :=
  match s.walkSp d r.root (page * 2 ^ 16) with
  | some x => if r.covers d page x.2 then none else some x
  | none => none

/-- The old entries that an access may still use: cached leaves, those that cached level-1 entries lead to, and those of
replaced roots (R315). -/
def State.oldLeaves (s : State) (d : Nat) (core : Option Nat) (tag : BitVec 12) (page : Nat) (keep : Tlb → Bool)
    (roots : List OldRoot) : List (DWord × Bool) :=
  let l := (s.die d).tlbs.filter keep
  ((l.filter fun x => x.covers core tag false page).map fun x => (BitVec.ofNat 64 x.leaf, x.big)) ++
    ((l.filter fun x => x.points 1 tag false page).filterMap fun x => s.spSecond d (page * 2 ^ 16) (BitVec.ofNat 64 x.leaf)) ++
    roots.filterMap (s.oldRootLeaf d page)

/-- The leaf of an access: the table's; where an old entry differs, the old one or the new (R315, log 17). For the thread
that wrote the root, entries of other roots are gone (R314). -/
def State.leaf (s : State) (d : Nat) (core : Option Nat) (tag : BitVec 12) (who : Option (Nat × Nat)) (off : Nat) :
    Option (DWord × Bool) :=
  let page := off / 2 ^ 16
  let c := s.ctx tag
  let new := s.walkSp d c.sptroot off
  let writer := who.isSome && decide (c.rootBy = who)
  let old := if writer then s.oldLeaves d core tag page (fun x => decide (x.root = c.sptroot)) []
    else s.oldLeaves d core tag page (fun _ => true) c.oldRoots
  match old.find? fun x => decide (some x ≠ new) with
  | none => new
  | some old => if Config.freshTranslation s.fresh page then new else some old

/-- A walk starts for a page that no buffer of the core holds and no walk serves (R316); `path` holds the pointer entries
that it goes by. -/
def State.startWalk (s : State) (d : Nat) (core : Option Nat) (tag : BitVec 12) (main : Bool) (page : Nat)
    (x : Option (DWord × Bool)) (path : List DWord) : State :=
  match x with
  | none => s
  | some (w, big) =>
    let di := s.die d
    let t : Tlb :=
      { core := core, tag := tag, main := main, page := page, leaf := w.toNat, big := big, path := path.map fun y => y.toNat,
        root := if main then 0 else (s.ctx tag).sptroot }
    if (di.tlbs.any fun y => y.covers core tag main page && decide (y.core = core)) ||
        (di.walks.any fun y => decide (y.tag = tag) && (y.main == main) && decide (y.page = page)) then s
    else (s.setDie { di with walks := di.walks ++ [t] }).charge tag 21 1

/-- The pointer entries of the walk to an offset: the level-1 entry, unless it is itself the leaf. -/
def State.spPath (s : State) (d : Nat) (tag : BitVec 12) (off : Nat) : List DWord :=
  ((s.spFirst d (s.ctx tag).sptroot off).filter fun e1 => entryValid e1 && !e1.getLsbD 62).toList

/-! ## Main-memory pages (R464, R465) -/

/-- An entry of the main-memory table. -/
def State.mainEntry (s : State) (tag : BitVec 12) (a : Nat) : DWord := BitVec.ofNat 64 (s.readPhysNat tag a 8)

/-- V is 1, LEAF is as the level asks, and [60:47] is zero (Table 25.1). -/
def mainValid (leaf : Bool) (x : DWord) : Bool :=
  x.getLsbD 63 && (x.getLsbD 62 == leaf) && decide (x.extractLsb' 47 14 = 0)

/-- Where a pointer entry leads. -/
def mainPtr (x : DWord) : Nat := (x.extractLsb' 12 35).toNat * 2 ^ 12

/-- Whether a leaf names memory that it may: no reserved range, and no peer scratchpad with WR (R465); on the reduced bin
the last 128 GiB of a package's stacked memory are reserved (R2). -/
def State.mainLeafOk (s : State) (x : DWord) : Bool :=
  match regionOf ((x.extractLsb' 16 31).toNat * 2 ^ 16) with
  | .stacked _ => !s.pkg.reduced || decide ((x.extractLsb' 16 23).toNat < 6 * 2 ^ 20)
  | .scratch p _ => decide (p = s.pkg.pkg.toNat) || !x.getLsbD 61
  | .companion => true
  | .reserved => false

/-- The level-1 entry of a main-memory virtual address. -/
def State.mainFirst (s : State) (tag : BitVec 12) (va : Nat) : DWord :=
  s.mainEntry tag ((s.ctx tag).mptroot.toNat * 2 ^ 15 + 8 * (va / 2 ^ 37 % 1024))

/-- The level-2 entry that a level-1 entry leads to. -/
def State.mainSecond (s : State) (tag : BitVec 12) (va : Nat) (e1 : DWord) : Option DWord :=
  if mainValid false e1 then some (s.mainEntry tag (mainPtr e1 + 8 * (va / 2 ^ 27 % 1024))) else none

/-- The leaf that a level-2 entry leads to. -/
def State.mainThird (s : State) (tag : BitVec 12) (va : Nat) (e2 : DWord) : Option DWord :=
  if mainValid false e2 then
    let e3 := s.mainEntry tag (mainPtr e2 + 8 * (va / 2 ^ 16 % 2048))
    if mainValid true e3 && s.mainLeafOk e3 then some e3 else none
  else none

/-- The leaf entry of a main-memory virtual address. -/
def State.walkMain (s : State) (tag : BitVec 12) (va : Nat) : Option DWord :=
  (s.mainSecond tag va (s.mainFirst tag va)).bind (s.mainThird tag va)

/-- The system physical address that a main-memory leaf gives. -/
def mainPa (x : DWord) (va : Nat) : Nat := (x.extractLsb' 16 31).toNat * 2 ^ 16 + va % 2 ^ 16

/-- A copy may write the page: WR is 1, and scratchpad is read only by this path (Table 25.3). -/
def mainWr (x : DWord) : Bool :=
  x.getLsbD 61 && (match regionOf ((x.extractLsb' 16 31).toNat * 2 ^ 16) with
    | .scratch _ _ => false
    | _ => true)

/-! ## Accesses by agents of a die (R228) -/

/-- The system physical address of an offset of the scratchpad windows for an agent that acts under a tag, with the
leaf. -/
def State.agentPage (s : State) (d : Nat) (tag : BitVec 12) (off : Nat) (wr : Bool) : Option (Nat × DWord) :=
  match s.leaf d none tag none off with
  | none => none
  | some (x, big) =>
    if leafMode x = 3 || (wr && !leafWr x) || decide (spSize ≤ leafPa x big off) then none
    else some (s.spBase d + leafPa x big off, x)

/-- The system physical addresses of `n` bytes, at most a page, at an offset of the scratchpad windows. -/
def State.agentSpan (s : State) (d : Nat) (tag : BitVec 12) (off n : Nat) (wr : Bool) : Option (List Nat) :=
  let next := (off / 65536 + 1) * 65536
  let run := fun (a k : Nat) => (List.range k).map fun i => a + i
  match s.agentPage d tag off wr with
  | none => none
  | some x =>
    if off + n ≤ next then some (run x.1 n)
    else if 2 ^ 33 ≤ next then none
    else (s.agentPage d tag next wr).map fun y => run x.1 (next - off) ++ run y.1 (n - (next - off))

/-- A line of another tag among some bytes. -/
def State.otherTag (s : State) (tag : BitVec 12) (bytes : List Nat) : Bool :=
  bytes.any fun a => decide (lookupD (a / 128) 0 s.tags ≠ tag)

/-- Bytes at a system physical address of a scratchpad under a tag: zero where the line's tag differs (R228). -/
def State.taggedBytes (s : State) (tag : BitVec 12) (a n : Nat) : List Byte :=
  (List.range n).map fun i => if lookupD ((a + i) / 128) 0 s.tags = tag then s.mem.read (a + i) else 0

/-! ## Fetch (R71, log 7) -/

/-- The word at a PC for a context; none where no translation exists or the page is not executable. -/
def State.fetchWord (s : State) (tag : BitVec 12) (pc : Addr) : Option DWord :=
  if pc.getLsbD 47 then none
  else if pc.toNat / 2 ^ 16 ∈ (s.ctx tag).noExec then none
  else
    match s.walkMain tag pc.toNat with
    | none => none
    | some x => some (BitVec.ofNat 64 (s.readPhysNat tag (mainPa x pc.toNat) 8))

end Sys2Proof.Machine
end

