-- ==== Sys2Proof/Machine/Watch.lean ====
section
/-! DEFINITION. Trace buffers and records (R446 to R448), data watchpoints (R449), and the counting of soft errors
(R438, R439). -/

namespace Sys2Proof.Machine

/-! ## Trace records (Table 23.3) -/

/-- Records of a cluster's buffer. -/
def traceRoom : Nat := 2048

/-- The words of a record before its last 12 bytes. -/
def traceHead (kind die core : Nat) (tag : BitVec 12) (field : Nat) (t pc : Word) (now : Nat) : List Word :=
  [BitVec.ofNat 32 (kind + 256 * die + 65536 * core), BitVec.ofNat 32 (tag.toNat + 65536 * field), t, pc,
    BitVec.ofNat 32 now]

/-- The core that a warp's records name: FFh for a service warp (Table 23.3). -/
def Warp.traceCore (w : Warp) : Nat := if w.service then 0xFF else w.core

/-- A record enters its cluster's buffer at a cost to its context, or is dropped and counted (R448). -/
def State.traceWrite (s : State) (d cl : Nat) (tag : BitVec 12) (rec : List Word) : State :=
  let c := s.cluster d cl
  if c.dropped = 0 ∧ c.trace.length < traceRoom then
    (s.setCluster { c with trace := c.trace ++ [rec] }).charge tag 28 1
  else s.setCluster { c with dropped := c.dropped + 1 }

/-! ## Watchpoints -/

/-- A watchpoint struck by an access of `n` bytes at `va`: the lowest struck byte (R449). -/
def Watch.struck (x : Watch) (va n : Nat) (rd wr : Bool) : Option Nat :=
  if x.en && ((rd && x.rd) || (wr && x.wr)) then
    ((List.range n).map fun i => va + i).find? fun a =>
      decide (x.addr ≤ a) && decide (a < x.addr + 64) && x.mask.getLsbD (a - x.addr)
  else none

/-- The watchpoints of a die struck by an access of a context, by number with the lowest struck byte (R444, R449). -/
def State.strikes (s : State) (d : Nat) (tag : BitVec 12) (va n : Nat) (rd wr : Bool) : List (Nat × Nat) :=
  if s.attached d tag then
    ((List.range 4).zip (s.die d).watches).filterMap fun x => (x.2.struck va n rd wr).map fun a => (x.1, a)
  else []

/-- WPSTAT.HIT set for the watchpoints struck. -/
def State.hit (s : State) (d : Nat) (l : List (Nat × Nat)) : State :=
  if l.isEmpty then s
  else
    let di := s.die d
    s.setDie { di with wpstat := l.foldl (fun b x => b ||| (1#4 <<< x.1)) di.wpstat }

/-! ## Soft errors -/

/-- A 16-bit count that saturates. -/
def satInc16 (x : BitVec 16) : BitVec 16 := if x = 0xFFFF then x else x + 1

/-- ECCSTAT after an error met on a die. -/
def eccAfter (w : Word) (correctable : Bool) : Word :=
  if correctable then w.extractLsb' 16 16 ++ satInc16 (w.extractLsb' 0 16)
  else satInc16 (w.extractLsb' 16 16) ++ w.extractLsb' 0 16

/-- The protected unit of a system physical address: 64 bytes in stacked memory, 32 bytes on chip (R439). -/
def unitOf (a : Nat) : Nat := if a < 2 ^ 42 then a / 64 * 64 else a / 32 * 32

/-- The errors that a read by a die of these bytes meets: a correctable one is corrected, an uncorrectable one poisons
its unit; each is counted (R438, R439). -/
def State.scrub (s : State) (d : Nat) (bytes : List Nat) : State :=
  let hit := fun (x : Nat × Bool) => bytes.any fun a => decide (unitOf a = unitOf x.1)
  (s.pkg.latent.filter hit).foldl (fun s x =>
    let di := s.die d
    let s1 := s.setDie { di with ecc := eccAfter di.ecc x.2 }
    { s1 with pkg := { s1.pkg with
        latent := s1.pkg.latent.erase x
        poison := if x.2 then s1.pkg.poison else unitOf x.1 :: dropIf (fun u => u = unitOf x.1) s1.pkg.poison } }) s

/-- A die counts a soft error (R438, R439). -/
def State.countError (s : State) (d : Nat) (correctable : Bool) : State :=
  let di := s.die d
  s.setDie { di with ecc := eccAfter di.ecc correctable }

/-- A soft error strikes. One of the system physical space is met by the next read of its unit; one of the unified store is
met at once: counted by its die and, where it cannot be corrected, poison of the unit (R438, R439, log 100). -/
def State.strike (s : State) (x : ErrorAt) (correctable : Bool) : State :=
  match x with
  | .phys a => { s with pkg := { s.pkg with latent := s.pkg.latent ++ [(a, correctable)] } }
  | .reg wid thr copy =>
    match s.warp? wid with
    | none => s
    | some w =>
      let s1 := s.countError w.die correctable
      if correctable then s1 else s1.updThread wid thr fun t => { t with poison := addNew copy t.poison }
  | .shared bid off =>
    match s.block? bid with
    | none => s
    | some b =>
      let s1 := s.countError b.die correctable
      if correctable then s1 else s1.updBlock bid fun b => { b with shPoison := addNew (off / 32 * 32) b.shPoison }
  | .spill wid off =>
    match s.warp? wid with
    | none => s
    | some w =>
      let s1 := s.countError w.die correctable
      if correctable then s1 else s1.updWarp wid fun w => { w with spillPoison := addNew (off / 32 * 32) w.spillPoison }

/-- A byte of a poisoned unit among these. -/
def State.poisonedAt (s : State) (bytes : List Nat) : Option Nat := bytes.find? fun a => decide (unitOf a ∈ s.pkg.poison)

/-- Poison cleared of the units that a write covers whole. -/
def State.heal (s : State) (bytes : List Nat) : State :=
  let whole := fun (u : Nat) =>
    (List.range (if u < 2 ^ 42 then 64 else 32)).all fun i => decide (u + i ∈ bytes)
  if s.pkg.poison.any whole then { s with pkg := { s.pkg with poison := dropIf whole s.pkg.poison } } else s

end Sys2Proof.Machine
end

