-- ==== Sys2Proof/Machine/Access.lean ====
section
/-! DEFINITION. One access of one thread: its address (R231), the checks of Table 10.4 (R233), the bytes it touches, the
values of the storage modes (R34 to R41), tape records (R362 to R364), and the core cache (R217, R312). -/

namespace Sys2Proof.Machine

/-! ## Addresses (R211, R231) -/

/-- The base of a window. -/
def winBase (w : Win) : Addr :=
  match w with
  | .mm => 0
  | .sp => 0xC00000000000
  | .adj => 0xC00100000000
  | .sh => 0xE00000000000
  | .spill => 0xE10000000000
  | .far => 0

/-- The 48-bit address in a register and the one after it (R231). -/
def Env.farAddr (e : Env) (s : State) (t : Thread) (o : Opd) : Addr :=
  (e.read0 s t (o.plus 1)).extractLsb' 0 16 ++ e.read0 s t o

/-- The address that a memory word gives a thread. -/
def Env.memAddr (e : Env) (s : State) (t : Thread) (m : MemWord) : Addr :=
  if m.win = .far then e.farAddr s t m.base + m.off.signExtend 48
  else winBase m.win + (e.read0 s t m.base + m.off.signExtend 32).setWidth 48

/-- What lies at an address for a thread (Table 9.3). -/
inductive Place where
  | main
  | scratch (off : Nat)
  | shared (off : Nat)
  | spill (off : Nat)
  | nowhere
deriving DecidableEq, Repr

/-- Where `n` bytes at an address lie. -/
def Env.place (e : Env) (a : Addr) (n : Nat) : Place :=
  let x := a.toNat
  if x < 2 ^ 47 then .main
  else if 0xC00000000000 ≤ x ∧ x + n ≤ 0xC00200000000 then .scratch (x - 0xC00000000000)
  else if 0xE00000000000 ≤ x ∧ x + n ≤ 0xE00000000000 + e.b.shBytes then .shared (x - 0xE00000000000)
  else if 0xE10000000000 ≤ x ∧ x + n ≤ 0xE10000000000 + 24 * e.g.spillSize then .spill (x - 0xE10000000000)
  else .nowhere

/-! ## Kinds of access -/

/-- What an access does with the bytes at its address. -/
inductive AccKind where
  /-- `ld`, `st`: an element of the page's storage mode. -/
  | elem (w : Width)
  /-- `ldacq`, `strel`, `acqrem`: the same, and none on a D page (R236). -/
  | ordered (w : Width)
  /-- `ldx`, `stx`: raw sibling words (R237). -/
  | raw
  /-- `adjld`, `adjclr`: the adjoint cell of an element of a D page (R400). -/
  | cell
  /-- Remote atomics (R301). -/
  | remote (ty : AtomTy)
deriving DecidableEq, Repr

/-- One access. -/
structure Acc where
  a : Addr
  kind : AccKind
  wr : Bool
deriving DecidableEq, Repr

/-- Bytes touched on a page of a storage mode. -/
def AccKind.span (k : AccKind) (triple wr : Bool) (mode : Nat) : Nat :=
  match k with
  | .elem w | .ordered w => if mode = 1 then (if triple || wr then 12 else 4) else w.bytes
  | .raw => if triple then 12 else 4
  | .cell => if mode = 1 then (if triple || wr then 12 else 4) else 4
  | .remote ty => if mode = 1 then 12 else AtomTy.bytes' ty

/-- Alignment (step 2). -/
def AccKind.align (k : AccKind) : Nat :=
  match k with
  | .elem w | .ordered w => w.bytes
  | .raw | .cell => 4
  | .remote ty => if ty = .w64 then 8 else 4

/-- Bytes within which the access must stay in its window, before any page is looked at (step 3). -/
def AccKind.reach (k : AccKind) (triple : Bool) : Nat :=
  match k with
  | .elem w | .ordered w => w.bytes
  | .raw => if triple then 12 else 4
  | .cell => 4
  | .remote ty => AtomTy.bytes' ty

/-- Whether a storage mode allows the access (step 6, R35, R301). -/
def AccKind.modeOk (k : AccKind) (mode : Nat) : Bool :=
  match k with
  | .elem w | .ordered w =>
    if mode = 0 then true
    else if mode = 1 then decide (w = .w32) || decide (w = .i32) || decide (w = .f32)
    else decide (w = .f32)
  | .raw => true
  | .cell => true
  | .remote ty => decide (mode = 0) || (decide (mode = 1) && decide (ty ≠ .w64))

/-- Whether the access is a misuse of a D page, or of a page that is none (step 7, R236, R301, R400). -/
def AccKind.misuse (k : AccKind) (wr d : Bool) (mode : Nat) : Bool :=
  match k with
  | .elem w => d && (decide (w ≠ .f32) || decide (mode = 2))
  | .ordered _ => d
  | .raw => d && (wr || decide (mode = 2))
  | .cell => !d || decide (mode = 2)
  | .remote _ => d

/-! ## Checks -/

/-- A failing check: the trap, the faulting byte, and the watchpoints struck. -/
structure Fail where
  code : Nat
  sub : Nat
  addr : Nat
  hits : List (Nat × Nat)
deriving DecidableEq, Repr

def Fail.mk' (code sub addr : Nat) : Fail := { code := code, sub := sub, addr := addr, hits := [] }

/-- A store of bytes: the system physical space, block shared memory, or the warp's spill window. -/
inductive Store where
  | phys | shared | spill
deriving DecidableEq, Repr

/-- The bytes of an access, with their page's storage mode and D attribute. -/
structure Loc where
  store : Store
  bytes : List Nat
  mode : Nat
  d : Bool
deriving DecidableEq, Repr

/-- The leaf entry of a page of the scratchpad windows for a thread's access; none where the access faults (R34,
R314). -/
def State.page (s : State) (e : Env) (t : Thread) (off : Nat) (wr : Bool) : Option (DWord × Bool) :=
  match s.leaf e.w.die (some e.w.core) t.owner (some (e.w.wid, t.idx)) off with
  | none => none
  | some (x, big) =>
    if leafMode x = 3 || (wr && !leafWr x) || decide (spSize ≤ leafPa x big off) then none else some (x, big)

def pageSize : Nat := 65536

/-- The walk that an access to an offset of the scratchpad windows starts where its core holds no entry (R315, R316). -/
def State.walked (s : State) (e : Env) (t : Thread) (off : Nat) : State :=
  s.startWalk e.w.die (some e.w.core) t.owner false (off / 65536)
    (s.leaf e.w.die (some e.w.core) t.owner (some (e.w.wid, t.idx)) off) (s.spPath e.w.die t.owner off)

/-- A page has the D attribute; the adjoint shadow window has none (R236). -/
def pageD (x : DWord × Bool) (off : Nat) : Bool := leafD x.1 && decide (off < 2 ^ 32)

/-- The bytes of an access of `n` bytes at an offset whose first page has the leaf given, and whether a page of them has
the D attribute. They must stay in their window (step 3); with `same` both pages must have one storage mode (step 5,
R37). -/
def State.spread (s : State) (e : Env) (t : Thread) (off n : Nat) (wr same : Bool) (x : DWord × Bool) :
    Except Fail (List Nat × Bool) :=
  let base := s.spBase e.w.die
  let first := base + leafPa x.1 x.2 off
  let next := (off / pageSize + 1) * pageSize
  if off + n ≤ next then .ok (upFrom first n, pageD x off)
  else
    let bad := Fail.mk' 5 0 (0xC00000000000 + next)
    if next = 2 ^ 32 ∨ 2 ^ 33 ≤ next then .error bad
    else
      match s.page e t next wr with
      | none => .error bad
      | some y =>
        if same && decide (leafMode y.1 ≠ leafMode x.1) then .error bad
        else
          let k := next - off
          .ok (upFrom first k ++ upFrom (base + leafPa y.1 y.2 next) (n - k), pageD x off || pageD y next)

/-- Steps 1 to 5 of Table 10.4. -/
def State.locate (s : State) (e : Env) (t : Thread) (x : Acc) : Except Fail Loc :=
  let a := x.a.toNat
  let n := x.kind.reach e.triple
  match e.place x.a n with
  | .main => .error (Fail.mk' 4 0 a)
  | .nowhere => .error (if a % x.kind.align ≠ 0 then Fail.mk' 3 0 a else Fail.mk' 5 0 a)
  | .shared off =>
    if a % x.kind.align ≠ 0 ∨ e.b.rankOf off ≠ e.b.rankOf (off + n - 1) then .error (Fail.mk' 3 0 a)
    else .ok { store := .shared, bytes := upFrom off n, mode := 0, d := false }
  | .spill off =>
    if a % x.kind.align ≠ 0 then .error (Fail.mk' 3 0 a)
    else .ok { store := .spill, bytes := upFrom off n, mode := 0, d := false }
  | .scratch off =>
    if a % x.kind.align ≠ 0 then .error (Fail.mk' 3 0 a)
    else
      match s.page e t off (x.wr && decide (x.kind ≠ .cell)) with
      | none => .error (Fail.mk' 5 0 a)
      | some y =>
        let mode := leafMode y.1
        match s.spread e t off (x.kind.span e.triple x.wr mode) (x.wr && decide (x.kind ≠ .cell)) (decide (x.kind ≠ .raw)) y with
        | .error f => .error f
        | .ok l => .ok { store := .phys, bytes := l.1, mode := mode, d := l.2 }

/-! ## Owner tags and bytes (R228) -/

/-- The owner tag of the line that holds a system physical address. -/
def State.lineTag (s : State) (a : Nat) : BitVec 12 := lookupD (a / 128) 0 s.tags

/-- The owner tag of a byte of a location: block shared memory and spill areas are allocated to the launch's context. -/
def State.tagAt (s : State) (e : Env) (st : Store) (a : Nat) : BitVec 12 :=
  match st with
  | .phys => s.lineTag a
  | .shared => e.g.tag
  | .spill => e.g.tag

/-- A byte of a store. -/
def State.byteAt (s : State) (e : Env) (st : Store) (a : Nat) : Byte :=
  match st with
  | .phys => s.mem.read a
  | .shared => match s.block? e.b.bid with
    | some b => s.sharedByte b a
    | none => 0
  | .spill => match s.warp? e.w.wid with
    | some w => w.spill.read a
    | none => 0

/-- A byte as a reader's tag sees it: zero where the line's tag differs (R228). -/
def State.readAt (s : State) (e : Env) (owner : BitVec 12) (st : Store) (a : Nat) : Byte :=
  if s.tagAt e st a = owner then s.byteAt e st a else 0

/-- The bytes of a location as a reader's tag sees them. -/
def State.readLoc (s : State) (e : Env) (owner : BitVec 12) (l : Loc) : List Byte := l.bytes.map (s.readAt e owner l.store)

/-- The bytes of a location written. -/
def State.writeLoc (s : State) (e : Env) (l : Loc) (bs : List Byte) : State :=
  match l.store with
  | .phys => { s with mem := s.mem.writeAll (l.bytes.zip bs) }
  | .shared => s.writeShared e.b.bid (l.bytes.zip bs)
  | .spill => s.updWarp e.w.wid fun w => { w with spill := w.spill.writeAll (l.bytes.zip bs) }

/-- The first byte of a location whose line has another tag (step 9). -/
def State.foreign (s : State) (e : Env) (owner : BitVec 12) (l : Loc) : Option Nat :=
  l.bytes.findIdx? fun a => decide (s.tagAt e l.store a ≠ owner)

/-- The first poisoned byte of a location (step 10). -/
def State.poisoned (s : State) (e : Env) (l : Loc) : Option Nat :=
  match l.store with
  | .phys => l.bytes.findIdx? fun a => decide (unitOf a ∈ s.pkg.poison)
  | .shared => l.bytes.findIdx? fun a => decide (a / 32 * 32 ∈ e.b.shPoison)
  | .spill => l.bytes.findIdx? fun a => decide (a / 32 * 32 ∈ e.w.spillPoison)

/-! ## Tapes (R362 to R364) -/

/-- The offset of a record of a thread's tape, exactly. -/
def Env.recordOff (e : Env) (t : Thread) (n : Nat) : Nat :=
  e.g.lr.tapeBase.toNat + (e.tnum t).toNat * e.g.lr.tapeStride.toNat + 32 * n

/-- Where a record lies, after the checks of its page; that its offset lies in the window has been checked (R362). -/
def State.recordLoc (s : State) (e : Env) (t : Thread) (n : Nat) : Except Fail Loc :=
  let off := e.recordOff t n
  let bad := Fail.mk' 5 0 (0xC00000000000 + off)
  if 2 ^ 32 ≤ off then .error bad
  else
    match s.page e t off true with
    | none => .error bad
    | some y =>
      match s.spread e t off 32 true false y with
      | .error f => .error f
      | .ok l =>
        if l.2 then .error (Fail.mk' 14 0 (0xC00000000000 + off))
        else .ok { store := .phys, bytes := l.1, mode := leafMode y.1, d := false }

/-- SIZE of a record of a page. -/
def recordSize (mode : Nat) : Nat := if mode = 1 then 3 else 1

/-- The bytes of a record (Table 18.2). -/
def recordBytes (a : Addr) (mode seq : Nat) (old : List Byte) : List Byte :=
  leBytes 4 (a.toNat - 0xC00000000000) ++ leBytes 4 (recordSize mode + 16 * mode + 64 * (seq % 2 ^ 26)) ++ old ++
    List.replicate (24 - old.length) (0 : Byte)

/-- Whether a record is that of an element at this address and mode (R364). -/
def recordMatches (r : List Byte) (a : Addr) (mode : Nat) : Bool :=
  decide (leNat (r.take 4) = a.toNat - 0xC00000000000) &&
    decide (leNat ((r.drop 4).take 4) % 64 = recordSize mode + 16 * mode)

/-! ## The whole list of checks -/

/-- An access that may be performed: its bytes; the adjoint cell, where it uses one; the tape record, where it pushes
or pops one. -/
structure Plan where
  a : Addr
  loc : Loc
  adj : Option Loc
  tape : Option Loc
deriving DecidableEq, Repr

/-- The adjoint cell of an element (R360): a shadow page that is not there is a fault at the cell, one of the wrong kind a
misuse by the access. -/
def State.cellLoc (s : State) (e : Env) (t : Thread) (x : Acc) (l : Loc) (wr : Bool) : Except Fail Loc :=
  let a := x.a.toNat + 2 ^ 32
  let off := a - 0xC00000000000
  match s.page e t off wr with
  | none => .error (Fail.mk' 5 0 a)
  | some y =>
    if leafMode y.1 ≠ l.mode || leafD y.1 then .error (Fail.mk' 14 0 x.a.toNat)
    else
      match s.spread e t off l.bytes.length wr true y with
      | .error f => .error f
      | .ok b => .ok { store := .phys, bytes := b.1, mode := l.mode, d := false }

/-- The adjoint cell that the access uses: of `adjld` and `adjclr`, and of `ld` and `st` in reverse mode. -/
def State.adjOf (s : State) (e : Env) (t : Thread) (x : Acc) (l : Loc) : Except Fail (Option Loc) :=
  let uses := match x.kind with
    | .cell => true
    | .elem _ => l.d && t.rev
    | _ => false
  if uses then
    match s.cellLoc e t x l (x.wr || decide (x.kind ≠ .cell)) with
    | .error f => .error f
    | .ok c => .ok (some c)
  else .ok none

/-- The access is a store to a D page: it pushes or pops a record (R235). -/
def Acc.tapes (x : Acc) (l : Loc) : Bool :=
  match x.kind with
  | .elem _ => l.d && x.wr
  | _ => false

/-- The number of the record that the thread's next D-page store works on; none where there is none (R364). -/
def Thread.record (t : Thread) : Option Nat :=
  if t.rev then (if t.tapepos = 0 then none else some (t.tapepos - 1))
  else if t.tapepos = t.tapecap then none
  else some t.tapepos

/-- Step 3 for the record of a D-page store: its offset lies in the scratchpad window (R362). -/
def Env.recordFar (e : Env) (t : Thread) (x : Acc) (l : Loc) : Option Fail :=
  match t.record with
  | none => none
  | some n =>
    if x.tapes l && decide (2 ^ 32 ≤ e.recordOff t n) then some (Fail.mk' 5 0 (0xC00000000000 + e.recordOff t n)) else none

/-- Step 8: the tape of a D-page store (R235). -/
def State.tapeOf (s : State) (e : Env) (t : Thread) (x : Acc) (l : Loc) : Except Fail (Option Loc) :=
  if !x.tapes l then .ok none
  else if t.rev then
    if t.tapepos = 0 then .error (Fail.mk' 13 0 x.a.toNat)
    else
      match s.recordLoc e t (t.tapepos - 1) with
      | .error f => .error f
      | .ok r =>
        if recordMatches (s.readLoc e t.owner r) x.a l.mode then .ok (some r) else .error (Fail.mk' 12 0 x.a.toNat)
  else if t.tapepos = t.tapecap then .error (Fail.mk' 11 0 x.a.toNat)
  else
    match s.recordLoc e t t.tapepos with
    | .error f => .error f
    | .ok r => .ok (some r)

/-- The watchpoints that the access strikes (R449), in the scratchpad windows. -/
def State.struck (s : State) (e : Env) (t : Thread) (x : Acc) (p : Plan) : List (Nat × Nat) :=
  if t.passOnce || decide (p.loc.store ≠ .phys) then []
  else
    let rev := p.adj.isSome && p.tape.isSome
    let own := if x.kind = .cell then []
      else s.strikes e.w.die t.owner x.a.toNat p.loc.bytes.length (!x.wr) x.wr
    let cell := match p.adj with
      | some c => s.strikes e.w.die t.owner (x.a.toNat + 2 ^ 32) c.bytes.length (!x.wr || rev) x.wr
      | none => []
    let tape := match p.tape with
      | some _ => if rev then [] else
          s.strikes e.w.die t.owner (0xC00000000000 + e.recordOff t t.tapepos) 32 false true
      | none => []
    own ++ cell ++ tape

/-- The watchpoint trap of an access that strikes (Table 23.4). -/
def watchFail (l : List (Nat × Nat)) : Option Fail :=
  match l with
  | [] => none
  | x :: xs => some { code := 17, sub := 0, addr := xs.foldl (fun m y => min m y.2) x.2, hits := l }

/-- Steps 9 and 10: the locations written and those read. -/
def State.tagPoison (s : State) (e : Env) (t : Thread) (x : Acc) (p : Plan) : Option Fail :=
  let opt := fun (o : Option Loc) => o.toList
  let acc := p.adj.isSome && !x.wr && decide (x.kind ≠ .cell)
  let writes := if acc then []
    else if x.kind = .cell then (if x.wr then opt p.adj else [])
    else if x.wr then p.loc :: (opt p.adj ++ (if t.rev then [] else opt p.tape))
    else []
  let reads := if acc then []
    else if x.kind = .cell then (if x.wr then [] else opt p.adj)
    else if x.wr then
      (if p.tape.isSome then (if t.rev then opt p.adj ++ opt p.tape else [p.loc]) else [])
    else [p.loc]
  let at' := fun (l : Loc) (i : Nat) =>
    if l = p.loc then x.a.toNat + i
    else if some l = p.tape then 0xC00000000000 + e.recordOff t (t.record.getD 0) + i
    else x.a.toNat + 2 ^ 32 + i
  match writes.findSome? fun l => (s.foreign e t.owner l).map fun i => at' l i with
  | some a => some (Fail.mk' 6 0 a)
  | none => (reads.findSome? fun l => (s.poisoned e l).map fun i => at' l i).map fun a => Fail.mk' 6 0 a

/-- The checks on the location found: the record's offset (R362), the storage mode, misuse of a D page. -/
def Env.placed (e : Env) (t : Thread) (x : Acc) (l : Loc) : Option Fail :=
  match e.recordFar t x l with
  | some f => some f
  | none =>
    if !x.kind.modeOk l.mode then some (Fail.mk' 3 1 x.a.toNat)
    else if x.kind.misuse x.wr l.d l.mode then some (Fail.mk' 14 0 x.a.toNat)
    else none

/-- The checks of Table 10.4, then the watchpoints. -/
def State.plan (s : State) (e : Env) (t : Thread) (x : Acc) : Except Fail Plan :=
  match s.locate e t x with
  | .error f => .error f
  | .ok l =>
    match e.placed t x l with
    | some f => .error f
    | none =>
      match s.adjOf e t x l with
      | .error f => .error f
      | .ok adj =>
        match s.tapeOf e t x l with
        | .error f => .error f
        | .ok tape =>
          let p : Plan := { a := x.a, loc := l, adj := adj, tape := tape }
          match s.tagPoison e t x p with
          | some f => .error f
          | none =>
            match watchFail (s.struck e t x p) with
            | some f => .error f
            | none => .ok p

/-- The trap of a failing check, taken before the word. -/
def State.fail (s : State) (e : Env) (t : Thread) (f : Fail) : State :=
  e.trapBefore (s.hit e.w.die f.hits) t { e.record t f.code f.sub with addr := BitVec.ofNat 48 f.addr }

/-! ## Values (R36 to R41, R234, R237) -/

/-- The value that a word of a single-lane thread stands for, in every sibling; in triple mode the siblings
themselves (R41). -/
def laneTriple (triple : Bool) (x : Triple) : Triple := if triple then x else .all x.s0

/-- The compact word of the siblings, or of a single lane's value (R39). -/
def compactWord (triple : Bool) (x : Triple) : Word :=
  let v := fun (j : Nat) => f32v (x.get j)
  match if triple then (sum3 x).1.third else v 0 with
  | .nan _ => 0x7FC0001F
  | .inf neg => if neg then 0xFF80001F else 0x7F80001F
  | .fin m =>
    let mc := Fmt.c18.round .rn m
    let same := !triple || ((v 0).eq (v 1) && (v 1).eq (v 2))
    let infinite := decide (Fmt.c18.infCode ≤ mc.1 % Fmt.c18.signBit)
    let dig :=
      if same && decide (mc.2 = 0) then 31
      else if triple then (if infinite then 31 else min (digits3 x) 18)
      else 18
    BitVec.ofNat 32 (mc.1 * 32 + dig)

/-- The siblings that a compact word gives, and whether its DIG is reserved (R40). -/
def compactValue (w : Word) : Triple × Bool :=
  let m := w &&& 0xFFFFFFE0
  let dig := w.toNat % 32
  let reserved := decide (18 < dig) && decide (dig < 31)
  let d := if reserved then 18 else dig
  match f32v m with
  | .fin x =>
    if dig = 31 then (.all m, reserved)
    else
      let delta := f32v (f32r .rn (.fin { neg := false, mag := 9 * x.mag, exp := x.exp - 5 - d, sticky := false })).1
      if delta.isZero then (.all m, reserved)
      else
        ({ s0 := (f32r .rn ((FVal.fin x).add .rn delta.negate).1).1, s1 := m,
           s2 := (f32r .rn ((FVal.fin x).add .rn delta).1).1 }, reserved)
  | _ => (.all m, reserved)

/-- What a load fills its registers with, and whether FORMAT is set. -/
def loadValue (k : AccKind) (mode : Nat) (triple : Bool) (bs : List Byte) : List Triple × Bool :=
  match k with
  | .elem w | .ordered w =>
    if mode = 1 then ([laneTriple triple (rawValue bs)], false)
    else if mode = 2 then
      let r := compactValue (wordAt bs 0)
      ([if triple then r.1 else .all (wordAt bs 0 &&& 0xFFFFFFE0)], r.2)
    else (widthValues w bs, false)
  | .raw | .cell | .remote _ => ([laneTriple triple (rawValue bs)], false)

/-- The bytes that a store writes (R36, R39, R41, R234); of a single lane, its value (log 118). -/
def storeBytes (k : AccKind) (mode : Nat) (triple : Bool) (regs : List Triple) : List Byte :=
  let x := regs.headD (.all 0)
  match k with
  | .elem w | .ordered w =>
    if mode = 1 then tripleBytes (laneTriple triple x)
    else if mode = 2 then wordBytes (compactWord triple x)
    else if w = .f32 then wordBytes (mean3 (laneTriple triple x))
    else (regs.map fun r => wordBytes r.s0).flatten.take w.bytes
  | .raw => if triple then tripleBytes x else wordBytes x.s0
  | .cell => if mode = 1 then tripleBytes (.all 0) else wordBytes 0
  | .remote _ => []

/-! ## The core cache and the directory (R217, R312, R313) -/

/-- The slice, and with it the cluster, that is home of a system physical address (R311). -/
def homeOf (a : Nat) : Nat := a % 2 ^ 28 / 128 % 40

/-- The lines of some bytes. -/
def linesOf (bytes : List Nat) : List Nat := (bytes.map fun a => a / 128).eraseDups

/-- The 32-byte sectors of some bytes. -/
def sectorsOf (bytes : List Nat) : List Nat := (bytes.map fun a => a / 32).eraseDups

/-- The sectors of one line among some bytes, as bits. -/
def sectorBits (bytes : List Nat) (line : Nat) : BitVec 4 :=
  bytes.foldl (fun m a => if a / 128 = line then m ||| (1#4 <<< (a / 32 % 4)) else m) 0

/-- Every sector of some bytes stands in the core's cache. -/
def Core.holds (c : Core) (bytes : List Nat) : Bool :=
  bytes.all fun a => c.lines.any fun l => decide (l.line = a / 128) && l.sectors.getLsbD (a / 32 % 4)

/-- A line asked for elsewhere: an exclusive request removes the copy, unless it is held for a parked thread (R178); a
read makes it shared (R313). -/
def Core.yieldLine (c : Core) (lines : List Nat) (excl : Bool) : Core :=
  if excl then { c with lines := dropIf (fun l => decide (l.line ∈ lines) && l.held.isEmpty) c.lines }
  else { c with lines := c.lines.map fun l => if l.line ∈ lines then { l with excl := false } else l }

/-- The cores of a die other than one yield lines. -/
def State.recall (s : State) (d : Nat) (except : Option Nat) (lines : List Nat) (excl : Bool) : State :=
  { s with cores := s.cores.map fun c =>
      if c.die = d ∧ some c.core ≠ except then c.yieldLine lines excl else c }

/-- A core's cache takes the sectors of some bytes of one line, for a parked thread where one is given: it is then held
for that thread (R178). -/
def Core.take (c : Core) (bytes : List Nat) (excl : Bool) (parked : Option (Nat × Nat × Nat)) (line : Nat) : Core :=
  let old := c.lines.find? fun l => l.line = line
  let new : CLine :=
    { line := line
      sectors := sectorBits bytes line ||| (match old with | some l => l.sectors | none => 0)
      excl := excl || (match old with | some l => l.excl | none => false)
      held := (match old with | some l => l.held | none => []) ++ parked.toList }
  { c with lines := putBy (fun l => decide (l.line = line)) new c.lines }

/-- Lines held for a parked thread are so no longer: its reissue has read them (R178). -/
def Core.letGo (c : Core) (wid i : Nat) : Core :=
  { c with lines := c.lines.map fun l =>
      { l with held := dropIf (fun x => decide (x.1 = wid) && decide (x.2.1 = i)) l.held } }

/-- Sectors of the scratchpad that a core's word accesses at their homes: those of its own cluster and the others (R430). -/
def State.chargeSectors (s : State) (core : Nat) (tag : BitVec 12) (sectors : List Nat) : State :=
  let own := (sectors.filter fun x => homeOf (x * 32) = core / 4).length
  (s.charge tag 7 own).charge tag 8 (sectors.length - own)

/-- A core fetches some bytes of the scratchpad, shared or exclusive, from the homes of their lines (R217, Table
24.1). -/
def State.cacheFill (s : State) (d core : Nat) (tag : BitVec 12) (bytes : List Nat) (excl : Bool)
    (parked : Option (Nat × Nat × Nat)) : State :=
  let c := s.core d core
  let miss := (sectorsOf bytes).filter fun x => !c.holds [x * 32]
  let s1 := s.recall d (some core) (linesOf bytes) excl
  let c1 := (linesOf bytes).foldl (fun c l => c.take bytes excl parked l) (s1.core d core)
  (s1.setCore c1).chargeSectors core tag miss

/-- An access through the core cache: its sectors fetched and counted. -/
def State.cacheTake (s : State) (d core : Nat) (tag : BitVec 12) (bytes : List Nat) (excl : Bool)
    (parked : Option (Nat × Nat × Nat)) : State := (s.cacheFill d core tag bytes excl parked).charge tag 6 (sectorsOf bytes).length

/-- An access of a warp takes its lines: through the core cache, or for a service warp at the slice itself, which recalls
cached copies first (R217, R283). -/
def State.takeLines (s : State) (e : Env) (bytes : List Nat) (excl : Bool) : State :=
  if e.w.service then s.recall e.w.die none (linesOf bytes) excl
  else s.cacheTake e.w.die e.w.core e.g.tag bytes excl none

/-! ## Lines that make an access wait (R312, R320, R304) -/

/-- A line claimed by a copy. -/
def State.claimed (s : State) (line : Nat) : Bool := s.dies.any fun d => d.copies.any fun c => decide (line ∈ c.claims)

/-- A line held for a delivered request by a service warp other than that of cluster `own` of the die. -/
def State.heldLine (s : State) (d : Nat) (own : Option Nat) (line : Nat) : Bool :=
  s.clusters.any fun c => !(decide (c.die = d) && decide (some c.cl = own)) &&
    c.delivered.any fun r => decide (line ∈ linesOf r.bytes)

/-- The core whose cache the warp's accesses use: none for a service warp. -/
def Warp.home (w : Warp) : Option Nat := if w.service then none else some w.core

/-- The cluster whose held lines the warp may access: a service warp's own (R304). -/
def Warp.ownHeld (w : Warp) : Option Nat := if w.service then some (w.core / 4) else none

/-- The lines among some bytes that an access must wait for. -/
def State.blockedLines (s : State) (d : Nat) (own : Option Nat) (bytes : List Nat) : List Nat :=
  (linesOf bytes).filter fun l => s.claimed l || s.heldLine d own l

/-- The lines among some bytes that another core holds for a parked thread (R178). -/
def State.parkedLines (s : State) (d : Nat) (core : Option Nat) (bytes : List Nat) : List Nat :=
  (linesOf bytes).filter fun l => s.cores.any fun c => !(decide (c.die = d) && decide (some c.core = core)) &&
    c.lines.any fun x => decide (x.line = l) && !x.held.isEmpty

/-- The lines among some bytes that a read, or a write, by a core must wait for. -/
def State.waitLines (s : State) (d : Nat) (own core : Option Nat) (wr : Bool) (bytes : List Nat) : List Nat :=
  s.blockedLines d own bytes ++ (if wr then s.parkedLines d core bytes else [])

/-- The lines among some bytes that an engine of the die, which holds none itself, must wait for. -/
def State.unitLines (s : State) (d : Nat) (wr : Bool) (bytes : List Nat) : List Nat := s.waitLines d none none wr bytes

/-- The hold of a word for which a heap or graph unit would wait for some lines. -/
def unitHold (wr : Bool) (l : List Nat) : Option Hold := if l.isEmpty then none else some (.unit wr l)

/-- The system physical bytes that an access touches. -/
def Plan.phys (p : Plan) : List Nat :=
  (if p.loc.store = .phys then p.loc.bytes else []) ++
    (match p.adj with | some l => l.bytes | none => []) ++ (match p.tape with | some l => l.bytes | none => [])

/-- A remote request of the thread that is without a reply lies on a line of these bytes. -/
def State.ownRequest (s : State) (wid i : Nat) (bytes : List Nat) : Bool :=
  (s.requestsOf wid i).any fun r => (linesOf r.bytes).any fun l => decide (l ∈ linesOf bytes)

/-- What an access waits for, where its checks pass. -/
def State.accWait (s : State) (e : Env) (t : Thread) (x : Acc) : Option Hold :=
  match s.plan e t x with
  | .error _ => none
  | .ok p =>
    match s.waitLines e.w.die e.w.ownHeld e.w.home x.wr p.phys with
    | l :: ls => some (.lines x.wr (l :: ls))
    | [] => if s.ownRequest e.w.wid t.idx p.phys then some .settled else none

end Sys2Proof.Machine
end

