-- ==== Sys2Proof/Machine/Float.lean ====
section
/-! DEFINITION. Conversions and floating-point instructions (R122 to R134, R471), and `ldlit` (R120). -/

namespace Sys2Proof.Machine

/-! ## Elements -/

/-- Element `k` of a packed register replaced. -/
def insElem (ty : Ty) (old x : Word) (k : Nat) : Word :=
  let m := BitVec.ofNat 32 (2 ^ ty.width - 1)
  (old &&& ~~~(m <<< (ty.width * k))) ||| ((x &&& m) <<< (ty.width * k))

/-- An L6 result has bits [31:24] zero (R44). -/
def clearTop (ty : Ty) (x : Word) : Word := if ty = .l6 then x &&& 0x00FFFFFF else x

/-- `cvtpk` of one sibling (R123). -/
def cvtpkVal (dest frm : Ty) (h : Bool) (dir : Rnd) (old a b : Word) : Word × Flags :=
  let x := convert dest frm dir a
  let y := convert dest frm dir b
  let k := if dest.is16 then 0 else 2 * h.toNat
  (clearTop dest (insElem dest (insElem dest old x.1 k) y.1 (k + 1)), x.2 ||| y.2)

/-! ## F32 functions (R126 to R132, R144) -/

/-- `fint` (R132). -/
def fintVal (dir : Rnd) (a : Word) : Word × Flags :=
  match f32v a with
  | .nan sig => (canonNan, flagIf sig Flags.nv)
  | .inf _ => (a, 0)
  | .fin x => ((f32r .rz (.fin { neg := x.neg, mag := (x.roundInt dir).1.natAbs, exp := 0, sticky := false })).1, 0)

/-- `fscale` (R132). A scale beyond 600 binary orders gives what 600 gives. -/
def fscaleVal (dir : Rnd) (a n : Word) : Word × Flags :=
  match f32v a with
  | .nan sig => (canonNan, flagIf sig Flags.nv)
  | .inf _ => (a, 0)
  | .fin x => f32r dir (.fin (x.scale (clamp (-600) 600 n.toInt).1))

/-- The tests of `fcmp`: the bit, and the invalid flag (R130). -/
def FCond.test (cc : FCond) (a b : Word) : Bool × Flags :=
  let x := f32v a
  let y := f32v b
  let nan := x.isNan || y.isNan
  let lt := !nan && x.lt y
  let eq := !nan && x.eq y
  let gt := !nan && !lt && !eq
  let bit := match cc with
    | .eq => eq
    | .ne => !eq
    | .lt => lt
    | .le => lt || eq
    | .gt => gt
    | .ge => gt || eq
    | .ord => !nan
    | .unord => nan
  let quiet := match cc with
    | .lt | .le | .gt | .ge => nan
    | .eq | .ne | .ord | .unord => false
  (bit, flagIf (quiet || x.isSig || y.isSig) Flags.nv)

/-- The class number of R131. -/
def fclassNum (a : Word) : Nat :=
  match f32v a with
  | .nan sig => if sig then 0 else 1
  | .inf neg => if neg then 2 else 9
  | .fin x =>
    let normal := decide (a.extractLsb' 23 8 ≠ 0)
    if x.neg then (if x.mag = 0 then 5 else if normal then 3 else 4)
    else (if x.mag = 0 then 6 else if normal then 8 else 7)

/-- `exact` (R144). Finite operands whose rounded sum or product is infinite give the canonical NaN and raise nothing: the
rule gives no flag of that intermediate value (log 84). -/
def exactVal (mul : Bool) (a b : Word) : Word × Flags :=
  let x := f32v a
  let y := f32v b
  let fl := flagIf (x.isSig || y.isSig) Flags.nv
  if !(x.isFin && y.isFin) then (canonNan, fl)
  else
    let e := if mul then (x.mul y).1 else (x.add .rn y).1
    let s := f32v (f32r .rn e).1
    if !s.isFin then (canonNan, fl)
    else
      let r := f32r .rn (e.add .rn s.negate).1
      (r.1, fl ||| r.2)

/-- A packed 16-bit operation, element by element (R134). -/
def packed16 (ty : Ty) (dir : Rnd) (f : FVal → FVal → FVal → FVal × Flags) (a b c : Word) : Word × Flags :=
  let one := fun (k : Nat) =>
    let x := f (ty.value (ty.elem a k)) (ty.value (ty.elem b k)) (ty.value (ty.elem c k))
    let r := ty.ofVal dir x.1
    (r.1, x.2 ||| r.2)
  (BitVec.ofNat 32 ((one 0).1 + (one 1).1 * 65536), (one 0).2 ||| (one 1).2)

/-! ## The long-latency functions (R128, R129) -/

inductive LongOp where
  | div | sqrt | rcp | rsq | exp2 | log2 | sin | cos
deriving DecidableEq, Repr

/-- The opcode, which names the function to `Config.approxError`. -/
def LongOp.opcode : LongOp → Nat
  | .div => 0x46
  | .sqrt => 0x47
  | .rcp => 0x48
  | .rsq => 0x49
  | .exp2 => 0x4A
  | .log2 => 0x4B
  | .sin => 0x4C
  | .cos => 0x4D

def Ex.one : Ex := { neg := false, mag := 1, exp := 0, sticky := false }

def Ex.pow2 (n : Int) : Ex := { neg := false, mag := 1, exp := n, sticky := false }

/-- The exponent of a magnitude that is a power of two. -/
def Ex.log2? (x : Ex) : Option Int :=
  if x.mag = 2 ^ Nat.log2 x.mag then some (x.exp + Nat.log2 x.mag) else none

/-- The integer that a value is, where it is one. -/
def Ex.int? (x : Ex) : Option Int :=
  let r := x.roundInt .rz
  if r.2 then none else some r.1

/-- Table 5.4: the bound in units in the last place, and the absolute one where the operand has one. -/
def LongOp.bound (op : LongOp) (v : Ex) : Nat × Option Int :=
  match op with
  | .rsq => (1, none)
  | .exp2 => (2, none)
  | .log2 => (2, if (Ex.pow2 (-1)).le v && v.le (Ex.pow2 1) then some (-22) else none)
  | .sin | .cos => (2, some (-24))
  | .div | .sqrt | .rcp => (0, none)

/-- The value y of an approximated function, formed from its operand alone (R128). Its result is inexact even where y
is an F32 value (R129), and then below the normal range too where y is (R133). -/
def approx (op : LongOp) (a : Word) (v ref : Ex) : FVal × Flags :=
  let y := approxWithin (op.bound v).1 (op.bound v).2 (Config.approxError op.opcode a) ref
  let held := !((Fmt.f32.round .rz y).2.getLsbD 4)
  (.fin y, Flags.ix ||| flagIf (held && y.lt (Ex.pow2 (-126)) && (Ex.pow2 (-126)).negate.lt y) Flags.uf)

def fnan : FVal := .nan false

def fzero (neg : Bool) : FVal := .fin { neg := neg, mag := 0, exp := 0, sticky := false }

/-- The value of a long-latency function before its rounding, with the flags that do not come from rounding (Table
5.5). `a` is the operand, `b` the divisor of `fdiv`. -/
def LongOp.value (op : LongOp) (a b : Word) : FVal × Flags :=
  let x := f32v a
  match op with
  | .div => x.div (f32v b)
  | .rcp => FVal.div (.fin Ex.one) x
  | .sqrt =>
    match x with
    | .nan sig => (fnan, flagIf sig Flags.nv)
    | .inf n => if n then (fnan, Flags.nv) else (x, 0)
    | .fin v => if v.isZero then (x, 0) else if v.neg then (fnan, Flags.nv) else (.fin v.sqrt, 0)
  | .rsq =>
    match x with
    | .nan sig => (fnan, flagIf sig Flags.nv)
    | .inf n => if n then (fnan, Flags.nv) else (fzero false, 0)
    | .fin v =>
      if v.isZero then (.inf v.neg, Flags.dz)
      else if v.neg then (fnan, Flags.nv)
      else match v.log2? with
        | some k => if k % 2 = 0 then (.fin (Ex.pow2 (-(k / 2))), 0) else approx op a v (rsqRef v)
        | none => approx op a v (rsqRef v)
  | .exp2 =>
    match x with
    | .nan sig => (fnan, flagIf sig Flags.nv)
    | .inf n => if n then (fzero false, 0) else (.inf false, 0)
    | .fin v =>
      match v.int? with
      | some n => if -149 ≤ n ∧ n ≤ 127 then (.fin (Ex.pow2 n), 0) else approx op a v (exp2Ref v)
      | none => approx op a v (exp2Ref v)
  | .log2 =>
    match x with
    | .nan sig => (fnan, flagIf sig Flags.nv)
    | .inf n => if n then (fnan, Flags.nv) else (.inf false, 0)
    | .fin v =>
      if v.isZero then (.inf true, Flags.dz)
      else if v.neg then (fnan, Flags.nv)
      else match v.log2? with
        | some k => (if k = 0 then fzero false else .fin (Ex.ofInt k 0), 0)
        | none => approx op a v (log2Ref v)
  | .sin =>
    match x with
    | .nan sig => (fnan, flagIf sig Flags.nv)
    | .inf _ => (fnan, Flags.nv)
    | .fin v => if v.isZero then (x, 0) else approx op a v (sinRef v)
  | .cos =>
    match x with
    | .nan sig => (fnan, flagIf sig Flags.nv)
    | .inf _ => (fnan, Flags.nv)
    | .fin v => if v.isZero then (.fin Ex.one, 0) else approx op a v (cosRef v)

/-- One sibling of a long-latency function. -/
def LongOp.sib (op : LongOp) (dir : Rnd) (a b : Word) : Word × Flags :=
  let x := op.value a b
  let r := f32r dir x.1
  (r.1, x.2 ||| r.2)

/-! ## Events (R29 to R31) -/

/-- Digits of an operand: an s or g register or an immediate has 24, and so has every operand in single-lane mode
(R28, R126, R135). -/
def Env.opdDigits (e : Env) (o : Opd) (x : Triple) : Nat :=
  if !e.triple then 24
  else match o with
    | .v _ => digits3 x
    | .s _ => 24
    | .g _ => 24
    | .sp _ => digits3 x

def Env.srcDigits (e : Env) (b : Src) (x : Triple) : Nat :=
  match b with
  | .reg o => e.opdDigits o x
  | .imm _ => 24

/-- CANCEL for a result and its addends' digits (R29). -/
def Res.withCancel (r : Res) (e : Env) (t : Thread) (d1 d2 : Nat) : Res :=
  let dr := digits3 r.val
  if e.triple && decide (dr + t.cancelth.toNat < min d1 d2) then
    { r with cancel := true, cancelArg := BitVec.ofNat 16 (dr + 256 * min d1 d2) }
  else r

/-- Bits written per sibling and the SPLIT they raise (R30). -/
def splitRes (e : Env) (bits : BitVec 3) (fl : Flags) (a b : Triple) : BitVec 3 × Res :=
  let r : Res := { Res.plain (Triple.ofFn fun j => if bits.getLsbD j then 1 else 0) with fl := fl, opa := a, opb := b }
  (bits, if e.triple && decide (bits ≠ 0) && decide (bits ≠ 7) then
    { r with split := true, splitArg := bits.setWidth 16 } else r)

/-- ZDIV of a divisor (R31). -/
def zdivOf (e : Env) (b : Triple) (digits : Nat) : Bool :=
  let z := fun (w : Word) => (f32v w).isZero
  let fin := fun (w : Word) => (f32v w).isFin
  if e.triple then
    (z b.s0 && z b.s1 && z b.s2) || (fin b.s0 && fin b.s1 && fin b.s2 && decide (digits = 0))
  else z b.s0

/-! ## Words of one shape -/

/-- A conversion or function of one operand, per sibling in Dir. -/
def fp1Word (c : Ctl) (d : Dst) (a : Opd) (f : Rnd → Word → Word × Flags) : State → State :=
  aluWord (Form.fp c [a] d.opds) d true fun e s t =>
    let x := e.read s t a
    Res.ofDst d (fun j => f (e.dir c.rnd t j) (x.get j)) x (.all 0) (.all 0)

/-- An operation on two operands, per sibling in Dir, with an event of its own. -/
def fp2Word (c : Ctl) (d : Dst) (a : Opd) (b : Src) (adv : Bool) (f : Rnd → Word → Word → Word × Flags)
    (ev : Env → Thread → Triple → Triple → Res → Res) : State → State :=
  aluWord (Form.fp c (a :: b.opds) d.opds) d adv fun e s t =>
    let x := e.read s t a
    let y := e.src s t .high b
    let r := Res.ofDst d (fun j => f (e.dir c.rnd t j) (x.get j) (y.get j)) x y (.all 0)
    if d.single then r else ev e t x y r

/-- The event of a sum (R29). -/
def cancelEv (a : Opd) (b : Src) (e : Env) (t : Thread) (x y : Triple) (r : Res) : Res :=
  r.withCancel e t (e.opdDigits a x) (e.srcDigits b y)

def noEv (_ : Env) (_ : Thread) (_ _ : Triple) (r : Res) : Res := r

/-! ## Long-latency words (R76, R78, R471) -/

/-- Some enabled trap that the instruction could raise (R471): a bit of FPMASK, or in triple mode for a division
IMASK.ZDIV. In handler mode every event is masked (R159). -/
def Thread.trapsEnabled (t : Thread) (triple division : Bool) : Bool :=
  t.inHandler.isNone && (decide (t.fpmask ≠ 0) || (triple && division && t.imask.getLsbD 2))

/-- The thread as R471 lets its long-latency events see it: in single-lane mode IMASK.ZDIV enables no trap (log 91). -/
def Thread.longMasks (t : Thread) (triple : Bool) : Thread :=
  if triple then t else { t with imask := t.imask &&& 3#3 }

/-- A flag count raised by n. -/
def Warp.raise (w : Warp) (f n : Nat) : Warp := { w with flags := setAt w.flags f (w.flags.getD f 0 + n) }

/-- A flag count lowered by a completion; at 0 it stays (R200). -/
def Warp.lower (w : Warp) (f : Nat) : Warp := { w with flags := setAt w.flags f (w.flags.getD f 0 - 1) }

/-- The flag that a word of the group counts in. -/
def Env.flagOf (e : Env) (c : Ctl) : Nat :=
  match e.group with
  | [] => 0
  | t :: _ => t.cl.flag c.fsel

/-- An instruction becomes outstanding: the selected count rises by one (R76). -/
def State.addPend (s : State) (wid : Nat) (p : Pend) : State :=
  s.updWarp wid fun w => { w.raise p.flag 1 with pend := w.pend ++ [p] }

/-- The events of a long-latency result: masked ones at the issue (log 92), a trap to be taken once the result is
written (R471). -/
def State.longEvents (s : State) (e : Env) (t : Thread) (division : Bool) (pid : Nat) (r : Res) : State :=
  let ch := chosen (t.longMasks e.triple) [(false, r)]
  let s := s.maskEvents e t.idx ch [(false, r)]
  if t.trapsEnabled e.triple division then
    s.updThread e.w.wid t.idx fun u =>
      { u.block (.result pid) with
        due := (match ch with | some (k, h, r) => [e.eventRecord t k h r] | none => []) ++ u.due }
  else s

/-- The parts of a result for a destination. -/
def partsOf (d : Dst) (x : List (Thread × Triple)) : List Part × List (Nat × Word) :=
  match d with
  | .v n => (x.map fun y => { thr := y.1.idx, reg := n, val := y.2 }, [])
  | .s n => ([], x.map fun y => (n, y.2.s0))
  | .g n => ([], x.map fun y => (gKey n, y.2.s0))
  | .none => ([], [])

/-- A long-latency floating-point word: results formed at issue and written at completion. -/
def longWord (c : Ctl) (d : Dst) (op : LongOp) (a : Opd) (b : Option Opd) : State → State :=
  issue { Form.longLat c (a :: b.toList) d.opds with lanes := 3 } noHold fun e s =>
    let ps := e.parts c
    if ps.isEmpty then s
    else
      let division := decide (op = .div) || decide (op = .rcp)
      let comp := fun (t : Thread) =>
        let x := e.read s t a
        let y := match b with | some o => e.read s t o | none => Triple.all 0
        let r := Res.ofDst d (fun j => op.sib (e.dir c.rnd t j) (x.get j) (y.get j)) x y (.all 0)
        let o := match b with | some o => o | none => a
        let z := match b with | some _ => y | none => x
        let dg := e.opdDigits o z
        if division && !d.single && zdivOf e z dg then
          { r with zdiv := true, zdivArg := BitVec.ofNat 16 dg }
        else r
      let cs := computing d ps
      let parts := partsOf d (cs.map fun t => (t, (comp t).val))
      let (pid, s1) := (s.advanceC e ps).newId
      let s2 := s1.addPend e.w.wid
        { id := pid, flag := e.flagOf c, wait := .ready, parts := parts.1, sparts := parts.2,
          thrs := ps.map fun t => t.idx, preds := [], epoch := none, sample := none }
      cs.foldl (fun s' t => s'.longEvents e t division pid (comp t)) s2

/-! ## Meanings -/

/-- LDLIT (R120): a fault of the instruction path is reported at the word. -/
def execLdlit (c : Ctl) (d : Dst) (imm : BitVec 20) (idx : Option Opd) (s : State) : Out :=
  .next (issue (Form.short c idx.toList d.opds) noHold (fun e s =>
    let at' := fun (t : Thread) =>
      let x := match idx with | some o => e.read0 s t o | none => 0
      e.iss.pc + 4 * imm.signExtend 48 + 4 * x.signExtend 48
    let word := fun (t : Thread) => s.fetchWord e.g.tag (at' t &&& 0xFFFFFFFFFFF8#48)
    let ps := computing d (e.parts c)
    let ok := ps.filter fun t => (word t).isSome
    let s1 := s.writeAll e ok d fun t =>
      match word t with
      | some w => .all (if (at' t).getLsbD 2 then w.extractLsb' 32 32 else w.extractLsb' 0 32)
      | none => .all 0
    (ps.filter fun t => (word t).isNone).foldl
      (fun s' t => e.trapBefore s' t { e.record t 5 0 with addr := at' t }) s1) s)

/-- CVT (R122). -/
def execCvt (c : Ctl) (d : Dst) (a : Opd) (dest frm : Ty) (k : BitVec 2) (s : State) : Out :=
  .next (fp1Word c d a (fun dir x => convert dest frm dir (frm.elem x k.toNat)) s)

/-- CVTPK (R123). -/
def execCvtpk (c : Ctl) (d : Dst) (a b : Opd) (dest frm : Ty) (h : Bool) (s : State) : Out :=
  .next (aluWord (Form.fp c (a :: b :: if dest.is8 then d.opds else []) d.opds) d true (fun e s t =>
    let x := e.read s t a
    let y := e.read s t b
    let old := if dest.is8 then e.oldDst s t d else .all 0
    Res.ofDst d (fun j => cvtpkVal dest frm h (e.dir c.rnd t j) (old.get j) (x.get j) (y.get j)) x y (.all 0)) s)

/-- UNPK (R124). -/
def execUnpk (c : Ctl) (d : Nat) (a : Opd) (dest frm : Ty) (h : Bool) (s : State) : Out :=
  .next (issue (Form.short c [a] [.v d, .v (d + 1)]) noHold (fun e s =>
    let ps := e.parts c
    let comp := fun (t : Thread) (k : Nat) =>
      let x := e.read s t a
      Res.ofSibs (fun j => convert dest frm .rn (frm.elem (x.get j) (2 * h.toNat + k))) x (.all 0) (.all 0)
    let s1 := s.writeAll e ps (.v d) fun t => (comp t 0).val
    let s2 := s1.writeAll e ps (.v (d + 1)) fun t => (comp t 1).val
    ps.foldl (fun s' t => s'.events e t [(false, { comp t 0 with fl := (comp t 0).fl ||| (comp t 1).fl })]) s2) s)

/-- FADD (R126). -/
def execFadd (c : Ctl) (d : Dst) (a : Opd) (b : Src) (s : State) : Out :=
  .next (fp2Word c d a b true f32add (cancelEv a b) s)

/-- FSUB (R126): the exact difference. -/
def execFsub (c : Ctl) (d : Dst) (a : Opd) (b : Src) (s : State) : Out :=
  .next (fp2Word c d a b true (fun dir x y => f32add dir x (f32neg y)) (cancelEv a b) s)

/-- FMUL (R126). -/
def execFmul (c : Ctl) (d : Dst) (a : Opd) (b : Src) (s : State) : Out := .next (fp2Word c d a b true f32mul noEv s)

/-- FMA (R126), its addends the exact products and c (R29). -/
def execFma (c : Ctl) (d : Dst) (a b x : Opd) (np nc : Bool) (s : State) : Out :=
  .next (aluWord (Form.fp c [a, b, x] d.opds) d true (fun e s t =>
    let u := e.read s t a
    let v := e.read s t b
    let w := e.read s t x
    let r := Res.ofDst d (fun j => f32fma (e.dir c.rnd t j) np nc (u.get j) (v.get j) (w.get j)) u v w
    let prod := fun (j : Nat) => ((f32v (u.get j)).mul (f32v (v.get j))).1
    if d.single then r else r.withCancel e t (digitsVal (prod 0) (prod 1) (prod 2)) (e.opdDigits x w)) s)

/-- FMIN (R127). -/
def execFmin (c : Ctl) (d : Dst) (a : Opd) (b : Src) (s : State) : Out :=
  .next (fp2Word c d a b false (fun _ x y => f32minmax false x y) noEv s)

/-- FMAX (R127). -/
def execFmax (c : Ctl) (d : Dst) (a : Opd) (b : Src) (s : State) : Out :=
  .next (fp2Word c d a b false (fun _ x y => f32minmax true x y) noEv s)

/-- FDIV (R128). -/
def execFdiv (c : Ctl) (d : Dst) (a b : Opd) (s : State) : Out := .next (longWord c d .div a (some b) s)

/-- FSQRT (R128). -/
def execFsqrt (c : Ctl) (d : Dst) (a : Opd) (s : State) : Out := .next (longWord c d .sqrt a none s)

/-- FRCP (R128). -/
def execFrcp (c : Ctl) (d : Dst) (a : Opd) (s : State) : Out := .next (longWord c d .rcp a none s)

/-- FRSQ (R128). -/
def execFrsq (c : Ctl) (d : Dst) (a : Opd) (s : State) : Out := .next (longWord c d .rsq a none s)

/-- FEXP2 (R128). -/
def execFexp2 (c : Ctl) (d : Dst) (a : Opd) (s : State) : Out := .next (longWord c d .exp2 a none s)

/-- FLOG2 (R128). -/
def execFlog2 (c : Ctl) (d : Dst) (a : Opd) (s : State) : Out := .next (longWord c d .log2 a none s)

/-- FSIN (R128). -/
def execFsin (c : Ctl) (d : Dst) (a : Opd) (s : State) : Out := .next (longWord c d .sin a none s)

/-- FCOS (R128). -/
def execFcos (c : Ctl) (d : Dst) (a : Opd) (s : State) : Out := .next (longWord c d .cos a none s)

/-- FCMP (R130). -/
def execFcmp (c : Ctl) (p : BitVec 3) (cc : FCond) (a : Opd) (b : Src) (s : State) : Out :=
  .next (predWord (Form.fp c (a :: b.opds) []) p (fun e s t =>
    let x := e.read s t a
    let y := e.src s t .high b
    let r := fun (j : Nat) => FCond.test cc (x.get j) (y.get j)
    splitRes e (BitVec.ofBool (r 2).1 ++ BitVec.ofBool (r 1).1 ++ BitVec.ofBool (r 0).1)
      ((r 0).2 ||| (r 1).2 ||| (r 2).2) x y) s)

/-- FCLASS (R131): a class word, or a predicate with its SPLIT. -/
def execFclass (c : Ctl) (d : ClassDst) (a : Opd) (s : State) : Out :=
  match d with
  | .word d => .next (aluWord (Form.fp c [a] d.opds) d false (fun e s t =>
      Res.plain ((e.read s t a).map fun x => BitVec.ofNat 32 (2 ^ fclassNum x))) s)
  | .pred p m => .next (predWord (Form.fp c [a] []) p (fun e s t =>
      let x := e.read s t a
      let bit := fun (j : Nat) => BitVec.ofBool (m.getLsbD (fclassNum (x.get j)))
      splitRes e (bit 2 ++ bit 1 ++ bit 0) 0 x (.all 0)) s)

/-- FINT (R132). -/
def execFint (c : Ctl) (d : Dst) (a : Opd) (s : State) : Out := .next (fp1Word c d a fintVal s)

/-- FSCALE (R132). -/
def execFscale (c : Ctl) (d : Dst) (a : Opd) (b : Src) (s : State) : Out :=
  .next (aluWord (Form.fp c (a :: b.opds) d.opds) d true (fun e s t =>
    let x := e.read s t a
    let y := e.src s t .sign b
    Res.ofDst d (fun j => fscaleVal (e.dir c.rnd t j) (x.get j) (y.get j)) x y (.all 0)) s)

/-- The type of a packed 16-bit instruction (R134). -/
def half16 (e16 : Bool) : Ty := if e16 then .e16 else .f16

/-- A packed 16-bit word. -/
def packedWord (c : Ctl) (d : Dst) (a b x : Opd) (srcs : List Opd) (e16 : Bool)
    (f : Rnd → FVal → FVal → FVal → FVal × Flags) : State → State :=
  aluWord (Form.fp c srcs d.opds) d true fun e s t =>
    let u := e.read s t a
    let v := e.read s t b
    let w := e.read s t x
    Res.ofDst d (fun j =>
      let dir := e.dir c.rnd t j
      packed16 (half16 e16) dir (f dir) (u.get j) (v.get j) (w.get j)) u v w

/-- HADD2 (R134). -/
def execHadd2 (c : Ctl) (d : Dst) (a b : Opd) (e16 : Bool) (s : State) : Out :=
  .next (packedWord c d a b (.sp .zero) [a, b] e16 (fun dir x y _ => x.add dir y) s)

/-- HMUL2 (R134). -/
def execHmul2 (c : Ctl) (d : Dst) (a b : Opd) (e16 : Bool) (s : State) : Out :=
  .next (packedWord c d a b (.sp .zero) [a, b] e16 (fun _ x y _ => x.mul y) s)

/-- HFMA2 (R134). -/
def execHfma2 (c : Ctl) (d : Dst) (a b x : Opd) (e16 : Bool) (s : State) : Out :=
  .next (packedWord c d a b x [a, b, x] e16 (fun dir x y z =>
    let p := x.mul y
    let r := p.1.add dir z
    (r.1, p.2 ||| r.2)) s)

end Sys2Proof.Machine
end

