-- ==== Sys2Proof/Machine/Memory.lean ====
section
/-! DEFINITION. Loads, stores, the data stack, atomics on block shared memory, fences and ordered accesses (R230 to
R248), and the sending of remote requests (R281, R282). -/

namespace Sys2Proof.Machine

/-! ## Sampling (R447) -/

/-- The core counts a memory instruction; whether its record falls due. -/
def State.countMem (s : State) (e : Env) : State × Bool :=
  let k := ((s.die e.w.die).trctl.extractLsb' 4 4).toNat
  if k = 0 || e.w.service then (s, false)
  else
    let c := s.core e.w.die e.w.core
    (s.setCore { c with sampled := c.sampled + 1 }, decide ((c.sampled + 1) % 2 ^ k = 0))

/-- The KIND 1 record of a sampled instruction. Its four times are unstated values (log 14). -/
def State.writeSample (s : State) (wid : Nat) (x : Sample) : State :=
  match s.warp? wid with
  | none => s
  | some w =>
    match s.block? w.bid with
    | none => s
    | some b =>
      match s.grid? b.gid with
      | none => s
      | some g =>
        let byte := fun (n : Nat) => min n 255
        let counts := BitVec.ofNat 32 (byte x.active + 256 * byte x.sectors + 65536 * byte x.reissues +
          16777216 * byte w.index)
        s.traceWrite w.die (w.core / 4) g.tag
          (traceHead 1 w.die w.traceCore g.tag 0 (tnumOf w b g x.thr) (x.pc.setWidth 32) s.now ++
            [counts, Config.freeWord s.fresh 1, Config.freeWord s.fresh 2])

/-! ## Loads -/

/-- What a load word does. -/
structure LoadSpec where
  c : Ctl
  m : MemWord
  kind : AccKind
  /-- It may split (R178). -/
  split : Bool
  /-- It is an acquire (R244). -/
  acq : Bool := false
  /-- It promotes (R245). -/
  promote : Bool := false
deriving DecidableEq, Repr

/-- The registers that hold the address. -/
def addrOpds (m : MemWord) : List Opd := if m.win = .far then [m.base, m.base.plus 1] else [m.base]

/-- The registers that hold the data. -/
def dataOpds (m : MemWord) (raw : Bool) : List Opd :=
  match m.data with
  | .sp x => [.sp x]
  | o => o.run (if raw then 1 else m.width.regs)

/-- A data operand of one copy, for which the word executes once (R232). -/
def onceFor (o : Opd) : Bool :=
  match o with
  | .s _ => true
  | _ => false

/-- The threads for which a memory word executes. -/
def memThreads (o : Opd) (ps : List Thread) : List Thread := if onceFor o then ps.take 1 else ps

def LoadSpec.acc (x : LoadSpec) (e : Env) (s : State) (t : Thread) : Acc :=
  { a := e.memAddr s t x.m, kind := x.kind, wr := false }

def LoadSpec.form (x : LoadSpec) : Form :=
  { (Form.longLat x.c (addrOpds x.m) ((dataOpds x.m (decide (x.kind = .raw))).filter fun o => match o with
      | .sp _ => false
      | _ => true)).accesses with reads := fun _ => addrOpds x.m }

/-- The location that a load reads. -/
def Plan.target (p : Plan) (k : AccKind) : Loc :=
  match k, p.adj with
  | .cell, some l => l
  | _, _ => p.loc

/-- A load in reverse mode of a D page: it accumulates (R235). -/
def Plan.accumulates (p : Plan) (k : AccKind) : Bool :=
  match k with
  | .elem _ => p.adj.isSome
  | _ => false

/-- A load through the core cache finds every sector there, and no line of them must be waited for. -/
def State.loadHits (s : State) (e : Env) (p : Plan) (k : AccKind) : Bool :=
  let l := p.target k
  decide (l.store = .phys) && !p.accumulates k && (e.w.service || (s.core e.w.die e.w.core).holds l.bytes) &&
    (s.blockedLines e.w.die e.w.ownHeld l.bytes).isEmpty

/-- A load through the core cache that does not. -/
def State.loadMisses (s : State) (e : Env) (p : Plan) (k : AccKind) : Bool :=
  decide ((p.target k).store = .phys) && !p.accumulates k && !s.loadHits e p k

/-- A far address of `acqrem` outside the scratchpad windows fails step 3 (R245). -/
def acqremBad (e : Env) (x : Acc) : Option Fail :=
  match e.place x.a 1 with
  | .shared _ | .spill _ => some (Fail.mk' (if x.a.toNat % x.kind.align ≠ 0 then 3 else 5) 0 x.a.toNat)
  | .main | .scratch _ | .nowhere => none

/-- The checks of a load; an accumulate reads its register, which may be poisoned (R235, R439). -/
def LoadSpec.plan (x : LoadSpec) (e : Env) (s : State) (t : Thread) : Except Fail Plan :=
  match if x.promote then acqremBad e (x.acc e s t) else none, s.plan e t (x.acc e s t) with
  | some f, _ => .error f
  | none, .error f => .error f
  | none, .ok p =>
    if p.accumulates x.kind && (match x.m.data with
        | .v n => t.poison.any fun k => decide (k / 3 = n)
        | _ => false) then .error (Fail.mk' 6 0 0)
    else .ok p

/-- The plans of the threads that pass every check. -/
def plansOf (plan : Thread → Except Fail Plan) (ts : List Thread) : List (Thread × Plan) :=
  ts.filterMap fun t => match plan t with
    | .ok p => some (t, p)
    | .error _ => none

/-- The traps of the threads that fail a check. -/
def State.failAll (s : State) (e : Env) (ts : List Thread) (plan : Thread → Except Fail Plan) : State :=
  ts.foldl (fun s' t => match plan t with
    | .ok _ => s'
    | .error f => s'.fail e t f) s

/-- The soft errors that the accesses of some threads meet (R438, R439). -/
def State.scrubFor (s : State) (e : Env) (ts : List Thread) (acc : Thread → Acc) : State :=
  if s.pkg.latent.isEmpty then s
  else
    ts.foldl (fun s' t => match s.locate e t (acc t) with
      | .ok l => if l.store = .phys then s'.scrub e.w.die l.bytes else s'
      | .error _ => s') s

/-- The hold of a load: room for its accumulates (R282), its own requests to the lines (R340), and lines that must be
waited for where the load does not split. -/
def LoadSpec.hold (x : LoadSpec) (s : State) (e : Env) (t : Thread) : Option Hold :=
  let ts := memThreads x.m.data (e.parts x.c)
  if !decide (t ∈ ts) then none
  else
    match x.plan e s t with
    | .error _ => none
    | .ok p =>
      let ps := plansOf (x.plan e s) ts
      let n := (ps.filter fun y => y.2.accumulates x.kind).length
      if p.accumulates x.kind then
        (if 32 < (s.core e.w.die e.w.core).reqs.length + n then some (.room n) else none)
      else
        let l := p.target x.kind
        if s.ownRequest e.w.wid t.idx (if l.store = .phys then l.bytes else []) then some .settled
        else if x.split && (t.split.isSome || ps.any fun y => s.loadHits e y.2 x.kind) then none
        else if l.store = .phys then
          match s.blockedLines e.w.die e.w.ownHeld l.bytes with
          | [] => none
          | ls => some (.lines false ls)
        else none

/-- The request record of a thread (Table 13.6). -/
def Env.request (e : Env) (t : Thread) (a : Addr) (bytes : List Nat) (pid kind : Nat) (op : AtomOp) (ty : AtomTy) (mode : Nat)
    (dest : Option Nat) (code : Nat) (x : AtomArgs) : Request :=
  { kind := kind, op := op, ty := ty, mode := BitVec.ofNat 2 mode, ret := decide (kind = 0) || decide (kind = 2),
    acc := decide (kind = 3), triple := e.triple, tag := t.owner, die := e.w.die, core := e.w.core, slot := e.w.slot,
    wid := e.w.wid, thr := t.idx, pid := pid, dest := dest, destCode := code, va := a, bytes := bytes, t := e.tnum t, c := t.c, dirs := x.dirs,
    operand := x.b, operandHi := x.bHi, cmp := x.cv, cmpHi := x.cvHi, pc := e.iss.pc, pos := t.cl.pos,
    pass := t.passOnce }

/-- A request taken into its core's store (R282). -/
def State.sendRequest (s : State) (e : Env) (r : Request) : State :=
  let c := s.core e.w.die e.w.core
  s.setCore { c with reqs := c.reqs ++ [r] }

/-- The directions that a thread draws for its siblings. -/
def Env.dirs (e : Env) (rnd : Rnd) (t : Thread) : List Rnd := [e.dir rnd t 0, e.dir rnd t 1, e.dir rnd t 2]

/-- The accumulate of a reverse-mode load (R235, R281): its request, and the advance of C, of every participant where the
word executes once (R188). -/
def State.sendAccumulate (s : State) (e : Env) (s0 : State) (c : Ctl) (t : Thread) (data : Opd) (p : Plan) (pid : Nat) :
    State :=
  match p.adj with
  | none => s
  | some l =>
    let x : AtomArgs :=
      { b := e.read s0 t data, bHi := 0, cv := .all 0, cvHi := 0, dirs := e.dirs c.rnd t }
    (s.sendRequest e (e.request t (p.a + 0x100000000) l.bytes pid 3 .add .f32 l.mode none data.code.toNat x)).advanceC e
      (if onceFor data then e.parts c else [t])

/-- One thread's load made: its value goes to the outstanding instruction, or the access is carried on (R227). -/
def State.loadOne (s : State) (e : Env) (s0 : State) (x : LoadSpec) (t : Thread) (p : Plan) (pid : Nat) : State :=
  if p.accumulates x.kind then s.sendAccumulate e s0 x.c t x.m.data p pid
  else
    let l := p.target x.kind
    let a0 := l.bytes.headD 0
    if l.store = .shared && decide (e.b.rankOf a0 ≠ e.w.rank) && decide (t.owner = e.g.tag) then
      (s.portionAccess e.b.bid e.w.rank
        { e.portionAcc t a0 (.load x.m.width (decide (x.kind = .raw))) with
          pid := some pid
          dest := some x.m.data }).charge e.g.tag 5 (sectorsOf l.bytes).length
    else
      let v := loadValue x.kind l.mode e.triple (s.readLoc e t.owner l)
      let s1 := s.addParts e.w.wid pid t.idx x.m.data v.1
      let s2 := if v.2 then s1.updThread e.w.wid t.idx fun u => { u with istat := u.istat ||| 8 } else s1
      match l.store with
      | .phys => (s2.takeLines e l.bytes false).walked e t (p.a.toNat - 0xC00000000000)
      | .shared => s2.charge e.g.tag 5 (sectorsOf l.bytes).length
      | .spill => s2

/-- The threads on other cores with an access that is not performed: what a promotion waits for (R245, log 98). -/
def State.inFlight (s : State) (e : Env) : List (Nat × Nat) :=
  let far := fun (wid : Nat) => s.warps.any fun w => decide (w.wid = wid) && !(decide (w.die = e.w.die) && decide (w.core = e.w.core))
  (((s.requests.map fun r => (r.wid, r.thr)) ++
    (s.blocks.map fun b => b.portions.map fun p => (p.wid, p.thr)).flatten).eraseDups).filter fun x => far x.1

/-- A thread parked at the load's word, for which it fetches sectors (R178). -/
def Thread.parkAt (t : Thread) (pid : Nat) (sectors : List Nat) : Thread :=
  { t with st := .parked, split := some pid, age := 0, wait := some (.fetch sectors) }

/-- A reissue has read the lines that its core holds for the thread (R178). -/
def State.reissued (s : State) (e : Env) (t : Thread) : State :=
  if t.split.isNone then s else s.setCore ((s.core e.w.die e.w.core).letGo e.w.wid t.idx)

/-- The execution of a load (R178, R234): failing threads trap; threads that miss beside some that hit, and reissued
threads that miss again, are parked; the others' accesses are made now. A reissue translates anew: with no thread parked for
the load elsewhere, its epoch is the present one (R317). -/
def LoadSpec.body (x : LoadSpec) (e : Env) (s : State) : State :=
  let ts := memThreads x.m.data (e.parts x.c)
  let s := s.scrubFor e ts (x.acc e s)
  let ps := plansOf (x.plan e s) ts
  let anyHit := ps.any fun y => s.loadHits e y.2 x.kind
  let parks := fun (y : Thread × Plan) =>
    x.split && s.loadMisses e y.2 x.kind && (y.1.split.isSome || anyHit)
  let parked := ps.filter parks
  let made := ps.filter fun y => !parks y
  let s1 := s.failAll e ts (x.plan e s)
  let fresh := ps.filter fun y => y.1.split.isNone
  let sm := s1.countMem e
  let (pid, s2) := sm.1.newId
  let pidOf := fun (t : Thread) => t.split.getD pid
  let smp : Sample :=
    { thr := (made.getLast?.map fun y => y.1.idx).getD 0, pc := e.iss.pc, active := ts.length,
      sectors := (sectorsOf (ps.map fun y => (y.2.target x.kind).bytes).flatten).length, reissues := 0 }
  let s3 := if fresh.isEmpty then s2
    else s2.addPend e.w.wid
      { id := pid, flag := e.flagOf x.c, wait := if x.promote then .promoted (s.inFlight e) else .parts, parts := [],
        sparts := [], preds := [], thrs := fresh.map fun y => y.1.idx, epoch := some (s.die e.w.die).qepoch,
        sample := if sm.2 then some smp else none, acq := if x.acq then fresh.map fun y => y.1.idx else [] }
  let s4 := made.foldl (fun s' y =>
    (((s'.loadOne e s x y.1 y.2 (pidOf y.1)).reissued e y.1).sampleLast e.w.wid (pidOf y.1) y.1.idx).updThread e.w.wid y.1.idx
      fun u => { u with split := none }) s3
  let s5 := parked.foldl (fun s' y => s'.updThread e.w.wid y.1.idx fun _ =>
    y.1.parkAt (pidOf y.1) (sectorsOf (y.2.target x.kind).bytes)) s4
  let again := (ps.filterMap fun y => y.1.split)
  let elsewhere := fun (w : Warp) (pid : Nat) =>
    w.threads.any fun t => decide (t.split = some pid) && !ps.any fun y => decide (y.1.idx = t.idx)
  s5.updWarp e.w.wid fun w =>
    { w with
      wsplit := if parked.isEmpty then w.wsplit else w.wsplit + 1
      pend := mapIf (fun p => decide (p.id ∈ again))
        (fun p => { p with
          sample := p.sample.map fun z => { z with reissues := z.reissues + 1 }
          epoch := if elsewhere w p.id then p.epoch else some (s.die e.w.die).qepoch }) w.pend }

/-- A load word. -/
def loadWord (x : LoadSpec) : State → State := issue x.form x.hold x.body

/-! ## Stores -/

/-- What a store word does. -/
structure StoreSpec where
  c : Ctl
  m : MemWord
  kind : AccKind
deriving DecidableEq, Repr

def StoreSpec.acc (x : StoreSpec) (e : Env) (s : State) (t : Thread) : Acc :=
  { a := e.memAddr s t x.m, kind := x.kind, wr := true }

def StoreSpec.data (x : StoreSpec) : List Opd := if x.kind = .cell then [] else dataOpds x.m (decide (x.kind = .raw))

def StoreSpec.form (x : StoreSpec) : Form := (Form.short x.c (addrOpds x.m ++ x.data) []).accesses

def StoreSpec.threads (x : StoreSpec) (e : Env) : List Thread :=
  if x.kind = .cell then e.parts x.c else memThreads x.m.data (e.parts x.c)

/-- The hold of a store: lines that must be waited for, and its own requests to them. -/
def StoreSpec.hold (x : StoreSpec) (s : State) (e : Env) (t : Thread) : Option Hold :=
  if decide (t ∈ x.threads e) then s.accWait e t (x.acc e s t) else none

/-- The register write of a reverse-mode store (R235). -/
def State.writeData (s : State) (e : Env) (t : Thread) (d : Opd) (v : Triple) : State :=
  match d with
  | .v n => (s.writeV e.w.wid t.idx n v).retag e.w.wid n
  | .s n => s.writeS e.w.wid n v.s0
  | .g n => s.writeG e.b.bid e.w.rank e.w.slot n v.s0
  | .sp _ => s

/-- Bytes of a location written from a core, which takes its lines exclusive (R217); poison of what is covered whole is
cleared (R439). -/
def State.storeLoc (s : State) (e : Env) (l : Loc) (bs : List Byte) : State :=
  let s1 := s.writeLoc e l bs
  match l.store with
  | .phys => (s1.takeLines e l.bytes true).heal l.bytes
  | .shared => s1.charge e.g.tag 5 (sectorsOf l.bytes).length
  | .spill =>
    let whole := fun (u : Nat) => (List.range 32).all fun i => decide (u + i ∈ l.bytes)
    s1.updWarp e.w.wid fun w => { w with spillPoison := if w.spillPoison.isEmpty then [] else dropIf whole w.spillPoison }

/-- One thread's store performed (R234, R235, R364). -/
def State.storeOne (s : State) (e : Env) (s0 : State) (x : StoreSpec) (t : Thread) (p : Plan) : State :=
  let regs := x.data.map fun o => e.read s0 t o
  let bs := storeBytes x.kind p.loc.mode e.triple regs
  let n := p.loc.bytes.length
  match x.kind, p.tape, p.adj with
  | .cell, _, some c => (s.storeLoc e c bs).walked e t (p.a.toNat - 0xC00000000000)
  | _, some r, some c =>
    let v := laneTriple e.triple (rawValue (s.readLoc e t.owner c))
    let old := ((s.readLoc e t.owner r).drop 8).take n
    let s1 := (s.storeLoc e c (List.replicate n (0 : Byte))).storeLoc e p.loc old
    ((s1.updThread e.w.wid t.idx fun u => { u with tapepos := u.tapepos - 1 }).writeData e t x.m.data v).charge e.g.tag 19 1
  | _, some r, none =>
    let image := recordBytes p.a p.loc.mode t.tapepos (s.readLoc e t.owner p.loc)
    let s1 := (s.storeLoc e r image).storeLoc e p.loc bs
    (s1.updThread e.w.wid t.idx fun u => { u with tapepos := u.tapepos + 1 }).charge e.g.tag 19 1
  | _, _, _ =>
    let a0 := p.loc.bytes.headD 0
    if p.loc.store = .shared && decide (e.b.rankOf a0 ≠ e.w.rank) then
      (s.portionAccess e.b.bid e.w.rank (e.portionAcc t a0 (.store bs))).charge e.g.tag 5 (sectorsOf p.loc.bytes).length
    else
      let s1 := s.storeLoc e p.loc bs
      if p.loc.store = .phys then s1.walked e t (p.a.toNat - 0xC00000000000) else s1

/-- A reverse-mode store whose DATA is a g register: such a register is no destination (R232). -/
def StoreSpec.badDest (x : StoreSpec) (p : Plan) : Bool :=
  p.tape.isSome && p.adj.isSome && (match x.m.data with | .g _ => true | _ => false)

/-- The execution of a store: thread by thread in ascending index (R232). -/
def StoreSpec.body (x : StoreSpec) (e : Env) (s : State) : State :=
  let ts := x.threads e
  let s := s.scrubFor e ts (x.acc e s)
  let sm := s.countMem e
  let s1 := ts.foldl (fun s' t =>
    match s'.plan e t (x.acc e s t) with
    | .error f => s'.fail e t f
    | .ok p => if x.badDest p then e.illegal s' t subField else s'.storeOne e s x t p) sm.1
  match sm.2, ts.getLast? with
  | true, some t =>
    s1.writeSample e.w.wid
      { thr := t.idx, pc := e.iss.pc, active := ts.length,
        sectors := (sectorsOf ((plansOf (fun t => s.plan e t (x.acc e s t)) ts).map fun y => y.2.loc.bytes).flatten).length, reissues := 0 }
  | _, _ => s1

/-- A store word. -/
def storeWord (x : StoreSpec) : State → State := issue x.form x.hold x.body

/-! ## Meanings: loads and stores -/

/-- LD (R234, R235). -/
def execLd (c : Ctl) (m : MemWord) (s : State) : Out :=
  .next (loadWord { c := c, m := m, kind := .elem m.width, split := true } s)

/-- ST (R234, R235). -/
def execSt (c : Ctl) (m : MemWord) (s : State) : Out := .next (storeWord { c := c, m := m, kind := .elem m.width } s)

/-- LDX (R237). -/
def execLdx (c : Ctl) (m : MemWord) (s : State) : Out :=
  .next (loadWord { c := c, m := m, kind := .raw, split := true } s)

/-- STX (R237). -/
def execStx (c : Ctl) (m : MemWord) (s : State) : Out := .next (storeWord { c := c, m := m, kind := .raw } s)

/-- LDACQ (R244): it does not split, and later accesses of its thread wait until it is performed (log 11). -/
def execLdacq (c : Ctl) (m : MemWord) (_ : Scope) (s : State) : Out :=
  .next (loadWord { c := c, m := m, kind := .ordered m.width, split := false, acq := true } s)

/-- STREL (R244): the store waits until every earlier access of its thread is performed (R343). -/
def execStrel (c : Ctl) (m : MemWord) (_ : Scope) (s : State) : Out :=
  let x : StoreSpec := { c := c, m := m, kind := .ordered m.width }
  .next (issue x.form
    (fun s e t => match holdRelease c s e t with
      | some w => some w
      | none => x.hold s e t) x.body s)

/-- ACQREM (R245): an acquire, whose promotion completes when every access in flight on other cores is performed (log
98). -/
def execAcqrem (c : Ctl) (m : MemWord) (_ : Scope) (s : State) : Out :=
  .next (loadWord { c := c, m := m, kind := .ordered m.width, split := false, acq := true, promote := true } s)

/-- The checks of Table 10.4 that drop a `pref`: it reads its line, or with EX asks for it as a store does (log 99). -/
def State.prefPlan (s : State) (e : Env) (t : Thread) (a : Addr) (ex : Bool) : Option Loc :=
  match s.locate e t { a := a, kind := .elem .w8, wr := ex } with
  | .error _ => none
  | .ok l =>
    if (l.d && decide (l.mode = 2)) || (ex && (s.foreign e t.owner l).isSome) || (s.poisoned e l).isSome then none else some l

/-- PREF (R248): a line taken into the core cache where every check passes and nothing makes it wait; no value
changes. -/
def execPref (c : Ctl) (m : MemWord) (ex : Bool) (s : State) : Out :=
  .next (issue (Form.short c (addrOpds m) []) noHold (fun e s =>
    (e.parts c).foldl (fun s' t =>
      match s.prefPlan e t (e.memAddr s t m) ex with
      | none => s'
      | some l =>
        let line := upFrom (l.bytes.headD 0 / 128 * 128) 128
        if l.store = .phys && (s.waitLines e.w.die e.w.ownHeld e.w.home ex line).isEmpty then
          (s'.takeLines e line ex).walked e t ((e.memAddr s t m).toNat - 0xC00000000000)
        else s') s) s)

/-- The reads of a thread that are not performed stand before an acquire: its later accesses follow them. -/
def State.acquire (s : State) (wid i : Nat) : State :=
  s.updWarp wid fun w =>
    { w with pend := mapIf (fun p => decide (i ∈ p.thrs)) (fun p => { p with acq := addNew i p.acq }) w.pend }

/-- FENCE (R243): a rel, ar or sc fence stalls until the thread's earlier accesses are performed; after an acq, ar or sc
fence the thread's later accesses wait for its earlier reads (log 11). -/
def execFence (c : Ctl) (k : FenceKind) (_ : Scope) (s : State) : Out :=
  .next (issue (Form.short c [] [])
    (fun s e t => if k = .acq then none else holdRelease c s e t)
    (fun e s => if k = .rel then s else (e.parts c).foldl (fun s' t => s'.acquire e.w.wid t.idx) s) s)

/-! ## The data stack (R238) -/

/-- Bytes of a register in a stack frame. -/
def frameReg (triple : Bool) : Nat := if triple then 12 else 4

/-- PUSH. -/
def execPush (c : Ctl) (a : Nat) (n : BitVec 3) (s : State) : Out :=
  let k := n.toNat + 1
  .next (issue (Form.short c (vrun a k) []).accesses noHold (fun e s =>
    let z := k * frameReg e.triple
    let sm := s.countMem e
    let ts := e.parts c
    let s1 := ts.foldl (fun s' t =>
      if e.g.spillSize < t.dsp + z + t.rsp then e.trapBefore s' t (e.record t 19 0)
      else if t.owner ≠ e.g.tag then
        s'.fail e t (Fail.mk' 6 0 (0xE10000000000 + areaOf e.g t.idx + t.dsp))
      else
        let bs := ((List.range k).map fun i =>
          let x := e.read s t (.v (a + i))
          if e.triple then tripleBytes x else wordBytes x.s0).flatten
        let off := areaOf e.g t.idx + t.dsp
        (s'.updWarp e.w.wid fun w => { w with
          spill := w.spill.writeBytes off bs
          spillPoison := dropIf (fun u => decide (off ≤ u) && decide (u + 32 ≤ off + z)) w.spillPoison }).updThread
          e.w.wid t.idx fun u => { u with dsp := u.dsp + z }) sm.1
    match sm.2, ts.getLast? with
    | true, some t => s1.writeSample e.w.wid
        { thr := t.idx, pc := e.iss.pc, active := ts.length, sectors := ts.length * ((z + 31) / 32), reissues := 0 }
    | _, _ => s1) s)

/-- POP: long-latency; the image is read at issue. -/
def execPop (c : Ctl) (d : Nat) (n : BitVec 3) (s : State) : Out :=
  let k := n.toNat + 1
  .next (issue (Form.longLat c [] (vrun d k)).accesses noHold (fun e s =>
    let z := k * frameReg e.triple
    let ts := e.parts c
    let off := fun (t : Thread) => areaOf e.g t.idx + (t.dsp - z)
    let bad := fun (t : Thread) => decide (t.dsp < z)
    let poisoned := fun (t : Thread) =>
      (upFrom (off t) z).find? fun x => decide (x / 32 * 32 ∈ e.w.spillPoison)
    let s1 := ts.foldl (fun s' t =>
      if bad t then e.trapBefore s' t (e.record t 19 1)
      else match poisoned t with
        | some x => s'.fail e t (Fail.mk' 6 0 (0xE10000000000 + x))
        | none => s') s
    let ok := ts.filter fun t => !bad t && (poisoned t).isNone
    if ok.isEmpty then s1
    else
      let sm := s1.countMem e
      let (pid, s2) := sm.1.newId
      let smp : Sample :=
        { thr := (ok.getLast?.map fun t => t.idx).getD 0, pc := e.iss.pc, active := ts.length,
          sectors := ok.length * ((z + 31) / 32), reissues := 0 }
      let s3 := s2.addPend e.w.wid
        { id := pid, flag := e.flagOf c, wait := .ready, parts := [], sparts := [], preds := [],
          thrs := ok.map fun t => t.idx, epoch := none, sample := if sm.2 then some smp else none }
      ok.foldl (fun s' t =>
        let bs := if t.owner = e.g.tag then e.w.spill.readBytes (off t) z else List.replicate z (0 : Byte)
        let val := fun (i : Nat) => rawValue ((bs.drop (i * frameReg e.triple)).take (frameReg e.triple))
        (s'.addParts e.w.wid pid t.idx (.v d) ((List.range k).map val)).updThread e.w.wid t.idx
          fun u => { u with dsp := u.dsp - z }) s3) s)

/-! ## atom (R239 to R241) -/

/-- The operand and compare value of an atomic for a thread. -/
def Env.atomArgs (e : Env) (s : State) (c : Ctl) (t : Thread) (b : Opd) (cv : Option Nat) (ty : AtomTy) : AtomArgs :=
  let hi := fun (o : Opd) => if ty = .w64 then e.read0 s t (o.plus 1) else 0
  { b := e.read s t b
    bHi := hi b
    cv := match cv with | some n => e.read s t (.v n) | none => .all 0
    cvHi := match cv with | some n => hi (.v n) | none => 0
    dirs := e.dirs c.rnd t }

/-- The registers of an atomic's destination. -/
def destRun (d : Option Nat) (ty : AtomTy) : List Opd :=
  match d with
  | some n => vrun n (if ty = .w64 then 2 else 1)
  | none => []

/-- The registers of an atomic's operand. -/
def operandRun (b : Opd) (ty : AtomTy) : List Opd := if ty = .w64 then b.run 2 else [b]

/-- The checks of Table 10.4 for an access to block shared memory of `n` bytes, read and written. -/
def Env.sharedCheck (e : Env) (t : Thread) (off n align : Nat) : Option Fail :=
  let a := 0xE00000000000 + off
  if off % align ≠ 0 then some (Fail.mk' 3 0 a)
  else if e.b.shBytes < off + n then some (Fail.mk' 5 0 a)
  else if e.b.rankOf off ≠ e.b.rankOf (off + n - 1) then some (Fail.mk' 3 0 a)
  else if t.owner ≠ e.g.tag then some (Fail.mk' 6 0 a)
  else ((upFrom off n).find? fun x => decide (x / 32 * 32 ∈ e.b.shPoison)).map fun x => Fail.mk' 6 0 (0xE00000000000 + x)

/-- The trap of an atomic's invalid flag where it is enabled: of `min` and `max` of F32 (R127, R133, R240). The thread then
issues no further word until the result has been written, as R471 gives for other long-latency words (log 96). -/
def Env.atomTrap (e : Env) (s : State) (t : Thread) (a b : Opd) (op : AtomOp) (ty : AtomTy) : Option TrapRec :=
  if (op = .min ∨ op = .max) ∧ ty = .f32 ∧ t.inHandler.isNone ∧ t.fpmask.getLsbD 0 then
    some { e.record t 10 0 with opa := e.read s t a, opb := e.read s t b }
  else none

/-- ATOM. -/
def execAtom (c : Ctl) (d : Option Nat) (a b : Opd) (op : AtomOp) (ty : AtomTy) (s : State) : Out :=
  let cv := if op = .cas then d else none
  let src := a :: (operandRun b ty ++ destRun cv ty)
  .next (issue (Form.longLat c src (destRun d ty)).accesses noHold (fun e s =>
    let ts := e.parts c
    let off := fun (t : Thread) => (e.read0 s t a).toNat
    let check := fun (t : Thread) => e.sharedCheck t (off t) (AtomTy.bytes' ty) (if ty = .w64 then 8 else 4)
    let s1 := ts.foldl (fun s' t => match check t with
      | some f => s'.fail e t f
      | none => s') s
    let ok := ts.filter fun t => (check t).isNone
    if ok.isEmpty then s1
    else
      let sm := s1.countMem e
      let (pid, s2) := sm.1.newId
      let smp : Sample :=
        { thr := (ok.getLast?.map fun t => t.idx).getD 0, pc := e.iss.pc, active := ts.length, sectors := ok.length,
          reissues := 0 }
      let s3 := s2.addPend e.w.wid
        { id := pid, flag := e.flagOf c, wait := .parts, parts := [], sparts := [], preds := [],
          thrs := ok.map fun t => t.idx, epoch := none, sample := if sm.2 then some smp else none }
      let adv := decide (op = .add) && (decide (ty = .f32) || decide (ty = .f32x))
      ok.foldl (fun s' t =>
        let trap := e.atomTrap s t a b op ty
        let s4 := (s'.portionAccess e.b.bid e.w.rank
          { e.portionAcc t (off t) (.atom op ty (e.atomArgs s c t b cv ty)) with
            pid := some pid
            dest := d.map Opd.v
            trap := trap }).charge e.g.tag 5 (sectorsOf (upFrom (off t) (AtomTy.bytes' ty))).length
        let s5 := if adv then s4.updThread e.w.wid t.idx fun u => { u with c := u.c + 1 } else s4
        if trap.isSome then s5.updThread e.w.wid t.idx fun u => u.block (.result pid) else s5) s3) s)

end Sys2Proof.Machine
end

