-- ==== Sys2Proof/Machine/Barrier.lean ====
section
/-! DEFINITION. Barrier instructions (R246, R247), the hang watchdog (R225), and the g-register home and replicas (R218,
R219). -/

namespace Sys2Proof.Machine

/-! ## Addresses -/

/-- The offset that a barrier instruction names. -/
def Env.barOff (e : Env) (s : State) (t : Thread) (a : Opd) : Nat := (e.read0 s t a).toNat

/-- The checks of a barrier address: a multiple of 8 inside the window (R220), the owner tag of what is written and poison
(Table 10.4). -/
def Env.barCheck (e : Env) (wr : Bool) (t : Thread) (off : Nat) : Option Fail :=
  let a := 0xE00000000000 + off
  if off % 8 ≠ 0 ∨ e.b.shBytes < off + 8 then some (Fail.mk' 3 0 a)
  else if wr && decide (t.owner ≠ e.g.tag) then some (Fail.mk' 6 0 a)
  else if off / 32 * 32 ∈ e.b.shPoison then some (Fail.mk' 6 0 a)
  else none

/-- The participants' barrier accesses, thread by thread; a failing thread traps before the word. -/
def State.barEach (s : State) (e : Env) (a : Opd) (wr : Bool) (ts : List Thread) (f : State → Thread → Nat → State) : State :=
  ts.foldl (fun s' t =>
    let off := e.barOff s t a
    match e.barCheck wr t off with
    | some x => s'.fail e t x
    | none => f (s'.charge e.g.tag 5 1) t off) s

/-- The form of a barrier instruction. -/
def barForm (c : Ctl) (src : List Opd) : Form := (Form.short c src []).accesses

/-! ## Meanings -/

/-- BARINIT: a count above 32,768 raises FIELD. -/
def execBarinit (c : Ctl) (a : Opd) (b : Src) (s : State) : Out :=
  .next (issue (barForm c (a :: b.opds)) noHold (fun e s =>
    s.barEach e a true (e.parts c) fun s' t off =>
      let n := (e.src s t .zero b).s0.toNat
      if 32768 < n then e.illegal s' t subField
      else s'.portionAccess e.b.bid e.w.rank (e.portionAcc t off (.init n))) s)

/-- BARARR: long-latency, a release at block scope (R224). -/
def execBararr (c : Ctl) (d : Nat) (a : Opd) (s : State) : Out :=
  .next (issue { (Form.longLat c [a] [.v d]).accesses with keyed := true } (holdRelease c) (fun e s =>
    let ts := e.parts c
    let ok := ts.filter fun t => (e.barCheck true t (e.barOff s t a)).isNone
    if ok.isEmpty then s.barEach e a true ts fun s' _ _ => s'
    else
      let (pid, s1) := s.newId
      let s2 := s1.addPend e.w.wid
        { id := pid, flag := e.flagOf c, wait := .parts, parts := [], sparts := [], preds := [],
          thrs := ok.map fun t => t.idx, epoch := none, sample := none }
      s2.barEach e a true ts fun s' t off =>
        s'.portionAccess e.b.bid e.w.rank
          { e.portionAcc t off (.arrive false) with pid := some pid, dest := some (.v d) }) s)

/-- A barrier access that its thread waits for: at another rank's object the thread waits until the access has arrived
there (R220, R227). -/
def State.barMeet (s : State) (e : Env) (t : Thread) (off : Nat) (op : PortionOp) : State :=
  (if e.b.rankOf off = e.w.rank then s else s.updThread e.w.wid t.idx fun u => u.block (.arriving off)).portionAccess
    e.b.bid e.w.rank (e.portionAcc t off op)

/-- BARWAIT. -/
def execBarwait (c : Ctl) (a : Opd) (b : Src) (done : Bool) (s : State) : Out :=
  .next (issue (barForm c (a :: b.opds)) noHold (fun e s =>
    s.barEach e a false (e.parts c) fun s' t off =>
      let p := (e.src s t .zero b).s0.extractLsb' 0 16
      s'.barMeet e t off (.await (if done then p + 1 else p))) s)

/-- BARSYNC: an arrival, a release at block scope, then the wait. -/
def execBarsync (c : Ctl) (a : Opd) (s : State) : Out :=
  .next (issue { barForm c [a] with keyed := true } (holdRelease c) (fun e s =>
    s.barEach e a true (e.parts c) fun s' t off => s'.barMeet e t off (.arrive true)) s)

/-- BARDROP. -/
def execBardrop (c : Ctl) (a : Opd) (b : Src) (s : State) : Out :=
  .next (issue (barForm c (a :: b.opds)) noHold (fun e s =>
    s.barEach e a true (e.parts c) fun s' t off =>
      s'.portionAccess e.b.bid e.w.rank (e.portionAcc t off (.drop (e.src s t .zero b).s0.toNat))) s)

/-! ## The hang watchdog -/

/-- Cycles after which the watchdog fires. -/
def hangCycles : Nat := 2 ^ 24

/-- The threads of a block that wait at an offset. -/
def State.waitersAt (s : State) (bid off : Nat) : Nat :=
  ((s.warps.filter fun w => w.bid = bid).filter fun w => w.threads.any fun t => match t.wait with
    | some (.barrier o _ _ _) => decide (o = off)
    | _ => false).length

/-- The watchdog count of a block stands still (R225). -/
def State.watchStopped (s : State) (bid : Nat) : Bool :=
  s.warps.any fun w => decide (w.bid = bid) && (w.held || w.saved)

/-- HANG_WATCHDOG (R225): a barrier wait without a change of PHASE for 2^24 counted cycles stops its block and sends a
hang record. -/
def execHangWatchdog (wid thr : Nat) (s : State) : Out :=
  match s.warp? wid, s.thread? wid thr with
  | some w, some t =>
    match t.wait, s.block? w.bid with
    | some (.barrier off target since _), some b =>
      match s.grid? b.gid with
      | none => .next s
      | some g =>
        if s.now < since + hangCycles || s.watchStopped b.bid || b.hung then .next s
        else
          let x := BitVec.ofNat 64 (leNat (s.sharedBytes b off 8))
          let t := tnumOf w b g thr
          let s1 := s.updGrid g.gid fun g => { g with report := some (0, t, BitVec.ofNat 32 off, x) }
          .next ((s1.updBlock b.bid fun b => { b with hung := true }).send
            (.hang b.bid off x t target (s.waitersAt b.bid off)))
    | _, _ => .next s
  | _, _ => .next s

/-! ## g registers (R218, R219) -/

/-- Cycles within which every core of a block sees a write of a g register (R219). -/
def gSight : Nat := 64

/-- The writes whose time is up. -/
def Block.gLate (b : Block) (now : Nat) : List GWrite := b.gflight.filter fun x => decide (x.since + gSight ≤ now)

/-- G_WRITE_HOME_ARRIVAL: the oldest write of one rank reaches the home. Among ranks the choice is open (log 13), but a
write whose 64 cycles are up comes first (R219); of writes of one cycle the one of largest key prevails (R218). -/
def execGWriteHomeArrival (bid : Nat) (s : State) : Out :=
  match s.block? bid with
  | none => .next s
  | some b =>
    let late := b.gLate s.now
    let all := if late.isEmpty then b.gflight else late
    let first := all.filter fun x => decide ((b.gflight.find? fun y => y.rank = x.rank) = some x)
    let k := if first.length ≤ 1 then 0 else Config.pick (s.fresh + 1) % first.length
    match first.drop k with
    | [] => .next s
    | x :: _ => .next (s.updBlock bid fun _ => { b with gflight := b.gflight.erase x }.homeWrite s.now x)

/-- A replica's own write that the home orders after the update: still on its way, or later in the queue (R219). -/
def Block.ownLater (b : Block) (rank reg : Nat) (rest : List (Nat × GWrite)) : Bool :=
  b.gflight.any (fun x => decide (x.rank = rank) && decide (x.reg = reg)) ||
    rest.any fun x => decide (x.1 = rank) && decide (x.2.rank = rank) && decide (x.2.reg = reg)

/-- G_REPLICA_UPDATE: the next update reaches a replica, which discards it where the home ordered it before the
replica's own latest write. -/
def execGReplicaUpdate (bid rank : Nat) (s : State) : Out :=
  match s.block? bid with
  | none => .next s
  | some b =>
    match b.gupdates.find? fun x => x.1 = rank with
    | none => .next s
    | some u =>
      let rest := b.gupdates.erase u
      let x := u.2
      let skip := decide (x.rank = rank) || b.ownLater rank x.reg rest
      .next (s.updBlock bid fun b =>
        { b with
          gupdates := rest
          greps := if skip then b.greps else setKey rank (setAt (lookupD rank b.g b.greps) x.reg x.val) b.greps })

end Sys2Proof.Machine
end

