-- ==== Sys2Proof/Machine/Integer.lean ====
section
/-! DEFINITION. Integer, bit-field, comparison, selection and move instructions (R108 to R121). -/

namespace Sys2Proof.Machine

/-! ## Arithmetic on words -/

/-- Sat(n, I32) (R55). -/
def satI32 (n : Int) : Word := BitVec.ofInt 32 (clamp (-2147483648) 2147483647 n).1

/-- The value of a word, signed or unsigned. -/
def wordInt (u : Bool) (w : Word) : Int := if u then w.toNat else w.toInt

def iaddVal (sat : Bool) (a b : Word) : Word := if sat then satI32 (a.toInt + b.toInt) else a + b

def isubVal (sat : Bool) (a b : Word) : Word := if sat then satI32 (a.toInt - b.toInt) else a - b

/-- Bits [63:32] of the product (Table 5.2). -/
def imulhVal (u : Bool) (a b : Word) : Word := BitVec.ofInt 32 (wordInt u a * wordInt u b / 4294967296)

/-- `imad` (R110). -/
def imadVal (hi u : Bool) (a b c : Word) : Word :=
  let n := wordInt u a * wordInt u b + wordInt u c
  BitVec.ofInt 32 (if hi then n / 4294967296 else n)

def iminVal (u : Bool) (a b : Word) : Word := if wordInt u b < wordInt u a then b else a

def imaxVal (u : Bool) (a b : Word) : Word := if wordInt u a < wordInt u b then b else a

def iabsVal (sat : Bool) (a : Word) : Word :=
  if sat then satI32 (if a.toInt < 0 then -a.toInt else a.toInt) else if a.toInt < 0 then -a else a

def inegVal (sat : Bool) (a : Word) : Word := if sat then satI32 (-a.toInt) else -a

/-- `idiv` (R109): towards zero; a zero divisor gives FFFF_FFFFh. -/
def idivVal (u : Bool) (a b : Word) : Word :=
  if b = 0 then 0xFFFFFFFF else BitVec.ofInt 32 (Int.tdiv (wordInt u a) (wordInt u b))

/-- `irem` (R109): the sign of va; a zero divisor gives va. -/
def iremVal (u : Bool) (a b : Word) : Word :=
  if b = 0 then a else BitVec.ofInt 32 (Int.tmod (wordInt u a) (wordInt u b))

/-- Shifts by n, n unsigned (Table 5.2). -/
def shlVal (a b : Word) : Word := if 32 ≤ b.toNat then 0 else a <<< b.toNat
def shrVal (a b : Word) : Word := a >>> b.toNat
def sarVal (a b : Word) : Word := a.sshiftRight b.toNat
def rotVal (a b : Word) : Word := a.rotateLeft (b.toNat % 32)

/-- The number of set bits. -/
def popcVal (a : Word) : Word := BitVec.ofNat 32 ((List.range 32).filter fun i => a.getLsbD i).length

/-- The number of leading zero bits. -/
def clzVal (a : Word) : Word := BitVec.ofNat 32 (if a = 0 then 32 else 31 - Nat.log2 a.toNat)

/-- Bit i of the result is bit 31 - i. -/
def brevVal (a : Word) : Word := a.reverse

/-- `bfx` (R114): position and length, the length cut to 32. -/
def bfxVal (sgn : Bool) (a : Word) (pos len : Nat) : Word :=
  let n := min len 32
  let x : BitVec 64 := (if sgn then a.signExtend 64 else a.setWidth 64) >>> pos
  if n = 0 then 0
  else
    let y : BitVec 64 := x <<< (64 - n)
    (if sgn then y.sshiftRight (64 - n) else y >>> (64 - n)).setWidth 32

/-- `bfi` (R115). -/
def bfiVal (a base : Word) (pos len : Nat) : Word :=
  let m : BitVec 64 := (BitVec.ofNat 64 (2 ^ min len 32 - 1)) <<< pos
  (base &&& ~~~(m.setWidth 32)) ||| ((a.setWidth 64 <<< pos) &&& m).setWidth 32

/-- The tests of `icmp` (R116). -/
def ICond.test (cc : ICond) (a b : Word) : Bool :=
  match cc with
  | .eq => decide (a = b)
  | .ne => decide (a ≠ b)
  | .lt => decide (a.toInt < b.toInt)
  | .le => decide (a.toInt ≤ b.toInt)
  | .gt => decide (b.toInt < a.toInt)
  | .ge => decide (b.toInt ≤ a.toInt)
  | .lo => decide (a.toNat < b.toNat)
  | .hs => decide (b.toNat ≤ a.toNat)

/-- `iaddc` (R112): the sum and the carry. -/
def iaddcVal (a b : Word) (cin : Bool) : Word × Bool :=
  let n := a.toNat + b.toNat + cin.toNat
  (BitVec.ofNat 32 n, decide (2 ^ 32 ≤ n))

/-- One byte of `prmt` (R121). -/
def prmtByte (src : BitVec 64) (sel : BitVec 4) : BitVec 8 :=
  let b := src.extractLsb' (8 * (sel.toNat % 8)) 8
  if sel.getLsbD 3 then (if b.getLsbD 7 then 0xFF else 0) else b

def prmtVal (a b sel : Word) : Word :=
  let src : BitVec 64 := b ++ a
  prmtByte src (sel.extractLsb' 12 4) ++ prmtByte src (sel.extractLsb' 8 4) ++ prmtByte src (sel.extractLsb' 4 4) ++
    prmtByte src (sel.extractLsb' 0 4)

/-! ## Words of one shape -/

/-- Two operands, computed once from sibling 0 (R16, R108). -/
def intWord (c : Ctl) (d : Dst) (a : Opd) (x : Ext) (b : Src) (f : Word → Word → Word) : State → State :=
  plainWord (Form.short c (a :: b.opds) d.opds) d fun e s t => .all (f (e.read0 s t a) (e.src s t x b).s0)

/-- Two operands, computed per sibling (R16, R108). -/
def bitWord (c : Ctl) (d : Dst) (a : Opd) (b : Src) (f : Word → Word → Word) : State → State :=
  plainWord (Form.short c (a :: b.opds) d.opds) d fun e s t => (e.read s t a).map2 f (e.src s t .zero b)

/-- One operand, computed once (R111). -/
def unaryWord (c : Ctl) (d : Dst) (a : Opd) (f : Word → Word) : State → State :=
  plainWord (Form.short c [a] d.opds) d fun e s t => .all (f (e.read0 s t a))

/-! ## Meanings -/

/-- IADD (R108). -/
def execIadd (c : Ctl) (d : Dst) (a : Opd) (b : Src) (sat : Bool) (s : State) : Out :=
  .next (intWord c d a .sign b (iaddVal sat) s)

/-- ISUB (R108). -/
def execIsub (c : Ctl) (d : Dst) (a : Opd) (b : Src) (sat : Bool) (s : State) : Out :=
  .next (intWord c d a .sign b (isubVal sat) s)

/-- IMUL (R108). -/
def execImul (c : Ctl) (d : Dst) (a : Opd) (b : Src) (s : State) : Out :=
  .next (intWord c d a .sign b (fun x y => x * y) s)

/-- IMULH (R108). -/
def execImulh (c : Ctl) (d : Dst) (a : Opd) (b : Src) (u : Bool) (s : State) : Out :=
  .next (intWord c d a .sign b (imulhVal u) s)

/-- IMAD (R110). -/
def execImad (c : Ctl) (d : Dst) (a b x : Opd) (hi u : Bool) (s : State) : Out :=
  .next (plainWord (Form.short c [a, b, x] d.opds) d
    (fun e s t => .all (imadVal hi u (e.read0 s t a) (e.read0 s t b) (e.read0 s t x))) s)

/-- IMIN (R108). -/
def execImin (c : Ctl) (d : Dst) (a : Opd) (b : Src) (u : Bool) (s : State) : Out :=
  .next (intWord c d a .sign b (iminVal u) s)

/-- IMAX (R108). -/
def execImax (c : Ctl) (d : Dst) (a : Opd) (b : Src) (u : Bool) (s : State) : Out :=
  .next (intWord c d a .sign b (imaxVal u) s)

/-- IABS (R111). -/
def execIabs (c : Ctl) (d : Dst) (a : Opd) (sat : Bool) (s : State) : Out := .next (unaryWord c d a (iabsVal sat) s)

/-- INEG (R111). -/
def execIneg (c : Ctl) (d : Dst) (a : Opd) (sat : Bool) (s : State) : Out := .next (unaryWord c d a (inegVal sat) s)

/-- IDIV (R109). -/
def execIdiv (c : Ctl) (d : Dst) (a : Opd) (b : Src) (u : Bool) (s : State) : Out :=
  .next (intWord c d a .sign b (idivVal u) s)

/-- IREM (R109). -/
def execIrem (c : Ctl) (d : Dst) (a : Opd) (b : Src) (u : Bool) (s : State) : Out :=
  .next (intWord c d a .sign b (iremVal u) s)

/-- AND (R108). -/
def execAnd (c : Ctl) (d : Dst) (a : Opd) (b : Src) (s : State) : Out := .next (bitWord c d a b (fun x y => x &&& y) s)

/-- OR (R108). -/
def execOr (c : Ctl) (d : Dst) (a : Opd) (b : Src) (s : State) : Out := .next (bitWord c d a b (fun x y => x ||| y) s)

/-- XOR (R108). -/
def execXor (c : Ctl) (d : Dst) (a : Opd) (b : Src) (s : State) : Out := .next (bitWord c d a b (fun x y => x ^^^ y) s)

/-- ANDN (R108). -/
def execAndn (c : Ctl) (d : Dst) (a : Opd) (b : Src) (s : State) : Out :=
  .next (bitWord c d a b (fun x y => x &&& ~~~y) s)

/-- NOT (R111), per sibling. -/
def execNot (c : Ctl) (d : Dst) (a : Opd) (s : State) : Out :=
  .next (plainWord (Form.short c [a] d.opds) d (fun e s t => (e.read s t a).map fun x => ~~~x) s)

/-- SHL (R108). -/
def execShl (c : Ctl) (d : Dst) (a : Opd) (b : Src) (s : State) : Out := .next (intWord c d a .zero b shlVal s)

/-- SHR (R108). -/
def execShr (c : Ctl) (d : Dst) (a : Opd) (b : Src) (s : State) : Out := .next (intWord c d a .zero b shrVal s)

/-- SAR (R108). -/
def execSar (c : Ctl) (d : Dst) (a : Opd) (b : Src) (s : State) : Out := .next (intWord c d a .zero b sarVal s)

/-- ROT (R108). -/
def execRot (c : Ctl) (d : Dst) (a : Opd) (b : Src) (s : State) : Out := .next (intWord c d a .zero b rotVal s)

/-- POPC (R111). -/
def execPopc (c : Ctl) (d : Dst) (a : Opd) (s : State) : Out := .next (unaryWord c d a popcVal s)

/-- CLZ (R111). -/
def execClz (c : Ctl) (d : Dst) (a : Opd) (s : State) : Out := .next (unaryWord c d a clzVal s)

/-- BREV (R111). -/
def execBrev (c : Ctl) (d : Dst) (a : Opd) (s : State) : Out := .next (unaryWord c d a brevVal s)

/-- Position and length of a bit field: from a register's [4:0] and [13:8], or an immediate's [4:0] and [10:5]
(R114). -/
def fieldOfReg (w : Word) : Nat × Nat := (w.toNat % 32, w.toNat / 256 % 64)

def fieldOfImm (w : BitVec 20) : Nat × Nat := (w.toNat % 32, w.toNat / 32 % 64)

def Env.bitField (e : Env) (s : State) (t : Thread) (b : Src) : Nat × Nat :=
  match b with
  | .reg o => fieldOfReg (e.read0 s t o)
  | .imm w => fieldOfImm w

/-- BFX (R114). -/
def execBfx (c : Ctl) (d : Dst) (a : Opd) (b : Src) (sgn : Bool) (s : State) : Out :=
  .next (plainWord (Form.short c (a :: b.opds) d.opds) d
    (fun e s t => .all (bfxVal sgn (e.read0 s t a) (e.bitField s t b).1 (e.bitField s t b).2)) s)

/-- BFI (R115): the register form copies vb, the immediate form vd's own value. -/
def execBfi (c : Ctl) (d : Dst) (a : Opd) (b : Src2) (s : State) : Out :=
  .next (plainWord (Form.short c (a :: match b with | .regs x y => [x, y] | .imm _ => d.opds) d.opds) d
    (fun e s t => match b with
      | .regs x y =>
        let f := fieldOfReg (e.read0 s t y)
        .all (bfiVal (e.read0 s t a) (e.read0 s t x) f.1 f.2)
      | .imm w => .all (bfiVal (e.read0 s t a) (e.oldDst s t d).s0 (fieldOfImm w).1 (fieldOfImm w).2)) s)

/-- ICMP (R116). -/
def execIcmp (c : Ctl) (p : BitVec 3) (cc : ICond) (a : Opd) (b : Src) (s : State) : Out :=
  .next (predWord (Form.short c (a :: b.opds) []) p
    (fun e s t => (boolBits (ICond.test cc (e.read0 s t a) (e.src s t .sign b).s0), Res.plain (.all 0))) s)

/-- SEL (R117). -/
def execSel (c : Ctl) (d : Dst) (a b : Opd) (p : BitVec 3) (neg : Bool) (s : State) : Out :=
  .next (plainWord (Form.short c [a, b] d.opds) d
    (fun e s t => if t.predTrue p neg then e.read s t a else e.read s t b) s)

/-- MOV (R118). -/
def execMov (c : Ctl) (d : Dst) (a : Opd) (s : State) : Out :=
  .next (plainWord (Form.short c [a] d.opds) d (fun e s t => e.read s t a) s)

/-- MOVI (R119). -/
def execMovi (c : Ctl) (d : Dst) (imm : BitVec 20) (z : Bool) (s : State) : Out :=
  .next (plainWord (Form.short c [] d.opds) d (fun _ _ _ => .all (if z then imm.setWidth 32 else imm.signExtend 32)) s)

/-- MOVH (R119): each sibling keeps its own bits [15:0]. -/
def execMovh (c : Ctl) (d : Dst) (imm : BitVec 16) (s : State) : Out :=
  .next (plainWord (Form.short c d.opds d.opds).noA d
    (fun e s t => (e.oldDst s t d).map fun w => imm ++ w.extractLsb' 0 16) s)

/-- LEA (R113). -/
def execLea (c : Ctl) (d : Dst) (a : Opd) (b : Src) (sh : BitVec 2) (s : State) : Out :=
  .next (intWord c d a .sign b (fun x y => x + y <<< (match b with | .reg _ => sh.toNat | .imm _ => 0)) s)

/-- IADDC (R112). -/
def execIaddc (c : Ctl) (d : Dst) (a b : Opd) (ci co : BitVec 3) (cin sub : Bool) (s : State) : Out :=
  .next (issue (Form.short c [a, b] d.opds) noHold (fun e s =>
    let ps := e.parts c
    let comp := fun (t : Thread) =>
      let y := e.read0 s t b
      iaddcVal (e.read0 s t a) (if sub then ~~~y else y) (if cin then t.predVal ci else sub)
    (s.writeAll e ps d fun t => .all (comp t).1).predAll e (computing d ps) co fun t => boolBits (comp t).2) s)

/-- PRMT (R121). -/
def execPrmt (c : Ctl) (d : Dst) (a : Opd) (b : Src2) (s : State) : Out :=
  .next (plainWord (Form.short c (a :: b.opds) d.opds) d
    (fun e s t => match b with
      | .regs x y => .all (prmtVal (e.read0 s t a) (e.read0 s t x) (e.read0 s t y))
      | .imm w => .all (prmtVal (e.read0 s t a) 0 (w.setWidth 32))) s)

end Sys2Proof.Machine
end

