-- ==== Sys2Proof/Machine/Stoch.lean ====
section
/-! DEFINITION. Stochastic and status instructions (R135 to R144) and the paired word (R93 to R95). -/

namespace Sys2Proof.Machine

/-! ## Values -/

/-- The greatest and the least of three values that are not NaN. -/
def maxVal (x y : FVal) : FVal := if x.lt y then y else x
def minVal (x y : FVal) : FVal := if y.lt x then y else x

/-- `spread` of a triple (R136). -/
def spread3 (t : Triple) : Word :=
  let a := f32v t.s0
  let b := f32v t.s1
  let c := f32v t.s2
  if a.isNan || b.isNan || c.isNan then canonNan
  else if a.isInf && b.isInf && c.isInf && a.neg == b.neg && b.neg == c.neg then 0
  else if a.isInf || b.isInf || c.isInf then 0x7F800000
  else
    match maxVal (maxVal a b) c, minVal (minVal a b) c with
    | .fin x, .fin y =>
      let d := x.add y.negate
      (f32r .ru (.fin { d with neg := false })).1
    | _, _ => canonNan

/-- `rnd.f32` (R141): (r shr 8) × 2^-24. -/
def rndF32 (r : Word) : Word :=
  (f32r .rn (.fin { neg := false, mag := r.toNat / 256, exp := -24, sticky := false })).1

/-- `maskgen` (R142): bit i keeps element E + i. -/
def maskgenVal (seed : DWord) (e n thr : Word) : Word :=
  (List.range 32).foldl (fun w i =>
    if thr.toNat ≤ (maskRand seed (e + BitVec.ofNat 32 i) n).toNat then w ||| BitVec.ofNat 32 (2 ^ i) else w) 0

/-- The status word of `istat` (R143). -/
def istatVal (t : Thread) : Word := (t.fpstat ++ 0#4 ++ t.istat).setWidth 32

/-! ## Meanings -/

/-- DIGITS (R135). -/
def execDigits (c : Ctl) (d : Dst) (a : Opd) (s : State) : Out :=
  .next (plainWord (Form.short c [a] d.opds) d
    (fun e s t => .all (BitVec.ofNat 32 (e.opdDigits a (e.read s t a)))) s)

/-- SPREAD (R136). -/
def execSpread (c : Ctl) (d : Dst) (a : Opd) (s : State) : Out :=
  .next (plainWord (Form.short c [a] d.opds) d
    (fun e s t => .all (if e.triple then spread3 (e.read s t a) else 0)) s)

/-- MEAN (R137). -/
def execMean (c : Ctl) (d : Dst) (a : Opd) (s : State) : Out :=
  .next (plainWord (Form.short c [a] d.opds) d
    (fun e s t => if e.triple then .all (mean3 (e.read s t a)) else e.read s t a) s)

/-- SIBGET (R138). -/
def execSibget (c : Ctl) (d : Dst) (a : Opd) (j : BitVec 2) (s : State) : Out :=
  .next (plainWord (Form.short c [a] d.opds) d (fun e s t => .all ((e.read s t a).get j.toNat)) s)

/-- SIBSET (R139). In single-lane mode vd := va. -/
def execSibset (c : Ctl) (d : Dst) (a b x : Opd) (s : State) : Out :=
  .next (plainWord (Form.short c [a, b, x] d.opds) d (fun e s t =>
    if e.triple then { s0 := (e.read s t a).s0, s1 := (e.read s t b).s1, s2 := (e.read s t x).s2 }
    else e.read s t a) s)

/-- DRAW (R140). -/
def execDraw (c : Ctl) (d : Dst) (packed : Bool) (s : State) : Out :=
  .next (aluWord (Form.short c [] d.opds) d true (fun e _ t =>
    let b := fun (j : Nat) => drawBit e.g.lr.seed (e.tnum t) t.c j
    let w := fun (j : Nat) => if b j then (1 : Word) else 0
    Res.plain (if packed then .all (w 0 + 2 * w 1 + 4 * w 2)
      else if e.triple then Triple.ofFn w else .all (w 0))) s)

/-- RND (R141). -/
def execRnd (c : Ctl) (d : Dst) (f32 : Bool) (s : State) : Out :=
  .next (aluWord (Form.short c [] d.opds) d true (fun e _ t =>
    let r := rand e.g.lr.seed (e.tnum t) t.c
    Res.plain (.all (if f32 then rndF32 r else r))) s)

/-- MASKGEN (R142). -/
def execMaskgen (c : Ctl) (d : Dst) (a b x : Opd) (s : State) : Out :=
  .next (plainWord (Form.short c [a, b, x] d.opds) d (fun e s t =>
    .all (maskgenVal e.g.lr.seed (e.read0 s t a) ((e.read0 s t b).setWidth 16 |>.setWidth 32) (e.read0 s t x))) s)

/-- ISTAT (R143): with `clr` it clears what it reports. -/
def execIstat (c : Ctl) (d : Dst) (clr : Bool) (s : State) : Out :=
  .next (issue (Form.short c [] d.opds) noHold (fun e s =>
    let ps := e.parts c
    let s1 := s.writeAll e ps d fun t => .all (istatVal t)
    if clr then s1.eachThread e (computing d ps) fun t => { t with istat := 0, fpstat := 0 } else s1) s)

/-- ICLR (R143). -/
def execIclr (c : Ctl) (mask : BitVec 20) (s : State) : Out :=
  .next (issue (Form.short c [] []) noHold (fun e s =>
    s.eachThread e (e.parts c) fun t =>
      { t with istat := t.istat &&& ~~~(mask.extractLsb' 0 4), fpstat := t.fpstat &&& ~~~(mask.extractLsb' 8 5) }) s)

/-- EXACT (R144). -/
def execExact (c : Ctl) (d : Dst) (a b : Opd) (mul : Bool) (s : State) : Out :=
  .next (aluWord (Form.short c [a, b] d.opds) d false (fun e s t =>
    let x := e.read s t a
    let y := e.read s t b
    Res.ofDst d (fun j => exactVal mul (x.get j) (y.get j)) x y (.all 0)) s)

/-! ## The paired word -/

/-- The operand that a code names; codes at or above 987 name none (Table 4.5). -/
def opdOfCode (n : Nat) : Option Opd :=
  if n < 640 then some (.v n)
  else if n < 896 then some (.s (n - 640))
  else if n < 960 then some (.g (n - 896))
  else none

end Sys2Proof.Machine

namespace Sys2Proof

open Machine

def Half.isNop (h : Half) : Bool := decide (h.op = .nop)

/-- The half reads its A operand (R94). -/
def Half.readsA (h : Half) : Bool := decide (h.op ≠ .movi) && !h.isNop

/-- The half has the form d := d op a (Table 4.8). -/
def Half.readsD (h : Half) : Bool :=
  match h.op with
  | .iadd | .isub | .imul | .and | .or | .xor | .shl | .shr | .sar | .fadd | .fsub | .fmul | .fmin | .fmax => true
  | .mov | .movi | .sel | .cvtF16 | .cvtF32 | .nop => false

/-- The register operands that a half reads. -/
def Half.reads (h : Half) : List Opd :=
  (if h.readsA then (opdOfCode h.a.toNat).toList else []) ++ (if h.readsD then (opdOfCode h.d.toNat).toList else [])

/-- The register that a half writes. -/
def Half.writes (h : Half) : List Opd := if h.isNop then [] else (opdOfCode h.d.toNat).toList

/-- The check of R86 step 4 for one half. A half has no special codes (Table 4.7); a code above 895 is a breach of R94. -/
def Half.check (h : Half) (second : Bool) (w : Warp) : Option (Nat × Nat × Bool) :=
  if h.isNop then none else if (h.reads ++ h.writes).any w.beyond then some (1, 0, second) else none

/-- A half's own fields under R94: codes to 895, and a nop half all zero. -/
def Half.legal (h : Half) : Bool :=
  if h.isNop then decide (h.d = 0) && decide (h.a = 0) && decide (h.pred = 0) && !h.neg
  else decide (h.d.toNat < 896) && (!h.readsA || decide (h.a.toNat < 896))

/-- The banks of the vector registers that a half reads, once for each field (R94). -/
def Half.banks (h : Half) : List Nat := (vregsOf h.reads).map fun n => n % 8

/-- The rules of R94 for the pair. -/
def pairLegal (a b : Half) : Bool :=
  a.legal && b.legal &&
    (a.isNop || b.isNop || (decide (a.d ≠ b.d) && !(b.readsA && decide (a.d = b.a)))) &&
    (List.range 8).all fun k => decide (((a.banks ++ b.banks).filter fun x => x = k).length ≤ 2)

/-- The half executes for the thread: `sel` for every thread, the others under their own predicate (R95). -/
def Half.active (h : Half) (t : Thread) : Bool :=
  if h.isNop then false else if h.op = .sel then true else t.predTrue h.pred h.neg

/-- The half advances the draw counter (Table 2.5). -/
def Half.draws (h : Half) : Bool :=
  match h.op with
  | .fadd | .fsub | .fmul | .cvtF16 | .cvtF32 => true
  | .iadd | .isub | .imul | .and | .or | .xor | .shl | .shr | .sar | .mov | .movi | .fmin | .fmax | .sel | .nop => false

/-- The half's lanes count in class 2 (R455). -/
def Half.isFp (h : Half) : Bool := h.draws || decide (h.op = .fmin) || decide (h.op = .fmax)

/-- A half's destination. -/
def Half.dst (h : Half) : Dst :=
  if h.d.toNat < 640 then .v h.d.toNat else if h.d.toNat < 896 then .s (h.d.toNat - 640) else .none

end Sys2Proof

namespace Sys2Proof.Machine

/-- The value of a code for a thread; `%zero` where it names no register. -/
def Env.readCode (e : Env) (s : State) (t : Thread) (n : Nat) : Triple :=
  match opdOfCode n with
  | some o => e.read s t o
  | none => .all 0

/-- An integer half: computed once from sibling 0. -/
def once2 (f : Word → Word → Word) (x y : Triple) : Res := Res.plain (.all (f x.s0 y.s0))

/-- A bitwise half: per sibling. -/
def sibs2 (f : Word → Word → Word) (x y : Triple) : Res := Res.plain (x.map2 f y)

/-- The digits of a code's operand (R28, R126). -/
def Env.codeDigits (e : Env) (n : Nat) (x : Triple) : Nat :=
  match opdOfCode n with
  | some o => e.opdDigits o x
  | none => 24

end Sys2Proof.Machine

namespace Sys2Proof

open Machine

/-- A half's result for a thread at draw counter `c` (Table 4.8). -/
def Half.result (h : Half) (e : Env) (s : State) (t : Thread) (c : Word) : Res :=
  let x := e.readCode s t h.d.toNat
  let y := e.readCode s t h.a.toNat
  let dir := fun (j : Nat) => dirOf .dflt e.triple e.g.lr.seed (e.tnum t) c j
  let fp2 := fun (f : Rnd → Word → Word → Word × Flags) =>
    Res.ofDst h.dst (fun j => f (dir j) (x.get j) (y.get j)) x y (.all 0)
  let cancel := fun (r : Res) =>
    if h.dst.single then r else r.withCancel e t (e.codeDigits h.d.toNat x) (e.codeDigits h.a.toNat y)
  match h.op with
  | .iadd => once2 (fun a b => a + b) x y
  | .isub => once2 (fun a b => a - b) x y
  | .imul => once2 (fun a b => a * b) x y
  | .and => sibs2 (fun a b => a &&& b) x y
  | .or => sibs2 (fun a b => a ||| b) x y
  | .xor => sibs2 (fun a b => a ^^^ b) x y
  | .shl => once2 shlVal x y
  | .shr => once2 shrVal x y
  | .sar => once2 sarVal x y
  | .mov => Res.plain y
  | .movi => Res.plain (.all (h.a.signExtend 32))
  | .fadd => cancel (fp2 f32add)
  | .fsub => cancel (fp2 fun d a b => f32add d a (f32neg b))
  | .fmul => fp2 f32mul
  | .fmin => fp2 fun _ a b => f32minmax false a b
  | .fmax => fp2 fun _ a b => f32minmax true a b
  | .sel => Res.plain (if t.predTrue h.pred h.neg then y else .all 0)
  | .cvtF16 => Res.ofDst h.dst (fun j => convert .f16 .f32 (dir j) (y.get j)) y (.all 0) (.all 0)
  | .cvtF32 => Res.ofDst h.dst (fun j => convert .f32 .f16 (dir j) (y.get j &&& 0xFFFF)) y (.all 0) (.all 0)
  | .nop => Res.plain (.all 0)

/-- The threads of the group for which a half computes (R188). -/
def Half.threads (h : Half) (e : Env) : List Thread := computing h.dst (e.group.filter h.active)

end Sys2Proof

namespace Sys2Proof.Machine

/-- What issue looks at for a paired word. -/
def pairForm (h1 h2 : Half) : Form :=
  let c : Ctl := { pred := 0, neg := false, rnd := .dflt, fsel := false, reuse := false }
  { Form.short c (h1.reads ++ h2.reads) (h1.writes ++ h2.writes) with
    reads := fun t => (if h1.active t then h1.reads else []) ++ (if h2.active t then h2.reads else [])
    bad := fun e _ =>
      match h1.check false e.w with
      | some x => some x
      | none =>
        match h2.check true e.w with
        | some x => some x
        | none => if pairLegal h1 h2 then none else some (0, subPair, false) }

/-- The draw counter of a half for a thread: half 2 draws after half 1's advance (R95). -/
def pairC (h1 : Half) (t : Thread) : Word := if h1.draws && h1.active t then t.c + 1 else t.c

/-- The halves' lanes charged to class 2. -/
def State.chargeHalf (s : State) (e : Env) (h : Half) : State :=
  if h.isFp then s.charge e.g.tag 2 ((e.group.filter h.active).length * (if e.triple then 3 else 1)) else s

/-- The body of a paired word: both halves read before either writes (R95). -/
def pairBody (h1 h2 : Half) (e : Env) (s : State) : State :=
  let r1 := fun (t : Thread) => h1.result e s t t.c
  let r2 := fun (t : Thread) => h2.result e s t (pairC h1 t)
  let t1 := h1.threads e
  let t2 := h2.threads e
  let s1 := s.eachThread e e.group fun t =>
    { t with c := t.c + (if h1.draws && h1.active t then 1 else 0) + (if h2.draws && h2.active t then 1 else 0) }
  let s2 := s1.writeAll e t1 h1.dst fun t => (r1 t).val
  let s3 := s2.writeAll e t2 h2.dst fun t => (r2 t).val
  let s4 := (s3.chargeHalf e h1).chargeHalf e h2
  e.group.foldl (fun s' t =>
    s'.events e t ((if t ∈ t1 then [(false, r1 t)] else []) ++ (if t ∈ t2 then [(true, r2 t)] else []))) s4

/-- PAIRED_WORD (R93 to R95). -/
def execPairedWord (h1 h2 : Half) (s : State) : Out :=
  .next (issue (pairForm h1 h2) noHold (pairBody h1 h2) s)

end Sys2Proof.Machine
end

