-- ==== Sys2Proof/Machine/Sha.lean ====
section
/-! DEFINITION. SHA-256 of a list of bytes, for the measurement chains of R442. The spec names the function; its rounds
are those of FIPS 180-4 (log 21). -/

namespace Sys2Proof.Machine

/-- The round constants. -/
def shaK : List Word :=
  [0x428a2f98, 0x71374491, 0xb5c0fbcf, 0xe9b5dba5, 0x3956c25b, 0x59f111f1, 0x923f82a4, 0xab1c5ed5] ++
  [0xd807aa98, 0x12835b01, 0x243185be, 0x550c7dc3, 0x72be5d74, 0x80deb1fe, 0x9bdc06a7, 0xc19bf174] ++
  [0xe49b69c1, 0xefbe4786, 0x0fc19dc6, 0x240ca1cc, 0x2de92c6f, 0x4a7484aa, 0x5cb0a9dc, 0x76f988da] ++
  [0x983e5152, 0xa831c66d, 0xb00327c8, 0xbf597fc7, 0xc6e00bf3, 0xd5a79147, 0x06ca6351, 0x14292967] ++
  [0x27b70a85, 0x2e1b2138, 0x4d2c6dfc, 0x53380d13, 0x650a7354, 0x766a0abb, 0x81c2c92e, 0x92722c85] ++
  [0xa2bfe8a1, 0xa81a664b, 0xc24b8b70, 0xc76c51a3, 0xd192e819, 0xd6990624, 0xf40e3585, 0x106aa070] ++
  [0x19a4c116, 0x1e376c08, 0x2748774c, 0x34b0bcb5, 0x391c0cb3, 0x4ed8aa4a, 0x5b9cca4f, 0x682e6ff3] ++
  [0x748f82ee, 0x78a5636f, 0x84c87814, 0x8cc70208, 0x90befffa, 0xa4506ceb, 0xbef9a3f7, 0xc67178f2]

/-- The initial hash value. -/
def shaInit : List Word :=
  [0x6a09e667, 0xbb67ae85, 0x3c6ef372, 0xa54ff53a, 0x510e527f, 0x9b05688c, 0x1f83d9ab, 0x5be0cd19]

/-- The message padded to whole blocks of 64 bytes: 80h, zeros, and the length in bits. -/
def shaPad (m : List Byte) : List Byte :=
  let n := m.length
  let zeros := (119 - n % 64) % 64
  m ++ [0x80] ++ List.replicate zeros 0 ++ ((List.range 8).map fun i => BitVec.ofNat 8 (8 * n / 256 ^ (7 - i)))

/-- Word `i` of a block, its first byte the most significant. -/
def shaWord (b : List Byte) (i : Nat) : Word :=
  b.getD (4 * i) 0 ++ b.getD (4 * i + 1) 0 ++ b.getD (4 * i + 2) 0 ++ b.getD (4 * i + 3) 0

/-- The next word of the message schedule. -/
def shaNext (w : List Word) : Word :=
  let n := w.length
  let x := w.getD (n - 15) 0
  let y := w.getD (n - 2) 0
  let s0 := x.rotateRight 7 ^^^ x.rotateRight 18 ^^^ (x >>> 3)
  let s1 := y.rotateRight 17 ^^^ y.rotateRight 19 ^^^ (y >>> 10)
  w.getD (n - 16) 0 + s0 + w.getD (n - 7) 0 + s1

/-- The schedule of a block. -/
def shaSchedule (b : List Byte) : List Word :=
  (List.range 48).foldl (fun w _ => w ++ [shaNext w]) ((List.range 16).map (shaWord b))

/-- One round on the eight working words. -/
def shaRound (v : List Word) (x : Word × Word) : List Word :=
  match v with
  | [a, b, c, d, e, f, g, h] =>
    let s1 := e.rotateRight 6 ^^^ e.rotateRight 11 ^^^ e.rotateRight 25
    let ch := (e &&& f) ^^^ (~~~e &&& g)
    let t1 := h + s1 + ch + x.1 + x.2
    let s0 := a.rotateRight 2 ^^^ a.rotateRight 13 ^^^ a.rotateRight 22
    let maj := (a &&& b) ^^^ (a &&& c) ^^^ (b &&& c)
    [t1 + (s0 + maj), a, b, c, d + t1, e, f, g]
  | _ => v

/-- The hash value after a block. -/
def shaBlock (h : List Word) (b : List Byte) : List Word :=
  (h.zip ((shaK.zip (shaSchedule b)).foldl shaRound h)).map fun x => x.1 + x.2

/-- SHA-256. -/
def sha256 (m : List Byte) : BitVec 256 :=
  let p := shaPad m
  let h := (List.range (p.length / 64)).foldl (fun h i => shaBlock h ((p.drop (64 * i)).take 64)) shaInit
  BitVec.ofNat 256 (h.foldl (fun n w => n * 2 ^ 32 + w.toNat) 0)

/-- The 32 bytes of a digest, the most significant first. -/
def digestBytes (x : BitVec 256) : List Byte := (List.range 32).map fun i => BitVec.ofNat 8 (x.toNat / 256 ^ (31 - i))

/-- A chain extended with what is measured (R442). -/
def extendChain (m : BitVec 256) (image : List Byte) : BitVec 256 :=
  sha256 (digestBytes m ++ digestBytes (sha256 image))

end Sys2Proof.Machine
end

