-- ==== Sys2Proof/Machine/Lms.lean ====
section
/-! DEFINITION. Verification of an HSS signature with the parameters of R441: two levels of LMS_SHA256_M32_H10 with
LMOTS_SHA256_N32_W8. The spec names RFC 8554, whose layouts and algorithms these are (log 105). -/

namespace Sys2Proof.Machine

/-! ## Numbers and pieces of byte strings -/

/-- A number in `n` bytes, the most significant first. -/
def beBytes (n x : Nat) : List Byte := (leBytes n x).reverse

/-- The number that bytes hold, the most significant first. -/
def beNat (l : List Byte) : Nat := leNat l.reverse

/-- `n` bytes from a place. -/
def slice (l : List Byte) (from' n : Nat) : List Byte := (l.drop from').take n

/-- A digest as bytes. -/
def hashBytes (l : List Byte) : List Byte := digestBytes (sha256 l)

/-! ## One-time signatures (LMOTS_SHA256_N32_W8) -/

/-- Chains of a one-time signature: 32 for the digest, 2 for its checksum. -/
def otsChains : Nat := 34

/-- The digits that are signed: the digest's bytes and the checksum of what they lack of 255. -/
def otsDigits (q : List Byte) : List Nat :=
  let d := q.map fun b => b.toNat
  let sum := (d.map fun x => 255 - x).sum
  d ++ [sum / 256 % 256, sum % 256]

/-- A chain value carried from step `a` to its end. -/
def otsChain (ident : List Byte) (q i a : Nat) (y : List Byte) : List Byte :=
  (List.range (255 - a)).foldl (fun t j => hashBytes (ident ++ beBytes 4 q ++ beBytes 2 i ++ beBytes 1 (a + j) ++ t)) y

/-- The one-time public key that a signature of a message gives. -/
def otsKey (ident : List Byte) (q : Nat) (sig msg : List Byte) : List Byte :=
  let digits := otsDigits (hashBytes (ident ++ beBytes 4 q ++ beBytes 2 0x8181 ++ slice sig 4 32 ++ msg))
  let ends := (List.range otsChains).map fun i => otsChain ident q i (digits.getD i 0) (slice sig (36 + 32 * i) 32)
  hashBytes (ident ++ beBytes 4 q ++ beBytes 2 0x8080 ++ ends.flatten)

/-! ## Trees of one-time keys (LMS_SHA256_M32_H10) -/

/-- Levels of a tree, and bytes of one signature and of one public key. -/
def lmsHeight : Nat := 10
def otsLength : Nat := 1124
def lmsLength : Nat := 1452
def lmsKeyLength : Nat := 56

/-- The types of the parameters, as they stand in keys and signatures. -/
def lmsType : Nat := 6
def otsType : Nat := 4

/-- A node's parent: the node and its sibling from the path, the left one first. -/
def lmsParent (ident : List Byte) (node : Nat) (x sibling : List Byte) : List Byte :=
  hashBytes (ident ++ beBytes 4 (node / 2) ++ beBytes 2 0x8383 ++ (if node % 2 = 1 then sibling ++ x else x ++ sibling))

/-- The root that a signature of a message gives. -/
def lmsRoot (ident sig msg : List Byte) : List Byte :=
  let q := beNat (slice sig 0 4)
  let leaf := 2 ^ lmsHeight + q
  let first := hashBytes (ident ++ beBytes 4 leaf ++ beBytes 2 0x8282 ++ otsKey ident q (slice sig 4 otsLength) msg)
  (List.range lmsHeight).foldl
    (fun x i => lmsParent ident (leaf / 2 ^ i) x (slice sig (8 + otsLength + 32 * i) 32)) first

/-- A signature of a message verifies under a public key. -/
def lmsVerify (key sig msg : List Byte) : Bool :=
  decide (key.length = lmsKeyLength) && decide (sig.length = lmsLength) &&
    decide (slice key 0 8 = beBytes 4 lmsType ++ beBytes 4 otsType) &&
    decide (slice sig 4 4 = beBytes 4 otsType) && decide (slice sig (4 + otsLength) 4 = beBytes 4 lmsType) &&
    decide (beNat (slice sig 0 4) < 2 ^ lmsHeight) &&
    decide (lmsRoot (slice key 8 16) sig msg = slice key 24 32)

/-! ## Two levels -/

/-- Bytes of a signature of two levels (R441). -/
def hssLength : Nat := 2964

/-- A signature of two levels verifies under the public key of the upper tree: the upper tree signs the lower tree's public
key, and that tree signs the message. -/
def hssVerify (key sig msg : List Byte) : Bool :=
  let lower := slice sig (4 + lmsLength) lmsKeyLength
  decide (sig.length = hssLength) && decide (slice sig 0 4 = beBytes 4 1) &&
    lmsVerify key (slice sig 4 lmsLength) lower &&
    lmsVerify lower (slice sig (4 + lmsLength + lmsKeyLength) lmsLength) msg

end Sys2Proof.Machine
end

