-- ==== Sys2Proof/Machine/MainMem.lean ====
section
/-! DEFINITION. Main memory as agents reach it: translation with stale entries (R464, R315), keys (R440), poison (R439),
ports (R463), energy of transfers (Table 22.8), and the pages that a checkpoint has marked (R429). -/

namespace Sys2Proof.Machine

/-! ## Translation -/

/-- The old entries that an access of a die's agents may still use: cached leaves, and those that cached pointer entries lead
to (R315, R464). -/
def State.mainOld (s : State) (d : Nat) (tag : BitVec 12) (va : Nat) : List DWord :=
  let l := (s.die d).tlbs
  let page := va / 65536
  let word := fun (x : Tlb) => BitVec.ofNat 64 x.leaf
  ((l.filter fun x => x.covers none tag true page).map word) ++
    ((l.filter fun x => x.points 2 tag true page).filterMap fun x => s.mainThird tag va (word x)) ++
    (l.filter fun x => x.points 1 tag true page).filterMap fun x => (s.mainSecond tag va (word x)).bind (s.mainThird tag va)

/-- The leaf of a main-memory address for a die's agents: the table's; where a cached entry differs, that entry or the
table's (R315, R464, log 17). -/
def State.mainLeaf (s : State) (d : Nat) (tag : BitVec 12) (va : Nat) : Option DWord :=
  let page := va / 65536
  let new := s.walkMain tag va
  match (s.mainOld d tag va).find? fun x => decide (some x ≠ new) with
  | none => new
  | some x => if Config.freshTranslation s.fresh page then new else some x

/-- Why a page cannot be used: 1 unmapped, 2 not writable (Table 19.4). -/
abbrev Cause := Nat

/-- The system physical address of a byte for an agent of a die under a tag. -/
def State.agentAddr (s : State) (d : Nat) (tag : BitVec 12) (va : Nat) (wr : Bool) : Except (Cause × Nat) Nat :=
  if va < 2 ^ 47 then
    match s.mainLeaf d tag va with
    | none => .error (1, va)
    | some x => if wr && !mainWr x then .error (2, va) else .ok (mainPa x va)
  else
    let off := va - 0xC00000000000
    match s.agentPage d tag off wr with
    | some x => .ok x.1
    | none => .error (if wr && (s.agentPage d tag off false).isSome then 2 else 1, va)

/-- The system physical addresses of a run of bytes, by fuel at most that many pages. -/
def State.agentRun (s : State) (d : Nat) (tag : BitVec 12) (wr : Bool) : Nat → Nat → Nat → Except (Cause × Nat) (List Nat)
  | 0, _, _ => .ok []
  | fuel + 1, va, n =>
    if n = 0 then .ok []
    else
      match s.agentAddr d tag va wr with
      | .error f => .error f
      | .ok a =>
        let k := min n (65536 - va % 65536)
        match State.agentRun s d tag wr fuel (va + k) (n - k) with
        | .error f => .error f
        | .ok l => .ok (upFrom a k ++ l)

/-- A run with the fuel that it needs. -/
def State.agentBytes (s : State) (d : Nat) (tag : BitVec 12) (va n : Nat) (wr : Bool) : Except (Cause × Nat) (List Nat) :=
  s.agentRun d tag wr (n / 65536 + 2) va n

/-- The walk that an agent's access starts where its die's service holds no entry (R316). -/
def State.agentWalk (s : State) (d : Nat) (tag : BitVec 12) (va : Nat) : State :=
  if va < 2 ^ 47 then
    let e1 := s.mainFirst tag va
    s.startWalk d none tag true (va / 65536) ((s.mainLeaf d tag va).map fun x => (x, false))
      (e1 :: (s.mainSecond tag va e1).toList)
  else
    let off := va - 0xC00000000000
    s.startWalk d none tag false (off / 65536) (s.leaf d none tag none off) (s.spPath d tag off)

/-! ## Bytes -/

/-- A byte as an agent under a tag reads it; none where it is poisoned (R228, R319, R440). -/
def State.agentRead (s : State) (tag : BitVec 12) (a : Nat) : Option Byte :=
  let scratch := match regionOf a with
    | .scratch _ _ => true
    | _ => false
  if scratch && decide (s.lineTag a ≠ tag) then some 0
  else if unitOf a ∈ s.pkg.poison then none
  else if scratch then some (s.mem.read a)
  else some (s.readPhys tag a)

/-- The 64-byte unit of a byte of stacked memory written again under a tag's key: what is not written over stays as that
key reads it (R440). -/
def State.rekey (s : State) (tag : BitVec 12) (a : Nat) : State :=
  let u := a / 64
  let k := s.keyNum tag
  if 2 ^ 42 ≤ a ∨ s.writtenKey a = k then s
  else
    let rest := dropIf (fun x => x.1 = u) s.pkg.written
    { s with
      mem := s.mem.writeBytes (u * 64) (s.readPhysBytes tag (u * 64) 64)
      pkg := { s.pkg with written := if k = 0 then rest else (u, k) :: rest } }

/-- Bytes written by an agent, a poisoned one as poison of its unit: a unit covered whole loses old poison (R439). -/
def State.agentWrite (s : State) (tag : BitVec 12) (l : List (Nat × Option Byte)) : State :=
  let s1 := (l.map fun x => x.1 / 64 * 64).eraseDups.foldl (fun s a => s.rekey tag a) s
  let clean := l.filterMap fun x => x.2.map fun b => (x.1, b)
  let bad := (l.filterMap fun x => if x.2.isNone then some (unitOf x.1) else none).eraseDups
  let s2 := { s1 with mem := s1.mem.writeAll clean }
  let s3 := s2.heal (l.map fun x => x.1)
  if bad.isEmpty then s3
  else { s3 with pkg := { s3.pkg with poison := bad ++ dropIf (fun u => decide (u ∈ bad)) s3.pkg.poison } }

/-! ## Allocation (R228) -/

/-- A line of this package's scratchpads. -/
def State.ownLine (s : State) (line : Nat) : Bool :=
  match regionOf (line * 128) with
  | .scratch p _ => decide (p = s.pkg.pkg.toNat)
  | _ => false

/-- A line of a scratchpad allocated to a context: recalled from the core caches, zeroed, and with the context's tag. -/
def State.allocateLine (s : State) (tag : BitVec 12) (line : Nat) : State :=
  let s1 := (List.range 4).foldl (fun s d => s.recall d none [line] true) s
  let s2 := { s1 with
    mem := s1.mem.clear (line * 128) 128
    tags := if tag = 0 then dropIf (fun x => x.1 = line) s1.tags else setKey line tag s1.tags }
  s2.heal (upFrom (line * 128) 128)

/-- The device or the runtime allocates lines to a context (R228). -/
def State.allocate (s : State) (tag : BitVec 12) (lines : List Nat) : State :=
  (lines.filter s.ownLine).foldl (fun s l => s.allocateLine tag l) s

/-! ## Ports (R463) -/

/-- The function that a tag belongs to. -/
def State.funcOfTag (s : State) (tag : BitVec 12) : Option Func :=
  s.pkg.funcs.find? fun f => decide (f.cfg.tagLo ≤ tag) && decide (tag ≤ f.cfg.tagHi)

/-- The neighbour that holds a byte: 0 the companion, p + 1 the peer package p; none for this package. -/
def State.neighbourOf (s : State) (a : Nat) : Option Nat :=
  let peer := fun (p : Nat) => if p = s.pkg.pkg.toNat then none else some (p + 1)
  match regionOf a with
  | .stacked p => peer p
  | .scratch p _ => peer p
  | .companion => some 0
  | .reserved => none

/-- No port of the tag's function that still runs reaches a neighbour. -/
def State.portsDown (s : State) (tag : BitVec 12) (n : Nat) : Bool :=
  match s.funcOfTag tag with
  | none => true
  | some f => !(s.pkg.ports.any fun p => decide (p.fn = f.num) && decide (p.neighbour = n) && !p.fenced)

/-- A transfer of these bytes needs a port that is fenced. -/
def State.cutOff (s : State) (tag : BitVec 12) (bytes : List Nat) : Bool :=
  (bytes.filterMap s.neighbourOf).eraseDups.any fun n => s.portsDown tag n

/-! ## Energy (R430, R411) -/

/-- The die to which the stack of a stacked-memory address belongs: the stacks interleave in units of 4 KiB, eight with two
on each die, on the reduced bin six with two on each of dies 0 and 1 and one on each of dies 2 and 3 (R2). That stack
numbers rise with die numbers is the model's choice (log 103). -/
def State.stackDie (s : State) (a : Nat) : Nat :=
  let unit := a % 2 ^ 39 / 4096
  if s.pkg.reduced then [0, 0, 1, 1, 2, 3].getD (unit % 6) 0 else unit % 8 / 2

/-- The classes that a transfer of units of 64 bytes raises: stack units, and flits to or from a neighbour. -/
def State.chargeUnits (s : State) (tag : BitVec 12) (wr : Bool) (units : List Nat) : State :=
  let away := units.filter fun a => (s.neighbourOf a).isSome
  let stack := units.filter fun a => decide (a < 2 ^ 42) && (s.neighbourOf a).isNone
  let s1 := s.charge tag (if wr then 11 else 10) stack.length
  if away.isEmpty then s1 else s1.charge tag (if wr then 22 else 23) (away.length + 1)

/-- A unit of 64 bytes belongs to this package and to another die than the one that moves it. -/
def State.crosses (s : State) (d a : Nat) : Bool :=
  (s.neighbourOf a).isNone && (match regionOf a with
    | .stacked _ => decide (s.stackDie a ≠ d)
    | .scratch _ k => decide (k ≠ d)
    | _ => false)

/-- The classes that a die's transfer of bytes raises: those of its units, and class 9 for units of other dies. -/
def State.chargeRun (s : State) (d : Nat) (tag : BitVec 12) (wr : Bool) (bytes : List Nat) : State :=
  let units := (bytes.map fun a => a / 64 * 64).eraseDups
  (s.chargeUnits tag wr units).charge tag 9 (units.filter (s.crosses d)).length

/-! ## Marked pages (R429) -/

/-- The units of 64 bytes of a page. -/
def pageUnits (page : Nat) : List Nat := (List.range 1024).map fun i => page + 64 * i

/-- The bytes of a page of a checkpoint written to their destination, and the events of the copy (R429, R430). Which die
moves them is not given: no class 9 (log 111). -/
def State.drainWrite (s : State) (tag : BitVec 12) (m : Nat × Nat) (bytes : List (Option Byte)) : State :=
  let s1 := s.agentWrite tag ((upFrom m.2 65536).zip bytes)
  let s2 : State := { s1 with pkg := { s1.pkg with
      ckBusy := s1.pkg.ckBusy.filter fun x => !x.moves.isEmpty
      ckPoison := s1.pkg.ckPoison || bytes.any fun b => b.isNone
      ckDone := s1.pkg.ckDone + 1 } }
  ((s2.chargeUnits tag false (pageUnits m.1)).chargeUnits tag true (pageUnits m.2)).charge tag 26 1

/-- One page of the checkpoint copied to its destination; its mark ends. Where the destination is itself a marked page
that is not drained, that page is copied first, after the source is read (R429); by fuel over the pages left. -/
def State.drainMove : Nat → State → Nat × Nat → State
  | 0, s, _ => s
  | fuel + 1, s, m =>
    match s.pkg.ckBusy with
    | none => s
    | some x =>
      if !decide (m ∈ x.moves) then s
      else
        let bytes := (upFrom m.1 65536).map (s.agentRead x.tag)
        let left := x.moves.erase m
        let s1 : State := { s with pkg := { s.pkg with ckBusy := some { x with moves := left } } }
        ((left.filter fun y => decide (y.1 = m.2)).foldl (State.drainMove fuel) s1).drainWrite x.tag m bytes

/-- The pages of the checkpoint that are not drained. -/
def State.drainLeft (s : State) : List (Nat × Nat) :=
  match s.pkg.ckBusy with
  | none => []
  | some x => x.moves

/-- The drains of a page that an agent is about to write, before the write. -/
def State.drainFirst (s : State) (page : Nat) : State :=
  (s.drainLeft.filter fun m => decide (m.1 = page)).foldl (State.drainMove s.drainLeft.length) s

/-- Bytes written to main memory by an agent: marked pages are drained first. -/
def State.mainWrite (s : State) (tag : BitVec 12) (l : List (Nat × Option Byte)) : State :=
  ((l.map fun x => x.1 / 65536 * 65536).eraseDups.foldl State.drainFirst s).agentWrite tag l

/-- CHECKPOINT_DRAIN_PAGE: the drain engine's next page, in entry order. -/
def execCheckpointDrainPage (page : Nat) (s : State) : Out :=
  match s.drainLeft with
  | m :: _ => if m.1 = page then .next (State.drainMove s.drainLeft.length s m) else .next s
  | [] => .next s

end Sys2Proof.Machine
end

