-- ==== Sys2Proof/Machine/Copy.lean ====
section
/-! DEFINITION. Copy engines: descriptors, chunks and claims (R319 to R325, R383 to R389), the homes' recalls of claimed
lines (R312, R313), and watchpoint strikes of copies (R449). -/

namespace Sys2Proof.Machine

/-! ## Descriptors (R383, R384) -/

/-- A descriptor from its eight words, as the words stand. -/
def copyDesc (w : List Word) : CopyDesc :=
  let n := fun (i : Nat) => (w.getD i 0).toNat
  { src := n 0 + n 1 % 2 ^ 16 * 2 ^ 32
    dst := n 2 + n 3 % 2 ^ 16 * 2 ^ 32
    trans := (w.getD 4 0).getLsbD 26
    esize := n 4 / 2 ^ 24 % 4
    rowBytes := n 4 % 2 ^ 24
    rows := n 5 % 2 ^ 24
    sstride := n 6
    dstride := n 7 }

/-- Bytes of an element. -/
def CopyDesc.elem (x : CopyDesc) : Nat := 2 ^ x.esize

/-- Steps 1 and 2 of R385. -/
def copyFields (w : List Word) : Bool :=
  let n := fun (i : Nat) => (w.getD i 0).toNat
  let x := copyDesc w
  decide (n 1 < 2 ^ 16) && decide (n 3 < 2 ^ 16) && decide (n 4 < 2 ^ 27) && decide (n 5 < 2 ^ 24) &&
    decide (x.rows ≠ 0) && decide (x.rowBytes ≠ 0) && (x.trans || decide (x.esize = 0)) &&
    decide (x.rowBytes * x.rows < 2 ^ 32) && (!x.trans || decide (x.rowBytes ≤ 65536))

/-- Step 3: what is not a multiple of the element size; an address for the trap record. -/
def CopyDesc.misaligned (x : CopyDesc) : Option Nat :=
  let bad := fun (n : Nat) => decide (n % x.elem ≠ 0)
  if !x.trans then none
  else if bad x.src || bad x.sstride || bad x.rowBytes then some x.src
  else if bad x.dst || bad x.dstride then some x.dst
  else none

/-- Bytes from the lowest to beyond the highest of the source. -/
def CopyDesc.srcExtent (x : CopyDesc) : Nat := (x.rows - 1) * x.sstride + x.rowBytes

/-- Likewise of the destination. -/
def CopyDesc.dstExtent (x : CopyDesc) : Nat :=
  if x.trans then (x.rowBytes / x.elem - 1) * x.dstride + x.rows * x.elem else (x.rows - 1) * x.dstride + x.rowBytes

/-- An extent in the main-memory window, or in the scratchpad windows. -/
def inWindow (a n : Nat) : Bool :=
  decide (a + n ≤ 2 ^ 47) || (decide (0xC00000000000 ≤ a) && decide (a + n ≤ 0xC00200000000))

/-- The first failing step from 1 to 4 of R385. -/
def copyFail (w : List Word) : Option Fail :=
  let x := copyDesc w
  if !copyFields w then some (Fail.mk' 0 subField 0)
  else match x.misaligned with
    | some a => some (Fail.mk' 3 0 a)
    | none =>
      if !inWindow x.src x.srcExtent then some (Fail.mk' 5 0 x.src)
      else if !inWindow x.dst x.dstExtent then some (Fail.mk' 5 0 x.dst)
      else none

/-! ## Chunks (R322) -/

/-- A run of bytes cut at multiples of 256, as offset and length. -/
def cuts (a n : Nat) : List (Nat × Nat) :=
  (List.range ((a + n - 1) / 256 + 1 - a / 256)).map fun i =>
    let lo := max a ((a / 256 + i) * 256)
    let hi := min (a + n) ((a / 256 + i + 1) * 256)
    (lo - a, hi - lo)

/-- The chunks of a row. -/
def CopyDesc.rowCuts (x : CopyDesc) (r : Nat) : List (Nat × Nat) :=
  cuts (if x.trans then x.src + r * x.sstride else x.dst + r * x.dstride) x.rowBytes

/-- Every chunk, as row, offset in the row, and length. -/
def CopyDesc.chunks (x : CopyDesc) : List (Nat × Nat × Nat) :=
  ((List.range x.rows).map fun r => (x.rowCuts r).map fun k => (r, k.1, k.2)).flatten

/-- The row of a chunk. -/
def CopyDesc.rowOf (x : CopyDesc) (c : Nat) : Nat := (x.chunks.getD c (0, 0, 0)).1

/-- The numbers of the chunks of a row, in order. -/
def CopyDesc.rowChunks (x : CopyDesc) (r : Nat) : List Nat :=
  (List.range x.chunks.length).filter fun c => decide (x.rowOf c = r)

/-- The destination of a source row, in the order of the row's bytes: address and length of each piece. -/
def CopyDesc.rowSpans (x : CopyDesc) (r : Nat) : List (Nat × Nat) :=
  if x.trans then
    (List.range (x.rowBytes / x.elem)).map fun e => (x.dst + e * x.dstride + r * x.elem, x.elem)
  else [(x.dst + r * x.dstride, x.rowBytes)]

/-- What is written as a unit with a chunk: the chunk, or the whole row of a transposing copy. -/
def CopyDesc.spans (x : CopyDesc) (c : Nat) : List (Nat × Nat) :=
  let k := x.chunks.getD c (0, 0, 0)
  if x.trans then x.rowSpans k.1 else [(x.dst + k.1 * x.dstride + k.2.1, k.2.2)]

/-- The source bytes of a chunk, or of a row. -/
def CopyDesc.srcSpan (x : CopyDesc) (row : Bool) (c : Nat) : Nat × Nat :=
  let k := x.chunks.getD c (0, 0, 0)
  if row then (x.src + k.1 * x.sstride, x.rowBytes) else (x.src + k.1 * x.sstride + k.2.1, k.2.2)

/-- The chunks that are not done. -/
def Copy.remaining (x : Copy) : List Nat :=
  (List.range x.desc.chunks.length).filter fun c => decide (x.p ≤ c) && decide (c ∉ x.ahead)

/-! ## Claims (R320) -/

/-- The multiples of `u` at which the pieces of a span begin that are cut at multiples of `u`. -/
def blocksOf (u a n : Nat) : List Nat := (List.range ((a + n - 1) / u + 1 - a / u)).map fun i => (a / u + i) * u

/-- The pages of the scratchpad windows that some spans touch, with the first byte in each. -/
def scratchPages (l : List (Nat × Nat)) : List (Nat × Nat) :=
  ((l.filter fun x => decide (2 ^ 47 ≤ x.1)).map fun x => (blocksOf 65536 x.1 x.2).map fun p => (p / 65536, max p x.1)).flatten.foldl
    (fun acc y => if acc.any fun z => z.1 = y.1 then acc else acc ++ [y]) []

/-- The scratchpad pages of the remaining destination translated, or the first failure. -/
def State.claimPages (s : State) (d : Nat) (tag : BitVec 12) : List (Nat × Nat) → Except (Cause × Nat) (List (Nat × Nat))
  | [] => .ok []
  | x :: l =>
    match s.agentAddr d tag (x.1 * 65536) true with
    | .error f => .error (f.1, x.2)
    | .ok a =>
      match State.claimPages s d tag l with
      | .error f => .error f
      | .ok r => .ok ((x.1, a) :: r)

/-- The system physical address of a byte of the scratchpad destination. -/
def Copy.phys (x : Copy) (va : Nat) : Nat := lookupD (va / 65536) 0 x.pages + va % 65536

/-- The claimed lines of a span. -/
def Copy.spanLines (x : Copy) (sp : Nat × Nat) : List Nat :=
  if sp.1 < 2 ^ 47 then [] else (blocksOf 128 sp.1 sp.2).map fun a => x.phys a / 128

/-- The lines that a chunk's unit writes. -/
def Copy.chunkLines (x : Copy) (c : Nat) : List Nat := ((x.desc.spans c).map x.spanLines).flatten

/-- The claims of what remains. -/
def Copy.claimsLeft (x : Copy) : List Nat := (x.remaining.map x.chunkLines).flatten.eraseDups

def State.copy? (s : State) (d slot : Nat) : Option Copy := (s.die d).copies.find? fun x => x.slot = slot

def State.setCopy (s : State) (d : Nat) (x : Copy) : State :=
  let di := s.die d
  s.setDie { di with copies := putBy (fun y => y.slot = x.slot) x di.copies }

/-- A copy's claims entered at the homes, which recall cached copies (R320, R323); or the page that fails. -/
def State.enterClaims (s : State) (d : Nat) (x : Copy) : Except (Cause × Nat) State :=
  let spans := (x.remaining.map x.desc.spans).flatten
  match s.claimPages d x.tag (scratchPages spans) with
  | .error f => .error f
  | .ok ps =>
    let (n, s1) := s.newId
    let y := { x with pages := ps, epoch := (s.die d).qepoch, order := n }
    let y := { y with claims := y.claimsLeft }
    let s2 := ps.foldl (fun s p => s.agentWalk d x.tag (p.1 * 65536)) s1
    .ok ((s2.recall d none y.claims true).setCopy d y)

/-- A copy that does not run any more: claims withdrawn. -/
def Copy.stop (x : Copy) (st : CopySt) (cause : Nat) : Copy :=
  { x with
    st := st
    cause := cause
    claims := []
    pages := []
    stopAt := none }

/-- The number, in `stopAt`, of a stop at which the copy ends FAILED (R427). -/
def failStop : Nat := 8

/-- A copy at the boundary at which it was asked to stop: suspended with the cause, or FAILED. -/
def Copy.stopAs (x : Copy) (n : Nat) : Copy := if n = failStop then x.stop .failed 0 else x.stop .suspended n

/-- A copy of a launch that ends is set FAILED, a running one at its next boundary (R422, R427). -/
def Copy.ended (x : Copy) : Copy :=
  match x.st with
  | .running => { x with stopAt := some failStop }
  | .queued => x.stop .failed 0
  | .suspended => x.stop .failed 0
  | .faulted => x.stop .failed 0
  | .done => x
  | .failed => x

/-! ## Running a chunk -/

/-- Why a chunk is not written. -/
inductive ChunkStop where
  | wait
  | fault (cause va : Nat)
  | fail (cause : Nat)
deriving DecidableEq, Repr

/-- Lines claimed by copies entered before this one, or held by a service warp (R320, R304). -/
def State.copyWaits (s : State) (x : Copy) (bytes : List Nat) : Bool :=
  (linesOf bytes).any fun l =>
    (s.dies.any fun d => d.copies.any fun y => decide (y.order < x.order) && decide (l ∈ y.claims)) ||
      s.clusters.any fun c => c.delivered.any fun r => decide (l ∈ linesOf r.bytes)

/-- The source of a chunk read, its lines taken shared (R321). -/
def State.copyRead (s : State) (d : Nat) (x : Copy) (sp : Nat × Nat) : Except ChunkStop (State × List (Option Byte)) :=
  match s.agentBytes d x.tag sp.1 sp.2 false with
  | .error f => .error (.fault f.1 f.2)
  | .ok bytes =>
    if s.cutOff x.tag bytes then .error (.fail 6)
    else if s.copyWaits x bytes then .error .wait
    else
      let s1 := ((s.agentWalk d x.tag sp.1).scrub d bytes).chargeRun d x.tag false bytes
      let s2 := [0, 1, 2, 3].foldl (fun s k => s.recall k none (linesOf bytes) false) s1
      .ok (s2, bytes.map (s2.agentRead x.tag))

/-- Where a unit's spans lie. -/
def State.copyDst (s : State) (d : Nat) (x : Copy) : List (Nat × Nat) → Except ChunkStop (List Nat)
  | [] => .ok []
  | sp :: l =>
    let here : Except ChunkStop (List Nat) :=
      if sp.1 < 2 ^ 47 then
        match s.agentBytes d x.tag sp.1 sp.2 true with
        | .error f => .error (.fault f.1 f.2)
        | .ok b => .ok b
      else .ok ((List.range sp.2).map fun i => x.phys (sp.1 + i))
    match here with
    | .error f => .error f
    | .ok b =>
      match State.copyDst s d x l with
      | .error f => .error f
      | .ok r => .ok (b ++ r)

/-- A unit written: whole, or not at all. -/
def State.copyWrite (s : State) (d : Nat) (x : Copy) (spans : List (Nat × Nat)) (data : List (Option Byte)) :
    Except ChunkStop State :=
  match s.copyDst d x spans with
  | .error f => .error f
  | .ok bytes =>
    let scratch := bytes.filter fun a => match regionOf a with
      | .scratch _ _ => true
      | _ => false
    if s.cutOff x.tag bytes then .error (.fail 6)
    else if s.copyWaits x scratch || !(s.parkedLines d none scratch).isEmpty then .error .wait
    else if s.otherTag x.tag scratch then .error (.fail 3)
    else
      let s1 := (s.recall d none (linesOf scratch) true).chargeRun d x.tag true bytes
      .ok ((s1.mainWrite x.tag (bytes.zip data)).charge x.tag 12 1)

/-- Progress past the chunks already written. -/
def Copy.passAhead (x : Copy) : Nat → Copy
  | 0 => x
  | n + 1 => if x.p ∈ x.ahead then Copy.passAhead { x with p := x.p + 1, ahead := x.ahead.erase x.p } n else x

/-- A copy after some of its chunks are done: progress, claims, and DONE at the end. -/
def Copy.advance (x : Copy) (cs : List Nat) (row : List (Option Byte)) : Copy :=
  let y := { x with ahead := cs ++ x.ahead, row := row }
  let z := y.passAhead y.ahead.length
  let w := { z with claims := x.claims.filter fun l => decide (l ∈ z.claimsLeft) }
  if w.p = x.desc.chunks.length then { w.stop .done 0 with row := [] } else w

/-- The chunk read and written, or of a transposing copy read, and with the row's last chunk the row written. `whole`
reads and writes the row as one, as a recall does, and keeps what is buffered of another row (R322, R389). -/
def State.copyUnit (s : State) (d : Nat) (x : Copy) (c : Nat) (whole : Bool) : Except ChunkStop (State × Copy) :=
  match s.copyRead d x (x.desc.srcSpan (whole && x.desc.trans) c) with
  | .error f => .error f
  | .ok (s1, data) =>
    let row := x.desc.rowChunks (x.desc.rowOf c)
    let last := !x.desc.trans || whole || decide (row.getLast? = some c)
    let buf := if x.desc.trans && !whole then x.row ++ data else data
    if !last then .ok (s1.charge x.tag 12 1, x.advance [c] buf)
    else
      match s1.copyWrite d x (x.desc.spans c) buf with
      | .error f => .error f
      | .ok s2 =>
        if !x.desc.trans then .ok (s2, x.advance [c] [])
        else if whole then .ok (s2, x.advance (row.filter fun k => decide (x.p ≤ k)) (if x.p ∈ row then [] else x.row))
        else .ok (s2, x.advance [c] [])

/-- The progress of a copy that stops with its row unread (R324). -/
def Copy.fallBack (x : Copy) : Copy :=
  if x.desc.trans then { x with p := (x.desc.rowChunks (x.desc.rowOf x.p)).headD x.p, row := [] } else x

/-! ## Watchpoints (R449) -/

/-- The strikes of a unit: its source bytes read, its destination bytes written. -/
def State.copyStrikes (s : State) (d : Nat) (x : Copy) (c : Nat) (whole : Bool) : List (Nat × Nat) :=
  let src := x.desc.srcSpan (whole && x.desc.trans) c
  let last := !x.desc.trans || whole || decide ((x.desc.rowChunks (x.desc.rowOf c)).getLast? = some c)
  s.strikes d x.tag src.1 src.2 true false ++
    (if last then ((x.desc.spans c).map fun sp => s.strikes d x.tag sp.1 sp.2 false true).flatten else [])

/-- The reports of strikes, in the buffer of cluster 0. -/
def State.copyReports (s : State) (d : Nat) (x : Copy) (c : Nat) (hits : List (Nat × Nat)) : State :=
  hits.foldl (fun s h =>
    s.traceWrite d 0 x.tag
      (traceHead 2 d 0xFF x.tag (h.1 + 16 + 64 * (x.slot / 64)) x.t 0 s.now ++
        [BitVec.ofNat 32 h.2, BitVec.ofNat 32 (h.2 / 2 ^ 32 % 2 ^ 16 + c % 2 ^ 16 * 2 ^ 16), 0])) (s.hit d hits)

/-! ## Steps of an engine -/

/-- A GERR on a die. -/
def State.graphError (s : State) (d : Nat) : State := s.setDie { s.die d with gerr := true }

/-- A copy FAULTED at an address, which the engine reports (R324). -/
def State.copyFaulted (s : State) (d : Nat) (x : Copy) (cause va : Nat) : State :=
  (s.setCopy d { x.stop .faulted cause with fault := some va }).send (.copyFault d x.slot va)

/-- A unit of the copy run, or what stopped it; none where it must wait. -/
def State.copyStep (s : State) (d : Nat) (x : Copy) (c : Nat) (whole : Bool) : Option State :=
  match s.copyUnit d x c whole with
  | .error .wait => none
  | .error (.fault cause va) =>
    if x.stopAt = some failStop then some (s.setCopy d (x.fallBack.stop .failed cause))
    else some (s.copyFaulted d x.fallBack cause va)
  | .error (.fail cause) => some (s.setCopy d (x.fallBack.stop .failed cause))
  | .ok (s1, y) =>
    let hits := s.copyStrikes d x c whole
    let s2 := s1.copyReports d x c hits
    let y1 := if y.st = .done then y
      else if !hits.isEmpty && decide (y.stopAt ≠ some failStop) then y.stop .suspended 5
      else match y.stopAt with
        | some n => y.stopAs n
        | none => y
    some (s2.setCopy d y1)

/-- Copies that an engine runs at once. -/
def engineRoom : Nat := 4

/-- The copies of an engine that it may take a chunk of: those it runs, and queued ones while it has room. -/
def State.engineCopies (s : State) (d engine : Nat) : List Copy :=
  let mine := (s.die d).copies.filter fun x => decide (x.slot / 64 = engine)
  let run := mine.filter fun x => decide (x.st = .running)
  if run.length < engineRoom then run ++ mine.filter fun x => decide (x.st = .queued) else run

/-- The engine's order: class, then age (R319). -/
def copyRank (x : Copy) : Nat := (3 - min x.prio 3) * 2 ^ 64 + x.order

/-- The copy whose chunk the engine takes next: the first that need not wait. -/
def State.nextCopy (s : State) (d engine : Nat) : Option Copy :=
  (sortOn copyRank (s.engineCopies d engine)).find? fun x => (s.copyStep d { x with st := .running } x.p false).isSome

/-- COPY_CHUNK: the next chunk of the engine's first copy; a copy asked to stop reaches its boundary, with a chunk under way
or without one (R323, log 13). -/
def execCopyChunk (d slot : Nat) (s : State) : Out :=
  match s.copy? d slot with
  | none => .next s
  | some x =>
    let y := { x with st := .running }
    match x.stopAt with
    | some n =>
      let stopped := s.setCopy d (x.stopAs n)
      if Config.pick s.fresh % 2 = 0 then .next stopped else .next ((s.copyStep d y x.p false).getD stopped)
    | none =>
      match s.nextCopy d (slot / 64) with
      | none => .next s
      | some z => if z.slot = slot then .next ((s.copyStep d y x.p false).getD s) else .next s

/-! ## Handles and entry (R385, R386) -/

/-- Slots of a die's engines. -/
def copySlots : Nat := 1024

/-- Slots that a new copy may take: those of no copy, and those of copies DONE. -/
def State.freeCopySlots (s : State) (d : Nat) : List Nat :=
  (List.range copySlots).filter fun k => !((s.die d).copies.any fun x => decide (x.slot = k) && decide (x.st ≠ .done))

/-- One of some slots, which the spec does not name (log 20). -/
def chooseSlot (n : Nat) (l : List Nat) : Option Nat := l[Config.pick n % l.length]?

/-- A handle (R386). -/
def handleWord (d gen slot : Nat) : Word := BitVec.ofNat 32 (d * 2 ^ 16 + gen % 16 * 2 ^ 12 + slot)

/-- A copy entered into a slot, QUEUED; or FAILED where a page of its destination fails and `node` names its node. -/
def State.enterCopy (s : State) (d : Nat) (x : CopyDesc) (tag : BitVec 12) (prio gid : Nat) (bid node : Option Nat) (t : Word) :
    Except (Cause × Nat) (Option (Nat × State)) :=
  let (n, s1) := s.draw
  match chooseSlot n (s1.freeCopySlots d) with
  | none => .ok none
  | some k =>
    let di := s1.die d
    let gen := lookupD k 0 di.copyGens
    let y : Copy :=
      { slot := k, gen := gen, st := .queued, cause := 0, hold := false, p := 0, ahead := [], claims := [], pages := [],
        epoch := 0, row := [], desc := x, tag := tag, prio := prio, order := 0, gid := gid, bid := bid, node := node,
        stopAt := none, fault := none, t := t }
    match s1.enterClaims d y with
    | .error f =>
      if node.isSome then
        let s2 := s1.setCopy d { y with st := .failed, cause := f.1 }
        .ok (some (k, s2.setDie { s2.die d with copyGens := setKey k ((gen + 1) % 16) di.copyGens }))
      else .error f
    | .ok s2 => .ok (some (k, s2.setDie { s2.die d with copyGens := setKey k ((gen + 1) % 16) di.copyGens }))

/-- The descriptor's words of a thread. -/
def Env.copyWords (e : Env) (s : State) (t : Thread) (a : Opd) : List Word := (List.range 8).map (e.runWord s t a)

/-- The word acts once per issue: its OPA names an s register (R382), or its destination has one copy (R188). -/
def actsOnce (a : Opd) (d : Dst) : Bool := onceFor a || d.single

/-- The threads for which a word acts: where it acts once, the lowest participant. -/
def opaThreads (a : Opd) (d : Dst) (ps : List Thread) : List Thread := if actsOnce a d then ps.take 1 else ps

/-- The threads that receive the result of a thread's act. -/
def resultThreads (a : Opd) (d : Dst) (ps : List Thread) (t : Thread) : List Thread := if actsOnce a d then ps else [t]

/-- The failing check of a thread's copy. -/
def State.copyCheck (s : State) (e : Env) (w : List Word) : Option Fail :=
  match copyFail w with
  | some f => some f
  | none =>
    let x := copyDesc w
    let spans := ((List.range x.rows).map x.rowSpans).flatten
    match s.claimPages e.w.die e.g.tag (scratchPages spans) with
    | .error f => some (Fail.mk' 5 0 f.2)
    | .ok _ => none

/-- The pending instruction of copies. -/
def copyPend (pid flag : Nat) (ps : List Thread) (u : Until) : Pend :=
  { id := pid, flag := flag, wait := u, parts := [], sparts := [], preds := [], thrs := ps.map fun t => t.idx, epoch := none,
    sample := none }

/-- CPYLAST of some threads (R386). -/
def State.setCpylast (s : State) (e : Env) (ts : List Thread) (h : Word) : State :=
  s.eachThread e ts fun u => { u with cpylast := h }

/-- One copy of a `cpy`: a failing check traps and enters nothing; an entered copy's handle goes to CPYLAST. -/
def State.cpyOne (s : State) (e : Env) (s0 : State) (a : Opd) (who : List Thread) (acc : List (Nat × Nat)) (t : Thread) :
    State × List (Nat × Nat) :=
  let w := e.copyWords s0 t a
  match s.copyCheck e w with
  | some f => ((s.setCpylast e who 0xFFFFFFFF).fail e t f, acc)
  | none =>
    match s.enterCopy e.w.die (copyDesc w) e.g.tag e.g.lr.prio e.g.gid (some e.b.bid) none (e.tnum t) with
    | .error _ => (s.setCpylast e who 0xFFFFFFFF, acc)
    | .ok none => (s.setCpylast e who 0xFFFFFFFF, acc)
    | .ok (some (k, s2)) =>
      let gen := match s2.copy? e.w.die k with
        | some x => x.gen
        | none => 0
      (s2.setCpylast e who (handleWord e.w.die gen k), acc ++ [(e.w.die, k)])

/-- CPY (R385): for each participant the checks, then the entry with its claims; CPYLAST receives the handle. The flag
counts for the threads that did not trap. -/
def execCpy (c : Ctl) (a : Opd) (s : State) : Out :=
  .next (issue (Form.longLat c (a.run 8) []).accesses noHold (fun e s =>
    let ps := e.parts c
    let ts := opaThreads a .none ps
    let good := ps.filter fun t => !(decide (t ∈ ts) && (s.copyCheck e (e.copyWords s t a)).isSome)
    let (pid, s1) := s.newId
    let step := fun (x : State × List (Nat × Nat)) (t : Thread) =>
      x.1.cpyOne e s a (resultThreads a .none ps t) x.2 t
    let r := ts.foldl step (s1, [])
    if good.isEmpty then r.1 else r.1.addPend e.w.wid (copyPend pid (e.flagOf c) good (.copies r.2))) s)

/-- The copy that a handle names for a thread (R386). -/
def State.copyNamed (s : State) (t : Thread) (h : Word) : Option (Nat × Copy) :=
  let d := (h.extractLsb' 16 2).toNat
  if h.extractLsb' 18 14 ≠ 0 ∨ h.extractLsb' 10 2 ≠ 0 then none
  else
    match s.copy? d (h.extractLsb' 0 10).toNat with
    | none => none
    | some x =>
      if decide (x.gen % 16 = (h.extractLsb' 12 4).toNat) && decide (x.tag = t.owner) then some (d, x) else none

/-- STATE of Table 19.4. -/
def CopySt.code : CopySt → Nat
  | .queued => 0
  | .running => 1
  | .suspended => 2
  | .faulted => 3
  | .done => 4
  | .failed => 5

/-- The status word of Table 19.4. -/
def Copy.status (x : Copy) : Word :=
  BitVec.ofNat 32 (x.st.code * 2 ^ 29 + x.cause % 8 * 2 ^ 26 +
    (if x.hold && decide (x.st = .faulted) then 2 ^ 25 else 0) + x.p % 2 ^ 25)

/-- GONE. -/
def goneStatus : Word := 0xC0000000

/-- A slot freed: its record is gone. -/
def State.dropCopy (s : State) (d slot : Nat) : State :=
  let di := s.die d
  s.setDie { di with copies := dropIf (fun x => x.slot = slot) di.copies }

/-- A copy reported FAILED leaves its slot (R386, R387); its node keeps that it failed (R329). -/
def State.reportFailed (s : State) (d : Nat) (x : Copy) : State :=
  let s1 := s.dropCopy d x.slot
  let di := s1.die d
  s1.setDie { di with nodes := mapIf (fun n => x.node = some n.slot) (fun n => { n with failed := true }) di.nodes }

/-- CPYST (R387). -/
def execCpyst (c : Ctl) (d : Dst) (a : Opd) (s : State) : Out :=
  .next (issue (Form.longLat c [a] d.opds) noHold (fun e s =>
    let ps := e.parts c
    let ts := computing d ps
    let (pid, s1) := s.newId
    let report := fun (acc : State × List (Thread × Word)) (t : Thread) =>
      match acc.1.copyNamed t (e.read0 s t a) with
      | none => (acc.1, acc.2 ++ [(t, goneStatus)])
      | some (k, x) => (if x.st = .failed then acc.1.reportFailed k x else acc.1, acc.2 ++ [(t, x.status)])
    let r := ts.foldl report (s1, [])
    let parts := r.2.map fun x => d.opds.map fun o => destParts x.1.idx o [.all x.2]
    if ps.isEmpty then r.1
    else
      r.1.addPend e.w.wid { copyPend pid (e.flagOf c) ps .ready with
        parts := (parts.flatten.map fun x => x.1).flatten
        sparts := (parts.flatten.map fun x => x.2).flatten }) s)

/-- cpysus on a copy: the state, and whether its flag waits for the boundary (Table 19.5). -/
def State.copySuspend (s : State) (d : Nat) (x : Copy) : State × Bool :=
  match x.st with
  | .queued => (s.setCopy d (x.stop .suspended 0), false)
  | .running => (s.setCopy d { x with stopAt := some (x.stopAt.getD 0), hold := x.hold || decide (x.stopAt = some 4) }, true)
  | .suspended => if x.cause = 4 then (s.setCopy d { x with hold := true }, false) else (s, false)
  | .faulted => (s.setCopy d { x with hold := true }, false)
  | .done => (s, false)
  | .failed => (s, false)

/-- A copy continues: its claims are entered again and it is QUEUED; a page of its destination that fails is a fault
midway (R323, R324). -/
def State.copyRequeue (s : State) (d : Nat) (x : Copy) : State :=
  match s.enterClaims d { x with st := .queued, cause := 0, stopAt := none } with
  | .ok s1 => s1
  | .error f => s.copyFaulted d x f.1 f.2

/-- cpyres on a copy. -/
def State.copyRestart (s : State) (d : Nat) (x : Copy) : State :=
  match x.st with
  | .suspended => if x.cause = 4 then s else s.copyRequeue d x
  | .faulted => s.setCopy d { x with hold := false }
  | .queued => s
  | .running => s
  | .done => s
  | .failed => s

/-- CPYSUS (R388). -/
def execCpysus (c : Ctl) (a : Opd) (s : State) : Out :=
  .next (issue (Form.longLat c [a] []) noHold (fun e s =>
    let ps := e.parts c
    let (pid, s1) := s.newId
    let r := ps.foldl (fun (acc : State × List (Nat × Nat)) t =>
      match acc.1.copyNamed t (e.read0 s t a) with
      | none => acc
      | some (k, x) =>
        let y := acc.1.copySuspend k x
        (y.1, if y.2 then acc.2 ++ [(k, x.slot)] else acc.2)) (s1, [])
    if ps.isEmpty then r.1 else r.1.addPend e.w.wid (copyPend pid (e.flagOf c) ps (.stopped r.2))) s)

/-- CPYRES (R388). -/
def execCpyres (c : Ctl) (a : Opd) (s : State) : Out :=
  .next (issue (Form.longLat c [a] []) noHold (fun e s =>
    let ps := e.parts c
    let (pid, s1) := s.newId
    let r := ps.foldl (fun s' t =>
      match s'.copyNamed t (e.read0 s t a) with
      | none => s'
      | some (k, x) => s'.copyRestart k x) s1
    if ps.isEmpty then r else r.addPend e.w.wid (copyPend pid (e.flagOf c) ps .ready)) s)

/-! ## Faults, resumption (R324, R325) -/

/-- An address lies on the page at which the copy faulted last. -/
def Copy.faultedAt (x : Copy) (va : Nat) : Bool := decide (x.fault.map (fun a => a / pageSize) = some (va / pageSize))

/-- COPY_FAULT_RESUME: the runtime has mapped the page and resumes the copy from P, QUEUED or held (R388). Where the page is
found unmapped still, the fault cannot be resolved and the copy is FAILED (R325, log 67); another page that fails is a
fault of its own (R324), of the destination when the claims are entered, else when its chunk runs. -/
def execCopyFaultResume (d slot : Nat) (s : State) : Out :=
  match s.copy? d slot with
  | none => .next s
  | some x =>
    if x.st ≠ .faulted then .next s
    else if x.hold then .next (s.setCopy d { x with st := .suspended, cause := 0, hold := false })
    else
      match s.enterClaims d { x with st := .queued, cause := 0 } with
      | .error f => if x.faultedAt f.2 then .next (s.setCopy d (x.stop .failed f.1)) else .next (s.copyFaulted d x f.1 f.2)
      | .ok s1 =>
        match s1.copy? d slot with
        | none => .next s1
        | some y =>
          match s1.copyUnit d y y.p true with
          | .error (.fault cause va) => if x.faultedAt va then .next (s.setCopy d (x.stop .failed cause)) else .next s1
          | _ => .next s1

end Sys2Proof.Machine
end

