-- ==== Sys2Proof/Machine/Heap.lean ====
section
/-! DEFINITION. The gain heap (R369 to R380): gains, residual, the events on a task, and the heap instructions (R395 to
R397). -/

namespace Sys2Proof.Machine

/-! ## Gains (R371, R378) -/

/-- Norm: the value, and whether a NaN was met. -/
def gainNorm (x : FVal) : Word × Bool :=
  match x with
  | .nan _ => (0, true)
  | .inf neg => (if neg then 0 else 0x4F7FFFFF, false)
  | .fin v =>
    if v.neg || v.isZero then (0, false)
    else
      let r := (f32r .rn x).1
      (if 0x4F800000 ≤ r.toNat then 0x4F7FFFFF else r, false)

/-- The class of a gain: its exponent field. -/
def gainClass (g : Word) : Nat := (g.extractLsb' 23 8).toNat

/-- floor(g × 2^32) of a normalised gain. -/
def gainQ (g : Word) : Nat :=
  match f32v g with
  | .fin x => (x.at (min x.exp (-32))).toNat / 2 ^ ((-32) - (min x.exp (-32))).toNat
  | _ => 0

/-- What a task adds to the residual. -/
def Task.share (t : Task) : Nat :=
  match t.st with
  | .queued => gainQ t.gain
  | .running => gainQ t.gain + gainQ t.pend
  | .idle | .retired => 0

/-- A die's part of the residual, in units of 2^-32. -/
def Heap.part (h : Heap) : Nat := h.kept + (h.tasks.map Task.share).sum

/-- The residual as a die sees it: its own part and the latest parts received (R380). -/
def Heap.view (h : Heap) : Nat := h.part + (h.parts.map fun x => x.2).sum

/-- RESID < GAINTOL, exactly (R379). -/
def belowTol (r : Nat) (tol : Word) : Bool :=
  match f32v tol with
  | .fin x => Ex.lt { neg := false, mag := r, exp := -32, sticky := false } x
  | _ => false

/-- Round(RESID, F32, RN). -/
def residWord (r : Nat) : Word := (f32r .rn (.fin { neg := false, mag := r, exp := -32, sticky := false })).1

/-! ## The tasks of a heap -/

/-- Queued tasks that the heap of a die holds (R374). -/
def heapRoom : Nat := 65536

/-- A task in the heap itself. -/
def Task.inHeap (t : Task) : Bool := decide (t.st = .queued) && !t.overflowed

def Heap.queued (h : Heap) : Nat := (h.tasks.filter Task.inHeap).length

def Heap.running (h : Heap) : Nat := (h.tasks.filter fun t => t.st = .running).length

def Heap.task? (h : Heap) (n : Nat) : Option Task := h.tasks.find? fun t => t.n = n

def Heap.setTask (h : Heap) (t : Task) : Heap := { h with tasks := putBy (fun x => x.n = t.n) t h.tasks }

/-- A task enters the queue: its bin, and its stamp unless it waits for room (R372, R374). -/
def Heap.enqueue (h : Heap) (t : Task) (bin : Nat) : Heap :=
  let full := decide (heapRoom ≤ h.queued)
  { (h.setTask { t with st := .queued, bin := bin, stamp := h.nextStamp, overflowed := full }) with
    nextStamp := h.nextStamp + 1 }

/-- A choice of the task stands no longer where its gain has changed (R375). -/
def Heap.unchoose (h : Heap) (t : Task) (g : Word) : Heap :=
  if g ≠ t.gain ∧ h.chosen.map (fun x => x.1) = some t.n then { h with chosen := none } else h

/-- A queued task's gain changed: idle at +0, with a new stamp where its class changes (R372, Table 18.6). -/
def Heap.regain (h : Heap) (t : Task) (g : Word) : Heap :=
  let h := h.unchoose t g
  if g = 0 then h.setTask { t with gain := g, st := .idle, overflowed := false }
  else if gainClass g = gainClass t.gain then h.setTask { t with gain := g }
  else { (h.setTask { t with gain := g, stamp := h.nextStamp }) with nextStamp := h.nextStamp + 1 }

def Heap.sawNan (h : Heap) (b : Bool) : Heap := if b then { h with nang := true } else h

/-- `gainadd` or `gainset` on a task (Table 18.6); `bin` is the bin its record gives now. -/
def Heap.change (h : Heap) (set : Bool) (val : Word) (n bin : Nat) : Heap :=
  match h.task? n with
  | none => h
  | some t =>
    let new := fun (old : Word) => gainNorm (if set then f32v val else ((f32v old).add .rn (f32v val)).1)
    match t.st with
    | .idle | .retired =>
      let r := new t.gain
      let h := h.sawNan r.2
      if r.1 = 0 then h.setTask { t with gain := r.1 } else h.enqueue { t with gain := r.1 } bin
    | .queued => (h.sawNan (new t.gain).2).regain t (new t.gain).1
    | .running => (h.sawNan (new t.pend).2).setTask { t with pend := (new t.pend).1 }

/-- `taskdone c` on a running task (Table 18.6). -/
def Heap.done (h : Heap) (c : Word) (n bin : Nat) : Heap :=
  match h.task? n with
  | none => h
  | some t =>
    if t.st ≠ .running then h
    else
      let k := gainNorm (f32v c)
      let left : FVal := ((f32v t.gain).add .rn (f32v k.1).negate).1
      let rest : FVal := if left.neg then .fin { neg := false, mag := 0, exp := 0, sticky := false } else left
      let r := gainNorm (rest.add .rn (f32v t.pend)).1
      let h := h.sawNan (k.2 || r.2)
      if r.1 = 0 then h.setTask { t with gain := 0, pend := 0, st := .retired }
      else h.enqueue { t with gain := r.1, pend := 0 } bin

/-- A task's warp has ended without `taskdone`: GAIN := Norm(PEND) (R397). -/
def Heap.dropped (h : Heap) (n bin : Nat) : Heap :=
  match h.task? n with
  | none => h
  | some t => h.done t.gain n bin

/-! ## Records in the scratchpad (Table 18.5, R370) -/

/-- The bin that an OPER gives (R372). -/
def binOf (oper : Word) : Nat := (oper.extractLsb' 12 6 ^^^ oper.extractLsb' 18 6).toNat

/-- The bytes of a task record at its die. -/
def State.taskBytes (s : State) (g : Grid) (d n : Nat) : List Nat :=
  match s.agentPage d g.tag (g.lr.taskBase + 32 * n) true with
  | none => []
  | some (a, _) => upFrom a 32

/-- The lines of a task record that the heap unit must wait for (R320, R349). -/
def State.taskLines (s : State) (g : Grid) (d n : Nat) : List Nat := s.unitLines d true (s.taskBytes g d n)

/-- A word of a task record as the heap reads it, under the launch's tag. -/
def State.taskWord (s : State) (g : Grid) (d n k : Nat) : Word :=
  match s.agentPage d g.tag (g.lr.taskBase + 32 * n + 4 * k) false with
  | none => 0
  | some (a, _) => wordAt (s.taggedBytes g.tag a 4) 0

/-- The launch names more than one die. -/
def Grid.spread (g : Grid) : Bool := decide (1 < g.heaps.length)

/-- The bin of a task as it enters the queue: from the record, or in a gain launch of several dies fixed at launch (R372,
R380). -/
def State.binFor (s : State) (g : Grid) (d n : Nat) : Nat :=
  let fixed := (g.heaps.findSome? fun h => if h.die = d then (h.task? n).map fun t => t.bin else none)
  if g.lr.gain && g.spread then fixed.getD 0 else binOf (s.taskWord g d n 1)

/-- The code of a state. -/
def TaskSt.code : TaskSt → Nat
  | .idle => 0
  | .queued => 1
  | .running => 2
  | .retired => 3

/-- The mirror of a task in its record: bytes 16 to 24 (R370). -/
def State.mirror (s : State) (g : Grid) (d : Nat) (t : Task) : State :=
  match s.agentPage d g.tag (g.lr.taskBase + 32 * t.n + 16) true with
  | none => s
  | some (a, _) =>
    if lookupD (a / 128) 0 s.tags ≠ g.tag then s
    else
      { s.recall d none [a / 128] true with
        mem := s.mem.writeBytes a (leBytes 4 t.gain.toNat ++ leBytes 4 t.pend.toNat ++ leBytes 1 t.st.code) }

/-! ## Events (R373, R379) -/

def Grid.heap? (g : Grid) (d : Nat) : Option Heap := g.heaps.find? fun h => h.die = d

def Grid.setHeap (g : Grid) (h : Heap) : Grid := { g with heaps := putBy (fun x => x.die = h.die) h g.heaps }

/-- The die of rank 0 of a launch. -/
def Grid.rank0 (g : Grid) : Nat := (g.heaps.map fun h => h.die).foldl min ((g.heaps.head?.map fun h => h.die).getD 0)

/-- STOP set where the residual has fallen below the tolerance: by the die of rank 0 (R379, R380). -/
def Heap.test (h : Heap) (g : Grid) : Heap :=
  if h.die = g.rank0 && belowTol h.view g.lr.tol then { h with stop := true } else h

/-- One heap event: the heap of a die changed, STOP tested, the mirrors of changed tasks written, class 20 charged. -/
def State.heapEvent (s : State) (gid d : Nat) (f : Heap → Heap) : State :=
  match s.grid? gid with
  | none => s
  | some g =>
    match g.heap? d with
    | none => s
    | some h =>
      let h1 := (f h).test g
      let changed := h1.tasks.filter fun t => match h.task? t.n with
        | some u => decide (u.gain ≠ t.gain) || decide (u.pend ≠ t.pend) || decide (u.st ≠ t.st)
        | none => true
      let s1 := (s.updGrid gid fun g => g.setHeap h1).charge g.tag 20 1
      changed.foldl (fun s t => s.mirror g d t) s1

/-! ## Which launch and which task (R395) -/

/-- The launch that CH selects, where there is one. -/
def State.heapGrid (s : State) (e : Env) (ch : Bool) : Option Grid :=
  if ch then e.g.heapChild.bind s.grid?
  else if e.g.lr.gain || decide (e.g.kind = .tasks) then s.grid? e.g.gid
  else none

/-- The die that holds a task. -/
def Grid.taskDie (g : Grid) (n : Nat) : Option Nat :=
  (g.heaps.find? fun h => (h.task? n).isSome).map fun h => h.die

/-- The task that an instruction names: its launch and die; none raises FIELD. `change` is a `gainadd` or `gainset`. With CH
= 1 a record must have been entered by `spawn`, and a gain launch only reads (R410, log 107); with CH = 0 any record below
TASKCNT is named, one that no `spawn` has entered at the thread's die. -/
def State.heapTarget (s : State) (e : Env) (ch change : Bool) (n : Nat) : Option (Grid × Nat) :=
  match s.heapGrid e ch with
  | none => none
  | some g =>
    if (ch && change && (g.retired || decide (g.kind ≠ .tasks))) || (!ch && decide (g.lr.taskCnt ≤ n)) then none
    else match g.taskDie n with
      | some d => some (g, d)
      | none => if ch then none else some (g, e.w.die)

/-- The heap with a record that no `spawn` has entered: idle, its GAIN a value that the spec does not state (log 106). -/
def Heap.enroll (h : Heap) (gid n : Nat) : Heap :=
  if (h.task? n).isSome then h
  else
    let g := (gainNorm (f32v (Config.unenteredGain gid n))).1
    h.setTask { n := n, gain := g, pend := 0, st := .idle, bin := 0, stamp := 0, overflowed := false }

/-- Operations of a thread that are still carried to another die. -/
def State.opsCarried (s : State) (wid i : Nat) : Bool :=
  s.grids.any fun g => g.heaps.any fun h => h.ops.any fun x => decide (x.wid = wid) && decide (x.thr = i)

/-- The value operand of a heap instruction (R371, R395). -/
def Env.gainVal (e : Env) (s : State) (t : Thread) (b : Src) : Word :=
  match b with
  | .reg o => oneF32 e.triple (e.read s t o)
  | .imm w => Ext.high.word w

/-- A `gainadd` or `gainset`: one event at the task's die, at once or carried there (R380, R395). -/
def State.heapChange (s : State) (e : Env) (t : Thread) (set ch : Bool) (n : Nat) (val : Word) : State :=
  match s.heapTarget e ch true n with
  | none => e.illegal s t subField
  | some (g, d) =>
    if d = e.w.die then s.heapEvent g.gid d fun h => (h.enroll g.gid n).change set val n (s.binFor g d n)
    else s.updGrid g.gid fun g => match g.heap? d with
      | some h => g.setHeap { h with ops := h.ops ++ [{ n := n, set := set, val := val, wid := e.w.wid, thr := t.idx }] }
      | none => g

/-! ## Meanings -/

/-- A participant whose task record lies at its die on lines that the heap unit must wait for. -/
def holdChange (c : Ctl) (a : Opd) (ch : Bool) (s : State) (e : Env) (t : Thread) : Option Hold :=
  if !t.predTrue c.pred c.neg then none
  else
    let n := (e.read0 s t a).toNat
    match s.heapTarget e ch true n with
    | none => none
    | some (g, d) => if d = e.w.die then unitHold true (s.taskLines g d n) else none

/-- The form of `gainadd` and `gainset`. -/
def heapForm (c : Ctl) (a : Opd) (b : Src) : Form := { (Form.short c (a :: b.opds) []).accesses with heap := true }

/-- The body of `gainadd` and `gainset`. -/
def heapWord (c : Ctl) (a : Opd) (b : Src) (set ch : Bool) : State → State :=
  issue (heapForm c a b) (holdChange c a ch) fun e s =>
    (e.parts c).foldl (fun s' t => s'.heapChange e t set ch (e.read0 s t a).toNat (e.gainVal s t b)) s

/-- GAINADD (R396). -/
def execGainadd (c : Ctl) (a : Opd) (b : Src) (ch : Bool) (s : State) : Out := .next (heapWord c a b false ch s)

/-- GAINSET (R396). -/
def execGainset (c : Ctl) (a : Opd) (b : Src) (ch : Bool) (s : State) : Out := .next (heapWord c a b true ch s)

/-- What `gainget` reads of a task. -/
def Task.get (t : Task) (what : GainWhat) : Word :=
  match what with
  | .gain => t.gain
  | .pend => t.pend
  | .state => BitVec.ofNat 32 t.st.code

/-- A participant with an operation that is still carried: its `gainget` and `taskdone` follow it (R408). -/
def holdOps (c : Ctl) (s : State) (e : Env) (t : Thread) : Option Hold :=
  if t.predTrue c.pred c.neg && s.opsCarried e.w.wid t.idx then some .heapOps else none

/-- What a launch's heap holds of a task at a die. -/
def Grid.taskGet (g : Grid) (d n : Nat) (what : GainWhat) : Option Word :=
  (g.heap? d).bind fun h => ((h.enroll g.gid n).task? n).map fun k => k.get what

/-- GAINGET (R396). -/
def execGainget (c : Ctl) (d : Dst) (a : Opd) (what : GainWhat) (ch : Bool) (s : State) : Out :=
  .next (issue (Form.short c [a] d.opds).accesses (holdOps c) (fun e s =>
    let get := fun (t : Thread) =>
      let n := (e.read0 s t a).toNat
      (s.heapTarget e ch false n).bind fun x => x.1.taskGet x.2 n what
    let ts := computing d (e.parts c)
    let s1 := s.writeAll e (ts.filter fun t => (get t).isSome) d fun t => .all ((get t).getD 0)
    (ts.filter fun t => (get t).isNone).foldl (fun s' t => e.illegal s' t subField) s1) s)

/-- The residual of a launch in a die's view. -/
def Grid.residOn (g : Grid) (d : Nat) : Nat :=
  match g.heap? d with
  | some h => h.view
  | none => (g.heaps.map Heap.part).sum

/-- RESIDGET (R396). -/
def execResidget (c : Ctl) (d : Dst) (ch : Bool) (s : State) : Out :=
  .next (issue (Form.short c [] d.opds) noHold (fun e s =>
    let ps := e.parts c
    match s.heapGrid e ch with
    | some g => s.writeAll e ps d fun _ => .all (residWord (g.residOn e.w.die))
    | none =>
      if ch then ps.foldl (fun s' t => e.illegal s' t subField) s else s.writeAll e ps d fun _ => .all 0) s)

/-- The hold of `taskdone`: the warp's long-latency instructions, a release (R397), the thread's earlier operations (R408)
and the lines of the task's record. -/
def holdTask (c : Ctl) (s : State) (e : Env) (t : Thread) : Option Hold :=
  if (e.parts c).isEmpty then none
  else if e.b.task.isSome && !e.w.pend.isEmpty then some (.drained true)
  else match holdRelease c s e t, holdOps c s e t with
    | some x, _ => some x
    | none, some x => some x
    | none, none => match e.b.task with
      | none => none
      | some n => unitHold true (s.taskLines e.g e.w.die n)

/-- TASKDONE (R397). -/
def execTaskdone (c : Ctl) (b : Src) (s : State) : Out :=
  .next (issue { Form.short c b.opds [] with heap := true } (holdTask c) (fun e s =>
    match e.parts c, e.b.task with
    | [], _ => s
    | ps, none => ps.foldl (fun s' t => e.illegal s' t subField) s
    | t :: _, some n =>
      let s1 := s.heapEvent e.g.gid e.w.die fun h => h.done (e.gainVal s t b) n (s.binFor e.g e.w.die n)
      e.w.threads.foldl (fun s' u => s'.endThread e.w.wid u.idx e.triple) s1) s)

/-! ## Steps of the heap unit -/

/-- The first operation carried to a heap may enter its order: no line of the record must be waited for. -/
def State.opReady (s : State) (g : Grid) (h : Heap) : Bool :=
  match h.ops with
  | [] => false
  | x :: _ => (s.taskLines g h.die x.n).isEmpty

/-- HEAP_OPERATION_ARRIVAL (R380): an operation carried from another die enters the order of its task's die. -/
def execHeapOperationArrival (gid d : Nat) (s : State) : Out :=
  match s.grid? gid with
  | none => .next s
  | some g =>
    match g.heap? d with
    | none => .next s
    | some h =>
      match h.ops with
      | [] => .next s
      | x :: rest =>
        if !s.opReady g h then .next s
        else .next (s.heapEvent gid d fun h => { h with ops := rest }.change x.set x.val x.n (s.binFor g d x.n))

/-- The waiting task of lowest record number. -/
def Heap.firstOver (h : Heap) : Option Task :=
  (h.tasks.filter fun t => decide (t.st = .queued) && t.overflowed).foldl
    (fun o t => match o with
      | none => some t
      | some u => if t.n < u.n then some t else some u) none

/-- HEAP_OVERFLOW_ENTRY (R374): a task that waits for room enters the heap with its stamp. -/
def execHeapOverflowEntry (gid d : Nat) (s : State) : Out :=
  match (s.grid? gid).bind fun g => g.heap? d with
  | none => .next s
  | some h =>
    match h.firstOver with
    | none => .next s
    | some t =>
      if heapRoom ≤ h.queued then .next s
      else .next (s.heapEvent gid d fun h =>
        { (h.setTask { t with overflowed := false, stamp := h.nextStamp }) with nextStamp := h.nextStamp + 1 })

/-- Cycles between two exchanges of parts. -/
def exchangeCycles : Nat := 512

/-- RESID_PART_EXCHANGE (R380): a die sends its part, and the die of rank 0 also STOP, to the other named dies. -/
def execResidPartExchange (gid d : Nat) (s : State) : Out :=
  match s.grid? gid with
  | none => .next s
  | some g =>
    match g.heap? d with
    | none => .next s
    | some h =>
      if !g.spread || g.retired || decide (s.now < h.lastExchange + exchangeCycles) then .next s
      else
        let stop := h.stop && decide (d = g.rank0)
        .next (s.updGrid gid fun g => { g with heaps := g.heaps.map fun x =>
          if x.die = d then { x with lastExchange := s.now }
          else ({ x with parts := setKey d h.part x.parts, stop := x.stop || stop }).test g })

end Sys2Proof.Machine
end

