-- ==== Sys2Proof/Machine/CtlRegs.lean ====
section
/-! DEFINITION. Control registers: `ctlget`, `ctlset` (R249, R250) and the reads and writes with effects of their own. -/

namespace Sys2Proof

/-- The registers 200h to 3FFh, of the supervisor view only (R229). -/
def CtlReg.sup : CtlReg → Bool
  | .priv | .owner | .carve | .epc | .wdebug | .svqstat | .sptroot | .qepoch | .qdone | .qfree | .qtake | .ltbase
  | .bivsize | .tsctl | .ckstat | .enstatic | .mptroot | .entab _ | .bp _ | .bpctx | .dbgctl | .trctl | .trbase | .trhead
  | .wpstat | .eccstat | .func => true
  | _ => false

/-- The registers of which some field is writable. -/
def CtlReg.writable : CtlReg → Bool
  | .drawctr | .istat | .imask | .cancelth | .fpstat | .fpmask | .handler | .trappc | .tapepos | .tapecap | .dstack
  | .gqstat | .heapstat | .energylo | .energyhi | .ltstat | .owner | .carve | .epc | .sptroot | .qfree | .ltbase
  | .bivsize | .tsctl | .ckstat | .enstatic | .mptroot | .entab _ | .bp _ | .bpctx | .dbgctl | .trctl | .trbase | .wpstat
  | .eccstat => true
  | _ => false

end Sys2Proof

namespace Sys2Proof.Machine

/-! ## Values that are computed -/

/-- Fields of a register put together: a value and its lowest bit. -/
def fields (l : List (Nat × Nat)) : Word := BitVec.ofNat 32 (l.map fun x => x.1 * 2 ^ x.2).sum

/-- QDONE (R317): one below the oldest epoch of an access in flight on the die, or below QEPOCH. Saved warps and copies
that do not run hold none. -/
def State.qdone (s : State) (d : Nat) : Word :=
  let now := (s.die d).qepoch
  let warps := (s.warps.filter fun w => w.die = d && !w.saved).map fun w => w.pend.filterMap fun p => p.epoch
  let copies := ((s.die d).copies.filter fun c => !c.pages.isEmpty).map fun c => c.epoch
  let ages := (warps.flatten ++ copies).map fun x => (now - x).toNat
  now - BitVec.ofNat 32 (ages.foldl max 0) - 1

/-- The warp in a slot of a core. -/
def State.warpAt (s : State) (d core slot : Nat) : Option Warp :=
  s.warps.find? fun w => w.die = d && w.core = core && w.slot = slot && !w.saved && !w.service

/-- LANTSTAT (Table 13.4). -/
def Env.lantstat (e : Env) (s : State) : Word :=
  match (s.cluster e.w.die ((e.b.cores.headD 0) / 4)).lantern with
  | none => 0
  | some (wid, _, _) =>
    match s.warp? wid with
    | none => fields [(1, 31)]
    | some w => if w.bid = e.b.bid then fields [(1, 31), (1, 30), (w.index, 0)] else fields [(1, 31)]

/-- The heap that the registers of Table 18.9 show a thread: that of its own launch on its die (R379). -/
def Env.heap (e : Env) (s : State) : Option (Grid × Heap) :=
  (s.heapGrid e false).bind fun g => (g.heap? e.w.die).map fun h => (g, h)

/-- The trap registers of the view in which the thread executes (R161). -/
def Thread.viewTrap (t : Thread) : TrapRegs := if t.super then t.strap else t.trap

/-- A register of a heap, or 0 outside a gain or task launch (R379). -/
def Env.ofHeap (e : Env) (s : State) (f : Grid → Heap → Word) : Word :=
  match e.heap s with
  | some (g, h) => f g h
  | none => 0

/-- HEAPSTAT (Table 18.9). -/
def Heap.stat (h : Heap) : Word :=
  let bit := fun (b : Bool) (k : Nat) => ((if b then 1 else 0), k)
  fields [bit h.stop 31, bit (h.tasks.any fun t => decide (t.st = .queued) && t.overflowed) 30, bit h.nang 29, (h.queued, 0)]

/-- A word of the residual. -/
def residPart (r k : Nat) : Word := BitVec.ofNat 32 (r / 2 ^ (32 * k))

def boolNat (b : Bool) : Nat := if b then 1 else 0

/-- The context whose energy counter and launch tape a thread names: that of its launch, or in the supervisor view OWNER's
(R418, R432). -/
def Env.ctxTag (e : Env) (t : Thread) : BitVec 12 := if t.super then t.owner else e.g.tag

/-- What a control register reads for a thread, sibling by sibling. -/
def Env.ctlRead (e : Env) (s : State) (t : Thread) (r : CtlReg) : Triple :=
  let w := fun (x : Word) => Triple.all x
  let di := s.die e.w.die
  let co := s.core e.w.die e.w.core
  let cx := s.ctx t.owner
  let own := s.ctx (e.ctxTag t)
  let cl := s.cluster e.w.die (e.w.core / 4)
  let g := e.g
  let icnt := match s.grid? g.gid with | some g => g.icnt | none => g.icnt
  let resid := match e.heap s with | some (_, h) => h.view | none => 0
  match r with
  | .seedlo => w (g.lr.seed.extractLsb' 0 32)
  | .seedhi => w (g.lr.seed.extractLsb' 32 32)
  | .drawctr => w t.c
  | .istat => w (t.istat.setWidth 32)
  | .imask => w (t.imask.setWidth 32)
  | .cancelth => w (t.cancelth.setWidth 32)
  | .fpstat => w (t.fpstat.setWidth 32)
  | .fpmask => w (t.fpmask.setWidth 32)
  | .handler => w t.handler
  | .trapinfo => w t.viewTrap.info
  | .trappc => w t.viewTrap.pc
  | .regionpc => w t.regionPc
  | .mode => w (fields [(boolNat e.triple, 0)])
  | .dmode => w (fields [(boolNat t.rev, 0)])
  | .tapepos => w (BitVec.ofNat 32 t.tapepos)
  | .tapecap => w (BitVec.ofNat 32 t.tapecap)
  | .icntcancel => w icnt.1
  | .icntsplit => w icnt.2.1
  | .icntzdiv => w icnt.2.2
  | .rstack => w (fields [(t.rsp / 8, 16), (t.rs.length, 0)])
  | .dstack => w (BitVec.ofNat 32 t.dsp)
  | .trapopa => t.viewTrap.opa
  | .trapopb => t.viewTrap.opb
  | .trapopc => t.viewTrap.opc
  | .trapres => t.viewTrap.res
  | .trapaddrlo => w (t.viewTrap.addr.extractLsb' 0 32)
  | .trapaddrhi => w ((t.viewTrap.addr.extractLsb' 32 16).setWidth 32)
  | .wissue => w e.w.wissue
  | .wbeat => w e.w.wbeat
  | .wunif => w e.w.wunif
  | .wsplit => w e.w.wsplit
  | .cpylast => w t.cpylast
  | .tapebase => w g.lr.tapeBase
  | .tapestride => w g.lr.tapeStride
  | .corecfg => w (fields [(e.b.cores.length, 16), (e.w.rank, 12), (co.shStep, 4), (co.regStep, 0)])
  | .spillcfg => w (BitVec.ofNat 32 g.lr.spillK)
  | .shsize => w (BitVec.ofNat 32 e.b.shBytes)
  | .mopcnt => w e.b.mopcnt
  | .lantstat => w (e.lantstat s)
  | .hcount => w (BitVec.ofNat 32 e.b.hcount)
  | .resid0 => w (residPart resid 0)
  | .resid1 => w (match t.residLatch with | some x => x.1 | none => residPart resid 1)
  | .resid2 => w (match t.residLatch with | some x => x.2 | none => residPart resid 2)
  | .gaintol => w (e.ofHeap s fun g _ => g.lr.tol)
  | .gqstat => w (fields [(boolNat di.gerr, 16), (4096 - di.nodes.length, 0)])
  | .heapstat => w (e.ofHeap s fun _ h => h.stat)
  | .taskbase => w (e.ofHeap s fun g _ => BitVec.ofNat 32 g.lr.taskBase)
  | .taskcnt => w (e.ofHeap s fun g _ => BitVec.ofNat 32 (g.lr.taskCnt - 1))
  | .maxlive => w (e.ofHeap s fun g _ => BitVec.ofNat 32 g.lr.maxLive)
  | .tasklive => w (e.ofHeap s fun _ h => BitVec.ofNat 32 h.running)
  | .energylo => w (own.energy.extractLsb' 0 32)
  | .energyhi => w (fields [(boolNat own.sat, 31), ((own.energy.extractLsb' 32 16).toNat, 0)])
  | .ltstat => w (fields [(boolNat own.lterr, 31), (boolNat own.sweep.isSome, 30), (own.ltpos, 0)])
  | .boardid => w (fields [(s.pkg.boardCount.toNat, 4), (s.pkg.pkg.toNat, 0)])
  | .priv => w (fields [(boolNat t.super, 0)])
  | .owner => w (t.owner.setWidth 32)
  | .carve =>
    let k := s.core e.w.die t.carveCore.toNat
    w (fields [(t.carveCore.toNat, 8), (k.shStep, 4), (k.regStep, 0)])
  | .epc => w t.epc
  | .wdebug => w (fields [(boolNat e.w.held, 1), (boolNat e.w.step, 0)])
  | .svqstat => w (fields [(cl.queue.length, 16), (cl.svDone.toNat, 0)])
  | .sptroot => w cx.sptroot
  | .qepoch => w di.qepoch
  | .qdone => w (s.qdone e.w.die)
  | .qfree => w 0
  | .qtake => w 0xFFFFFFFF
  | .ltbase => w cx.ltbase
  | .bivsize => w (BitVec.ofNat 32 di.bivSize)
  | .tsctl => w co.tsctl
  | .ckstat => w (fields [(boolNat s.pkg.ckBusy.isSome, 31), (boolNat s.pkg.ckPoison, 30), (s.pkg.ckDone, 0)])
  | .enstatic => w (co.perus.setWidth 32)
  | .mptroot => w cx.mptroot
  | .entab k => w ((s.pkg.entab.getD k 0).setWidth 32)
  | .bp k => w (di.bps.getD k 0)
  | .bpctx => w di.bpctx
  | .dbgctl =>
    let bits := match s.warpAt e.w.die (di.dbgctl.extractLsb' 0 8).toNat (di.dbgctl.extractLsb' 8 9).toNat with
      | some x => fields [(boolNat x.held, 18), (boolNat x.step, 17)]
      | none => 0
    w ((di.dbgctl &&& 0x1FFFF) ||| bits)
  | .trctl => w di.trctl
  | .trbase => w di.trbase
  | .trhead => w di.trhead
  | .wpstat => w (di.wpstat.setWidth 32)
  | .eccstat => w di.ecc
  | .func => w (match s.funcOf e.w.die (e.w.core / 4) with | some f => BitVec.ofNat 32 f.num | none => 0)

/-! ## ctlget -/

/-- What issue looks at: registers from 200h on exist in the supervisor view only. -/
def getForm (c : Ctl) (d : Dst) (r : CtlReg) : Form := { Form.short c [] d.opds with priv := r.sup }

/-- CTLGET (R249). -/
def execCtlget (c : Ctl) (d : Dst) (r : CtlReg) (s : State) : Out :=
  .next (issue (getForm c d r) noHold (fun e s => s.writeAll e (e.parts c) d fun t => e.ctlRead s t r) s)

/-- RESID0_READ (R378): the read latches RESID1 and RESID2 for the thread. -/
def execResid0Read (c : Ctl) (d : Dst) (s : State) : Out :=
  .next (issue (getForm c d .resid0) noHold (fun e s =>
    let r := match e.heap s with | some (_, h) => h.view | none => 0
    let s1 := s.writeAll e (e.parts c) d fun t => e.ctlRead s t .resid0
    s1.eachThread e (computing d (e.parts c)) fun t => { t with residLatch := some (residPart r 1, residPart r 2) }) s)

/-- The oldest stamp not above QDONE (R318). -/
def State.takePage (s : State) (d : Nat) : Option (Nat × Word) :=
  let done := s.qdone d
  ((s.die d).quarantine.filter fun x => decide ((done - x.2).toNat < 2 ^ 31)).foldl
    (fun o x => match o with
      | none => some x
      | some y => if (done - y.2).toNat < (done - x.2).toNat then some x else some y) none

/-- QTAKE_READ (R318): each read takes the page it returns. -/
def execQtakeRead (c : Ctl) (d : Dst) (s : State) : Out :=
  .next (issue (getForm c d .qtake) noHold (fun e s =>
    (computing d (e.parts c)).foldl (fun s' t =>
      match s'.takePage e.w.die with
      | none => (s'.writeDst e t d (.all 0xFFFFFFFF)).retagDst e.w.wid d
      | some x =>
        let di := s'.die e.w.die
        ((s'.setDie { di with quarantine := di.quarantine.erase x }).writeDst e t d (.all (BitVec.ofNat 32 x.1))).retagDst
          e.w.wid d) s) s)

/-! ## ctlset -/

/-- A write of a control register by each participant; a register without a writable field raises FIELD (R249). -/
def setWord (c : Ctl) (r : CtlReg) (b : Src) (f : Env → State → Thread → Word → State) : State → State :=
  issue { Form.short c b.opds [] with priv := r.sup } noHold fun e s =>
    (e.parts c).foldl (fun s' t => if r.writable then f e s' t (e.src s t .zero b).s0 else e.illegal s' t subField) s

/-- A change of the writing thread. -/
def State.own (s : State) (e : Env) (t : Thread) (f : Thread → Thread) : State := s.updThread e.w.wid t.idx f

/-- A change of the thread's context, that OWNER names. -/
def State.ownCtx (s : State) (t : Thread) (f : Ctx → Ctx) : State := s.setCtx (f (s.ctx t.owner))

/-- A change of the thread's die. -/
def State.ownDie (s : State) (e : Env) (f : Die → Die) : State := s.setDie (f (s.die e.w.die))

/-- A tag of the writer's function (R436). -/
def State.tagInFunc (s : State) (e : Env) (tag : BitVec 12) : Bool :=
  match s.funcOf e.w.die (e.w.core / 4) with
  | some f => decide (f.cfg.tagLo ≤ tag) && decide (tag ≤ f.cfg.tagHi)
  | none => false

/-- The effect of a write to a register that has no instruction of its own. -/
def Env.ctlWrite (e : Env) (r : CtlReg) (s : State) (t : Thread) (v : Word) : State :=
  let field := e.illegal s t subField
  match r with
  | .istat => s.own e t fun t => { t with istat := t.istat &&& ~~~(v.extractLsb' 0 4) }
  | .imask => s.own e t fun t => { t with imask := v.extractLsb' 0 3 }
  | .cancelth => s.own e t fun t => { t with cancelth := v.extractLsb' 0 5 }
  | .fpstat => s.own e t fun t => { t with fpstat := t.fpstat &&& ~~~(v.extractLsb' 0 5) }
  | .fpmask => s.own e t fun t => { t with fpmask := v.extractLsb' 0 5 }
  | .heapstat =>
    match e.heap s with
    | some (g, h) => if v.getLsbD 29 then s.updGrid g.gid fun g => g.setHeap { h with nang := false } else s
    | none => s
  | .gqstat => if v.getLsbD 16 then s.ownDie e fun d => { d with gerr := false } else s
  | .ltstat => if v.getLsbD 31 then s.setCtx { s.ctx (e.ctxTag t) with lterr := false } else s
  | .owner => s.own e t fun t => { t with owner := v.extractLsb' 0 12 }
  | .epc => if v.extractLsb' 0 3 ≠ 0 then field else s.own e t fun t => { t with epc := v }
  | .ltbase => s.ownCtx t fun x => { x with ltbase := v }
  | .ckstat => if v.getLsbD 30 then { s with pkg := { s.pkg with ckPoison := false } } else s
  | .enstatic => s.setCore { s.core e.w.die e.w.core with perus := v.extractLsb' 0 16 }
  | .mptroot => s.ownCtx t fun x => { x with mptroot := v }
  | .entab k => { s with pkg := { s.pkg with entab := setAt s.pkg.entab k (v.extractLsb' 0 16) } }
  | .bp k => s.ownDie e fun d => { d with bps := setAt d.bps k (v &&& 0xFFFFFFF9) }
  | .bpctx =>
    let tag := v.extractLsb' 0 12
    if tag = 0 || s.tagInFunc e tag then s.ownDie e fun d => { d with bpctx := v &&& 0x0FFFFFFF } else field
  | .trctl =>
    if 8 < (v.extractLsb' 8 4).toNat then field else s.ownDie e fun d => { d with trctl := v &&& 0xFF1 }
  | .trbase => s.ownDie e fun d => { d with trbase := v }
  | .wpstat => s.ownDie e fun d => { d with wpstat := d.wpstat &&& ~~~(v.extractLsb' 0 4) }
  | .eccstat => s.ownDie e fun d => { d with ecc := v }
  | _ => s

/-- CTLSET (R249). -/
def execCtlset (c : Ctl) (r : CtlReg) (b : Src) (s : State) : Out := .next (setWord c r b (fun e => e.ctlWrite r) s)

/-- DRAWCTR_WRITE (R23): in a handler, the saved value. -/
def execDrawctrWrite (c : Ctl) (b : Src) (s : State) : Out :=
  .next (setWord c .drawctr b (fun e s t v => s.own e t fun t =>
    match t.inHandler with
    | some h => { t with inHandler := some { h with c := v } }
    | none => { t with c := v }) s)

/-- TRAPPC_WRITE (R161): in handler mode only. -/
def execTrappcWrite (c : Ctl) (b : Src) (s : State) : Out :=
  .next (setWord c .trappc b (fun e s t v =>
    if t.inHandler.isNone || t.super || decide (v.extractLsb' 0 3 ≠ 0) then e.illegal s t subField
    else s.own e t fun t => { t with trap := { t.trap with pc := v }, trappcWritten := true }) s)

/-- HANDLER_WRITE (Table 6.7). -/
def execHandlerWrite (c : Ctl) (b : Src) (s : State) : Out :=
  .next (setWord c .handler b (fun e s t v =>
    if v.extractLsb' 0 3 ≠ 0 then e.illegal s t subField else s.own e t fun t => { t with handler := v }) s)

/-- DSTACK_WRITE (R238). -/
def execDstackWrite (c : Ctl) (b : Src) (s : State) : Out :=
  .next (setWord c .dstack b (fun e s t v =>
    let n := (v.extractLsb' 0 17).toNat
    if n % 4 ≠ 0 ∨ e.g.spillSize < n + t.rsp then e.illegal s t subField
    else s.own e t fun t => { t with dsp := n }) s)

/-- TAPEPOS_WRITE (R365). -/
def execTapeposWrite (c : Ctl) (b : Src) (s : State) : Out :=
  .next (setWord c .tapepos b (fun e s t v =>
    let n := (v.extractLsb' 0 27).toNat
    if t.tapecap < n then e.illegal s t subField else s.own e t fun t => { t with tapepos := n }) s)

/-- TAPECAP_WRITE (R365). -/
def execTapecapWrite (c : Ctl) (b : Src) (s : State) : Out :=
  .next (setWord c .tapecap b (fun e s t v =>
    let n := (v.extractLsb' 0 27).toNat
    if n < t.tapepos ∨ e.g.lr.tapeStride.toNat / 32 < n then e.illegal s t subField
    else s.own e t fun t => { t with tapecap := n }) s)

/-! ## Carve (R207, R208) -/

/-- KiB of a core's regions under a carve. -/
def regKiB (regStep : Nat) : Nat := 1024 + 512 * regStep
def shKiB (shStep : Nat) : Nat := 256 * shStep

/-- Whether a carve is legal: its steps in range and at least 256 KiB of core cache. -/
def carveOk (regStep shStep : Nat) : Bool :=
  decide (regStep ≤ 3) && decide (shStep ≤ 7) && decide (regKiB regStep + shKiB shStep + 256 ≤ 3072)

/-- Warps resident on a core. -/
def State.residents (s : State) (d core : Nat) : List Warp :=
  s.warps.filter fun w => w.die = d && w.core = core && !w.saved && !w.service

/-- CARVE_WRITE (R208): a change writes back and invalidates the core's cache. -/
def execCarveWrite (c : Ctl) (b : Src) (s : State) : Out :=
  .next (setWord c .carve b (fun e s t v =>
    let core := (v.extractLsb' 8 8).toNat
    let sh := (v.extractLsb' 4 4).toNat
    let rg := (v.extractLsb' 0 4).toNat
    let k := s.core e.w.die core
    let same := decide (k.shStep = sh) && decide (k.regStep = rg)
    if s.dieCores ≤ core || !carveOk rg sh || (!(s.residents e.w.die core).isEmpty && !same) then e.illegal s t subField
    else
      let s1 := s.own e t fun t => { t with carveCore := v.extractLsb' 8 8 }
      if same then s1 else s1.setCore { k with regStep := rg, shStep := sh, lines := [] }) s)

/-! ## Translation and quarantine -/

/-- SPTROOT_WRITE (R314, R315): the root replaced stays usable to other threads until a `tlbinv` covers it. -/
def execSptrootWrite (c : Ctl) (b : Src) (s : State) : Out :=
  .next (setWord c .sptroot b (fun e s t v =>
    let root := v &&& 0x0FFF8000
    s.ownCtx t fun x =>
      if root = x.sptroot then { x with rootBy := some (e.w.wid, t.idx) }
      else
        let old : OldRoot := { root := x.sptroot, covered := [] }
        { x with sptroot := root, rootBy := some (e.w.wid, t.idx), oldRoots := x.oldRoots ++ [old] }) s)

/-- Pages of a die's scratchpad. -/
def diePages : Nat := 2560

/-- QFREE_WRITE (R318). -/
def execQfreeWrite (c : Ctl) (b : Src) (s : State) : Out :=
  .next (setWord c .qfree b (fun e s t v =>
    let page := (v.extractLsb' 0 12).toNat
    let di := s.die e.w.die
    if diePages ≤ page || di.quarantine.any (fun x => decide (x.1 = page)) then e.illegal s t subField
    else s.setDie { di with quarantine := di.quarantine ++ [(page, di.qepoch)] }) s)

/-- Lines of a bivouac area of `m` MiB (Table 22.5). -/
def areaLines (m : Nat) : Nat := m * 8192

/-- The last line of a die's scratchpad: the area is taken from there downwards (R424, log 109). -/
def State.areaTop (s : State) (d : Nat) : Nat := (s.spBase d + spSize) / 128 - 1

/-- The lines of a die's area that hold saved state. -/
def State.areaUsed (s : State) (d : Nat) : List Nat := ((s.blocks.filter fun b => b.die = d).map fun b => b.saveLines).flatten

/-- Every line of saved state lies within an area of `m` MiB. -/
def State.areaKeeps (s : State) (d m : Nat) : Bool := (s.areaUsed d).all fun l => decide (s.areaTop d < l + areaLines m)

/-- BIVSIZE_WRITE (Table 22.5). -/
def execBivsizeWrite (c : Ctl) (b : Src) (s : State) : Out :=
  .next (setWord c .bivsize b (fun e s t v =>
    let n := (v.extractLsb' 0 7).toNat
    if 64 < n ∨ s.areaKeeps e.w.die n = false then e.illegal s t subField
    else s.ownDie e fun d => { d with bivSize := n }) s)

/-- TSCTL_WRITE (R426): a slice begins when a named context runs on the core. -/
def execTsctlWrite (c : Ctl) (b : Src) (s : State) : Out :=
  .next (setWord c .tsctl b (fun e s _ v => s.setCore { s.core e.w.die e.w.core with tsctl := v }) s)

/-! ## Energy (R432) -/

/-- ENERGYLO_WRITE: latched only. -/
def execEnergyloWrite (c : Ctl) (b : Src) (s : State) : Out :=
  .next (setWord c .energylo b (fun e s t v =>
    if t.super then s.ownCtx t fun x => { x with elatch := some v } else e.illegal s t subField) s)

/-- ENERGYHI_WRITE: the counter and SAT in one step. -/
def execEnergyhiWrite (c : Ctl) (b : Src) (s : State) : Out :=
  .next (setWord c .energyhi b (fun e s t v =>
    if t.super then
      s.ownCtx t fun x =>
        { x with
          energy := v.extractLsb' 0 16 ++ x.elatch.getD (x.energy.extractLsb' 0 32)
          sat := v.getLsbD 31
          elatch := none }
    else e.illegal s t subField) s)

/-! ## Debug (R445) -/

/-- DBGCTL_WRITE: the step and held bits of the named warp. -/
def execDbgctlWrite (c : Ctl) (b : Src) (s : State) : Out :=
  .next (setWord c .dbgctl b (fun e s t v =>
    let di := s.die e.w.die
    match s.warpAt e.w.die (v.extractLsb' 0 8).toNat (v.extractLsb' 8 9).toNat with
    | none => e.illegal s t subField
    | some w =>
      if s.tagOfWarp w = some (di.bpctx.extractLsb' 0 12) then
        (s.setDie { di with dbgctl := v &&& 0x1FFFF }).updWarp w.wid fun w =>
          { w with held := v.getLsbD 18, step := v.getLsbD 17 }
      else e.illegal s t subField) s)

end Sys2Proof.Machine
end

