-- ==== Sys2Proof/Machine/Remote.lean ====
section
/-! DEFINITION. Remote atomics (R281 to R285, R300 to R302), the service of their requests by the slice's firmware, and
the instructions with which a service warp serves them (R303 to R305). -/

namespace Sys2Proof.Machine

/-! ## Sending -/

/-- The address of a remote atomic (R300). -/
def Env.remoteAddr (e : Env) (s : State) (t : Thread) (a : Opd) (adj far : Bool) : Addr :=
  if far then e.farAddr s t a
  else (if adj then winBase .adj else winBase .sp) + (e.read0 s t a).setWidth 48

/-- The checks of R301: steps 1 to 7 of Table 10.4 with its replacements. -/
def State.remotePlan (s : State) (e : Env) (t : Thread) (a : Addr) (ty : AtomTy) : Except Fail Loc :=
  let x : Acc := { a := a, kind := .remote ty, wr := true }
  match e.place a 1 with
  | .shared _ | .spill _ => .error (Fail.mk' (if a.toNat % x.kind.align ≠ 0 then 3 else 5) 0 a.toNat)
  | .main | .scratch _ | .nowhere =>
    match s.locate e t x with
    | .error f => .error f
    | .ok l =>
      if !x.kind.modeOk l.mode then .error (Fail.mk' 3 1 a.toNat)
      else if x.kind.misuse true l.d l.mode then .error (Fail.mk' 14 0 a.toNat)
      else .ok l

/-- Requests that a core may hold. -/
def coreRoom : Nat := 32

/-- The hold of a remote word: room at the core for every participant's request (R282). -/
def holdRoom (c : Ctl) (s : State) (e : Env) (_ : Thread) : Option Hold :=
  let n := (e.parts c).length
  if 0 < n ∧ coreRoom < (s.core e.w.die e.w.core).reqs.length + n then some (.room n) else none

/-- What a remote word does: its kind, the registers it names, the operation, and how its address is formed. -/
structure RemoteSpec where
  c : Ctl
  kind : Nat
  d : Option Nat
  a : Opd
  b : Opd
  op : AtomOp
  ty : AtomTy
  adj : Bool
  far : Bool
deriving DecidableEq, Repr

/-- The register of the compare value (R300). -/
def RemoteSpec.cmp (x : RemoteSpec) : Option Nat := if x.op = .cas then x.d else none

def RemoteSpec.form (x : RemoteSpec) : Form :=
  (Form.longLat x.c ((if x.far then [x.a, x.a.plus 1] else [x.a]) ++ (operandRun x.b x.ty ++ destRun x.cmp x.ty))
    (destRun x.d x.ty)).accesses

/-- The DEST field: `rred` has none, and `ratom` without a destination has %zero (R300). -/
def RemoteSpec.destCode (x : RemoteSpec) : Nat := if x.kind = 1 then 0 else x.d.getD 960

/-- The sum that draws: a TYPE 1 add (R302). -/
def RemoteSpec.draws (x : RemoteSpec) : Bool := decide (x.op = .add) && decide (x.ty = .f32)

/-- One thread's request sent; C advances at issue (R302). -/
def State.remoteOne (s : State) (e : Env) (s0 : State) (x : RemoteSpec) (pid : Nat) (t : Thread) (l : Loc) : State :=
  let a := e.remoteAddr s0 t x.a x.adj x.far
  let r := e.request t a l.bytes pid x.kind x.op x.ty l.mode x.d x.destCode (e.atomArgs s0 x.c t x.b x.cmp x.ty)
  let s1 := (s.sendRequest e r).walked e t (a.toNat - 0xC00000000000)
  if x.draws then s1.updThread e.w.wid t.idx fun u => { u with c := u.c + 1 } else s1

/-- The execution of a remote word: failing threads trap, the others send. -/
def RemoteSpec.body (x : RemoteSpec) (e : Env) (s : State) : State :=
  let ts := e.parts x.c
  let plan := fun (t : Thread) => s.remotePlan e t (e.remoteAddr s t x.a x.adj x.far) x.ty
  let ok := ts.filterMap fun t => match plan t with
    | .ok l => some (t, l)
    | .error _ => none
  let s1 := ts.foldl (fun s' t => match plan t with
    | .ok _ => s'
    | .error f => s'.fail e t f) s
  if ok.isEmpty then s1
  else
    let sm := s1.countMem e
    let (pid, s2) := sm.1.newId
    let smp : Sample :=
      { thr := (ok.getLast?.map fun y => y.1.idx).getD 0, pc := e.iss.pc, active := ts.length,
        sectors := (sectorsOf (ok.map fun y => y.2.bytes).flatten).length, reissues := 0 }
    let s3 := s2.addPend e.w.wid
      { id := pid, flag := e.flagOf x.c, wait := .parts, parts := [], sparts := [], preds := [],
        thrs := ok.map fun y => y.1.idx, epoch := some (s.die e.w.die).qepoch, sample := if sm.2 then some smp else none }
    ok.foldl (fun s' y => s'.remoteOne e s x pid y.1 y.2) s3

/-- A remote word. -/
def remoteWord (x : RemoteSpec) : State → State := issue x.form (holdRoom x.c) x.body

/-- RATOM (R300 to R302). -/
def execRatom (c : Ctl) (d : Option Nat) (a b : Opd) (op : AtomOp) (ty : AtomTy) (adj far : Bool) (s : State) : Out :=
  .next (remoteWord { c := c, kind := 0, d := d, a := a, b := b, op := op, ty := ty, adj := adj, far := far } s)

/-- RRED. -/
def execRred (c : Ctl) (a b : Opd) (op : AtomOp) (ty : AtomTy) (adj far : Bool) (s : State) : Out :=
  .next (remoteWord { c := c, kind := 1, d := none, a := a, b := b, op := op, ty := ty, adj := adj, far := far } s)

/-- RCAS: `vd` at issue is the compare value. -/
def execRcas (c : Ctl) (d : Nat) (a b : Opd) (ty : AtomTy) (adj far : Bool) (s : State) : Out :=
  .next (remoteWord { c := c, kind := 2, d := some d, a := a, b := b, op := .cas, ty := ty, adj := adj, far := far } s)

/-! ## Entering the queue (R282) -/

/-- Requests that a slice's queue holds. -/
def queueRoom : Nat := 256

/-- The requests of a core that may enter now: the first to each slice, where its queue has room. -/
def State.mayEnter (s : State) (d core : Nat) : List Request :=
  let l := (s.core d core).reqs
  l.filter fun r =>
    decide ((l.find? fun q => homeOf q.pa = homeOf r.pa) = some r) &&
      decide ((s.cluster d (homeOf r.pa)).queue.length < queueRoom)

/-- REMOTE_REQUEST_ENQUEUE: among the slices the choice is open (log 13). -/
def execRemoteRequestEnqueue (d core : Nat) (s : State) : Out :=
  let l := s.mayEnter d core
  let k := if l.length ≤ 1 then 0 else Config.pick (s.fresh + 1) % l.length
  match l.drop k with
  | [] => .next s
  | r :: _ =>
    let co := s.core d core
    let cl := s.cluster d (homeOf r.pa)
    .next ((s.setCore { co with reqs := co.reqs.erase r }).setCluster { cl with queue := cl.queue ++ [r] })

/-! ## Application (R283, R302) -/

/-- The bytes that a request changes: 12 on a triple page. -/
def Request.size (r : Request) : Nat := if r.mode = 1 then 12 else AtomTy.bytes' r.ty

def Request.args (r : Request) : AtomArgs :=
  { b := r.operand, bHi := r.operandHi, cv := r.cmp, cvHi := r.cmpHi, dirs := r.dirs }

/-- The offset of the request's address in the scratchpad windows. -/
def Request.off (r : Request) : Nat := r.va.toNat - 0xC00000000000

/-- What the slice finds: the bytes, or the status (R284, R301). -/
def State.requestBytes (s : State) (r : Request) : Except Nat (List Nat) :=
  match s.agentSpan r.die r.tag r.off r.size true with
  | none => .error 5
  | some bytes =>
    if s.otherTag r.tag bytes || (s.poisonedAt bytes).isSome then .error 6 else .ok bytes

/-- The operation on the old bytes: the new ones and the reply. -/
def Request.apply (r : Request) (old : List Byte) : List Byte × List Triple :=
  if r.mode = 1 then atomTriple r.op r.ty r.triple r.args old else atomPlain r.op r.ty r.triple r.args old

/-- The reports of the watchpoints that an applied request strikes (Table 23.4). -/
def State.requestStrikes (s : State) (r : Request) (new : List Byte) : State :=
  if r.pass then s
  else
    let hits := s.strikes r.die r.tag r.va.toNat r.size false true
    hits.foldl (fun s x =>
      s.traceWrite r.die (homeOf r.pa) r.tag
        (traceHead 2 r.die 0xFF r.tag (x.1 + 16 * 2) r.t (r.pc.setWidth 32) s.now ++
          [BitVec.ofNat 32 x.2, BitVec.ofNat 32 (x.2 / 2 ^ 32), wordAt new ((x.2 - r.va.toNat) / 4)]))
      (s.hit r.die hits)

/-- One request applied by the slice's firmware: the state, the status and the reply. -/
def State.applyRequest (s0 : State) (r : Request) : State × Nat × List Triple :=
  let s := match s0.agentSpan r.die r.tag r.off r.size true with
    | some bytes => s0.scrub r.die bytes
    | none => s0
  match s.requestBytes r with
  | .error n => (s, n, [])
  | .ok bytes =>
    let res := r.apply (bytes.map s.mem.read)
    let s1 := s.recall r.die none (linesOf bytes) true
    let s2 := { s1 with mem := s1.mem.writeAll (bytes.zip res.1) }
    (((s2.heal bytes).charge r.tag 13 1).requestStrikes r res.1, 0, res.2)

/-! ## Replies (R284) -/

/-- The trap that a nonzero status raises in the requester: the record of the instruction that sent the request. -/
def Request.trap (r : Request) (status : Nat) : TrapRec :=
  { TrapRec.plain status 0 r.pos r.pc with addr := if r.kind = 3 then r.va - 0x100000000 else r.va }

/-- A reply reaches the requester: its data go to the outstanding instruction, or the thread takes the trap. -/
def State.reply (s : State) (r : Request) (status : Nat) (data : List Triple) : State :=
  if status = 0 then
    match r.dest with
    | some d => (if r.ret then s.addParts r.wid r.pid r.thr (.v d) data else s).sampleLast r.wid r.pid r.thr
    | none => s.sampleLast r.wid r.pid r.thr
  else
    match s.thread? r.wid r.thr with
    | none => s
    | some t => if t.st = .ended then s else s.trap r.wid r.thr (r.trap status) t.pc t.cl

/-- The registers of a reply that a service warp gives: three siblings, or two words of 64 bits. -/
def Request.data (r : Request) (x : Triple) : List Triple :=
  if r.ty = .w64 then [.all x.s0, .all x.s1] else if r.triple then [x] else [.all x.s0]

/-- A request of the queue's head that may be applied: no copy claims its line. -/
def State.headReady (s : State) (d cl : Nat) : Option Request :=
  match (s.cluster d cl).queue with
  | [] => none
  | r :: _ => if (s.waitLines d none none true r.bytes).isEmpty then some r else none

/-- The service warp of a cluster's slice, where its code runs (R280). -/
def State.serviceWarp (s : State) (d cl : Nat) : Option Warp :=
  s.warps.find? fun w => w.service && decide (w.die = d) && decide (w.core / 4 = cl)

/-- REMOTE_REPLY: a reply of a service warp reaches its requester; else, where no service warp's code takes the requests,
the slice's firmware applies the head of the queue and replies (log 27). -/
def execRemoteReply (d cl : Nat) (s : State) : Out :=
  let c := s.cluster d cl
  match c.replies with
  | (r, status, x) :: rest =>
    .next ((s.setCluster { c with replies := rest }).reply r status (r.data x))
  | [] =>
    if (s.serviceWarp d cl).isSome then .next s
    else
      match s.headReady d cl with
      | none => .next s
      | some r =>
        let a := s.applyRequest r
        let c' := a.1.cluster d cl
        .next ((a.1.setCluster { c' with
          queue := c'.queue.drop 1
          svDone := c'.svDone + 1 }).reply r a.2.1 a.2.2)

/-! ## A service warp (R303 to R305) -/

/-- The operation code in a record. -/
def Request.opCode (r : Request) : Nat := r.kind * 64 + (if r.kind = 2 then 0 else r.op.code)

/-- The return-slot word. -/
def Request.slotWord (r : Request) : Word :=
  BitVec.ofNat 32 (r.core * 2 ^ 24 + r.slot * 2 ^ 15 + (if r.triple then 3 * r.thr else r.thr) * 2 ^ 10 + r.destCode)

/-- The words of an operand in a record: its siblings, 1 and 2 zero in single-lane mode (Table 13.6). The second register of
a 64-bit operand has no place there (log 20). -/
def Request.words3 (r : Request) (x : Triple) : List Word := if r.triple then [x.s0, x.s1, x.s2] else [x.s0, 0, 0]

/-- A record as `svrecv` delivers it (Table 13.6). -/
def Request.record (r : Request) : List Word :=
  [BitVec.ofNat 32 (r.opCode + (r.ty.code + 16 * r.mode.toNat + (if r.ret then 64 else 0) + (if r.acc then 128 else 0)) * 256 +
      r.tag.toNat * 65536),
    r.slotWord, r.va.setWidth 32, (r.va.extractLsb' 32 16).setWidth 32, r.t, r.c] ++
    (r.words3 r.operand ++ ((if r.kind = 2 then r.words3 r.cmp else [0, 0, 0]) ++ [0, 0, 0, 0]))

/-- Records delivered to the lanes of an outstanding `svrecv`, in queue order; it is then ready. -/
def State.deliver (s : State) (wid pid d : Nat) (p : BitVec 3) (die cl : Nat) (thrs : List Nat) : State :=
  let c := s.cluster die cl
  let n := min (min thrs.length 24) c.queue.length
  let got := thrs.zip (c.queue.take n)
  let s1 := s.setCluster { c with
    queue := c.queue.drop n
    delivered := c.delivered ++ c.queue.take n }
  let s2 := got.foldl (fun s x =>
    s.addParts wid pid x.1 (.v d) (x.2.record.map Triple.all)) s1
  let preds := thrs.map fun i => (i, p, boolBits (got.any fun x => x.1 = i))
  s2.updWarp wid fun w =>
    { w with pend := mapIf (fun q => q.id = pid) (fun q => { q with wait := .ready, preds := preds }) w.pend }

/-- SVRECV. -/
def execSvrecv (c : Ctl) (d : Nat) (p : BitVec 3) (wt : Bool) (s : State) : Out :=
  .next (issue { Form.longLat c [] (vrun d 16) with priv := true } noHold (fun e s =>
    let thrs := (e.parts c).map fun t => t.idx
    if thrs.isEmpty then s
    else
      let cl := e.w.core / 4
      let (pid, s1) := s.newId
      let s2 := s1.addPend e.w.wid
        { id := pid, flag := e.flagOf c, wait := .request d p, parts := [], sparts := [], preds := [], thrs := thrs,
          epoch := none, sample := none }
      if wt && (s.cluster e.w.die cl).queue.isEmpty then s2 else s2.deliver e.w.wid pid d p e.w.die cl thrs) s)

/-- One lane's reply: a request delivered to the slice's service warp ends, and its line is free; one applied is counted
(R430). -/
def State.serviceReply (s : State) (die cl : Nat) (slot : Word) (status : Nat) (x : Triple) : State :=
  let c := s.cluster die cl
  match c.delivered.find? fun r => r.slotWord = slot with
  | none => s
  | some r =>
    let s1 := s.setCluster { c with
      delivered := c.delivered.erase r
      replies := c.replies ++ [(r, status, x)]
      svDone := c.svDone + 1 }
    if status = 0 then s1.charge r.tag 13 1 else s1

/-- SVREPLY: a status other than 0, 5 and 6 raises FIELD. -/
def execSvreply (c : Ctl) (a b : Nat) (s : State) : Out :=
  .next (issue (Form.sup c (.v a :: vrun b 4) []) noHold (fun e s =>
    (e.parts c).foldl (fun s' t =>
      let w := fun (k : Nat) => e.read0 s t (.v (b + k))
      let status := (w 0).toNat
      if status ≠ 0 ∧ status ≠ 5 ∧ status ≠ 6 then e.illegal s' t subField
      else s'.serviceReply e.w.die (e.w.core / 4) (e.read0 s t (.v a)) status { s0 := w 1, s1 := w 2, s2 := w 3 }) s) s)

end Sys2Proof.Machine
end

