-- ==== Sys2Proof/Machine/MatrixOps.lean ====
section
/-! DEFINITION. The arithmetic of the matrix engine: type combinations (R69), shapes (R263, R267, R289), products (R60,
R61), one K-step (R64 to R68), results (R62, R65, R296). -/

namespace Sys2Proof.Machine

/-! ## Types -/

/-- Types of a floating operand. -/
def mmaFloat (t : Ty) : Bool := t.is16 || decide (t = .f8)

/-- Types of a logarithmic operand. -/
def mmaLog (t : Ty) : Bool := decide (t = .l8) || decide (t = .l6)

/-- Table 3.7. -/
def mmaLegal (a b acc res : Ty) : Bool :=
  let narrow := decide (res = .f32) || res.is16 || decide (res = .f8) || mmaLog res
  (((mmaFloat a && mmaFloat b) || (mmaLog a && mmaLog b)) && decide (acc = .a26) && narrow) ||
    (decide (a = .i8) && decide (b = .i8) && decide (acc = .i32) && (decide (res = .i32) || decide (res = .i8)))

/-- The K-step size of a pair (R63). -/
def kstepSize (a b : Ty) : Nat :=
  if a.is16 || b.is16 then 8 else if a = .l6 ∧ b = .l6 then 32 else 16

/-- A type field as a type; the callers have checked it. -/
def tyOf (c : BitVec 4) : Ty := (Ty.ofCode c.toNat).getD .f32

/-! ## Descriptors (Table 14.2) -/

def MDesc.mt (x : MDesc) : Nat := (x.w0.extractLsb' 0 3).toNat
def MDesc.nt (x : MDesc) : Nat := (x.w0.extractLsb' 3 4).toNat
def MDesc.base (x : MDesc) : Nat := (x.w0.extractLsb' 7 5).toNat
def MDesc.pField (x : MDesc) : Nat := (x.w0.extractLsb' 12 7).toNat
/-- The promotion interval: 0 means 16. -/
def MDesc.p (x : MDesc) : Nat := if x.pField = 0 then 16 else x.pField
def MDesc.bShared (x : MDesc) : Bool := x.w0.getLsbD 19
def MDesc.k (x : MDesc) : Nat := (x.w1.extractLsb' 0 16).toNat
def MDesc.bStride (x : MDesc) : Nat := (x.w1.extractLsb' 16 16).toNat
def MDesc.bOff (x : MDesc) : Nat := x.w2.toNat
def MDesc.oA (x : MDesc) : Int := (x.w3.extractLsb' 0 8).toInt
def MDesc.oB (x : MDesc) : Int := (x.w3.extractLsb' 8 8).toInt
def MDesc.oR (x : MDesc) : BitVec 8 := x.w3.extractLsb' 16 8
def MDesc.a (x : MDesc) : Ty := tyOf x.tA
def MDesc.b (x : MDesc) : Ty := tyOf x.tB
def MDesc.acc (x : MDesc) : Ty := tyOf x.tAcc
def MDesc.res (x : MDesc) : Ty := tyOf x.tRes
def MDesc.ks (x : MDesc) : Nat := kstepSize x.a x.b
/-- K-steps on each handle. -/
def MDesc.steps (x : MDesc) : Nat := x.k / x.ks
/-- Elements of a word of the A fragment (R267). -/
def MDesc.perWord (x : MDesc) : Nat := if x.a.is16 then 2 else 4
/-- Words of a row of A, and of the whole fragment. -/
def MDesc.rowWords (x : MDesc) : Nat := x.k / x.perWord
def MDesc.fragWords (x : MDesc) : Nat := 64 * x.mt * x.rowWords
/-- Bytes of `n` elements of B. -/
def MDesc.bBytes (x : MDesc) (n : Nat) : Nat := n * x.b.width / 8
def MDesc.rowBytes (x : MDesc) : Nat := x.bBytes (64 * x.nt)
/-- The handles of the tile (R263). -/
def MDesc.tile (x : MDesc) : List Nat := (List.range (x.mt * x.nt)).map fun i => x.base + i
/-- The tile row and column of element (0, 0) of a handle. -/
def MDesc.row0 (x : MDesc) (h : Nat) : Nat := (h - x.base) / max 1 x.nt * 64
def MDesc.col0 (x : MDesc) (h : Nat) : Nat := (h - x.base) % max 1 x.nt * 64

/-- A type code that names no type, or A26 outside the accumulator field (R43). -/
def badCode (c : BitVec 4) (acc : Bool) : Bool :=
  match Ty.ofCode c.toNat with
  | none => true
  | some t => decide (t = .a26) && !acc

/-- Checks of the type fields (R290 step 1). -/
def MDesc.typesBad (x : MDesc) : Bool :=
  badCode x.tA false || badCode x.tB false || badCode x.tAcc true || badCode x.tRes false ||
    !mmaLegal x.a x.b x.acc x.res

/-- Checks of the descriptor's values (R290 step 2). -/
def MDesc.valuesBad (x : MDesc) : Bool :=
  decide (x.w0.extractLsb' 20 12 ≠ 0) || decide (x.w3.extractLsb' 24 8 ≠ 0) || decide (64 < x.pField) ||
    (decide (x.oA ≠ 0) && !mmaLog x.a) || (decide (x.oB ≠ 0) && !mmaLog x.b) || (decide (x.oR ≠ 0) && !mmaLog x.res)

/-- Checks of the shape that need no signing set (R290 step 3). -/
def MDesc.shapeBad (x : MDesc) (shBytes : Nat) : Bool :=
  let top := x.bOff + (x.k - 1) * x.bStride + x.rowBytes
  decide (x.mt = 0) || decide (4 < x.mt) || decide (x.nt = 0) || decide (8 < x.nt) || decide (x.k = 0) ||
    decide (x.k % x.ks ≠ 0) || decide (x.bOff % 4 ≠ 0) || decide (x.bStride % 4 ≠ 0) || decide (x.bStride < x.rowBytes) ||
    (if x.bShared then decide (shBytes < top) else decide (2 ^ 32 < top))

/-- The limits of the fragment for a set (R267). -/
def MDesc.fragBad (x : MDesc) (expect : Nat) : Bool :=
  decide (x.fragWords % expect ≠ 0) || decide (64 < x.fragWords / expect) || decide (4096 < x.fragWords)

/-- Registers that each signer supplies. -/
def MDesc.share (x : MDesc) (expect : Nat) : Nat := x.fragWords / expect

/-! ## Products (R60, R61) -/

def logFmt (t : Ty) : LFmt := if t = .l6 then LFmt.l6 else LFmt.l8

def plusZero : FVal := .fin { neg := false, mag := 0, exp := 0, sticky := false }

/-- The product of two logarithmic elements. -/
def logProduct (a b : Ty) (oA oB : Int) (x y : Word) : FVal :=
  let fa := logFmt a
  let fb := logFmt b
  if x.toNat = fa.nar ∨ y.toNat = fb.nar then .nan false
  else
    match fa.logOf x.toNat, fb.logOf y.toNat with
    | some (sx, lx), some (sy, ly) => .fin (logValue (sx != sy) (fa.step * lx + oA + (fb.step * ly + oB)))
    | _, _ => plusZero

/-- The product of two elements. -/
def MDesc.product (d : MDesc) (x y : Word) : FVal :=
  if mmaLog d.a then logProduct d.a d.b d.oA d.oB x y else ((d.a.value x).mul (d.b.value y)).1

/-- The exact sum of some products; the sign of a zero sum follows the direction (R64). -/
def sumVals (dir : Rnd) : List FVal → FVal
  | [] => plusZero
  | v :: vs => vs.foldl (fun acc x => (acc.add dir x).1) v

/-! ## Draw keys (R66) -/

/-- The direction of a plane under a key: RN in single-lane mode (R67). -/
def keyDir (seed : DWord) (triple : Bool) (tm cm j : Nat) : Rnd :=
  if triple then (if drawBit seed (BitVec.ofNat 32 tm) (BitVec.ofNat 32 cm) j then .ru else .rd) else .rn

def keyT (i n h : Nat) : Nat := i * 512 + n + 2 ^ 20 * h

def keyC (opcount k : Nat) : Nat := opcount % 2 ^ 20 * 2 ^ 12 + k % 2 ^ 12

/-! ## Elements of a handle -/

/-- Planes that an operation computes (R67). -/
def planesOf (triple : Bool) : List Nat := if triple then [0, 1, 2] else [0]

def Elem.plane (x : Elem) (j : Nat) : FVal := Ty.value .a26 ((x.a.getD j 0).setWidth 32)

def Elem.outer (x : Elem) (j : Nat) : Word := x.o.getD j 0

def Elem.zero : Elem := { a := [], o := [] }

/-- Every plane and outer sum is +0. -/
def Elem.isZero (x : Elem) : Bool := x.a.all (fun y => decide (y = 0)) && x.o.all fun y => decide (y = 0)

def Handle.elem (x : Handle) (n : Nat) : Elem := lookupD n Elem.zero x.elems

/-- `acczero`: every element +0 and KC 0; what the handle records stays (R295). -/
def Handle.cleared (x : Handle) : Handle := { x with kc := 0, elems := [] }

/-- A rounded A26 pattern. -/
def a26r (dir : Rnd) (v : FVal) : BitVec 26 := BitVec.ofNat 26 (Ty.ofVal .a26 dir v).1

/-- What one K-step works on for one handle: the draw numbers, the K-step, and whether it promotes. -/
structure KStep where
  seed : DWord
  triple : Bool
  opcount : Nat
  k : Nat
  h : Nat
  row0 : Nat
  col0 : Nat
  promote : Bool
deriving DecidableEq, Repr

/-- One plane of one element after a K-step with the given products (R64). -/
def KStep.plane (x : KStep) (e : Elem) (i n j : Nat) (products : List FVal) : BitVec 26 × Word :=
  let tm := keyT (x.row0 + i) (x.col0 + n) x.h
  let cm := keyC x.opcount x.k
  let dir := keyDir x.seed x.triple tm cm j
  let a := a26r dir ((e.plane j).add dir (sumVals dir products)).1
  if x.promote then
    let pdir := keyDir x.seed x.triple (tm + 2 ^ 25) cm j
    (0, (f32r pdir ((f32v (e.outer j)).add pdir (Ty.value .a26 (a.setWidth 32))).1).1)
  else (a, e.outer j)

/-- The words of A that a handle's row uses for one K-step, by plane: the elements in ascending k. -/
def MDesc.aRow (d : MDesc) (frag : List Triple) (i k : Nat) : List Triple :=
  let row := (frag.drop (i * d.rowWords)).take d.rowWords
  (List.range d.ks).map fun t =>
    let kk := k * d.ks + t
    let w := row.getD (kk / d.perWord) (.all 0)
    w.map fun x => d.a.elem x (kk % d.perWord)

/-- Elements of B from packed bytes (R44, R45, R289). -/
def MDesc.bElems (d : MDesc) (bytes : List Byte) (n : Nat) : List Word :=
  let x := leNat bytes
  (List.range n).map fun e => BitVec.ofNat 32 (x / 2 ^ (d.b.width * e) % 2 ^ d.b.width)

/-- An I8 element as a number. -/
def i8Val (w : Word) : Int := (w.setWidth 8).toInt

/-- One element after a K-step. `a` is its row of A and `b` its column of B (R64, R68). -/
def KStep.elem (x : KStep) (d : MDesc) (e : Elem) (i n : Nat) (a : List Triple) (b : List Word) : Elem :=
  if d.acc = .i32 then
    let s := ((a.zip b).map fun y => i8Val y.1.s0 * i8Val y.2).sum
    { a := [], o := [BitVec.ofInt 32 ((e.outer 0).toInt + s)] }
  else
    let ps := (planesOf x.triple).map fun j => x.plane e i n j ((a.zip b).map fun y => d.product (y.1.get j) y.2)
    { a := ps.map fun y => y.1, o := ps.map fun y => y.2 }

/-- A handle after a K-step: `bRows` are the K-step's rows of B for the handle's columns. -/
def KStep.handle (x : KStep) (d : MDesc) (hd : Handle) (frag : List Triple) (bRows : List (List Word)) : Handle :=
  let cols := (List.range 64).map fun n => bRows.map fun r => r.getD n 0
  let elems := (List.range 64).map fun i =>
    let a := d.aRow frag (x.row0 + i) x.k
    (List.range 64).filterMap fun n =>
      let e := x.elem d (hd.elem (64 * i + n)) i n a (cols.getD n [])
      if e.isZero then none else some (64 * i + n, e)
  { hd with
    kc := hd.kc + 1
    row0 := x.row0
    col0 := x.col0
    lastOp := x.opcount
    lastK := x.k
    elems := elems.flatten }

/-- A handle as an operation's first K-step finds it: cleared where the accumulator type changes; the operation's types
are recorded (R291). -/
def Handle.begin (hd : Handle) (d : MDesc) : Handle :=
  let h := if hd.acc = d.tAcc then hd else hd.cleared
  { h with
    acc := d.tAcc
    res := d.tRes
    ores := d.oR }

/-! ## Results (R62, R65, R293, R296) -/

/-- The exact value of an element in a plane; a zero sum takes its sign from the direction. -/
def Elem.value (x : Elem) (j : Nat) (dir : Rnd) : FVal := ((f32v (x.outer j)).add dir (x.plane j)).1

/-- A value as a result type under a log offset. -/
def resultCode (t : Ty) (dir : Rnd) (o : Int) (v : FVal) : Nat :=
  match v with
  | .nan _ => t.nan
  | .inf neg => (t.infinity neg).1
  | .fin x => (t.round dir o x).1

def Handle.isInt (hd : Handle) : Bool := decide (tyOf hd.acc = .i32)

def Handle.oR (hd : Handle) : Int := hd.ores.toInt

/-- The conversion direction of an element's plane: the conversion key of R66, or RN in single-lane mode. -/
def Handle.dir (hd : Handle) (seed : DWord) (triple : Bool) (n j : Nat) : Rnd :=
  keyDir seed triple (keyT (hd.row0 + n / 64) (hd.col0 + n % 64) hd.h + 2 ^ 26) (keyC hd.lastOp hd.lastK) j

/-- An I32 accumulator as a result (R68). -/
def intResult (t : Ty) (w : Word) : Word :=
  if t = .i8 then BitVec.ofNat 32 (Ty.pattern .i8 (clamp (-128) 127 w.toInt).1) else w

/-- An element converted to a type in every sibling. -/
def Handle.read (hd : Handle) (seed : DWord) (triple : Bool) (t : Ty) (o : Int) (n : Nat) : Triple :=
  let e := hd.elem n
  if hd.isInt then .all (intResult t (e.outer 0))
  else
    let w := fun (j : Nat) =>
      let dir := hd.dir seed triple n j
      BitVec.ofNat 32 (resultCode t dir o (e.value j dir))
    if triple then .ofFn w else .all (w 0)

/-- `accrd`: F32, or the integer (R294). -/
def Handle.snapshot (hd : Handle) (seed : DWord) (triple : Bool) (n : Nat) : Triple :=
  hd.read seed triple (if hd.isInt then .i32 else .f32) 0 n

/-- `accst` (R296): the recorded result type and offset. -/
def Handle.result (hd : Handle) (seed : DWord) (triple : Bool) (n : Nat) : Triple :=
  hd.read seed triple (tyOf hd.res) hd.oR n

/-- The mean of the planes rounded once to nearest even (R296, TRIPLE 0). -/
def Handle.mean (hd : Handle) (triple : Bool) (n : Nat) : Nat :=
  let e := hd.elem n
  let t := tyOf hd.res
  if hd.isInt then (intResult t (e.outer 0)).toNat
  else
    let v := fun (j : Nat) => e.value j .rn
    resultCode t .rn hd.oR (if triple then ((((v 0).add .rn (v 1)).1).add .rn (v 2)).1.third else v 0)

/-- The bytes of packed codes of a type (R44, R45). -/
def packCodes (t : Ty) (codes : List Nat) : List Byte :=
  let x := codes.foldr (fun c acc => c % 2 ^ t.width + 2 ^ t.width * acc) 0
  leBytes (codes.length * t.width / 8) x

/-- One row of the memory form. -/
def Handle.rowBytes (hd : Handle) (seed : DWord) (triple asTriples : Bool) (r : Nat) : List Byte :=
  let ns := (List.range 64).map fun n => 64 * r + n
  if asTriples then
    let t := tyOf hd.res
    (ns.map fun n => tripleBytes ((hd.result seed triple n).map fun w =>
      if t.width = 32 then w else w &&& BitVec.ofNat 32 (2 ^ t.width - 1))).flatten
  else packCodes (tyOf hd.res) (ns.map (hd.mean triple))

/-- Bytes of a row of the memory form. -/
def rowLength (t : Ty) (asTriples : Bool) : Nat := if asTriples then 768 else 8 * t.width

end Sys2Proof.Machine
end

