-- ==== Sys2Proof/Machine/Matrix.lean ====
section
/-! DEFINITION. The matrix engine: handles (R260 to R264), signing sets (R265 to R270), the reservation table, passes and
the arbiter (R271 to R273), the lantern (R274, R275), the handle order (R276, R277, R297) and their instructions (R286 to
R299). -/

namespace Sys2Proof.Machine

/-! ## Handles -/

/-- A handle as placement leaves it (R261): F32 recorded with offset 0 (R296). -/
def Handle.fresh (slot bid h : Nat) : Handle :=
  { slot := slot, bid := bid, h := h, kc := 0, acc := 6, res := 0, ores := 0, row0 := 0, col0 := 0, lastOp := 0, lastK := 0,
    elems := [] }

/-- The cluster whose engine holds a handle of a block. -/
def Block.handleCl (b : Block) (h : Nat) : Nat := (b.handles.getD h (0, 0)).1

/-- The clusters whose engines hold some handles. -/
def Block.clustersOf (b : Block) (hs : List Nat) : List Nat := (hs.map b.handleCl).eraseDups

/-- The clusters of every handle of a block. -/
def Block.engines (b : Block) : List Nat := b.clustersOf (List.range b.handles.length)

/-- The first cluster of a block (R214). -/
def Block.firstCl (b : Block) : Nat := b.cores.headD 0 / 4

def Cluster.handle (c : Cluster) (bid h : Nat) : Handle :=
  (c.handles.find? fun x => x.bid = bid && x.h = h).getD (Handle.fresh 0 bid h)

def State.handle (s : State) (b : Block) (h : Nat) : Handle := (s.cluster b.die (b.handleCl h)).handle b.bid h

def State.setHandle (s : State) (b : Block) (x : Handle) : State :=
  let c := s.cluster b.die (b.handleCl x.h)
  s.setCluster { c with handles := putBy (fun y => y.bid = x.bid && y.h = x.h) x c.handles }

/-! ## The handle order (R276, R297) -/

/-- An entry has still something to do on a handle. -/
def REntry.on (x : REntry) (bid h : Nat) : Bool :=
  decide (x.bid = bid) && x.handles.any fun y => decide (y.1 = h) && (match x.desc with
    | some d => decide (y.2 < d.steps)
    | none => true)

/-- An operation issued and not yet in every table (R268). -/
def SignReg.pendingOn (x : SignReg) (b : Block) (h : Nat) : Bool :=
  decide (x.st = .pending) && decide (x.bid = b.bid) && decide (b.handleCl h ∈ x.toEnter) && (match x.desc with
    | some d => decide (h ∈ d.tile)
    | none => false)

/-- Something issued before `ord` still stands before it on a handle. -/
def State.before (s : State) (b : Block) (h ord : Nat) : Bool :=
  ((s.cluster b.die (b.handleCl h)).table.any fun x => x.on b.bid h && decide (x.opId < ord)) ||
    (s.cluster b.die b.firstCl).signs.any fun x => x.pendingOn b h && decide (x.opId < ord)

/-- The bytes of a whole handle in block shared memory (R296). -/
def State.storeHandle (s : State) (b : Block) (g : Grid) (h base stride : Nat) (triple : Bool) : State :=
  let hd := s.handle b h
  let rows := (List.range 64).map fun r => (base + r * stride, hd.rowBytes g.lr.seed b.triple triple r)
  let n := (rows.map fun x => (x.2.length + 31) / 32).sum
  (s.writeShared b.bid (rows.map fun x => (upFrom x.1 x.2.length).zip x.2).flatten).charge g.tag 5 n

/-- An accumulator instruction takes effect in its place (R295 to R297). -/
def State.applyAcc (s : State) (b : Block) (g : Grid) (h : Nat) (k : OrderKind) : State :=
  match k with
  | .op | .accwait => s
  | .acczero => s.setHandle b (s.handle b h).cleared
  | .accst dst wid pid =>
    let hd := s.handle b h
    dst.foldl (fun s x => s.addParts wid pid x.1 (.v x.2.1) [hd.result g.lr.seed b.triple x.2.2]) s
  | .accstSh base stride triple => s.storeHandle b g h base stride triple

/-- An accumulator instruction enters the order of its handle: applied at once where nothing stands before it. -/
def State.enterAcc (s : State) (b : Block) (g : Grid) (h id : Nat) (k : OrderKind) : State :=
  if s.before b h id then
    let c := s.cluster b.die (b.handleCl h)
    let x : REntry :=
      { id := id, opId := id, kind := k, bid := b.bid, desc := none, opcount := 0, frag := [], handles := [(h, 0)], rr := 0,
        prio := g.lr.prio, entered := s.now, triple := b.triple, blocked := false, tag := g.tag, poisoned := false }
    s.setCluster { c with table := c.table ++ [x] }
  else s.applyAcc b g h k

/-- A waiting accumulator instruction whose turn has come takes effect. -/
def State.tryAcc (s : State) (d cl : Nat) (x : REntry) : State :=
  match s.block? x.bid, x.handles with
  | some b, (h, _) :: _ =>
    match s.grid? b.gid with
    | some g =>
      if x.kind ≠ .op && !x.saved && !s.before b h x.opId then
        let c := s.cluster d cl
        (s.setCluster { c with table := c.table.erase x }).applyAcc b g h x.kind
      else s
    | none => s
  | _, _ => s

/-- Every waiting accumulator instruction tested, in order. -/
def State.settleAcc (s : State) : State :=
  s.clusters.foldl (fun s c => (s.cluster c.die c.cl).table.foldl (fun s x => s.tryAcc c.die c.cl x) s) s

/-- Some part of an operation, or an entry of a handle order, is not complete. -/
def State.opAlive (s : State) (n : Nat) : Bool :=
  s.clusters.any fun c => (c.table.any fun x => decide (x.opId = n)) ||
    c.signs.any fun x => decide (x.st = .pending) && decide (x.opId = n)

/-! ## Sign registers (R265) -/

/-- A register that nothing has used. -/
def SignReg.blank (q : Nat) : SignReg :=
  { q := q, st := .free, bid := 0, expect := 0, desc := none, signers := [], opcount := 0, opId := 0, toEnter := [], frag := [],
    latch := none }

def State.sign (s : State) (d cl q : Nat) : SignReg :=
  ((s.cluster d cl).signs.find? fun x => x.q = q && !x.saved).getD (SignReg.blank q)

def State.setSign (s : State) (d cl : Nat) (x : SignReg) : State :=
  let c := s.cluster d cl
  s.setCluster { c with signs := putBy (fun y => y.q = x.q && !y.saved) x c.signs }

/-- A FREE register becomes OPEN for a block; another block's latch is emptied (R265, R270). -/
def SignReg.opened (x : SignReg) (bid count : Nat) : SignReg :=
  { SignReg.blank x.q with
    st := .openSet
    bid := bid
    expect := count
    latch := match x.latch with
      | some l => if l.1 = bid then some l else none
      | none => none }

/-- Every thread of a list takes the FIELD trap. -/
def State.fieldAll (s : State) (e : Env) (ps : List Thread) : State := ps.foldl (fun s t => e.illegal s t subField) s

/-- QDECL (R265, R287): of those of one cycle, in the key order of R218. -/
def execQdecl (c : Ctl) (q : Nat) (b : Src) (s : State) : Out :=
  .next (issue { (Form.short c b.opds []).noA with keyed := true } noHold (fun e s =>
    let ps := e.parts c
    match ps with
    | [] => s
    | t :: _ =>
      let n := (e.src s t .zero b).s0.toNat
      let cl := e.b.firstCl
      let r := s.sign e.w.die cl q
      if n = 0 ∨ 1024 < n ∨ e.b.handles = [] then s.fieldAll e ps
      else if r.st = .free then s.setSign e.w.die cl (r.opened e.b.bid n)
      else if r.bid = e.b.bid then s.fieldAll e ps
      else
        let (id, s1) := s.newId
        ps.foldl (fun s' t => s'.updThread e.w.wid t.idx fun u => u.block (.qdecl q n id t.pc t.cl)) s1) s)

/-! ## Signing (R266, R290, R291) -/

/-- The descriptor that a word reads at issue (R289). -/
def Env.mdesc (e : Env) (s : State) (t : Thread) (desc : Nat) (tA tB tAcc tRes : BitVec 4) : MDesc :=
  let w := fun (i : Nat) => e.read0 s t (.s (8 * desc + i))
  { tA := tA, tB := tB, tAcc := tAcc, tRes := tRes, w0 := w 0, w1 := w 1, w2 := w 2, w3 := w 3 }

/-- The type fields as they stand in the word. -/
def typesOnly (tA tB tAcc tRes : BitVec 4) : MDesc :=
  { tA := tA, tB := tB, tAcc := tAcc, tRes := tRes, w0 := 0, w1 := 0, w2 := 0, w3 := 0 }

/-- The sign register is OPEN for the signer's block (R266). -/
def State.signOpen (s : State) (e : Env) (q : Nat) : Bool :=
  let r := s.sign e.w.die e.b.firstCl q
  decide (r.st = .openSet) && decide (r.bid = e.b.bid)

/-- The first failing check of the word, as code, subcode and half, whatever the predicate (R86, R290 steps 1 to 4): types,
descriptor, shape, register bounds. -/
def State.mmaFail (s : State) (e : Env) (q a desc : Nat) (x : MDesc) : Option (Nat × Nat × Bool) :=
  let r := s.sign e.w.die e.b.firstCl q
  let mine := s.signOpen e q
  if (typesOnly x.tA x.tB x.tAcc x.tRes).typesBad then some (0, subMatrixType, false)
  else if e.w.s.length < 8 * desc + 4 then some (1, 0, false)
  else if x.valuesBad then some (0, subField, false)
  else if x.shapeBad e.b.shBytes || (mine && x.fragBad r.expect) then some (0, subShape, false)
  else if e.b.handles.length < x.base + x.mt * x.nt || (mine && decide (e.w.vregs < a + x.share r.expect)) then some (1, 0, false)
  else none

/-- The first failing check of a signer, as code and subcode (R266, R290 step 5). -/
def State.signFail (s : State) (e : Env) (t : Thread) (q : Nat) (x : MDesc) : Option (Nat × Nat) :=
  let r := s.sign e.w.die e.b.firstCl q
  if !s.signOpen e q then some (0, subField)
  else if r.signers.any fun y => y.wid = e.w.wid && y.thr = t.idx then some (0, subField)
  else
    match r.desc with
    | none => none
    | some f =>
      if f.tA ≠ x.tA ∨ f.tB ≠ x.tB ∨ f.tAcc ≠ x.tAcc ∨ f.tRes ≠ x.tRes then some (0, subMatrixType)
      else if f ≠ x then some (0, subShape)
      else none

/-- The latch serves an operation: the same block, A type, M and K (R270). -/
def SignReg.latched (r : SignReg) (bid : Nat) (x : MDesc) : Option (List Triple) :=
  match r.latch with
  | some (b, tA, m, k, words) => if b = bid ∧ tA = x.tA ∧ m = x.mt ∧ k = x.k then some words else none
  | none => none

/-- Entries of a reservation table. -/
def tableRoom : Nat := 64

/-- The operations in an engine's table; saved ones are in the bivouac area. -/
def Cluster.parts (c : Cluster) : Nat := (c.table.filter fun x => decide (x.kind = .op) && !x.saved).length

/-- One part of an operation enters an engine's table (R271). -/
def State.enterPart (s : State) (b : Block) (g : Grid) (r : SignReg) (x : MDesc) (cl : Nat) : State :=
  let (id, s1) := s.newId
  let c := s1.cluster b.die cl
  let e : REntry :=
    { id := id, opId := r.opId, kind := .op, bid := b.bid, desc := some x, opcount := r.opcount, frag := r.frag,
      handles := (x.tile.filter fun h => b.handleCl h = cl).map fun h => (h, 0), rr := 0, prio := g.lr.prio,
      entered := s.now, triple := b.triple, blocked := false, tag := g.tag, poisoned := false }
  s1.setCluster { c with table := c.table ++ [e] }

/-- Every part that finds room enters; the register is FREE once all have, else PENDING (R268). -/
def State.enterParts (s : State) (b : Block) (g : Grid) (r : SignReg) (x : MDesc) : State :=
  let room := fun (cl : Nat) => decide ((s.cluster b.die cl).parts < tableRoom)
  let s1 := (r.toEnter.filter room).foldl (fun s cl => s.enterPart b g r x cl) s
  let left := r.toEnter.filter fun cl => !room cl
  s1.setSign b.die b.firstCl
    (if left = [] then { SignReg.blank r.q with bid := r.bid, latch := r.latch }
    else { r with st := .pending, toEnter := left })

/-- The completed set issues its operation (R268). -/
def State.issueOp (s : State) (b : Block) (g : Grid) (r : SignReg) (x : MDesc) : State :=
  let (id, s1) := s.newId
  let ranked := sortOn (fun y => y.t.toNat) r.signers
  let frag := match r.latched b.bid x with
    | some words => words
    | none => (ranked.map fun y => y.frag).flatten
  let opcount := match s.block? b.bid with
    | some b => b.mopcnt
    | none => 0
  let pids := r.signers.map fun y => y.pid
  let s2 := s1.updBlock b.bid fun b => { b with mopcnt := b.mopcnt + 1 }
  let numbered := fun (p : Pend) => if p.id ∈ pids then { p with wait := .matrix id } else p
  let s3 := { s2 with warps := mapIf (fun w => w.bid = b.bid) (fun w => { w with pend := w.pend.map numbered }) s2.warps }
  s3.enterParts b g
    { r with
      opcount := opcount.toNat
      opId := id
      toEnter := b.clustersOf x.tile
      frag := frag
      signers := []
      latch := if r.signers.all fun y => y.reuse then some (b.bid, x.tA, x.mt, x.k, frag) else none } x

/-- The signer's instruction becomes outstanding with its first signing thread, and gains the later ones. -/
def State.joinPend (s : State) (e : Env) (pid flag : Nat) (t : Thread) : State :=
  let trap := (t.idx, e.record t 6 0)
  match s.warp? e.w.wid with
  | none => s
  | some w =>
    if w.pend.any fun p => p.id = pid then
      let more := fun (p : Pend) => { p with thrs := p.thrs ++ [t.idx], traps := p.traps ++ [trap] }
      s.updWarp e.w.wid fun w => { w with pend := mapIf (fun p => p.id = pid) more w.pend }
    else
      s.addPend e.w.wid
        { id := pid, flag := flag, wait := .matrix 0, parts := [], sparts := [], preds := [], thrs := [t.idx], epoch := none,
          sample := none, traps := [trap] }

/-- One thread signs (R291). -/
def State.signOne (s : State) (e : Env) (s0 : State) (c : Ctl) (q a pid : Nat) (x : MDesc) (t : Thread) : State :=
  let cl := e.b.firstCl
  let r := s.sign e.w.die cl q
  let regs := (r.latched e.b.bid x).isNone
  let frag := if regs then (vrun a (x.share r.expect)).map fun o => e.read s0 t o else []
  let y : Signer := { wid := e.w.wid, thr := t.idx, t := e.tnum t, pid := pid, reuse := c.reuse, frag := frag }
  let r1 := { r with desc := some x, signers := r.signers ++ [y] }
  let s1 := s.joinPend e pid (e.flagOf c) t
  if r1.signers.length = r.expect then s1.issueOp e.b e.g r1 x else s1.setSign e.w.die cl r1

/-- A signer's fragment holds a poisoned register (R439). -/
def State.fragPoisoned (s : State) (e : Env) (t : Thread) (q a : Nat) (x : MDesc) : Bool :=
  let r := s.sign e.w.die e.b.firstCl q
  (r.latched e.b.bid x).isNone &&
    t.poison.any fun k => decide (a ≤ k / 3) && decide (k / 3 < a + x.share r.expect)

/-- What issue looks at for an `mma`: its operation enters a handle's order before the accumulator instructions of its
cycle (R297). -/
def State.mmaForm (s : State) (c : Ctl) (q a desc : Nat) (tA tB tAcc tRes : BitVec 4) : Form :=
  { Form.longLat c [] [] with
    first := true
    bad := fun e t => s.mmaFail e q a desc (e.mdesc s t desc tA tB tAcc tRes) }

/-- MMA: each participant signs or traps (R290). Signing is a release (R269). -/
def execMma (c : Ctl) (q a desc : Nat) (tA tB tAcc tRes : BitVec 4) (s : State) : Out :=
  .next (issue (s.mmaForm c q a desc tA tB tAcc tRes) (holdRelease c) (fun e s =>
    let (pid, s1) := s.newId
    (e.parts c).foldl (fun s' t =>
      let x := e.mdesc s t desc tA tB tAcc tRes
      match s'.signFail e t q x with
      | some (code, sub) => e.trapBefore s' t (e.record t code sub)
      | none =>
        if s'.fragPoisoned e t q a x then e.trapBefore s' t (e.record t 6 0)
        else s'.signOne e s c q a pid x t) s1) s)

/-- SIGNSET_PENDING_ENTRY (R268): a pending operation enters the tables that have room. -/
def execSignsetPendingEntry (d cl q : Nat) (s : State) : Out :=
  let r := s.sign d cl q
  match r.desc, s.block? r.bid with
  | some x, some b =>
    match s.grid? b.gid with
    | some g => if r.st = .pending then .next (s.enterParts b g r x) else .next s
    | none => .next s
  | _, _ => .next s

/-! ## Passes (R272, R273, R275) -/

/-- The handle that an entry serves next: the first eligible in ascending order from the one after the last served. -/
def State.nextHandle (s : State) (x : REntry) : Option Nat :=
  match s.block? x.bid, x.desc with
  | some b, some d =>
    let hs := (x.handles.filter fun y => decide (y.2 < d.steps) && !s.before b y.1 x.opId).map fun y => y.1
    (hs.find? fun h => x.rr ≤ h).or hs.head?
  | _, _ => none

/-- The lantern lets an entry through. -/
def State.lanternLets (s : State) (c : Cluster) (x : REntry) : Bool :=
  match c.lantern with
  | none => true
  | some (wid, _, _) => match s.warp? wid with
    | some w => decide (w.bid = x.bid)
    | none => true

/-- Rank of an entry at the arbiter: class, entry cycle, operation number, place in the table. -/
def REntry.rank (x : REntry) : Nat :=
  (((3 - min x.prio 3) * 2 ^ 64 + x.entered) * 2 ^ 32 + x.opcount % 2 ^ 32) * 2 ^ 64 + x.id

/-- The entries that may be granted a pass. -/
def State.grantable (s : State) (c : Cluster) : List REntry :=
  c.table.filter fun x => decide (x.kind = .op) && !x.saved && !x.blocked && s.lanternLets c x && (s.nextHandle x).isSome

/-- The pass that the arbiter chooses (R273). -/
def State.choosePass (s : State) (c : Cluster) : Option Pass :=
  (leastOn REntry.rank (s.grantable c)).bind fun x => (s.nextHandle x).map fun h =>
    { entry := x.id, h := h, left := min 16 ((x.desc.map MDesc.steps).getD 0 - lookupD h 0 x.handles) }

/-- MATRIX_PASS_START: an engine without a running pass starts the one chosen. -/
def execMatrixPassStart (d cl : Nat) (s : State) : Out :=
  let c := s.cluster d cl
  match c.pass, s.choosePass c with
  | none, some p =>
    .next (s.setCluster { c with
      pass := some p
      table := mapIf (fun x => x.id = p.entry) (fun x => { x with rr := p.h + 1 }) c.table })
  | _, _ => .next s

/-! ## K-steps (R64, R291, R292) -/

/-- The offset of the K-step's row `r` of B for a handle. -/
def MDesc.bRowAt (x : MDesc) (h k r : Nat) : Nat := x.bOff + (k * x.ks + r) * x.bStride + x.bBytes (x.col0 h)

/-- A row of B in the die scratchpad: its addresses, or the offset that faults (R292). -/
def State.bPhys (s : State) (b : Block) (x : REntry) (off n : Nat) : Except Nat (List Nat) :=
  match s.agentSpan b.die x.tag off n false with
  | some l => .ok l
  | none => .error off

/-- The addresses of the rows of B of one K-step, none where B lies in block shared memory. -/
def State.bRows (s : State) (b : Block) (x : REntry) (d : MDesc) (h k : Nat) : Except Nat (List (List Nat)) :=
  if d.bShared then .ok []
  else (List.range d.ks).mapM fun r => s.bPhys b x (d.bRowAt h k r) (d.bBytes 64)

/-- The rows of B of one K-step: elements, and whether some were poisoned. -/
def State.bData (s : State) (b : Block) (x : REntry) (d : MDesc) (h k : Nat) (phys : List (List Nat)) :
    List (List Word) × Option Nat :=
  if d.bShared then
    let offs := (List.range d.ks).map fun r => d.bRowAt h k r
    let bytes := (offs.map fun o => upFrom o (d.bBytes 64)).flatten
    (offs.map fun o => d.bElems (s.sharedBytes b o (d.bBytes 64)) 64,
      (bytes.find? fun a => decide (a / 32 * 32 ∈ b.shPoison)).map fun a => 0xE00000000000 + a)
  else
    let byte := fun (a : Nat) => if s.lineTag a = x.tag then s.mem.read a else 0
    let bad := ((List.range phys.length).zip phys).findSome? fun r =>
      (s.poisonedAt r.2).bind fun a => (r.2.findIdx? fun y => y = a).map fun i => 0xC00000000000 + d.bRowAt h k r.1 + i
    (phys.map fun l => d.bElems (l.map byte) 64, bad)

/-- The energy of a K-step: its class, its promotion, and its reads of B. -/
def State.chargeKstep (s : State) (x : REntry) (d : MDesc) (cl : Nat) (promote : Bool) (phys : List (List Nat)) : State :=
  let sectors := sectorsOf phys.flatten
  let own := (sectors.filter fun y => homeOf (y * 32) = cl).length
  let k := if d.ks = 32 then 14 else if d.ks = 16 then 15 else 16
  let s1 := (s.charge x.tag k 1).charge x.tag 17 (if promote then 1 else 0)
  let s2 := if d.bShared then s1.charge x.tag 5 (d.ks * ((d.bBytes 64 + 31) / 32)) else s1
  (s2.charge x.tag 7 own).charge x.tag 8 (sectors.length - own)

/-- An operation has met poison: its signers will trap when their flags fall (R292). -/
def State.poisonOp (s : State) (x : REntry) (a : Nat) : State :=
  let mark := fun (p : Pend) =>
    if p.wait = .matrix x.opId then
      { p with poisoned := true, traps := p.traps.map fun y => (y.1, { y.2 with addr := BitVec.ofNat 48 a }) }
    else p
  { s with warps := mapIf (fun w => w.bid = x.bid) (fun w => { w with pend := w.pend.map mark }) s.warps }

/-- The entry and the pass after one K-step; an entry whose every handle is done leaves the table. -/
def Cluster.afterKstep (c : Cluster) (x : REntry) (p : Pass) (steps : Nat) : Cluster :=
  let hs := x.handles.map fun y => if y.1 = p.h then (y.1, y.2 + 1) else y
  let overflowed := hs.all fun y => decide (steps ≤ y.2)
  { c with
    pass := if p.left ≤ 1 then none else some { p with left := p.left - 1 }
    table := if overflowed then c.table.erase x else mapIf (fun y => y.id = x.id) (fun y => { y with handles := hs }) c.table }

/-- A part stops at an unmapped page of B and the engine reports (R292). -/
def State.stopPart (s : State) (d cl : Nat) (x : REntry) (off : Nat) : State :=
  let c := s.cluster d cl
  (s.setCluster { c with
    pass := none
    table := mapIf (fun y => y.id = x.id) (fun y => { y with blocked := true }) c.table }).send
      (.matrixFault d cl x.id (0xC00000000000 + off))

/-- One K-step of a pass. -/
def State.kstep (s : State) (die cl : Nat) (p : Pass) (x : REntry) (b : Block) (g : Grid) (d : MDesc) : State :=
  let k := lookupD p.h 0 x.handles
  match s.bRows b x d p.h k with
  | .error off => s.stopPart die cl x off
  | .ok phys =>
    if !(s.blockedLines die none phys.flatten).isEmpty then s
    else
      let sc := s.scrub die phys.flatten
      let promote := decide (d.acc = .a26) && (decide ((k + 1) % d.p = 0) || decide (k + 1 = d.steps))
      let ks : KStep :=
        { seed := g.lr.seed, triple := x.triple, opcount := x.opcount, k := k, h := p.h, row0 := d.row0 p.h, col0 := d.col0 p.h,
          promote := promote }
      let data := sc.bData b x d p.h k phys
      let hd := sc.handle b p.h
      let new := ks.handle d (if k = 0 then hd.begin d else hd) x.frag data.1
      let s1 := (sc.recall die none (linesOf phys.flatten) false).setHandle b new
      let s2 := (s1.setCluster ((s1.cluster die cl).afterKstep x p d.steps)).chargeKstep x d cl promote phys
      match data.2 with
      | some a => s2.poisonOp x a
      | none => s2

/-- MATRIX_KSTEP: one K-step of the running pass. -/
def execMatrixKstep (die cl : Nat) (s : State) : Out :=
  let c := s.cluster die cl
  match c.pass with
  | none => .next s
  | some p =>
    match c.table.find? fun x => x.id = p.entry with
    | none => .next (s.setCluster { c with pass := none })
    | some x =>
      match s.block? x.bid, x.desc with
      | some b, some d =>
        match s.grid? b.gid with
        | some g => .next (s.kstep die cl p x b g d)
        | none => .next s
      | _, _ => .next s

/-- MATRIX_PART_RESUME (R292): the runtime has mapped the page and the part continues from its K-step. -/
def execMatrixPartResume (d cl entry : Nat) (s : State) : Out :=
  let c := s.cluster d cl
  .next (s.setCluster { c with table := mapIf (fun x => x.id = entry) (fun x => { x with blocked := false }) c.table })

/-! ## Accumulator instructions (R293 to R297) -/

/-- What issue looks at: a handle at or beyond the block's count raises the register-bounds trap (R262). -/
def accForm (c : Ctl) (t : Nat) (src dst : List Opd) : Form :=
  { Form.longLat c src dst with bad := fun e _ => if e.b.handles.length ≤ t then some (1, 0, false) else none }

/-- The elements of a run from an index register (R293). -/
def runFrom (e : Word) (run : BitVec 2) : List Nat :=
  (List.range (2 ^ run.toNat)).map fun j => ((e.toNat % 4096) + j) % 4096

/-- ACCRD: a snapshot for the whole issue (R277, R294). -/
def execAccrd (c : Ctl) (d vc t : Nat) (run : BitVec 2) (s : State) : Out :=
  .next (issue (accForm c t [.v vc] (vrun d (2 ^ run.toNat) ++ [.v vc])) noHold (fun e s =>
    let ps := e.parts c
    if ps.isEmpty then s
    else
      let hd := s.handle e.b t
      let (pid, s1) := s.newId
      let parts := (ps.map fun u =>
        let es := runFrom (e.read0 s u (.v vc)) run
        (destParts u.idx (.v d) (es.map (hd.snapshot e.g.lr.seed e.triple))).1 ++ (destParts u.idx (.v vc) [.all hd.kc]).1).flatten
      (s1.addPend e.w.wid
        { id := pid, flag := e.flagOf c, wait := .ready, parts := parts, sparts := [], preds := [], thrs := ps.map fun u => u.idx,
          epoch := none, sample := none }).charge e.g.tag 18 ps.length) s)

/-- An accumulator instruction that takes its place in the order of a handle: by the key order of R218 among those of its
cycle (R297). -/
def accWord (c : Ctl) (t : Nat) (src dst : List Opd) (n : List Thread → Nat)
    (kind : Env → State → List Thread → Nat → OrderKind) : State → State :=
  issue { accForm c t src dst with keyed := true } noHold fun e s =>
    let ps := e.parts c
    if ps.isEmpty then s
    else
      let (id, s1) := s.newId
      let s2 := s1.addPend e.w.wid
        { id := id, flag := e.flagOf c, wait := .matrix id, parts := [], sparts := [], preds := [], thrs := ps.map fun u => u.idx,
          epoch := none, sample := none }
      (s2.enterAcc e.b e.g t id (kind e s ps id)).charge e.g.tag 18 (n ps)

/-- ACCZERO (R295). -/
def execAcczero (c : Ctl) (t : Nat) (s : State) : Out :=
  .next (accWord c t [] [] (fun _ => 0) (fun _ _ _ _ => .acczero) s)

/-- ACCWAIT (R297). -/
def execAccwait (c : Ctl) (t : Nat) (s : State) : Out :=
  .next (accWord c t [] [] (fun _ => 0) (fun _ _ _ _ => .accwait) s)

/-- ACCST, register form (R296). -/
def execAccst (c : Ctl) (d a t : Nat) (run : BitVec 2) (s : State) : Out :=
  .next (accWord c t [.v a] (vrun d (2 ^ run.toNat)) List.length (fun e s ps id =>
    .accst (ps.map fun u =>
      let es := runFrom (e.read0 s u (.v a)) run
      ((List.range es.length).zip es).map fun x => (u.idx, d + x.1, x.2)).flatten e.w.wid id) s)

/-- The extent of the memory form breaks R296. -/
def Env.accstBad (e : Env) (s : State) (t base stride : Nat) (triple : Bool) : Bool :=
  decide (base % 4 ≠ 0) || decide (e.b.shBytes < base + 63 * stride + rowLength (tyOf (s.handle e.b t).res) triple)

/-- ACCST_SH, memory form (R296), once per issue. -/
def execAccstSh (c : Ctl) (a b : Opd) (t : Nat) (triple : Bool) (s : State) : Out :=
  .next (issue { accForm c t [a, b] [] with keyed := true } noHold (fun e s =>
    let ps := e.parts c
    match ps with
    | [] => s
    | u :: _ =>
      let base := (e.read0 s u a).toNat
      let stride := (e.read0 s u b).toNat
      if e.accstBad s t base stride triple then
        ps.foldl (fun s' v => s'.fail e v (Fail.mk' 3 0 (0xE00000000000 + base))) s
      else
        let (id, s1) := s.newId
        let s2 := s1.addPend e.w.wid
          { id := id, flag := e.flagOf c, wait := .matrix id, parts := [], sparts := [], preds := [],
            thrs := ps.map fun v => v.idx, epoch := none, sample := none }
        (s2.enterAcc e.b e.g t id (.accstSh base stride triple)).charge e.g.tag 18 1) s)

/-! ## The lantern (R274, R275, R298, R299) -/

/-- The lantern of the engines of a block set. -/
def State.setLantern (s : State) (b : Block) (x : Option (Nat × List Nat × Option Nat)) : State :=
  b.engines.foldl (fun s cl => s.setCluster { s.cluster b.die cl with lantern := x }) s

/-- The warp that holds the lantern of some engine of a block. -/
def State.lanternBy (s : State) (b : Block) : Option Nat :=
  b.engines.findSome? fun cl => (s.cluster b.die cl).lantern.map fun x => x.1

/-- A warp takes the lanterns of its block's engines: its place in the ring, where it stands there. -/
def State.takeLantern (s : State) (w : Warp) (b : Block) (ring : List Nat) : State :=
  s.setLantern b (some (w.wid, ring, ring.findIdx? fun i => i = w.index))

/-- A warp of a block with a thread that has not ended. -/
def State.liveWarp (s : State) (bid index : Nat) : Option Warp :=
  s.warps.find? fun w => w.bid = bid && w.index = index && w.threads.any fun t => t.st ≠ .ended

/-- A warp index within a block exists. -/
def State.warpNamed (s : State) (bid index : Nat) : Bool := s.warps.any fun w => w.bid = bid && w.index = index

/-- LANTTAKE (R298). -/
def execLanttake (c : Ctl) (a : Nat) (len : BitVec 3) (s : State) : Out :=
  let n := len.toNat + 1
  .next (issue (Form.short c ((List.range ((n + 1) / 2)).map fun i => Opd.s (a + i)) []) noHold (fun e s =>
    let ps := e.parts c
    match ps with
    | [] => s
    | t :: _ =>
      let ring := (List.range n).map fun k =>
        ((e.read0 s t (.s (a + k / 2))).extractLsb' (16 * (k % 2)) 16).toNat
      let holder := s.lanternBy e.b
      if e.b.handles = [] || ring.any (fun i => !s.warpNamed e.b.bid i) || decide (holder = some e.w.wid) then
        s.fieldAll e ps
      else if holder.isNone then s.takeLantern e.w e.b ring
      else
        let (id, s1) := s.newId
        ps.foldl (fun s' t => s'.updThread e.w.wid t.idx fun u => u.block (.lantern ring id t.pc t.cl)) s1) s)

/-- The ring entry after a position whose warp has not ended, cyclically. -/
def State.ringNext (s : State) (bid : Nat) (ring : List Nat) (pos : Option Nat) : Option (Warp × Nat) :=
  let start := match pos with
    | some p => p + 1
    | none => 0
  (List.range ring.length).findSome? fun i =>
    let p := (start + i) % ring.length
    (s.liveWarp bid (ring.getD p 0)).map fun w => (w, p)

/-- The body of `lantpass`: by a warp that does not hold the lantern, FIELD (R274). -/
def lantWord (c : Ctl) (f : Env → State → List Nat → Option Nat → State) : State → State :=
  issue (Form.short c [] []) noHold fun e s =>
    let ps := e.parts c
    if ps.isEmpty then s
    else
      match (e.b.engines.findSome? fun cl => (s.cluster e.b.die cl).lantern) with
      | some (wid, ring, pos) => if wid = e.w.wid then f e s ring pos else s.fieldAll e ps
      | none => s.fieldAll e ps

/-- LANTPASS (R299): to the next of the ring, or released where none remains. -/
def execLantpass (c : Ctl) (s : State) : Out :=
  .next (lantWord c (fun e s ring pos =>
    s.setLantern e.b ((s.ringNext e.b.bid ring pos).map fun x => (x.1.wid, ring, some x.2))) s)

/-- LANTPASS_REL (R299). -/
def execLantpassRel (c : Ctl) (s : State) : Out := .next (lantWord c (fun e s _ _ => s.setLantern e.b none) s)

end Sys2Proof.Machine
end

