-- ==== Sys2Proof/Machine/WarpEvents.lean ====
section
/-! DEFINITION. Steps of the issue logic: lines that arrive for parked threads (R178), the completion of long-latency
instructions (R76, R78), the active sets (R173, R174) and the end of a `yield` (R155). -/

namespace Sys2Proof.Machine

/-! ## Parked threads (R178) -/

/-- A parked thread whose lines the core holds now (R178). -/
def Core.serves (c : Core) (t : Thread) : Bool :=
  match t.st, t.wait with
  | .parked, some (.fetch sectors) => c.holds (sectors.map fun x => x * 32)
  | _, _ => false

/-- The parked threads of a core for which every line has arrived become ELIGIBLE at their loads. -/
def State.wakeParked (s : State) (d core : Nat) : State :=
  let c := s.core d core
  let here := fun (w : Warp) => decide (w.die = d) && decide (w.core = core) && !w.saved
  { s with warps := mapIf here (fun w => { w with threads := mapIf c.serves Thread.release w.threads }) s.warps }

/-- LINE_ARRIVAL: the last line that a parked thread needs arrives, is held for it, and the thread becomes ELIGIBLE at the
load, with every other thread that needed no line but these. Lines that must be waited for have not arrived. -/
def execLineArrival (wid thr : Nat) (s : State) : Out :=
  match s.warp? wid, s.thread? wid thr with
  | some w, some t =>
    match t.st, t.wait with
    | .parked, some (.fetch sectors) =>
      let bytes := sectors.map fun x => x * 32
      if w.saved || !(s.blockedLines w.die w.ownHeld bytes).isEmpty then .next s
      else
        let tag := s.tagOfWarp w
        .next (((s.cacheFill w.die w.core (tag.getD 0) bytes false (some (wid, thr, s.now))).wakeParked w.die w.core).updThread wid thr
          Thread.release)
    | _, _ => .next s
  | _, _ => .next s

/-- Cycles for which a line stays held for a parked thread. -/
def parkedCycles : Nat := 1024

/-- A hold of a line has run out. -/
def holdLapsed (now : Nat) (x : Nat × Nat × Nat) : Bool := decide (x.2.2 + parkedCycles ≤ now)

/-- Some hold of the line has run out. -/
def CLine.lapsed (l : CLine) (now : Nat) : Bool := l.held.any (holdLapsed now)

/-- PARKED_LINE_HOLD_EXPIRY: a line is held no longer for the threads that it has been held for that long. -/
def execParkedLineHoldExpiry (d core : Nat) (s : State) : Out :=
  let c := s.core d core
  if c.lines.any fun l => l.lapsed s.now then
    .next (s.setCore { c with lines := c.lines.map fun l => { l with held := dropIf (holdLapsed s.now) l.held } })
  else .next s

/-! ## Completion (R76, R78) -/

/-- What a register written meanwhile holds once a result is done: for each sibling, that write's value or the result
(R78, log 15). -/
def hazardMix (fresh pid thr reg : Nat) (triple : Bool) (cur new : Triple) : Triple :=
  let pick := fun (j : Nat) => if Config.hazardWrite fresh pid thr reg j then new.get j else cur.get j
  if triple then .ofFn pick else .all (pick 0)

/-- One part of a result written back. -/
def State.writePart (s : State) (wid fresh : Nat) (triple : Bool) (p : Pend) (x : Part) : State :=
  match s.thread? wid x.thr with
  | none => s
  | some t =>
    let v :=
      if (x.thr, x.reg) ∈ p.written then hazardMix fresh p.id x.thr x.reg triple (t.v.getD x.reg (.all 0)) x.val
      else x.val
    (s.writeV wid x.thr x.reg v).retag wid x.reg

/-- One result for a uniform or block register written back. -/
def State.writeSPart (s : State) (w : Warp) (b : Block) (fresh : Nat) (p : Pend) (x : Nat × Word) : State :=
  let key := x.1
  let v := fun (cur : Word) =>
    if key ∈ p.writtenS then (if Config.hazardWrite fresh p.id 0 (640 + key) 0 then x.2 else cur) else x.2
  if key < 256 then s.writeS w.wid key (v (w.s.getD key 0))
  else
    let g := if w.rank = 0 then b.g else lookupD w.rank b.g b.greps
    s.writeG b.bid w.rank w.slot (key - 256) (v (g.getD (key - 256) 0))

/-- A thread that waits for the instruction waits no more. -/
def State.resultDone (s : State) (wid pid : Nat) : State :=
  s.updWarp wid fun w => { w with threads := w.threads.map fun t => if t.wait = some (.result pid) then t.release else t }

/-- The traps that the instruction raises when its flag falls (R292). -/
def State.pendTraps (s : State) (wid : Nat) (p : Pend) : State :=
  if p.poisoned then
    p.traps.foldl (fun s x => match s.thread? wid x.1 with
      | none => s
      | some t => if t.st = .ended then s else s.trap wid x.1 x.2 t.pc t.cl) s
  else s

/-- The instruction completes: its results are written, its flag falls, its record is written (R447), and its traps are
taken. -/
def State.complete (s : State) (w : Warp) (b : Block) (p : Pend) : State :=
  let s0 := s.updWarp w.wid fun w => { w with pend := dropIf (fun q => q.id = p.id) w.pend }
  let s1 := p.parts.foldl (fun s x => s.writePart w.wid s0.fresh b.triple p x) s0
  let s2 := p.sparts.foldl (fun s x => s.writeSPart w b s0.fresh p x) s1
  let s3 := p.preds.foldl (fun s x => s.setPred w.wid x.1 x.2.1 x.2.2) s2
  let s4 := s3.updWarp w.wid fun w => w.lower p.flag
  let s5 := match p.sample with
    | some x => s4.writeSample w.wid x
    | none => s4
  (s5.resultDone w.wid p.id).pendTraps w.wid p

/-- LONG_LATENCY_COMPLETE (R76): an instruction whose every part is done completes. -/
def execLongLatencyComplete (wid pid : Nat) (s : State) : Out :=
  match s.warp? wid with
  | none => .next s
  | some w =>
    match w.pend.find? fun p => p.id = pid, s.block? w.bid with
    | some p, some b => if p.wait = .ready && !w.saved then .next (s.complete w b p) else .next s
    | _, _ => .next s

/-! ## Active sets (R173, R174) -/

/-- The priority class of a warp's launch. -/
def State.prioOf (s : State) (w : Warp) : Nat :=
  match (s.block? w.bid).bind fun b => s.grid? b.gid with
  | some g => g.lr.prio
  | none => 0

/-- A warp that stands in a warp slot of a core, and may become a member of an active set. -/
def Warp.inSlot (w : Warp) : Bool := !w.saved && !w.service

/-- Two warps of one issue slot. -/
def Warp.sameSlot (w x : Warp) : Bool :=
  x.inSlot && decide (x.die = w.die) && decide (x.core = w.core) && decide (x.slot % 8 = w.slot % 8)

def Warp.ready (w : Warp) : Bool := !w.eligible.isEmpty

/-- Members of an active set. -/
def activeRoom : Nat := 8

/-- The members of a warp's issue slot. -/
def State.members (s : State) (w : Warp) : List Warp := s.warps.filter fun x => w.sameSlot x && x.active

/-- The ready warps of a warp's issue slot outside the active set. -/
def State.outside (s : State) (w : Warp) : List Warp := s.warps.filter fun x => w.sameSlot x && !x.active && x.ready

/-- Rank in an issue slot: the class, then the oldest, then the lower slot (R173). -/
def rankKey (prio placed slot : Nat) : Nat := ((3 - min prio 3) * 2 ^ 64 + placed) * 512 + slot

def State.rank (s : State) (w : Warp) : Nat := rankKey (s.prioOf w) w.placed w.slot

/-- The non-member that enters first. -/
def State.nextIn (s : State) (w : Warp) : Option Warp := leastOn s.rank (s.outside w)

/-- A warp leaves the active set: its cache entries are written back and freed. -/
def State.leaveActive (s : State) (w : Warp) : State :=
  let dirty := (w.rcache.filter fun x => x.dirty).length
  (s.updWarp w.wid fun w => { w with active := false, rcache := [], idleSince := none }).charge
    ((s.tagOfWarp w).getD 0) 4 dirty

/-- A warp enters the active set with an empty cache. -/
def State.enterActive (s : State) (wid : Nat) : State :=
  s.updWarp wid fun w => { w with active := true, rcache := [], idleSince := none }

/-- ACTIVE_SET_ENTRY: the first of the ready non-members enters where there is room. -/
def execActiveSetEntry (wid : Nat) (s : State) : Out :=
  match s.warp? wid with
  | none => .next s
  | some w =>
    if w.inSlot && decide ((s.members w).length < activeRoom) && decide ((s.nextIn w).map (fun x => x.wid) = some wid) then
      .next (s.enterActive wid)
    else .next s

/-- Cycles without being ready after which a member may leave. -/
def idleCycles : Nat := 16

/-- A member that has not been ready for 16 cycles while a non-member of its slot is. -/
def State.mayLeave (s : State) (w : Warp) : Bool :=
  w.active && w.inSlot && !w.ready && !(s.outside w).isEmpty &&
    (match w.idleSince with
    | some n => decide (n + idleCycles ≤ s.now)
    | none => false)

/-- ACTIVE_SET_IDLE_LEAVE. -/
def execActiveSetIdleLeave (wid : Nat) (s : State) : Out :=
  match s.warp? wid with
  | none => .next s
  | some w => if s.mayLeave w then .next (s.leaveActive w) else .next s

/-- The youngest member of the lowest class of a full set. -/
def State.victim (s : State) (w : Warp) : Option Warp :=
  leastOn (fun x => (s.prioOf x * 2 ^ 64 + (2 ^ 64 - 1 - min x.placed (2 ^ 64 - 1))) * 512 + (511 - min x.slot 511)) (s.members w)

/-- The member that a non-member displaces from a full set. -/
def State.displaces (s : State) (w : Warp) : Option Warp :=
  if w.inSlot && decide (activeRoom ≤ (s.members w).length) && decide ((s.nextIn w).map (fun x => x.wid) = some w.wid) then
    match s.victim w with
    | some v => if s.prioOf v < s.prioOf w then some v else none
    | none => none
  else none

/-- ACTIVE_SET_DISPLACE. -/
def execActiveSetDisplace (wid victim : Nat) (s : State) : Out :=
  match s.warp? wid with
  | none => .next s
  | some w =>
    match s.displaces w with
    | some v => if v.wid = victim then .next ((s.leaveActive v).enterActive wid) else .next s
    | none => .next s

/-! ## yield (R155) -/

/-- A group's hold is over: 64 cycles have passed, or every warp it lets pass has issued. -/
def yieldOver (now : Nat) (x : List Nat × Nat × List Nat) : Bool := decide (x.2.1 ≤ now) || x.2.2.isEmpty

/-- YIELD_HOLD_EXPIRY: the group of a thread may issue again. -/
def execYieldHoldExpiry (wid thr : Nat) (s : State) : Out :=
  .next (s.updWarp wid fun w =>
    { w with yields := dropIf (fun x => decide (thr ∈ x.1) && yieldOver s.now x) w.yields })

end Sys2Proof.Machine
end

