-- ==== Sys2Proof/Machine/Place.lean ====
section
/-! DEFINITION. Placing a block: what it needs (R90, R209, R215, R261), where it fits (R210, R214, R336, R456), and its
state at the start (R13, R22, R169, R216, R218, R261). -/

namespace Sys2Proof.Machine

/-! ## Footprints -/

/-- Allocated vector and uniform registers (R90). -/
def allocV (n : Nat) : Nat := (n + 7) / 8 * 8

def allocU (n : Nat) : Nat := (n + 15) / 16 * 16

/-- A warp's footprint in the register region, in bytes (R209). -/
def footprint (v u : Nat) : Nat := (96 * v + 4 * u + 127) / 128 * 128

/-- The portion of each of `c` cores of `n` bytes of block shared memory (R215). -/
def portionOf (n c : Nat) : Nat := ((n + c - 1) / c + 1023) / 1024 * 1024

/-- What a block asks for. -/
structure Need where
  threads : Nat
  vregs : Nat
  uregs : Nat
  shBytes : Nat
  handles : Nat
  triple : Bool
deriving DecidableEq, Repr

def Need.warps (x : Need) : Nat := (x.threads + warpThreads x.triple - 1) / warpThreads x.triple

/-- Warps on one rank: warp w stands on rank w mod c (R214). -/
def Need.warpsOn (x : Need) (c r : Nat) : Nat := (x.warps + c - 1 - r) / c

/-- What a core has to give: warp slots, bytes of the register region, bytes of the shared region. -/
structure Room where
  slots : Nat
  regs : Nat
  shared : Nat
deriving DecidableEq, Repr

/-- A block's share for a rank fits (R210). -/
def Need.fits (x : Need) (c r : Nat) (y : Room) : Bool :=
  decide (x.warpsOn c r ≤ y.slots) && decide (x.warpsOn c r * footprint x.vregs x.uregs ≤ y.regs) &&
    decide (portionOf x.shBytes c ≤ y.shared)

/-- Warp slots of a core. -/
def coreSlots : Nat := 512

/-- An empty core under a carve (R207). -/
def carveRoom (reg sh : Nat) : Room := { slots := coreSlots, regs := (1024 + 512 * reg) * 1024, shared := 256 * 1024 * sh }

/-- The carves that R207 allows. -/
def carves : List (Nat × Nat) :=
  ((List.range 4).map fun r => (List.range 8).map fun h => (r, h)).flatten.filter fun x =>
    decide (1024 + 512 * x.1 + 256 * x.2 + 256 ≤ 3072)

/-- The block fits some number of cores under some carve (R210, R414). -/
def Need.possible (x : Need) : Bool :=
  carves.any fun k => (List.range 16).any fun c => x.fits (c + 1) 0 (carveRoom k.1 k.2)

/-! ## Room now -/

/-- Every thread of the warp has ended (R153). -/
def Warp.overflowed (w : Warp) : Bool := w.threads.all fun t => t.st = .ended

/-- A warp that occupies a slot of a core. -/
def Warp.occupies (w : Warp) (d core : Nat) : Bool := w.inSlot && !w.overflowed && decide (w.die = d) && decide (w.core = core)

/-- A block whose state stands in the bivouac area. -/
def Block.inBivouac (b : Block) : Bool := b.saveId.isSome

def State.standing (s : State) (d core : Nat) : List Warp := s.warps.filter fun w => w.occupies d core

/-- What a core of a die still has to give. -/
def State.room (s : State) (d core : Nat) : Room :=
  let c := s.core d core
  let all := carveRoom c.regStep c.shStep
  let ws := s.standing d core
  let bs := s.blocks.filter fun b => decide (b.die = d) && decide (core ∈ b.cores) && !b.inBivouac
  { slots := all.slots - ws.length
    regs := all.regs - (ws.map fun w => footprint w.vregs w.s.length).sum
    shared := all.shared - (bs.map fun b => portionOf b.shBytes (max 1 b.cores.length)).sum }

/-- A core in a cluster of the context's function, which runs (R436, R437). -/
def State.coreOwned (s : State) (d : Nat) (tag : BitVec 12) (core : Nat) : Bool :=
  match s.funcOf d (core / 4) with
  | some f => f.started && !f.fenced && decide (f.cfg.tagLo ≤ tag) && decide (tag ≤ f.cfg.tagHi)
  | none => false

/-- A core that takes blocks of a context: neither stopped nor being vacated of it, in a cluster of the context's function
(R421, R436, R437). -/
def State.coreUsable (s : State) (d : Nat) (tag : BitVec 12) (core : Nat) : Bool :=
  !(s.cluster d (core / 4)).stopped &&
    !((s.die d).saves.any fun x => decide (x.tag = tag) && decide (core ∈ x.cores)) && s.coreOwned d tag core

/-- The number of cores that a block takes: the least for which its share fits that many empty cores (R214). -/
def State.width (s : State) (d : Nat) (tag : BitVec 12) (x : Need) : Option Nat :=
  ((List.range 16).map fun c => c + 1).find? fun c =>
    decide (c ≤ ((List.range s.dieCores).filter fun k =>
      s.coreUsable d tag k && x.fits c 0 (carveRoom (s.core d k).regStep (s.core d k).shStep)).length)

/-- Cores of a cluster for some ranks in turn, the lowest-numbered with room. -/
def State.takeRanks (s : State) (d : Nat) (tag : BitVec 12) (x : Need) (c cl : Nat) : List Nat → List Nat → Option (List Nat)
  | [], acc => some acc
  | r :: rs, acc =>
    match ((List.range 4).map fun i => 4 * cl + i).find? fun k =>
        decide (k ∉ acc) && s.coreUsable d tag k && x.fits c r (s.room d k) with
    | none => none
    | some k => State.takeRanks s d tag x c cl rs (acc ++ [k])

/-- The ranks in runs of four, one run to a cluster. -/
def rankRuns (c : Nat) : List (List Nat) :=
  (List.range ((c + 3) / 4)).map fun i => (List.range (min 4 (c - 4 * i))).map fun j => 4 * i + j

/-- The later clusters of a block: each the lowest-numbered with room. -/
def State.takeRuns (s : State) (d : Nat) (tag : BitVec 12) (x : Need) (c : Nat) : List (List Nat) → List Nat → Option (List Nat)
  | [], acc => some acc
  | r :: rs, acc =>
    match (List.range s.dieClusters).findSome? fun cl =>
        if acc.any fun k => k / 4 = cl then none else s.takeRanks d tag x c cl r acc with
    | none => none
    | some l => State.takeRuns s d tag x c rs l

/-- Handle slots of an engine that no block holds. -/
def State.engineFree (s : State) (d cl : Nat) : Nat := 32 - ((s.cluster d cl).handles.filter fun h => !h.saved).length

/-- The engines that take a block's handles: the first cluster, from t16 on the second where there is one (R261). -/
def handleSites (cores : List Nat) (n : Nat) : List Nat :=
  let first := cores.headD 0 / 4
  let second := if cores.length ≤ 4 then first else cores.getD 4 0 / 4
  (List.range n).map fun h => if h < 16 then first else second

/-- The engines have the slots free. -/
def State.enginesFit (s : State) (d : Nat) (cores : List Nat) (n : Nat) : Bool :=
  let sites := handleSites cores n
  sites.eraseDups.all fun cl => decide ((sites.filter fun k => k = cl).length ≤ s.engineFree d cl)

/-- The core of a die whose TSCTL names a context (R456). -/
def State.slicedCore (s : State) (d : Nat) (tag : BitVec 12) : Option Core :=
  if tag = 0 then none
  else s.cores.find? fun c => decide (c.die = d) &&
    (decide (c.tsctl.extractLsb' 0 12 = tag) || decide (c.tsctl.extractLsb' 12 12 = tag))

/-- The cores that a block takes, and whether it waits there as an unstarted block while another context runs (R456). -/
structure Site where
  cores : List Nat
  deferred : Bool
deriving DecidableEq, Repr

/-- Where a block fits with a first cluster. -/
def State.siteIn (s : State) (d : Nat) (tag : BitVec 12) (x : Need) (cl : Nat) : Option Site :=
  match s.slicedCore d tag with
  | some k =>
    if k.core / 4 ≠ cl || !s.coreUsable d tag k.core then none
    else
      match k.slice with
      | some y =>
        if y.tag ≠ tag || y.phase ≠ .running then some { cores := [k.core], deferred := true }
        else if x.fits 1 0 (s.room d k.core) && s.enginesFit d [k.core] x.handles then
          some { cores := [k.core], deferred := false }
        else none
      | none =>
        if x.fits 1 0 (s.room d k.core) && s.enginesFit d [k.core] x.handles then
          some { cores := [k.core], deferred := false }
        else none
  | none =>
    match s.width d tag x with
    | none => none
    | some c =>
      match rankRuns c with
      | [] => none
      | r :: rs =>
        match (s.takeRanks d tag x c cl r []).bind (s.takeRuns d tag x c rs) with
        | none => none
        | some cores => if s.enginesFit d cores x.handles then some { cores := cores, deferred := false } else none

/-- A block of the launch that stands on a cluster and has not ended (R336). -/
def State.residentBlocks (s : State) (gid d cl : Nat) : Nat :=
  (s.blocks.filter fun b => decide (b.gid = gid) && decide (b.die = d) && decide (b.firstCl = cl)).length

/-- The cluster for a group: of those where its first block fits, the one with the fewest blocks of the launch. -/
def State.clusterFor (s : State) (gid d : Nat) (tag : BitVec 12) (x : Need) : Option Nat :=
  leastOn (s.residentBlocks gid d) ((List.range s.dieClusters).filter fun cl => (s.siteIn d tag x cl).isSome)

/-! ## Starting state -/

/-- A thread as it starts (R13, R22, R24, R361). -/
def Thread.start (idx : Nat) (pc : Addr) (vregs : Nat) (lr : Record) (tag : BitVec 12) : Thread :=
  { idx := idx, pc := pc, cl := Clause.none, st := .eligible, age := 0, v := List.replicate vregs (.all 0),
    p := List.replicate 8 0, c := 0, istat := 0, imask := lr.imask, cancelth := 8, fpstat := 0, fpmask := 0, rs := [],
    rsp := 0, dsp := 0, handler := lr.handler, trap := TrapRegs.zero, strap := TrapRegs.zero, trappcWritten := false,
    regionPc := pc.setWidth 32, shC := 0, shIstat := 0, inHandler := none, super := false, owner := tag, runtime := none,
    epc := 0, rev := false, tapepos := 0, tapecap := lr.tapeCap, cpylast := 0xFFFFFFFF, clockhi := 0, residLatch := none,
    carveCore := 0, wait := none, passOnce := false, due := [], poison := [], split := none }

/-- A warp as it starts (R169). -/
def Warp.start (wid bid index d core rank slot placed : Nat) (threads : List Thread) (vregs uregs : Nat) (saved : Bool) : Warp :=
  { wid := wid, bid := bid, index := index, die := d, core := core, rank := rank, slot := slot, service := false,
    placed := placed, threads := threads, vregs := vregs, s := List.replicate uregs 0, k := List.replicate 12 0,
    flags := List.replicate 12 0, step := false, held := false, wissue := 0, wbeat := 0, wunif := 0, wsplit := 0,
    utag := List.replicate vregs true, rcache := [], gcall := none, pend := [], spill := [], spillPoison := [],
    active := false, idleSince := none, yields := [], saved := saved }

/-- Slots of a core that no warp occupies, the lowest first. -/
def State.freeSlots (s : State) (d core : Nat) : List Nat :=
  (List.range coreSlots).filter fun k => !((s.standing d core).any fun w => w.slot = k)

/-- Engine slots that no block holds, the lowest first. -/
def State.freeHandles (s : State) (d cl : Nat) : List Nat :=
  (List.range 32).filter fun k => !((s.cluster d cl).handles.any fun h => !h.saved && decide (h.slot = k))

/-- The engine slot of each handle: a handle takes the free slot that its place among the block's handles there gives. -/
def State.handleSlots (s : State) (d : Nat) (cores : List Nat) (n : Nat) : List (Nat × Nat) :=
  let sites := handleSites cores n
  (List.range n).map fun h =>
    let cl := sites.getD h 0
    (cl, (s.freeHandles d cl).getD ((sites.take h).filter fun k => k = cl).length 0)

/-- The handle slots of a block zeroed at their engines (R261). -/
def State.freshHandles (s : State) (b : Block) : State :=
  ((List.range b.handles.length).zip b.handles).foldl (fun s x =>
    let c := s.cluster b.die x.2.1
    s.setCluster { c with handles := c.handles ++ [Handle.fresh x.2.2 b.bid x.1] }) s

/-- The threads of a warp of a block. -/
def blockThreads (x : Need) (index : Nat) (pc : Addr) (lr : Record) (tag : BitVec 12) : List Thread :=
  let n := warpThreads x.triple
  (List.range (min n (x.threads - index * n))).map fun i => Thread.start i pc x.vregs lr tag

/-- A block placed on its cores (R210, R214): its warps in the lowest free slots, memory and registers zero, its handles
zeroed. A deferred block stands as saved state without bytes (R456). -/
def State.placeBlock (s : State) (g : Grid) (d linear : Nat) (x : Need) (site : Site) (pc : Addr) (task : Option Nat)
    (init : List Word) : State :=
  let (bid, s1) := s.newId
  let c := site.cores.length
  let wid := fun (k : Nat) => bid + 1 + k
  let warp := fun (k : Nat) =>
    let rank := k % c
    let core := site.cores.getD rank 0
    let slot := (s.freeSlots d core).getD (k / c) 0
    let w := Warp.start (wid k) bid k d core rank slot bid (blockThreads x k pc g.lr g.tag) x.vregs x.uregs site.deferred
    { w with s := init.take x.uregs ++ w.s.drop init.length }
  let b : Block :=
    { bid := bid, gid := g.gid, linear := linear, die := d, cores := site.cores, triple := x.triple, shBytes := x.shBytes,
      shared := [], bars := [], shPoison := [], g := List.replicate 64 0,
      greps := (List.range (c - 1)).map fun r => (r + 1, List.replicate 64 0),
      gflight := [], gupdates := [], portions := [], mopcnt := 0, hcount := x.handles,
      handles := if site.deferred then [] else s.handleSlots d site.cores x.handles,
      lanternAgain := none, wids := (List.range x.warps).map wid, saveId := if site.deferred then some bid else none,
      saveBytes := 0, kept := false, hung := false, task := task }
  { s1 with
    uid := s1.uid + x.warps
    blocks := s1.blocks ++ [b]
    warps := s1.warps ++ (List.range x.warps).map warp }.freshHandles b

end Sys2Proof.Machine
end

