-- ==== Sys2Proof/Machine/Launch.lean ====
section
/-! DEFINITION. Launches: the record and its checks (R412 to R414), curves and groups (R334 to R337), the start of a grid,
its retirement and its end by the runtime (R352, R416, R417), `launch` and `lwait` (R392, R393), and the distributor. -/

namespace Sys2Proof.Machine

/-! ## The record (Table 22.1) -/

/-- A word of a record. -/
def recWord (w : List Word) (i : Nat) : Nat := (w.getD i 0).toNat

/-- Bits of a word of a record. -/
def recBits (w : List Word) (i lo n : Nat) : Nat := recWord w i / 2 ^ lo % 2 ^ n

/-- Every zero field of a record is zero (R412). -/
def recZero (w : List Word) : Bool :=
  let z := fun (i lo n : Nat) => decide (recBits w i lo n = 0)
  let gain := decide (recBits w 0 0 2 = 1)
  z 0 29 3 && z 0 7 1 && z 1 28 4 && z 1 11 5 && z 1 4 4 && z 11 19 13 && z 12 26 6 && z 15 27 5 &&
    (if gain then z 4 0 32 && z 8 24 8 && z 9 17 15 else z 8 16 16 && z 10 16 16)

/-- A count of which zero is taken as one (R413). -/
def atLeast1 (n : Nat) : Nat := if n = 0 then 1 else n

/-- The record that sixteen words hold; `die` is named where DIES is 0. -/
def recordOf (w : List Word) (die : Nat) : Record :=
  let b := recBits w
  { gain := decide (b 0 0 2 = 1)
    triple := decide (b 0 2 1 = 1)
    prio := b 0 3 2
    curve := b 0 5 2
    group := b 0 8 8 + 1
    hcount := if b 0 16 6 = 63 then 16 else b 0 16 6
    spillK := if b 0 22 7 = 0 then 4 else b 0 22 7
    dies := if b 1 0 4 = 0 then BitVec.ofNat 4 (2 ^ die) else BitVec.ofNat 4 (b 1 0 4)
    imask := BitVec.ofNat 3 (b 1 8 3)
    tableLen := b 1 16 12 + 1
    table := b 5 16 16 * 65536
    seed := (w.getD 3 0) ++ (w.getD 2 0)
    entry := w.getD 4 0
    codeHi := BitVec.ofNat 16 (b 5 0 16)
    handler := w.getD 6 0
    x := atLeast1 (b 7 0 16)
    y := atLeast1 (b 7 16 16)
    z := atLeast1 (b 8 0 16)
    bx := atLeast1 (b 9 0 16)
    by' := atLeast1 (b 9 16 16)
    bz := atLeast1 (b 10 0 16)
    taskBase := recWord w 7
    taskCnt := b 8 0 24 + 1
    maxLive := b 9 0 17
    tol := w.getD 10 0
    regs := b 11 0 10
    uregs := b 11 10 9
    shared := b 12 0 26
    tapeBase := w.getD 13 0
    tapeStride := w.getD 14 0
    tapeCap := b 15 0 27 }

/-- Blocks of a kernel's grid. -/
def Record.blocks (r : Record) : Nat := r.x * r.y * r.z

/-- Threads of a kernel's block. -/
def Record.blockSize (r : Record) : Nat := r.bx * r.by' * r.bz

/-- The named dies, in ascending number. -/
def Record.dieList (r : Record) : List Nat := (List.range 4).filter fun d => r.dies.getLsbD d

/-- What a block of a kernel needs. -/
def Record.need (r : Record) : Need :=
  { threads := r.blockSize, vregs := allocV r.regs, uregs := allocU r.uregs, shBytes := r.shared, handles := r.hcount,
    triple := r.triple }

/-- A FOOT within the ranges of Table 18.5. -/
def footOk (f : Word) : Bool :=
  let v := (f.extractLsb' 0 10).toNat
  let u := (f.extractLsb' 10 9).toNat
  decide (1 ≤ v) && decide (v ≤ 640) && decide (4 ≤ u) && decide (u ≤ 256)

/-- What a task needs (Table 18.5). -/
def Record.taskNeed (r : Record) (f : Word) : Need :=
  { threads := warpThreads r.triple, vregs := allocV (f.extractLsb' 0 10).toNat, uregs := allocU (f.extractLsb' 10 9).toNat,
    shBytes := (f.extractLsb' 19 13).toNat * 1024, handles := r.hcount, triple := r.triple }

/-- A task fits one core under some carve. -/
def Need.possible1 (x : Need) : Bool := carves.any fun k => x.fits 1 0 (carveRoom k.1 k.2)

/-- A side of 2^n blocks. -/
def isPow2 (n : Nat) : Bool := (List.range 17).any fun k => decide (2 ^ k = n)

/-- The limits that both kinds share (R90, R213, R261, R366). -/
def Record.commonOk (r : Record) (w : List Word) : Bool :=
  decide (recBits w 0 0 2 ≤ 1) && decide (1 ≤ r.regs) && decide (r.regs ≤ 640) && decide (r.uregs ≤ 256) &&
    decide (r.hcount ≤ 32) && decide (r.spillK ≤ 64) && decide (r.tapeBase.toNat % 32 = 0) &&
    decide (r.tapeStride.toNat % 32 = 0) && decide (r.tapeCap ≤ r.tapeStride.toNat / 32)

/-- Threads that a block may hold (Table 1.1). -/
def blockLimit : Nat := 32768

/-- A kernel's limits (R6, R7, R210, R335). -/
def Record.kernelOk (r : Record) : Bool :=
  decide (r.blocks * r.blockSize ≤ 2 ^ 32) && decide (r.blockSize ≤ blockLimit) && r.need.possible &&
    (decide (r.curve ≠ 2) || (decide (r.x = r.y) && isPow2 r.x && decide (r.z = 1)))

/-- GAINTOL is zero or positive, and finite (R379); −0 is zero (Table 18.8, log 48). -/
def tolOk (t : Word) : Bool :=
  match f32v t with
  | .fin x => !x.neg || decide (x.mag = 0)
  | _ => false

/-- A gain launch's limits that the record shows (R369, R379). -/
def Record.gainOk (r : Record) : Bool :=
  decide (r.taskBase % 32 = 0) && decide (r.taskBase + 32 * r.taskCnt ≤ 2 ^ 32) && decide (4 ≤ r.uregs) && tolOk r.tol

/-! ## Order table and task table -/

/-- The order table, a plain page of the context on a die (R335, R413). -/
def State.orderTable (s : State) (d : Nat) (tag : BitVec 12) (r : Record) : Option (List Nat) :=
  match s.agentPage d tag r.table false with
  | none => none
  | some (a, x) =>
    if leafMode x ≠ 0 then none
    else
      let bytes := s.taggedBytes tag a (4 * r.tableLen)
      let t := (List.range r.tableLen).map fun i => leNat ((bytes.drop (4 * i)).take 4)
      if (t.all fun v => decide (v < r.tableLen)) && decide (t.eraseDups.length = t.length) then some t else none

/-- A word of a task record of a table, under a tag. -/
def State.recordWord (s : State) (d : Nat) (tag : BitVec 12) (base n k : Nat) : Word :=
  match s.agentPage d tag (base + 32 * n + 4 * k) false with
  | none => 0
  | some (a, _) => wordAt (s.taggedBytes tag a 4) 0

/-- A page of a context holds no line of another owner tag: the page that holds offset `off`, of 64 KiB or 2 MiB. -/
def State.pageTagged (s : State) (d : Nat) (tag : BitVec 12) (off p : Nat) : Bool :=
  let size := match s.leaf d none tag none off with
    | some (_, true) => 2 ^ 21
    | _ => pageSize
  (List.range (size / 128)).all fun k => decide (s.lineTag (p / size * size + 128 * k) = tag)

/-- Every page of the task table is mapped, writable, plain and of the tag; every FOOT is in range and fits (R369). -/
def State.tasksOk (s : State) (d : Nat) (tag : BitVec 12) (r : Record) : Bool :=
  ((blocksOf pageSize r.taskBase (32 * r.taskCnt)).all fun a =>
    match s.agentPage d tag a true with
    | none => false
    | some (p, x) => decide (leafMode x = 0) && s.pageTagged d tag a p) &&
  (List.range r.taskCnt).all fun n =>
    let f := s.recordWord d tag r.taskBase n 7
    footOk f && (r.taskNeed f).possible1

/-- A record that starts, with its order table; `d` is the launching die (R414). -/
def State.checkRecord (s : State) (d : Nat) (tag : BitVec 12) (w : List Word) : Option (Record × List Nat) :=
  let r := recordOf w d
  if !recZero w || !r.commonOk w then none
  else if r.gain then
    if r.gainOk && r.dieList.all fun k => s.tasksOk k tag r then some (r, []) else none
  else if !r.kernelOk then none
  else if r.curve ≠ 3 then some (r, [])
  else (s.orderTable d tag r).map fun t => (r, t)

/-- The bytes, one of each line, of the tables that a record names and that its check and its start access. -/
def State.tableBytes (s : State) (d : Nat) (tag : BitVec 12) (w : List Word) : List Nat :=
  let r := recordOf w d
  if !recZero w || !r.commonOk w then []
  else if r.gain then
    if !r.gainOk then []
    else (r.dieList.map fun k => (blocksOf 128 r.taskBase (32 * r.taskCnt)).filterMap fun a =>
      (s.agentPage k tag a true).map fun x => x.1).flatten
  else if !r.kernelOk || decide (r.curve ≠ 3) then []
  else match s.agentPage d tag r.table false with
    | none => []
    | some (a, _) => upFrom a (4 * r.tableLen)

/-- The lines of those tables that the launching unit must wait for (R320, R349). -/
def State.tableLines (s : State) (d : Nat) (tag : BitVec 12) (w : List Word) : List Nat :=
  s.unitLines d (recordOf w d).gain (s.tableBytes d tag w)

/-! ## Curves (R335) -/

/-- The even bits of a Morton code of `dims` dimensions, from bit `i`. -/
def mortonPart (code dims i : Nat) : Nat :=
  ((List.range 17).map fun k => code / 2 ^ (dims * k + i) % 2 * 2 ^ k).sum

/-- The block of a Morton code, where it lies in the grid. -/
def Record.morton (r : Record) (code : Nat) : Option Nat :=
  let dims := if r.z > 1 then 3 else 2
  let x := mortonPart code dims 0
  let y := mortonPart code dims 1
  let z := if dims = 3 then mortonPart code 3 2 else 0
  if x < r.x ∧ y < r.y ∧ z < r.z then some (x + r.x * (y + r.y * z)) else none

/-- One level of the Hilbert curve: (x, y, t) at side s. -/
def hilbertStep (p : Nat × Nat × Nat) (s : Nat) : Nat × Nat × Nat :=
  let t := p.2.2
  let rx := t / 2 % 2
  let ry := (t % 2 + rx) % 2
  let q := if ry = 0 then
      (if rx = 1 then (s - 1 - p.2.1, s - 1 - p.1) else (p.2.1, p.1))
    else (p.1, p.2.1)
  (q.1 + s * rx, q.2 + s * ry, t / 4)

/-- The block at a place of the Hilbert curve on a side of 2^n. -/
def Record.hilbert (r : Record) (k : Nat) : Nat :=
  let n := ((List.range 17).find? fun i => decide (2 ^ i = r.x)).getD 0
  let p := ((List.range n).map fun i => 2 ^ i).foldl hilbertStep (0, 0, k)
  p.1 + r.x * p.2.1

/-- Bits that a Morton code of the grid may take in each dimension. -/
def Record.side (r : Record) : Nat :=
  ((List.range 18).find? fun i => decide (r.x ≤ 2 ^ i) && decide (r.y ≤ 2 ^ i) && decide (r.z ≤ 2 ^ i)).getD 17

/-- The block that stands at place `k` of the launch's sequence. -/
def Record.curveAt (r : Record) (table : List Nat) (k : Nat) : Option Nat :=
  if r.blocks ≤ k then none
  else if r.curve = 1 then
    ((List.range (2 ^ (r.side * (if r.z > 1 then 3 else 2)))).filterMap r.morton)[k]?
  else if r.curve = 2 then some (r.hilbert k)
  else if r.curve = 3 then
    let l := max 1 table.length
    (((List.range ((r.blocks + l - 1) / l * l)).map fun i => l * (i / l) + table.getD (i % l) 0).filter fun v =>
      decide (v < r.blocks))[k]?
  else some k

/-- The groups of a launch. -/
def Record.groups (r : Record) : Nat := (r.blocks + r.group - 1) / r.group

/-! ## Child-grid entries (R392) -/

/-- Child grids that a die holds. -/
def gridRoom : Nat := 1024

/-- The child-grid entries of a die that stand free. -/
def State.freeEntries (s : State) (d : Nat) : List Nat :=
  (List.range gridRoom).filter fun k =>
    !(s.grids.any fun g => !g.retired && (match g.entry with
      | some (d', k', _) => decide (d' = d) && decide (k' = k)
      | none => false)) && !((s.die d).nodes.any fun n => n.entry = some k)

/-- The entry as a new grid holds it. -/
def State.entryOf (s : State) (d k : Nat) : Nat × Nat × Nat := (d, k, lookupD k 0 (s.die d).gridGens)

/-- An entry given back: its generation advances. -/
def State.freeEntry (s : State) (e : Option (Nat × Nat × Nat)) : State :=
  match e with
  | none => s
  | some (d, k, gen) =>
    let di := s.die d
    s.setDie { di with gridGens := setKey k ((gen + 1) % 16) di.gridGens }

/-! ## Starting a grid -/

/-- A heap with nothing in it. -/
def Heap.empty (d : Nat) : Heap :=
  { die := d, tasks := [], curbin := 0, stop := false, nang := false, nextStamp := 0, parts := [], ops := [],
    lastExchange := 0, chosen := none, kept := 0 }

/-- A task of the table taken into its die's heap (R369). -/
def State.loadTask (s : State) (tag : BitVec 12) (r : Record) (dies : List Nat) (rank : Nat) (h : Heap) (n : Nat) : Heap :=
  let word := s.recordWord h.die tag r.taskBase n
  let bin := binOf (word 1)
  if bin % dies.length ≠ rank then h
  else
    let x := gainNorm (f32v (word 4))
    let t : Task := { n := n, gain := x.1, pend := 0, st := .idle, bin := bin, stamp := 0, overflowed := false }
    let h := h.sawNan x.2
    if x.1 = 0 then h.setTask t else h.enqueue t bin

/-- The heaps of a gain launch: tasks in ascending record number, each on the die of its bin (R380), with the parts of
the other dies as at the launch. -/
def State.loadHeaps (s : State) (tag : BitVec 12) (r : Record) : List Heap :=
  let dies := r.dieList
  let hs := ((List.range dies.length).zip dies).map fun x =>
    (List.range r.taskCnt).foldl (s.loadTask tag r dies x.1) { Heap.empty x.2 with lastExchange := s.now }
  hs.map fun h => { h with parts := (hs.filter fun y => y.die ≠ h.die).map fun y => (y.die, y.part) }

/-- A grid as it starts, with its number. -/
def State.startGrid (s : State) (kind : GridKind) (tag : BitVec 12) (r : Record) (table : List Nat) (parent : Option Nat)
    (nest : Nat) (entry : Option (Nat × Nat × Nat)) : Nat × State :=
  let (gid, s1) := s.newId
  let dies := r.dieList
  let g : Grid :=
    { gid := gid, kind := kind, tag := tag, lr := r, parent := parent, nest := nest, entry := entry, table := table,
      shares := if r.gain then [] else ((List.range dies.length).zip dies).map fun x => { die := x.2, next := x.1, assigned := [] },
      ended := 0, icnt := (0, 0, 0), heaps := if r.gain then s.loadHeaps tag r else [], tasksOf := none,
      heapChild := none, done := false,
      retired := false, ending := none, report := none }
  let named := fun (y : Grid) => if (r.gain || decide (kind = .tasks)) && decide (some y.gid = parent) then { y with heapChild := some gid } else y
  let s2 := { s1 with grids := s1.grids.map named ++ [g] }
  (gid, g.heaps.foldl (fun s h => h.tasks.foldl (fun s t => s.mirror g h.die t) s) s2)

/-! ## Retirement and end (R352, R416, R417) -/

/-- Grids that have started and not retired, of a parent. -/
def State.children (s : State) (gid : Nat) : List Grid := s.grids.filter fun g => decide (g.parent = some gid) && !g.retired

/-- A node that a grid has posted and that has not finished: kernel nodes (R330), and copy nodes, whose accesses the
retirement releases (R352). -/
def State.postedBy (s : State) (gid : Nat) : Bool := s.dies.any fun d => d.nodes.any fun n => decide (n.gid = gid)

/-- The threads of the grid are done: every block of a kernel has ended; a gain or task launch has ended (R379); a sweep has
run all its records. -/
def Grid.finished (g : Grid) (blocks : List Block) : Bool :=
  match g.kind with
  | .sweep => g.done
  | _ => if g.lr.gain || decide (g.kind = .tasks) then g.done
    else decide (g.ended = g.lr.blocks) && !(blocks.any fun b => b.gid = g.gid)

/-- The final counter in the layout of `enrd` (R433). -/
def Ctx.energyWord (c : Ctx) : DWord := BitVec.ofBool c.sat ++ 0#15 ++ c.energy

/-- The end record of a launch (Table 22.2). -/
def State.endRecord (s : State) (g : Grid) (status : Byte) : State :=
  let r : Report := g.report.getD (0, 0, 0, 0)
  s.send (.endRecord g.gid status r.1 r.2.1 r.2.2.1 r.2.2.2 (s.ctx g.tag).energyWord)

/-- FAILED copies of a launch free their slots at its end (R386). -/
def State.dropFailed (s : State) (gid : Nat) : State :=
  { s with dies := s.dies.map fun d =>
      { d with copies := dropIf (fun x => decide (x.gid = gid) && decide (x.st = .failed)) d.copies } }

/-- Everything of a block leaves the machine: its warps, its handles, sign registers, latches, lantern and entries. -/
def Cluster.dropBlock (c : Cluster) (b : Block) : Cluster :=
  let sign := fun (x : SignReg) => if x.bid = b.bid ∧ x.st ≠ .free then SignReg.blank x.q else
    { x with latch := match x.latch with
      | some y => if y.1 = b.bid then none else some y
      | none => none }
  { c with
    handles := dropIf (fun h => h.bid = b.bid) c.handles
    signs := (dropIf (fun x => x.saved && decide (x.bid = b.bid)) c.signs).map sign
    table := dropIf (fun x => x.bid = b.bid) c.table
    pass := match c.pass with
      | some p => if c.table.any fun x => decide (x.id = p.entry) && decide (x.bid = b.bid) then none else some p
      | none => none
    lantern := match c.lantern with
      | some y => if y.1 ∈ b.wids then none else some y
      | none => none }

/-- A block removed. -/
def State.dropBlock (s : State) (b : Block) : State :=
  { s with
    clusters := s.clusters.map fun c => if c.die = b.die then c.dropBlock b else c
    warps := dropIf (fun w => w.bid = b.bid) s.warps
    blocks := dropIf (fun x => x.bid = b.bid) s.blocks
    cores := s.cores.map fun c => { c with reqs := dropIf (fun r => decide (r.wid ∈ b.wids)) c.reqs } }

/-- A grid retired: its entry and failed copies are freed. A task launch, and a gain launch that is a child, stays readable
for its parent (R396, R410); what it kept of its own retired launches goes. -/
def State.retire (s : State) (g : Grid) : State :=
  let s1 := (s.dropFailed g.gid).freeEntry g.entry
  let s2 := { s1 with grids := dropIf (fun x => x.retired && decide (x.parent = some g.gid)) s1.grids }
  match g.kind with
  | .tasks => s2.updGrid g.gid fun x => { x with retired := true }
  | .child => if g.lr.gain then s2.updGrid g.gid fun x => { x with retired := true }
    else { s2 with grids := dropIf (fun x => x.gid = g.gid) s2.grids }
  | .host => { s2 with grids := dropIf (fun x => x.gid = g.gid) s2.grids }.endRecord g 0
  | _ => { s2 with grids := dropIf (fun x => x.gid = g.gid) s2.grids }

/-- A grid may retire: its threads are done, and its children and nodes (R153, R330, R352), and nobody ends it. -/
def State.mayRetire (s : State) (g : Grid) : Bool :=
  !g.retired && g.ending.isNone && g.finished s.blocks && (s.children g.gid).isEmpty && !s.postedBy g.gid

/-- GRID_RETIRE. -/
def execGridRetire (gid : Nat) (s : State) : Out :=
  match s.grid? gid with
  | none => .next s
  | some g => if s.mayRetire g then .next (s.retire g) else .next s

/-- The host-launched grid of a launch's tree, by fuel over its ancestors. -/
def State.rootOf (s : State) : Nat → Nat → Nat
  | 0, gid => gid
  | fuel + 1, gid =>
    match (s.grid? gid).bind fun g => g.parent with
    | none => gid
    | some p => State.rootOf s fuel p

/-- The grids of a tree, by fuel over its levels. -/
def State.treeOf (s : State) : Nat → List Nat → List Nat
  | 0, l => l
  | fuel + 1, l =>
    State.treeOf s fuel (l ++ (s.grids.filter fun g => (match g.parent with
      | some p => decide (p ∈ l)
      | none => false) && !decide (g.gid ∈ l)).map fun g => g.gid)

/-- The nodes of some launches are discarded, and their copies end FAILED (R427). -/
def Die.endGrids (d : Die) (gids : List Nat) : Die :=
  let gone := d.nodes.filter fun n => decide (n.gid ∈ gids)
  let mine := fun (x : Copy) => decide (x.gid ∈ gids)
  { d with
    copies := mapIf mine (fun x => { x.ended with node := none }) d.copies
    nodeGens := gone.foldl (fun l n => setKey n.slot ((n.gen + 1) % 16) l) d.nodeGens
    nodes := dropIf (fun n => decide (n.gid ∈ gids)) d.nodes }

/-- The copies of some launches leave a die, but for those DONE, which keep their slots until others take them (R386). -/
def Die.dropCopies (d : Die) (gids : List Nat) : Die :=
  { d with copies := dropIf (fun x => decide (x.gid ∈ gids) && decide (x.st ≠ .done)) d.copies }

/-- The launches named end: their copies go, and their blocks but for those kept for inspection, and their child-grid
entries are freed (R417, R427). -/
def State.removeGrids (s : State) (gids : List Nat) : State :=
  let s1 : State := (s.blocks.filter fun b => decide (b.gid ∈ gids) && !b.kept).foldl State.dropBlock s
  let s2 : State := { s1 with dies := s1.dies.map fun d => d.dropCopies gids }
  let gs := s2.grids.filter fun g => decide (g.gid ∈ gids) && !g.retired
  let s3 := gs.foldl (fun s g => s.freeEntry g.entry) s2
  let sweepGone := fun (c : Ctx) => match c.sweep with
    | some w => if w.gid ∈ gids then { c with sweep := none } else c
    | none => c
  { s3 with
    grids := dropIf (fun g => decide (g.gid ∈ gids)) s3.grids
    ctxs := s3.ctxs.map sweepGone }

/-- The record of a thread's trap registers. -/
def trapReportOf (w : Warp) (b : Block) (g : Grid) (t : Thread) (r : TrapRegs) : Report :=
  (r.info, tnumOf w b g t.idx, r.pc, r.addr.setWidth 64)

/-- The code of the trap for which a thread stands in the supervisor view. -/
def Thread.superCode (t : Thread) : Nat := (t.strap.info.extractLsb' 0 5).toNat

/-- The thread stands in the runtime for a trap that Table 6.3 gives no resumption: every one that goes there but the
translation fault, and none that goes to the debugger. -/
def Thread.trappedFor (t : Thread) (attached : Bool) : Bool :=
  t.runtime.isSome && decide (t.superCode ≠ 5) && decide (t.superCode ≠ 16) && decide (t.superCode ≠ 17) &&
    !(decide (t.superCode = 15) && attached)

/-- The thread stands in the runtime for a translation fault, which the runtime may find that it cannot serve. -/
def Thread.faultedFor (t : Thread) : Bool := t.runtime.isSome && decide (t.superCode = 5)

/-- A double trap (R159): one for the user handler, raised in handler mode. -/
def Thread.doubleTrap (t : Thread) : Bool := t.inHandler.isSome && (userTrap t.superCode || decide (t.superCode = 15))

/-- The threads of some launches with their warps, blocks and launches. -/
def State.threadsOf (s : State) (gids : List Nat) : List (Warp × Block × Grid × Thread) :=
  (s.warps.map fun w =>
    match s.block? w.bid with
    | none => []
    | some b => match s.grid? b.gid with
      | none => []
      | some g => if g.gid ∈ gids then w.threads.map fun t => (w, b, g, t) else []).flatten

/-- The thread whose trap ends the launches: one whose trap has no resumption, else one with a translation fault (R157). Of
several, the first in the order of the warps (log 110). -/
def State.trapper (s : State) (gids : List Nat) : Option (Warp × Block × Grid × Thread) :=
  let l := s.threadsOf gids
  match l.find? fun x => x.2.2.2.trappedFor (s.attached x.1.die x.2.2.2.owner) with
  | some x => some x
  | none => l.find? fun x => x.2.2.2.faultedFor

/-- What the end of some launches with a STATUS reports (R157, R159, R225, Table 22.2). -/
def State.endingOf (s : State) (gids : List Nat) (status : Byte) : Ending :=
  let plain : Ending := { keep := false, status := status, report := none, handler := none, trapped := none }
  if status = 1 then
    match s.trapper gids with
    | none => plain
    | some (w, b, g, t) =>
      { plain with
        report := some (trapReportOf w b g t t.strap)
        handler := if t.doubleTrap then some (trapReportOf w b g t t.trap) else none
        trapped := some (w.wid, t.idx) }
  else if status = 2 then { plain with report := gids.findSome? fun k => (s.grid? k).bind fun g => g.report }
  else plain

/-- The end of some launches begins: their warps stop, their copies end FAILED, their nodes are discarded (R422, R427). -/
def State.beginEnd (s : State) (gids : List Nat) (x : Ending) : State :=
  let mark := fun (g : Grid) => decide (g.gid ∈ gids) && !g.retired && g.ending.isNone
  { s with
    grids := mapIf mark (fun g => { g with ending := some x }) s.grids
    dies := s.dies.map fun d => d.endGrids gids }

/-- The grids of the tree of a launch. -/
def State.wholeTree (s : State) (gid : Nat) : List Nat := s.treeOf s.grids.length [s.rootOf s.grids.length gid]

/-- The end of a whole tree begins with a STATUS (R416). -/
def State.endTree (s : State) (gid : Nat) (status : Byte) : State :=
  let gids := s.wholeTree gid
  s.beginEnd gids (s.endingOf gids status)

/-! ## Host launches -/

/-- The function of a tag has started and is not fenced (R436, R470). -/
def State.serves (s : State) (tag : BitVec 12) : Bool :=
  match s.funcOfTag tag with
  | some f => f.started && !f.fenced
  | none => false

/-- HOST_LAUNCH (R412, R414, R416, R470): a rejected record, or a function that has not started, returns STATUS 4. -/
def execHostLaunch (tag : BitVec 12) (w : List Word) (s : State) : Out :=
  let reject := fun (s : State) => s.send (.endRecord 0 4 0 0 0 0 (s.ctx tag).energyWord)
  if !s.pkg.booted then .next s
  else if !s.serves tag then .next (reject s)
  else
    match s.checkRecord 0 tag w with
    | none => .next (reject s)
    | some (r, table) => .next (s.startGrid .host tag r table none 1 none).2

/-! ## launch and lwait -/

/-- A record of `n` words at a scratchpad offset: its alignment, its page, its bytes (R392). -/
def State.readRecord (s : State) (e : Env) (t : Thread) (off n align : Nat) : Except Fail (List Word) :=
  let a := 0xC00000000000 + off
  if off % align ≠ 0 then .error (Fail.mk' 3 0 a)
  else
    match s.page e t off false with
    | none => .error (Fail.mk' 5 0 a)
    | some y =>
      if leafMode y.1 ≠ 0 then .error (Fail.mk' 3 1 a)
      else
        match s.spread e t off (4 * n) false true y with
        | .error f => .error f
        | .ok (bytes, _) =>
          let l : Loc := { store := .phys, bytes := bytes, mode := 0, d := false }
          match s.poisoned e l with
          | some i => .error (Fail.mk' 6 0 (a + i))
          | none =>
            let bs := s.readLoc e t.owner l
            .ok ((List.range n).map fun i => wordAt bs i)

/-- The sectors of a record of `n` words that a word reads at issue, counted (R430). -/
def State.chargeRecord (s : State) (e : Env) (t : Thread) (off n : Nat) : State :=
  match s.page e t off false with
  | none => s
  | some y =>
    match s.spread e t off (4 * n) false true y with
    | .error _ => s
    | .ok (bytes, _) => s.chargeSectors e.w.core e.g.tag (sectorsOf bytes)

/-- The lines that the reading of a record, or its reading and writing, waits for. -/
def State.recordWait (s : State) (e : Env) (t : Thread) (off n : Nat) (wr : Bool) : Option Hold :=
  match s.page e t off false with
  | none => none
  | some y =>
    match s.spread e t off (4 * n) false true y with
    | .error _ => none
    | .ok (bytes, _) =>
      match s.waitLines e.w.die e.w.ownHeld e.w.home wr bytes with
      | [] => if s.ownRequest e.w.wid t.idx bytes then some .settled else none
      | l => some (.lines wr l)

/-- The lines that the tables of a launch record wait for, where the record itself does not wait. -/
def State.launchWait (s : State) (e : Env) (t : Thread) (off : Nat) : Option Hold :=
  match s.recordWait e t off 16 false with
  | some x => some x
  | none =>
    match s.readRecord e t off 16 64 with
    | .error _ => none
    | .ok w => unitHold (recordOf w e.w.die).gain (s.tableLines e.w.die e.g.tag w)

/-- The hold of a word that reads a launch record of sixteen words, or a task record of eight, and releases (R343, R320). -/
def holdRecord (c : Ctl) (a : Opd) (d : Dst) (n : Nat) (s : State) (e : Env) (t : Thread) : Option Hold :=
  if !decide (t ∈ opaThreads a d (e.parts c)) then none
  else
    match holdRelease c s e t with
    | some x => some x
    | none => if n = 16 then s.launchWait e t (e.read0 s t a).toNat else s.recordWait e t (e.read0 s t a).toNat n true

/-- Nesting levels. -/
def nestLimit : Nat := 10

/-- One result and predicate for the threads that an operation serves (R382). -/
def State.giveHandle (s : State) (e : Env) (who : List Thread) (d : Dst) (p : BitVec 3) (h : Word) (ok : Bool) : State :=
  (s.writeAll e who d fun _ => .all h).predAll e who p fun _ => boolBits ok

/-- No handle. -/
def noHandle : Word := 0xFFFFFFFF

/-- A child grid of the issuing launch started, where an entry is free. -/
def State.launchChild (s : State) (e : Env) (kind : GridKind) (r : Record) (table : List Nat) : Option (Word × Nat × State) :=
  let (n, s1) := s.draw
  match chooseSlot n (s1.freeEntries e.w.die) with
  | none => none
  | some k =>
    let entry := s1.entryOf e.w.die k
    let x := s1.startGrid kind e.g.tag r table (some e.g.gid) (e.g.nest + 1) (some entry)
    some (handleWord e.w.die entry.2.2 k, x.1, x.2)

/-- One thread's `launch`. -/
def State.launchOne (s : State) (e : Env) (s0 : State) (a : Opd) (d : Dst) (p : BitVec 3) (who : List Thread) (t : Thread) :
    State :=
  match s.readRecord e t (e.read0 s0 t a).toNat 16 64 with
  | .error f => s.fail e t f
  | .ok w =>
    match s.checkRecord e.w.die e.g.tag w with
    | none => e.illegal s t subField
    | some (r, table) =>
      if nestLimit ≤ e.g.nest then e.trapBefore s t (e.record t 20 0)
      else
        let s1 := s.chargeRecord e t (e.read0 s0 t a).toNat 16
        match s1.launchChild e .child r table with
        | none => s1.giveHandle e who d p noHandle false
        | some (h, _, s2) => s2.giveHandle e who d p h true

/-- LAUNCH (R392). -/
def execLaunch (c : Ctl) (d : Dst) (a : Opd) (p : BitVec 3) (s : State) : Out :=
  .next (issue (Form.short c [a] d.opds) (holdRecord c a d 16) (fun e s =>
    let ps := e.parts c
    (opaThreads a d ps).foldl (fun s' t => s'.launchOne e s a d p (resultThreads a d ps t) t) s) s)

/-- The grid that a handle names still runs (R392, R393). -/
def State.gridLive (s : State) (h : Word) : Bool :=
  decide (h.extractLsb' 10 2 = 0) && decide (h.extractLsb' 18 14 = 0) &&
    s.grids.any fun g => !g.retired && (match g.entry with
      | some (d, k, gen) => decide (h = handleWord d gen k)
      | none => false)

/-- LWAIT (R393). -/
def execLwait (c : Ctl) (a : Opd) (s : State) : Out :=
  .next (issue (Form.short c [a] []) noHold (fun e s =>
    (e.parts c).foldl (fun s' t =>
      let h := e.read0 s t a
      if s.gridLive h then s'.updThread e.w.wid t.idx fun u => u.block (.grid h) else s') s) s)

/-! ## The distributor (R334 to R337) -/

/-- Saved blocks of a context on a die, which resume ahead of unstarted ones (R425). -/
def State.savedWaiting (s : State) (d : Nat) (tag : BitVec 12) : Bool :=
  s.blocks.any fun b => decide (b.die = d) && b.inBivouac && !b.kept && (match s.grid? b.gid with
    | some g => decide (g.tag = tag)
    | none => false) && (s.slicedCore d tag).isNone

/-- The blocks of a group, in order. -/
def Grid.groupBlocks (g : Grid) (n : Nat) : List Nat :=
  ((List.range g.lr.group).map fun i => n * g.lr.group + i).filterMap (g.lr.curveAt g.table)

/-- An assigned group whose next block fits its cluster now. -/
def State.nextAssigned (s : State) (g : Grid) (x : Share) : Option ((Nat × Nat × Nat) × Site) :=
  x.assigned.findSome? fun y =>
    if (g.groupBlocks y.1).length ≤ y.2.2 then none
    else (s.siteIn x.die g.tag g.lr.need y.2.1).map fun site => (y, site)

/-- The share after a block of a group has been placed. -/
def Share.placed (x : Share) (g : Grid) (n cl k : Nat) : Share :=
  let rest := dropIf (fun y => y.1 = n) x.assigned
  { x with assigned := if k < (g.groupBlocks n).length then sortOn (fun y => y.1) ((n, cl, k) :: rest) else rest }

/-- A share of a grid replaced. -/
def Grid.setShare (g : Grid) (x : Share) : Grid := { g with shares := mapIf (fun y => y.die = x.die) (fun _ => x) g.shares }

/-- The entry address of a kernel. -/
def Grid.entryPc (g : Grid) : Addr := codePc g.lr.codeHi g.lr.entry

/-- The next block of a die's share of a kernel placed, where one fits: of an assigned group, or the first of the next
group on the cluster that R336 names. -/
def State.placeNext (s : State) (g : Grid) (x : Share) : Option State :=
  if s.savedWaiting x.die g.tag || g.ending.isSome || g.lr.gain || decide (g.kind = .tasks) || decide (g.kind = .sweep) then none
  else
    match s.nextAssigned g x with
    | some (y, site) =>
      let s1 := s.placeBlock g x.die ((g.groupBlocks y.1).getD y.2.2 0) g.lr.need site g.entryPc none []
      some (s1.updGrid g.gid fun g => g.setShare (x.placed g y.1 y.2.1 (y.2.2 + 1)))
    | none =>
      if g.lr.groups ≤ x.next then none
      else
        match s.clusterFor g.gid x.die g.tag g.lr.need with
        | none => none
        | some cl =>
          match s.siteIn x.die g.tag g.lr.need cl with
          | none => none
          | some site =>
            let s1 := s.placeBlock g x.die ((g.groupBlocks x.next).getD 0 0) g.lr.need site g.entryPc none []
            some (s1.updGrid g.gid fun g =>
              g.setShare { x.placed g x.next cl 1 with next := x.next + g.shares.length })

/-- BLOCK_PLACE (R336): the distributor of a die places the next block of a launch's share. -/
def execBlockPlace (gid d : Nat) (s : State) : Out :=
  match s.grid? gid with
  | none => .next s
  | some g =>
    match g.shares.find? fun x => x.die = d with
    | none => .next s
    | some x => .next ((s.placeNext g x).getD s)

end Sys2Proof.Machine
end

