-- ==== Sys2Proof/Machine/Tasks.lean ====
section
/-! DEFINITION. Dispatch and end of gain and task launches (R375, R376, R379), and `spawn` (R394). -/

namespace Sys2Proof.Machine

/-! ## Dispatch -/

/-- The task that a dispatch chooses: of the highest class, from CURBIN on, the earliest stamp (R375). -/
def Heap.choose (h : Heap) : Option Task :=
  let q := h.tasks.filter Task.inHeap
  let c := (q.map fun t => gainClass t.gain).foldl max 0
  let top := q.filter fun t => gainClass t.gain = c
  ((List.range 64).map fun i => (h.curbin + i) % 64).findSome? fun b =>
    leastOn (fun (t : Task) => t.stamp) (top.filter fun t => t.bin = b)

/-- The heap may dispatch (R375). -/
def Heap.mayDispatch (h : Heap) (g : Grid) : Bool :=
  !h.stop && h.tasks.any Task.inHeap && (decide (g.lr.maxLive = 0) || decide (h.running ≠ g.lr.maxLive))

/-- The choice that still stands: the task is in the heap with the gain it was chosen with. -/
def Heap.standing (h : Heap) : Option Task :=
  h.chosen.bind fun x => h.tasks.find? fun t => decide (t.n = x.1) && t.inHeap && decide (t.gain = x.2)

/-- The task to dispatch next, and the heap that has chosen it. -/
def Heap.pickTask (h : Heap) : Option (Task × Heap) :=
  match h.standing with
  | some t => some (t, h)
  | none => h.choose.map fun t => (t, { h with curbin := t.bin, chosen := some (t.n, t.gain) })

/-- Clusters in the order in which a task tries them: the one that its bin gives, where the reduced bin counts on from
30 at 0 (R2), then the others. -/
def State.taskClusters (s : State) (bin : Nat) : List Nat :=
  let first := if s.dieClusters ≤ bin % 40 then bin % 40 - s.dieClusters else bin % 40
  first :: dropIf (fun k => k = first) (List.range s.dieClusters)

/-- The FOOT fits some core of the die with every slot and region of it free, under its carve (R375). -/
def State.taskFits (s : State) (d : Nat) (tag : BitVec 12) (x : Need) : Bool :=
  (List.range s.dieCores).any fun k =>
    s.coreOwned d tag k && x.fits 1 0 (carveRoom (s.core d k).regStep (s.core d k).shStep)

/-- Where the chosen task goes now. -/
def State.taskSite (s : State) (g : Grid) (d : Nat) (t : Task) : Option Site :=
  let need := g.lr.taskNeed (s.taskWord g d t.n 7)
  (s.taskClusters t.bin).findSome? (s.siteIn d g.tag need)

/-- The place of a dispatch among the heap events of a cycle: after that of every warp (R373). -/
def heapLast : Nat := 16 * coreSlots

/-- What a dispatch of a die comes to: none where nothing is to be done now. -/
def State.dispatch (s : State) (g : Grid) (d : Nat) : Option State :=
  match g.heap? d with
  | none => none
  | some h =>
    if g.done || g.retired || g.ending.isSome || !h.mayDispatch g || s.savedWaiting d g.tag then none
    else
      match h.pickTask with
      | none => none
      | some (t, h1) =>
        let wait := if h1 = h then none else some (s.updGrid g.gid fun g => g.setHeap h1)
        if !(s.taskLines g d t.n).isEmpty then wait
        else
        let foot := s.taskWord g d t.n 7
        let need := g.lr.taskNeed foot
        if !footOk foot || !s.taskFits d g.tag need then some (s.endTree g.gid 5)
        else
          match s.taskSite g d t with
          | none => wait
          | some site =>
            let pc := codePc g.lr.codeHi (s.taskWord g d t.n 0)
            let init := [BitVec.ofNat 32 t.n, s.taskWord g d t.n 1, s.taskWord g d t.n 2, s.taskWord g d t.n 3]
            let s1 := s.placeBlock g d t.n need site pc (some t.n) init
            let run : Task := { t with st := .running, pend := 0 }
            some ((s1.heapEvent g.gid d fun _ => { h1.setTask run with chosen := none }).heapAt d heapLast)

/-- HEAP_DISPATCH (R375, R376): the heap unit chooses, and dispatches where there is room. -/
def execHeapDispatch (gid d : Nat) (s : State) : Out :=
  match s.grid? gid with
  | none => .next s
  | some g => .next ((s.dispatch g d).getD s)

/-! ## End of a launch (R379) -/

/-- No task runs, no operation is on its way, and each heap has stopped or is empty with its overflow. -/
def Grid.heapsOver (g : Grid) : Bool :=
  g.heaps.all fun h => decide (h.running = 0) && h.ops.isEmpty && (h.stop || !(h.tasks.any fun t => t.st = .queued))

/-- The heap after the end: tasks still queued are idle, their gains stay in the residual (R378). -/
def Heap.closed (h : Heap) : Heap :=
  { h with
    kept := h.part
    chosen := none
    tasks := mapIf (fun t => t.st = .queued) (fun t => { t with st := .idle, overflowed := false }) h.tasks }

/-- The end of a gain or task launch as one heap event on each of its dies, the parts exchanged (R380). -/
def State.endHeaps (s : State) (g : Grid) : State :=
  let s1 := g.heaps.foldl (fun s h => s.heapEvent g.gid h.die Heap.closed) s
  s1.updGrid g.gid fun g =>
    let exact := fun (h : Heap) => (g.heaps.filter fun y => y.die ≠ h.die).map fun y => (y.die, y.part)
    { g with
      done := true
      heaps := g.heaps.map fun h => { h with parts := exact h } }

/-- The lines that the end of a launch must wait for: those of the records whose tasks it makes idle (R379, R349). -/
def State.leftLines (s : State) (g : Grid) : List Nat :=
  (g.heaps.map fun h => ((h.tasks.filter fun t => t.st = .queued).map fun t => s.taskLines g h.die t.n).flatten).flatten

/-- A launch of tasks that is over. -/
def State.heapsDone (s : State) (g : Grid) : Bool :=
  (g.lr.gain || decide (g.kind = .tasks)) && !g.done && !g.retired && g.heapsOver && !(s.blocks.any fun b => b.gid = g.gid) &&
    (s.leftLines g).isEmpty

/-! ## spawn (R394) -/

/-- TASKBASE of the launch, or 0 where its record names none. -/
def Grid.spawnBase (g : Grid) : Nat := if g.lr.gain ∨ g.kind = .tasks then g.lr.taskBase else 0

/-- The record of a child task launch: the spawner's but for what R394 names. -/
def Grid.spawnRecord (g : Grid) (d : Nat) : Record :=
  { g.lr with
    gain := false
    dies := BitVec.ofNat 4 (2 ^ d)
    taskBase := g.spawnBase
    taskCnt := 2 ^ 24
    maxLive := 0
    tol := 0 }

/-- The child task launch that runs. -/
def State.taskLaunch (s : State) (gid : Nat) : Option Grid :=
  match (s.grid? gid).bind fun g => g.tasksOf.bind s.grid? with
  | some g => if g.retired || g.done then none else some g
  | none => none

/-- The child task launch, created where none runs and an entry is free. -/
def State.openTasks (s : State) (e : Env) : Option (Grid × State) :=
  match s.taskLaunch e.g.gid with
  | some g =>
    let g1 := if (g.heap? e.w.die).isSome then g else g.setHeap (Heap.empty e.w.die)
    some (g1, s.updGrid g.gid fun _ => g1)
  | none =>
    match s.launchChild e .tasks (e.g.spawnRecord e.w.die) [] with
    | none => none
    | some (_, gid, s1) =>
      let s2 := s1.updGrid e.g.gid fun g => { g with tasksOf := some gid }
      let s3 := s2.updGrid gid fun g => g.setHeap (Heap.empty e.w.die)
      (s3.grid? gid).map fun g => (g, s3)

/-- The handle of a grid. -/
def Grid.handle (g : Grid) : Word :=
  match g.entry with
  | some (d, k, gen) => handleWord d gen k
  | none => noHandle

/-- A record entered as a task of a heap. -/
def Heap.enter (h : Heap) (n : Nat) (w : List Word) : Heap :=
  let x := gainNorm (f32v (w.getD 4 0))
  let t : Task := { n := n, gain := x.1, pend := 0, st := .idle, bin := binOf (w.getD 1 0), stamp := 0, overflowed := false }
  let h := h.sawNan x.2
  if x.1 = 0 then h.setTask t else h.enqueue t t.bin

/-- A task queued or running in a launch. -/
def Grid.busyTask (g : Grid) (n : Nat) : Bool :=
  g.heaps.any fun h => h.tasks.any fun t => decide (t.n = n) && (decide (t.st = .queued) || decide (t.st = .running))

/-- One thread's `spawn`. -/
def State.spawnOne (s : State) (e : Env) (s0 : State) (a : Opd) (d : Dst) (p : BitVec 3) (who : List Thread) (t : Thread) :
    State :=
  let off := (e.read0 s0 t a).toNat
  match s.readRecord e t off 8 32 with
  | .error f => s.fail e t f
  | .ok w =>
    let base := e.g.spawnBase
    let n := (off - base) / 32
    if off < base ∨ 2 ^ 24 ≤ n ∨ footOk (w.getD 7 0) = false then e.illegal s t subField
    else if nestLimit ≤ e.g.nest then e.trapBefore s t (e.record t 20 0)
    else
      let sr := s.chargeRecord e t off 8
      match sr.openTasks e with
      | none => sr.giveHandle e who d p noHandle false
      | some (g, s1) =>
        if g.busyTask n then s1.giveHandle e who d p g.handle false
        else
          let others := fun (g : Grid) => { g with heaps := g.heaps.map fun h =>
            if h.die = e.w.die then h else { h with tasks := dropIf (fun t => t.n = n) h.tasks } }
          let s2 := (s1.updGrid g.gid others).heapEvent g.gid e.w.die fun h => h.enter n w
          s2.giveHandle e who d p g.handle true

/-- SPAWN (R394). -/
def execSpawn (c : Ctl) (d : Dst) (a : Opd) (p : BitVec 3) (s : State) : Out :=
  .next (issue { Form.short c [a] d.opds with heap := true } (holdRecord c a d 8) (fun e s =>
    let ps := e.parts c
    (opaThreads a d ps).foldl (fun s' t => s'.spawnOne e s a d p (resultThreads a d ps t) t) s) s)

end Sys2Proof.Machine
end

