-- ==== Sys2Proof/Machine/Graph.lean ====
section
/-! DEFINITION. The dependence graph: node records, starts and finishes (R327 to R330), `gpost` and `gwait` (R390, R391). -/

namespace Sys2Proof.Machine

/-! ## Node records (Table 16.5) -/

/-- The bytes of a node record. -/
def nodeBytes (w : List Word) : List Byte := (w.map wordBytes).flatten

/-- A number of `n` bytes at a place of a record. -/
def byteField (bs : List Byte) (i n : Nat) : Nat := leNat ((bs.drop i).take n)

/-- The fields of a node record (R328). -/
def nodeFields (bs : List Byte) : Bool :=
  let b := byteField bs
  decide (b 0 1 ≤ 1) && decide (b 2 1 ≤ 8) && decide (b 3 5 = 0) && decide (b 24 8 = 0) &&
    (List.range 8).all (fun k => decide (k < b 2 1) || decide (b (8 + 2 * k) 2 = 0)) &&
    (decide (b 0 1 = 0) || decide (b 40 24 = 0))

/-- The copy's words of a node record. -/
def nodeCopy (w : List Word) : List Word := w.drop 8

/-- Slots of a die's node queue. -/
def nodeRoom : Nat := 4096

def State.freeNodes (s : State) (d : Nat) : List Nat :=
  (List.range nodeRoom).filter fun k => !((s.die d).nodes.any fun n => n.slot = k)

def State.node? (s : State) (d slot : Nat) : Option Node := (s.die d).nodes.find? fun n => n.slot = slot

def State.setNode (s : State) (d : Nat) (n : Node) : State :=
  let di := s.die d
  s.setDie { di with nodes := putBy (fun x => x.slot = n.slot) n di.nodes }

/-! ## Starting (R329) -/

/-- The bytes of a kernel node's launch record, where it lies on a plain page. -/
def State.nodeRecordBytes (s : State) (d : Nat) (n : Node) : Option (List Nat) :=
  let off := n.recAddr - 0xC00000000000
  if n.recAddr < 0xC00000000000 ∨ 0xC00200000000 ≤ n.recAddr ∨ off % 64 ≠ 0 then none
  else
    match s.agentPage d n.tag off false with
    | none => none
    | some (a, x) => if leafMode x ≠ 0 then none else some (upFrom a 64)

/-- The words of a kernel node's launch record at its bytes, under the tag of its launch. -/
def State.nodeRecordWords (s : State) (n : Node) (bytes : List Nat) : List Word :=
  let bs := s.taggedBytes n.tag (bytes.headD 0) 64
  (List.range 16).map fun i => wordAt bs i

/-- The launch record of a kernel node, checked. -/
def State.nodeRecord (s : State) (d : Nat) (n : Node) : Option (Record × List Nat) :=
  (s.nodeRecordBytes d n).bind fun bytes => s.checkRecord d n.tag (s.nodeRecordWords n bytes)

/-- The lines of a kernel node's record, and then of its tables, that its start must wait for (R320, R349). -/
def State.nodeLines (s : State) (d : Nat) (n : Node) : List Nat :=
  match n.kernel, s.nodeRecordBytes d n with
  | true, some bytes =>
    let l := s.unitLines d false bytes
    if l.isEmpty then s.tableLines d n.tag (s.nodeRecordWords n bytes) else l
  | _, _ => []

/-- A kernel node starts its grid as a child of the posting grid; a rejected record starts none. -/
def State.startKernel (s : State) (d : Nat) (n : Node) : State :=
  let run := { n with st := .running, entry := none, ready := none }
  match s.nodeRecord d n, s.grid? n.gid, n.entry with
  | some (r, table), some g, some k =>
    let x := (s.setNode d run).startGrid (.node d n.slot) n.tag r table (some n.gid) (g.nest + 1) (some (s.entryOf d k))
    x.2.setNode d { run with child := some x.1 }
  | _, _, _ => (s.setNode d run).graphError d

/-- A copy node issues its copy; none where no slot is free. -/
def State.startCopyNode (s : State) (d : Nat) (n : Node) : Option State :=
  let prio := match s.grid? n.gid with
    | some g => g.lr.prio
    | none => 0
  let run := { n with st := .running, ready := none }
  match n.desc with
  | none => some ((s.setNode d run).graphError d)
  | some x =>
    match (s.setNode d run).enterCopy d x n.tag prio n.gid none (some n.slot) n.t with
    | .ok (some (_, s1)) => some s1
    | .ok none => none
    | .error _ => none

/-- The nodes of a die whose count is 0, in the order in which it reached 0. -/
def State.readyNodes (s : State) (d : Nat) : List Node :=
  sortOn (fun n => n.ready.getD 0) ((s.die d).nodes.filter fun n => decide (n.st = .waiting) && n.ready.isSome)

/-- The ready nodes of a die start in order, as far as copies find slots and records need not be waited for. -/
def State.startReady (s : State) (d : Nat) : State :=
  ((s.readyNodes d).foldl (fun (acc : State × Bool) n =>
    if !acc.2 then acc
    else if !(acc.1.nodeLines d n).isEmpty then (acc.1, false)
    else if n.kernel then (acc.1.startKernel d n, true)
    else
      match acc.1.startCopyNode d n with
      | some s1 => (s1, true)
      | none => (acc.1, false)) (s, true)).1

/-! ## Finishing (R329) -/

/-- A node's copy is DONE or FAILED, or its grid has retired. -/
def State.nodeDone (s : State) (d : Nat) (n : Node) : Bool :=
  decide (n.st = .running) &&
    (if n.kernel then
      match n.child with
      | none => true
      | some gid => match s.grid? gid with
        | some g => g.retired
        | none => true
    else !((s.die d).copies.any fun x => decide (x.node = some n.slot) && decide (x.st ≠ .done) && decide (x.st ≠ .failed)))

/-- One successor's count falls, or the decrement is discarded with GERR. -/
def State.decrement (s : State) (d h : Nat) : State :=
  match s.node? d (h % 4096) with
  | none => s.graphError d
  | some n =>
    if n.gen ≠ h / 4096 ∨ n.st ≠ .waiting ∨ n.pred = 0 then s.graphError d
    else
      let (k, s1) := s.newId
      s1.setNode d { n with pred := n.pred - 1, ready := if n.pred = 1 then some k else none }

/-- GRAPH_NODE_FINISH (R329): the node decrements its successors in list order and leaves its slot; those whose count has
reached 0 start. -/
def execGraphNodeFinish (d slot : Nat) (s : State) : Out :=
  match s.node? d slot with
  | none => .next s
  | some n =>
    if !s.nodeDone d n then .next s
    else
      let failed := n.failed || (s.die d).copies.any fun x => decide (x.node = some slot) && decide (x.st = .failed)
      let s1 := if failed then s.graphError d else s
      let s2 := n.succ.foldl (fun s h => s.decrement d h) s1
      let di := s2.die d
      let s3 := s2.setDie { di with
        nodes := dropIf (fun x => x.slot = slot) di.nodes
        nodeGens := setKey slot ((n.gen + 1) % 16) di.nodeGens
        copies := mapIf (fun x => x.node = some slot) (fun x => { x with node := none }) di.copies }
      .next (s3.startReady d)

/-! ## gpost and gwait -/

/-- The node record's words of a thread. -/
def Env.nodeWords (e : Env) (s : State) (t : Thread) (a : Opd) : List Word := (List.range 16).map (e.runWord s t a)

/-- The failing check of a `gpost` (R390). -/
def Env.nodeFail (e : Env) (w : List Word) : Option Fail :=
  let bs := nodeBytes w
  if !nodeFields bs then some (Fail.mk' 0 subField 0)
  else if byteField bs 0 1 = 0 then copyFail (nodeCopy w)
  else if nestLimit ≤ e.g.nest then some (Fail.mk' 20 0 0)
  else none

/-- A node entered; none where no slot, or for a kernel no child-grid entry, is free. -/
def State.enterNode (s : State) (e : Env) (t : Word) (w : List Word) : Option (Word × State) :=
  let d := e.w.die
  let bs := nodeBytes w
  let kernel := decide (byteField bs 0 1 = 1)
  let (n1, s1) := s.draw
  let (n2, s2) := s1.draw
  match chooseSlot n1 (s2.freeNodes d), (if kernel then chooseSlot n2 (s2.freeEntries d) else some 0) with
  | some k, some entry =>
    let (stamp, s3) := s2.newId
    let gen := lookupD k 0 (s3.die d).nodeGens
    let n : Node :=
      { slot := k, gen := gen, st := .waiting, kernel := kernel, pred := byteField bs 1 1,
        succ := (List.range (byteField bs 2 1)).map fun i => byteField bs (8 + 2 * i) 2,
        desc := if kernel then none else some (copyDesc (nodeCopy w)), recAddr := byteField bs 32 8, gid := e.g.gid,
        bid := some e.b.bid, ready := if byteField bs 1 1 = 0 then some stamp else none, tag := e.g.tag, child := none,
        entry := if kernel then some entry else none, failed := false, t := t }
    some (BitVec.ofNat 32 (gen % 16 * 4096 + k), (s3.setNode d n).startReady d)
  | _, _ => none

/-- One thread's `gpost`. -/
def State.gpostOne (s : State) (e : Env) (s0 : State) (a : Opd) (d : Dst) (p : BitVec 3) (who : List Thread) (t : Thread) :
    State :=
  let w := e.nodeWords s0 t a
  match e.nodeFail w with
  | some f => s.fail e t f
  | none =>
    match s.enterNode e (e.tnum t) w with
    | none => s.giveHandle e who d p noHandle false
    | some (h, s1) => s1.giveHandle e who d p h true

/-- GPOST (R390). -/
def execGpost (c : Ctl) (d : Dst) (a : Opd) (p : BitVec 3) (s : State) : Out :=
  .next (issue (Form.short c (a.run 16) d.opds) (holdRelease c) (fun e s =>
    let ps := e.parts c
    (opaThreads a d ps).foldl (fun s' t => s'.gpostOne e s a d p (resultThreads a d ps t) t) s) s)

/-- A node that a handle names has not left its slot (R391). -/
def State.nodeLive (s : State) (d : Nat) (h : Word) : Bool :=
  match s.node? d (h.toNat % 4096) with
  | some n => decide (n.gen % 16 = h.toNat / 4096)
  | none => false

/-- GWAIT (R391). -/
def execGwait (c : Ctl) (a : Opd) (s : State) : Out :=
  .next (issue (Form.short c [a] []) noHold (fun e s =>
    (e.parts c).foldl (fun s' t =>
      let h := e.read0 s t a
      if 65536 ≤ h.toNat then e.illegal s' t subField
      else if s.nodeLive e.w.die h then s'.updThread e.w.wid t.idx fun u => u.block (.node h)
      else s') s) s)

end Sys2Proof.Machine
end

