-- ==== Sys2Proof/Machine/Bivouac.lean ====
section
/-! DEFINITION. Stopping, saving and resuming blocks (R183, R278, R421 to R425), `preempt`, `halt`, and time-slicing (R426,
R456 to R459). -/

namespace Sys2Proof.Machine

/-! ## Stopping (R183, R422) -/

/-- The context of a block. -/
def State.tagOf (s : State) (b : Block) : BitVec 12 :=
  match s.grid? b.gid with
  | some g => g.tag
  | none => 0

/-- The slice of the core on which a block's context is sliced (R456). -/
def State.sliceOf (s : State) (b : Block) : Option (Core × Slice) :=
  ((s.slicedCore b.die (s.tagOf b)).bind fun c => c.slice.map fun x => (c, x))

/-- The block's warps are being stopped, or wait for a restore to end. -/
def State.stopping (s : State) (b : Block) : Bool :=
  ((s.die b.die).saves.any fun x => decide (b.bid ∈ x.bids)) ||
    (match s.grid? b.gid with
    | some g => g.ending.isSome
    | none => false) ||
    (match s.sliceOf b with
    | some (_, x) => decide (x.tag = s.tagOf b) && decide (x.phase ≠ .running)
    | none => false)

/-- The copies that the block's threads issued suspend: a queued one at once, a running one at its next boundary (R323,
R422); one that a `cpysus` stops there stays held (R388). -/
def Copy.preempted (x : Copy) : Copy :=
  match x.st with
  | .queued => x.stop .suspended 4
  | .running => if x.stopAt = some failStop then x else
    { x with
      stopAt := some 4
      hold := x.hold || decide (x.stopAt = some 0) }
  | .suspended => x
  | .faulted => x
  | .done => x
  | .failed => x

def State.stopCopies (s : State) (bid : Nat) : State :=
  { s with dies := s.dies.map fun d =>
      { d with copies := mapIf (fun x => x.bid = some bid) Copy.preempted d.copies } }

/-- Nothing of the block remains to be settled before its save (R422): no warp in the supervisor view, no request without a
reply, no access or register write on its way, no instruction that has only to complete, no copy that runs. -/
def State.quiet (s : State) (b : Block) : Bool :=
  let ws := s.warps.filter fun w => w.bid = b.bid
  ws.all (fun w => w.threads.all (fun t => !t.super || decide (t.st = .ended)) && w.pend.all (fun p => decide (p.wait ≠ .ready))) &&
    !(s.requests.any fun r => decide (r.wid ∈ b.wids)) && b.portions.isEmpty && b.gflight.isEmpty && b.gupdates.isEmpty &&
    !(s.dies.any fun d => d.copies.any fun x => decide (x.bid = some b.bid) &&
      (decide (x.st = .queued) || decide (x.st = .running)))

/-! ## Room (R278, R424, R457) -/

/-- Bytes of the core part of a block's state. -/
def State.coreBytes (s : State) (b : Block) : Nat :=
  let ws := s.warps.filter fun w => decide (w.bid = b.bid) && !w.overflowed
  (ws.map fun w => footprint w.vregs w.s.length + 1024).sum + b.cores.length * b.portion

/-- A sign register that a block has open or pending. -/
def SignReg.ownedBy (x : SignReg) (bid : Nat) : Bool := !x.saved && decide (x.st ≠ .free) && decide (x.bid = bid)

/-- A latch that a block has filled. -/
def SignReg.latchOf (x : SignReg) (bid : Nat) : Bool :=
  !x.saved && (match x.latch with
    | some y => decide (y.1 = bid)
    | none => false)

/-- Bytes of the engine part (R278). -/
def State.engineBytes (s : State) (b : Block) : Nat :=
  let cs := s.clusters.filter fun c => c.die = b.die
  let entries := (cs.map fun c => (c.table.filter fun x => x.bid = b.bid).length).sum
  let signs := (cs.map fun c => (c.signs.filter fun x => x.ownedBy b.bid).length).sum
  let latches := (cs.map fun c => (c.signs.filter fun x => x.latchOf b.bid).length).sum
  let lantern := cs.any fun c => match c.lantern with
    | some y => decide (y.1 ∈ b.wids)
    | none => false
  98304 * b.handles.length + 64 * entries + (64 + 49152) * signs + 49152 * latches + (if lantern then 64 else 0)

/-- KiB of a number of bytes. -/
def kib (n : Nat) : Nat := (n + 1023) / 1024

/-- The bytes of the core part and of the engine part that a saved block has in the bivouac area. -/
def State.saveParts (s : State) (b : Block) : Nat × Nat :=
  if b.saveBytes = 0 then (0, 0) else (s.coreBytes b, b.saveBytes - s.coreBytes b)

/-- KiB of a transfer of two parts (R457). -/
def partsKib (n : Nat × Nat) : Nat := kib n.1 + kib n.2

/-- Lines of a number of bytes. -/
def linesFor (n : Nat) : Nat := (n + 127) / 128

/-- Some more bytes fit in a die's bivouac area (R424). -/
def State.bivouacFits (s : State) (d n : Nat) : Bool :=
  decide ((s.areaUsed d).length + linesFor n ≤ areaLines (s.die d).bivSize)

/-- Free lines of an area, from its last downwards, by fuel over its lines. -/
def areaTake (used : List Nat) : Nat → Nat → Nat → List Nat
  | 0, _, _ => []
  | fuel + 1, top, n =>
    if n = 0 then []
    else if top ∈ used then areaTake used fuel (top - 1) n
    else top :: areaTake used fuel (top - 1) (n - 1)

/-- Lines of a die's area for some bytes: they are allocated to a context, and hold what is saved (R228, R229, R424). -/
def State.areaWrite (s : State) (d : Nat) (tag : BitVec 12) (id : Nat) (lines : List Nat) : State :=
  let s1 := s.recall d none lines true
  let bytes := fun (l : Nat) => (List.range 128).map (Config.areaByte id l)
  let s2 : State := { s1 with
    mem := lines.foldl (fun m l => m.writeBytes (l * 128) (bytes l)) s1.mem
    tags := lines.foldl (fun ts l => if tag = 0 then dropIf (fun x => x.1 = l) ts else setKey l tag ts) s1.tags }
  s2.heal (lines.map fun l => upFrom (l * 128) 128).flatten

/-! ## Saving -/

/-- A sign register as a save leaves it, with the record that goes to the bivouac area. -/
def SignReg.saveFor (x : SignReg) (bid : Nat) : List SignReg :=
  if x.ownedBy bid then
    if x.latchOf bid then [SignReg.blank x.q, { x with saved := true }]
    else [{ SignReg.blank x.q with latch := x.latch }, { x with saved := true, latch := none }]
  else if x.latchOf bid then
    [{ x with latch := none }, { SignReg.blank x.q with bid := bid, latch := x.latch, saved := true }]
  else [x]

/-- A cluster's engine with a block's state in the bivouac area (R278). -/
def Cluster.saveBlock (c : Cluster) (b : Block) : Cluster :=
  { c with
    handles := mapIf (fun h => h.bid = b.bid) (fun h => { h with saved := true }) c.handles
    table := mapIf (fun x => x.bid = b.bid) (fun x => { x with saved := true }) c.table
    signs := (c.signs.map fun x => x.saveFor b.bid).flatten
    pass := match c.pass with
      | some p => if c.table.any fun x => decide (x.id = p.entry) && decide (x.bid = b.bid) then none else some p
      | none => none
    lantern := match c.lantern with
      | some y => if y.1 ∈ b.wids then none else some y
      | none => none }

/-- The lantern that a block holds, with its ring. -/
def State.lanternOf (s : State) (b : Block) : Option (Nat × List Nat) :=
  s.clusters.findSome? fun c => if c.die ≠ b.die then none else match c.lantern with
    | some y => if y.1 ∈ b.wids then some (y.1, y.2.1) else none
    | none => none

/-- A block saved: its warps leave their slots with their register caches written back; `n` bytes stand in lines of the
bivouac area, with the context's tag. -/
def State.saveBlock (s : State) (b : Block) (n : Nat) : State :=
  let (id, s1) := s.newId
  let again := match s.lanternOf b with
    | some x => some x
    | none => b.lanternAgain
  let lines := areaTake (s1.areaUsed b.die) (areaLines (s1.die b.die).bivSize) (s1.areaTop b.die) (linesFor n)
  let s2 := ((s1.warps.filter fun w => decide (w.bid = b.bid) && w.active).foldl (fun s w => s.leaveActive w) s1).areaWrite
    b.die (s1.tagOf b) id lines
  { s2 with
    warps := mapIf (fun w => w.bid = b.bid) (fun w => { w with saved := true }) s2.warps
    clusters := s2.clusters.map fun c => if c.die = b.die then c.saveBlock b else c
    blocks := mapIf (fun x => x.bid = b.bid)
      (fun x => { x with saveId := some id, saveBytes := n, saveLines := lines, lanternAgain := again }) s2.blocks }

/-! ## Resuming (R425) -/

/-- The need of a placed block. -/
def State.blockNeed (s : State) (b : Block) : Need :=
  let ws := s.warps.filter fun w => w.bid = b.bid
  { threads := (ws.map fun w => w.threads.length).sum
    vregs := (ws.map fun w => w.vregs).headD 0
    uregs := (ws.map fun w => w.s.length).headD 0
    shBytes := b.shBytes
    handles := b.hcount
    triple := b.triple }

/-- The saved sign registers of a block. -/
def State.savedSigns (s : State) (b : Block) : List SignReg :=
  ((s.clusters.filter fun c => c.die = b.die).map fun c => c.signs.filter fun x => x.saved && decide (x.bid = b.bid)).flatten

/-- The sign registers of the numbers of a block's saved ones are FREE in a cluster (R278). -/
def State.signsFree (s : State) (b : Block) (cl : Nat) : Bool :=
  (s.savedSigns b).all fun x => decide ((s.sign b.die cl x.q).st = .free)

/-- The clusters of a block's handles, first the block's first cluster. -/
def engineList (cores : List Nat) : List Nat := (cores.map fun k => k / 4).eraseDups.take 2

/-- The reservation tables have room for a block's saved entries, with its engines among some cores (R271). -/
def State.tablesFit (s : State) (b : Block) (cores : List Nat) : Bool :=
  let parts := fun (c : Cluster) => (c.table.filter fun x => decide (x.kind = .op) && x.saved && decide (x.bid = b.bid)).length
  ((engineList b.cores).zip (engineList cores)).all fun x =>
    decide ((s.cluster b.die x.2).parts + parts (s.cluster b.die x.1) ≤ tableRoom)

/-- The cores that a saved block takes with a first cluster: as many as it had. -/
def State.resumeIn (s : State) (b : Block) (cl : Nat) : Option (List Nat) :=
  let need := s.blockNeed b
  let tag := s.tagOf b
  let only := (s.slicedCore b.die tag).map fun c => c.core
  match rankRuns b.cores.length with
  | [] => none
  | r :: rs =>
    let cores := match only with
      | some k => if k / 4 = cl && s.coreUsable b.die tag k && need.fits 1 0 (s.room b.die k) then some [k] else none
      | none => (s.takeRanks b.die tag need b.cores.length cl r []).bind (s.takeRuns b.die tag need b.cores.length rs)
    match cores with
    | none => none
    | some l => if s.enginesFit b.die l b.hcount && s.signsFree b cl && s.tablesFit b l then some l else none

/-- The lines of a saved block carry its context's tag: what the runtime has moved elsewhere has been brought back (R424). -/
def State.areaHeld (s : State) (b : Block) : Bool := b.saveLines.all fun l => decide (s.lineTag (l * 128) = s.tagOf b)

/-- The cores for a saved block, the lowest first cluster first. -/
def State.resumeCores (s : State) (b : Block) : Option (List Nat) :=
  if s.areaHeld b then (List.range s.dieClusters).findSome? (s.resumeIn b) else none

/-- The cluster that takes the place of an old one. -/
def movedCl (old new : List Nat) (cl : Nat) : Nat :=
  match old.findIdx? fun k => k = cl with
  | some i => new.getD i cl
  | none => cl

/-- A saved record of a sign register into its new cluster. -/
def Cluster.putSign (c : Cluster) (x : SignReg) (old new : List Nat) : Cluster :=
  let live := (c.signs.find? fun y => y.q = x.q && !y.saved).getD (SignReg.blank x.q)
  let y := if x.st = .free then { live with latch := x.latch }
    else { x with saved := false, toEnter := x.toEnter.map (movedCl old new), latch := (match x.latch with
      | some l => some l
      | none => live.latch) }
  { c with signs := putBy (fun z => z.q = x.q && !z.saved) y c.signs }

/-- The engine state of a block taken out of the bivouac area into its new engines. -/
def State.moveEngine (s : State) (b : Block) (cores : List Nat) (slots : List (Nat × Nat)) : State :=
  let old := engineList b.cores
  let new := engineList cores
  let mine := s.clusters.filter fun c => c.die = b.die
  let hs := (mine.map fun c => c.handles.filter fun h => h.saved && decide (h.bid = b.bid)).flatten
  let signs := s.savedSigns b
  let entries := (mine.map fun c => (c.table.filter fun x => x.saved && decide (x.bid = b.bid)).map fun x => (c.cl, x)).flatten
  let cut := fun (c : Cluster) =>
    { c with
      handles := dropIf (fun h => h.saved && decide (h.bid = b.bid)) c.handles
      signs := dropIf (fun x => x.saved && decide (x.bid = b.bid)) c.signs
      table := dropIf (fun x => x.saved && decide (x.bid = b.bid)) c.table }
  let s1 : State := { s with clusters := s.clusters.map fun c => if c.die = b.die then cut c else c }
  let place := fun (s : State) (h : Nat) =>
    let dest := slots.getD h (0, 0)
    let c := s.cluster b.die dest.1
    let x := (hs.find? fun y => y.h = h).getD (Handle.fresh dest.2 b.bid h)
    s.setCluster { c with handles := c.handles ++ [{ x with slot := dest.2, saved := false }] }
  let s2 := (List.range b.hcount).foldl place s1
  let s3 := signs.foldl (fun s x => s.setCluster ((s.cluster b.die (new.headD 0)).putSign x old new)) s2
  entries.foldl (fun s x =>
    let c := s.cluster b.die (movedCl old new x.1)
    s.setCluster { c with table := c.table ++ [{ x.2 with saved := false }] }) s3

/-- A pre-empted copy continues with its warp, unless it is held (R388). -/
def State.resumeCopies (s : State) (bid : Nat) : State :=
  let all := (s.dies.map fun d => (d.copies.filter fun x => decide (x.bid = some bid) && decide (x.st = .suspended) &&
    decide (x.cause = 4)).map fun x => (d.die, x)).flatten
  all.foldl (fun s x =>
    if x.2.hold then s.setCopy x.1 { x.2 with cause := 0, hold := false } else s.copyRequeue x.1 x.2) s

/-- A saved block on its new cores (R425): slots, handles, sign registers and entries follow; every register of its warps
starts untagged (R177), and their accesses translate anew in the present epoch (R317). -/
def State.resumeBlock (s : State) (b : Block) (cores : List Nat) : State :=
  let c := cores.length
  let slots := s.handleSlots b.die cores b.hcount
  let (stamp, s0) := s.newId
  let s1 := s0.moveEngine b cores slots
  let seat := fun (w : Warp) =>
    let rank := w.index % c
    let core := cores.getD rank 0
    { w with
      core := core
      rank := rank
      slot := (s.freeSlots b.die core).getD (w.index / c) 0
      placed := stamp
      saved := false
      active := false
      utag := w.utag.map fun _ => false
      pend := w.pend.map fun p => { p with epoch := p.epoch.map fun _ => (s.die b.die).qepoch }
      idleSince := none }
  let s2 : State := { s1 with warps := mapIf (fun w => w.bid = b.bid) seat s1.warps }
  (s2.updBlock b.bid fun b => { b with cores := cores, handles := slots, saveId := none, saveBytes := 0, saveLines := [] }).resumeCopies b.bid

/-- The blocks of a context saved on a die, in the order of their saves. -/
def State.savedBlocks (s : State) (d : Nat) (tag : BitVec 12) : List Block :=
  sortOn (fun b => b.saveId.getD 0) (s.blocks.filter fun b =>
    decide (b.die = d) && b.inBivouac && !b.kept && decide (s.tagOf b = tag))

/-- A block may resume: it is the first of its context on its die, no slicing of the context goes on, and it fits. -/
def State.mayResume (s : State) (b : Block) : Option (List Nat) :=
  let tag := s.tagOf b
  if !b.inBivouac || b.kept || decide (((s.savedBlocks b.die tag).head?.map fun x => x.bid) ≠ some b.bid) then none
  else if (s.sliceOf b).isSome then none
  else s.resumeCores b

/-- BLOCK_RESUME (R425): class 25 goes to the context restored. -/
def execBlockResume (bid : Nat) (s : State) : Out :=
  match s.block? bid with
  | none => .next s
  | some b =>
    match s.mayResume b with
    | none => .next s
    | some cores => .next ((s.resumeBlock b cores).charge (s.tagOf b) 25 (partsKib (s.saveParts b)))

/-! ## preempt (R421) -/

/-- Warps of a context on a core. -/
def State.ctxWarps (s : State) (d core : Nat) (tag : BitVec 12) : List Warp :=
  (s.standing d core).filter fun w => s.tagOfWarp w = some tag

/-- The cores to vacate: the fewest warps first, then the higher number. -/
def State.vacateCores (s : State) (d n : Nat) (tag : BitVec 12) : List Nat :=
  let held := (List.range s.dieCores).filter fun k => !(s.ctxWarps d k tag).isEmpty
  (sortOn (fun k => (s.ctxWarps d k tag).length * 256 + (255 - k)) held).take n

/-- The blocks of a context with a warp on some cores. -/
def State.blocksOn (s : State) (d : Nat) (tag : BitVec 12) (cores : List Nat) : List Nat :=
  (s.blocks.filter fun b => decide (b.die = d) && !b.inBivouac && decide (s.tagOf b = tag) &&
    b.cores.any fun k => decide (k ∈ cores)).map fun b => b.bid

/-- PREEMPT: the blocks stop; the group waits until the cores are free. -/
def execPreempt (c : Ctl) (d : Dst) (a b : Opd) (s : State) : Out :=
  .next (issue (Form.sup c [a, b] d.opds) noHold (fun e s =>
    let ps := e.parts c
    match ps with
    | [] => s
    | t :: _ =>
      let va := e.read0 s t a
      let vb := e.read0 s t b
      let n := (vb.extractLsb' 0 8).toNat
      let die := (vb.extractLsb' 8 2).toNat
      if va.extractLsb' 12 20 ≠ 0 ∨ vb.extractLsb' 10 22 ≠ 0 ∨ n = 0 ∨ 160 < n then e.illegal s t subField
      else
        let tag := va.extractLsb' 0 12
        let cores := s.vacateCores die n tag
        let bids := s.blocksOn die tag cores
        let (id, s1) := s.newId
        let di := s1.die die
        let s2 := s1.setDie { di with saves := di.saves ++ [{ id := id, tag := tag, cores := cores, bids := bids }] }
        let s3 := bids.foldl State.stopCopies s2
        ps.foldl (fun s' t => s'.updThread e.w.wid t.idx fun u => u.block (.vacate id d)) s3) s)

/-- A block no longer to be saved. -/
def State.saveOver (s : State) (d bid : Nat) : State :=
  let di := s.die d
  s.setDie { di with saves := di.saves.map fun x => { x with bids := x.bids.erase bid } }

/-- The core whose vacating a stopped block waits for: the first of the save's that it stands on and that has not been
refused. -/
def Save.coreOf (x : Save) (b : Block) : Option Nat := x.cores.find? fun k => decide (k ∉ x.refused) && decide (k ∈ b.cores)

/-- The blocks still to be saved that stand on a core: they are saved together (R421). -/
def State.saveGroup (s : State) (x : Save) (k : Nat) : List Block := s.blocks.filter fun b => decide (b.bid ∈ x.bids) && decide (k ∈ b.cores)

/-- The save of a block whose core's blocks are all quiet, with the core. -/
def State.saveDue (s : State) (b : Block) : Option (Save × Nat) :=
  match (s.die b.die).saves.find? fun x => decide (b.bid ∈ x.bids) with
  | none => none
  | some x => (x.coreOf b).bind fun k => if (s.saveGroup x k).all s.quiet then some (x, k) else none

/-- A core vacated: its blocks are in the bivouac area; class 24 goes to the context saved (R430). -/
def State.saveAll (s : State) (l : List Block) : State :=
  l.foldl (fun s b =>
    let k := partsKib (s.coreBytes b, s.engineBytes b)
    ((s.saveBlock b (s.coreBytes b + s.engineBytes b)).saveOver b.die b.bid).charge (s.tagOf b) 24 k) s

/-- A core that is not vacated, as its state has found no room (R424): a block of it goes on where no other core of the save
asks for it. -/
def State.saveRefused (s : State) (d : Nat) (x : Save) (k : Nat) (l : List Block) : State :=
  let y := { x with refused := k :: x.refused }
  let s1 := s.setDie { s.die d with saves := mapIf (fun z => z.id = x.id) (fun _ => y) (s.die d).saves }
  (l.filter fun b => (y.coreOf b).isNone).foldl (fun s b => (s.resumeCopies b.bid).saveOver d b.bid) s1

/-- BIVOUAC_SAVE_END (R421, R422, R424): the stopped blocks of a core are in the bivouac area, or stay where the core's state
does not fit. -/
def execBivouacSaveEnd (bid : Nat) (s : State) : Out :=
  match s.block? bid with
  | none => .next s
  | some b =>
    match s.saveDue b with
    | none => .next s
    | some (x, k) =>
      let l := s.saveGroup x k
      let n := (l.map fun b => linesFor (s.coreBytes b + s.engineBytes b)).sum
      if s.bivouacFits b.die (128 * n) then .next (s.saveAll l) else .next (s.saveRefused b.die x k l)

/-! ## halt (R427) -/

/-- A launch of a context. -/
def Grid.launchOf (tag : BitVec 12) (g : Grid) : Bool := decide (g.tag = tag) && !g.retired && decide (g.kind ≠ .service)

/-- The launches of a context. -/
def State.gridsOf (s : State) (tag : BitVec 12) : List Grid := s.grids.filter (Grid.launchOf tag)

/-- The body of `halt`: the launches stop, and the group waits until they have ended. -/
def haltWord (c : Ctl) (a : Opd) (keep : Bool) : State → State :=
  issue (Form.sup c [a] []) noHold fun e s =>
    (e.parts c).foldl (fun s' t =>
      let va := e.read0 s t a
      let tag := va.extractLsb' 0 12
      if va.extractLsb' 12 20 ≠ 0 then e.illegal s' t subField
      else if (s'.gridsOf tag).isEmpty then s'
      else
        let x : Ending := { keep := keep, status := 3, report := none, handler := none, trapped := none }
        (s'.beginEnd ((s'.gridsOf tag).map fun g => g.gid) x).updThread e.w.wid t.idx fun u => u.block (.ending tag)) s

/-- HALT. -/
def execHalt (c : Ctl) (a : Opd) (s : State) : Out := .next (haltWord c a false s)

/-- HALT_KEEP. -/
def execHaltKeep (c : Ctl) (a : Opd) (s : State) : Out := .next (haltWord c a true s)

/-! ## The end of a tree (R416, R427) -/

/-- A thread whose `eret` the end of its launch awaits: it stands in the supervisor view, and not for the trap that ends the
launch, nor for one without a resumption (R157, R422). -/
def State.awaited (s : State) (x : Ending) (w : Warp) (t : Thread) : Bool :=
  t.super && decide (t.st ≠ .ended) && decide (x.trapped ≠ some (w.wid, t.idx)) && !t.trappedFor (s.attached w.die t.owner)

/-- The block of a launch that ends has stopped (R422). -/
def State.endQuiet (s : State) (x : Ending) (b : Block) : Bool :=
  let ws := s.warps.filter fun w => w.bid = b.bid
  b.inBivouac ||
    ((b.hung || ws.all fun w => w.threads.all fun t => !s.awaited x w t) &&
      ws.all (fun w => w.pend.all fun p => decide (p.wait ≠ .ready)) &&
      !(s.requests.any fun r => decide (r.wid ∈ b.wids)) && b.portions.isEmpty && b.gflight.isEmpty && b.gupdates.isEmpty)

/-- The tree under a launch has stopped and ends: its blocks and its copies. -/
def State.endReady (s : State) (root : Nat) : Bool :=
  match (s.grid? root).bind fun g => g.ending with
  | none => false
  | some x =>
    let gids := s.wholeTree root
    (s.blocks.all fun b => !decide (b.gid ∈ gids) || s.endQuiet x b) &&
      !(s.dies.any fun d => d.copies.any fun c => decide (c.gid ∈ gids) && decide (c.st = .running))

/-- A block kept for inspection, where it fits. -/
def State.keepBlock (s : State) (b : Block) : State :=
  if b.inBivouac then s.updBlock b.bid fun x => { x with kept := true }
  else
    let n := s.coreBytes b + s.engineBytes b
    if s.bivouacFits b.die n then (s.saveBlock b n).updBlock b.bid fun x => { x with kept := true } else s

/-- The tree under a launch ends: its grids go, blocks kept for inspection stay, with no launch, and the host receives the
end record, with a double trap the handler's record too (R159, R416, R427). -/
def State.finishEnd (s : State) (root : Nat) : State :=
  match s.grid? root with
  | none => s
  | some g =>
    match g.ending with
    | none => s
    | some x =>
      let gids := s.wholeTree root
      let s1 : State := if x.keep then (s.blocks.filter fun b => decide (b.gid ∈ gids)).foldl State.keepBlock s else s
      let s2 := (s1.removeGrids gids).endRecord { g with report := x.report } x.status
      match x.handler with
      | none => s2
      | some r => s2.send (.handlerRecord root r.1 r.2.1 r.2.2.1 r.2.2.2)

/-- RUNTIME_END_LAUNCH (R416): the end of the launch's tree begins, and is complete where nothing is left to stop. -/
def execRuntimeEndLaunch (gid : Nat) (status : Byte) (s : State) : Out :=
  match s.grid? gid with
  | none => .next s
  | some g =>
    if g.retired then .next s
    else
      let s1 := s.endTree gid status
      let root := s1.rootOf s1.grids.length gid
      if s1.endReady root then .next (s1.finishEnd root) else .next s1

/-- The runtime frees blocks kept for inspection (R427). -/
def State.freeKept (s : State) (bids : List Nat) : State :=
  (s.blocks.filter fun b => b.kept && decide (b.bid ∈ bids)).foldl State.dropBlock s

/-! ## Time-slicing (R426, R456 to R459) -/

/-- The other context that a core's TSCTL names. -/
def Core.otherTag (c : Core) (tag : BitVec 12) : BitVec 12 :=
  let a := c.tsctl.extractLsb' 0 12
  if a = tag then c.tsctl.extractLsb' 12 12 else a

/-- Cycles of a slice. -/
def Core.sliceCycles (c : Core) : Nat := 4096 * (c.tsctl.extractLsb' 24 8).toNat

/-- The running slice of a core restarts now. -/
def State.beginSlice (s : State) (c : Core) (tag : BitVec 12) : State :=
  let k := s.core c.die c.core
  s.setCore { k with slice := some { tag := tag, expiry := s.now + k.sliceCycles, phase := .running } }

/-- The blocks of a context that stand on a core. -/
def State.sliceBlocks (s : State) (c : Core) (tag : BitVec 12) : List Block :=
  s.blocks.filter fun b => decide (b.die = c.die) && !b.inBivouac && decide (s.tagOf b = tag) && decide (c.core ∈ b.cores)

/-- The saved and unstarted blocks of a context for a core. -/
def State.sliceSaved (s : State) (c : Core) (tag : BitVec 12) : List Block := s.savedBlocks c.die tag

/-- Bytes of some blocks: core part and engine part. -/
def State.sliceBytes (s : State) (l : List Block) : Nat × Nat :=
  ((l.map s.coreBytes).sum, (l.map s.engineBytes).sum)

/-- Bytes of the lines that the blocks take in the bivouac area (R424). -/
def State.sliceRoom (s : State) (l : List Block) : Nat :=
  128 * (l.map fun b => linesFor (s.coreBytes b + s.engineBytes b)).sum

/-- TIME_SLICE_EXPIRY (R426): at the expiry the running context stops where another waits and its state fits; SLICE 0 ends
slicing. -/
def execTimeSliceExpiry (d core : Nat) (s : State) : Out :=
  let c := s.core d core
  match c.slice with
  | none => .next s
  | some x =>
    if x.phase ≠ .running ∨ s.now < x.expiry then .next s
    else if c.sliceCycles = 0 then .next (s.setCore { c with slice := none })
    else
      if (s.sliceSaved c (c.otherTag x.tag)).isEmpty || !s.bivouacFits d (s.sliceRoom (s.sliceBlocks c x.tag)) then .next (s.beginSlice c x.tag)
      else
        let s1 := s.setCore { c with slice := some { x with phase := .saving } }
        .next ((s.sliceBlocks c x.tag).foldl (fun s b => s.stopCopies b.bid) s1)

/-- The saved blocks of a context that fit the core again take their slots, in the order of their saves, in one transfer. -/
def State.restoreSome (s : State) (c : Core) (tag : BitVec 12) : State :=
  let r := (s.sliceSaved c tag).foldl (fun (acc : State × (Nat × Nat)) b =>
    match acc.1.resumeCores b with
    | none => acc
    | some cores =>
      let n := acc.1.saveParts b
      (acc.1.resumeBlock b cores, (acc.2.1 + n.1, acc.2.2 + n.2))) (s, (0, 0))
  r.1.charge tag 25 (partsKib r.2)

/-- The restore of a context on a core begins (R457, R458). -/
def State.beginRestore (s : State) (c : Core) (tag : BitVec 12) : State :=
  let k := s.core c.die c.core
  (s.setCore { k with slice := some { tag := tag, expiry := 0, phase := .restoring } }).restoreSome c tag

/-- SLICE_TRANSFER_END (R426, R457 to R459): the save of the stopped context ends and the other's restore begins, or where its
state does not fit the area it keeps the core for another slice; or a restore ends and its slice begins, and blocks that
have found no room wait for the next restore. -/
def execSliceTransferEnd (d core : Nat) (s : State) : Out :=
  let c := s.core d core
  match c.slice with
  | none => .next s
  | some x =>
    match x.phase with
    | .running => .next s
    | .saving =>
      let bs := s.sliceBlocks c x.tag
      if !(bs.all s.quiet) then .next s
      else
        let n := s.sliceBytes bs
        if !s.bivouacFits d (s.sliceRoom bs) then
          .next (bs.foldl (fun s b => s.resumeCopies b.bid) (s.beginSlice c x.tag))
        else
          let s1 := bs.foldl (fun s' b => s'.saveBlock b (s.coreBytes b + s.engineBytes b)) s
          .next ((s1.charge x.tag 24 (partsKib n)).beginRestore c (c.otherTag x.tag))
    | .restoring => .next (s.beginSlice c x.tag)

end Sys2Proof.Machine
end

