-- ==== Sys2Proof/Machine/Package.lean ====
section
/-! DEFINITION. The launch tape and its sweep (R418 to R420), checkpoints (R428), and energy read and apportioned (R431,
R433). The drain of a checkpoint stands with main memory. -/

namespace Sys2Proof.Machine

/-! ## The launch tape -/

/-- Records that the tape holds. -/
def tapeRoom : Nat := 4096

/-- The system physical address of a record of a context's tape. -/
def Ctx.tapeAddr (c : Ctx) (i : Nat) : Nat := c.ltbase.toNat * 2 ^ 16 + 64 * i

/-- A record put on a context's tape at POS. -/
def State.tapePut (s : State) (d : Nat) (tag : BitVec 12) (w : List Word) : State :=
  let c := s.ctx tag
  let at' := upFrom (c.tapeAddr c.ltpos) 64
  let s1 := ((s.chargeRun d tag true at').charge tag 19 1).mainWrite tag (at'.zip ((nodeBytes w).map some))
  s1.setCtx { s1.ctx tag with ltpos := c.ltpos + 1 }

/-- One thread's `lpush`. -/
def State.lpushOne (s : State) (e : Env) (s0 : State) (a : Opd) (p : BitVec 3) (t : Thread) : State :=
  match s.readRecord e t (e.read0 s0 t a).toNat 16 64 with
  | .error f => s.fail e t f
  | .ok w =>
    if (s.checkRecord e.w.die e.g.tag w).isNone then e.illegal s t subField
    else
      let c := s.ctx e.g.tag
      let s1 := s.chargeRecord e t (e.read0 s0 t a).toNat 16
      if tapeRoom ≤ c.ltpos || c.sweep.isSome then s1.setPred e.w.wid t.idx p 0
      else (s1.tapePut e.w.die e.g.tag w).setPred e.w.wid t.idx p 7

/-- The hold of a participant that reads a launch record and releases (R343, R320). -/
def holdPush (c : Ctl) (a : Opd) (s : State) (e : Env) (t : Thread) : Option Hold :=
  match holdRelease c s e t with
  | some x => some x
  | none => if t.predTrue c.pred c.neg then s.launchWait e t (e.read0 s t a).toNat else none

/-- LPUSH (R419): once for each participant, in ascending thread index. -/
def execLpush (c : Ctl) (a : Opd) (p : BitVec 3) (s : State) : Out :=
  .next (issue (Form.short c [a] []) (holdPush c a) (fun e s =>
    (e.parts c).foldl (fun s' t => s'.lpushOne e s a p t) s) s)

/-! ## The sweep -/

/-- The records of an update list from record `k` on (R420). -/
def State.readUpdates (s : State) (e : Env) (t : Thread) (off : Nat) : Nat → Nat → Except Fail (List (List Word))
  | 0, _ => .ok []
  | n + 1, k =>
    match s.readRecord e t (off + 64 + 64 * k) 16 64 with
    | .error f => .error f
    | .ok w =>
      match State.readUpdates s e t off n (k + 1) with
      | .error f => .error f
      | .ok l => .ok (w :: l)

/-- The record of a grid that runs no blocks of its own. -/
def noRecord (d : Nat) : Record := recordOf (List.replicate 16 0) d

/-- The `lsweep` of the lowest participant. -/
def State.lsweepOne (s : State) (e : Env) (s0 : State) (a : Opd) (d : Dst) (p : BitVec 3) (ps : List Thread) (t : Thread) :
    State :=
  let off := (e.read0 s0 t a).toNat
  match s.readRecord e t off 1 64 with
  | .error f => s.fail e t f
  | .ok head =>
    let u := recWord head 0 % 2 ^ 13
    if 4096 < u then e.illegal s t subField
    else
      match s.readUpdates e t off u 0 with
      | .error f => s.fail e t f
      | .ok l =>
        let s1 := (s.chargeRecord e t off 1).chargeRecord e t (off + 64) (16 * u)
        if (s.ctx e.g.tag).sweep.isSome || decide (nestLimit - 1 ≤ e.g.nest) then s1.giveHandle e ps d p noHandle false
        else
          match s1.launchChild e .sweep (noRecord e.w.die) [] with
          | none => s1.giveHandle e ps d p noHandle false
          | some (h, gid, s2) =>
            let w : Sweep := { gid := gid, updates := l, started := false }
            (s2.setCtx { s2.ctx e.g.tag with sweep := some w }).giveHandle e ps d p h true

/-- The hold of `lsweep`: a release, and the lines of the update list, its head first. -/
def holdSweep (c : Ctl) (a : Opd) (s : State) (e : Env) (t : Thread) : Option Hold :=
  match holdRelease c s e t with
  | some x => some x
  | none =>
    let off := (e.read0 s t a).toNat
    if !t.predTrue c.pred c.neg then none
    else match s.recordWait e t off 16 false, s.readRecord e t off 1 64 with
      | some x, _ => some x
      | none, .error _ => none
      | none, .ok head =>
        let u := recWord head 0 % 2 ^ 13
        if 4096 < u then none else (List.range u).findSome? fun k => s.recordWait e t (off + 64 + 64 * k) 16 false

/-- LSWEEP (R420): once per issue. -/
def execLsweep (c : Ctl) (d : Dst) (a : Opd) (p : BitVec 3) (s : State) : Out :=
  .next (issue (Form.short c [a] d.opds) (holdSweep c a) (fun e s =>
    let ps := e.parts c
    (ps.take 1).foldl (fun s' t => s'.lsweepOne e s a d p ps t) s) s)

/-- The words of a record on a context's tape; none where a byte is poisoned. -/
def State.tapeRecord (s : State) (tag : BitVec 12) (i : Nat) : Option (List Word) :=
  let bytes := (upFrom ((s.ctx tag).tapeAddr i) 64).map (s.agentRead tag)
  if bytes.any fun b => b.isNone then none
  else
    let bs := bytes.map fun b => b.getD 0
    some ((List.range 16).map fun k => wordAt bs k)

/-- A sweep over: its grid retires. -/
def State.endSweep (s : State) (tag : BitVec 12) (g : Grid) (err : Bool) : State :=
  let c := s.ctx tag
  (s.setCtx { c with
    lterr := c.lterr || err
    sweep := none }).retire g

/-- The die of a sweep's entry. -/
def Grid.entryDie (g : Grid) : Nat :=
  match g.entry with
  | some (d, _, _) => d
  | none => 0

/-- The grids that a sweep has started and that have not retired. -/
def State.sweptBy (s : State) (gid : Nat) : List Grid := s.grids.filter fun g => decide (g.kind = .swept gid) && !g.retired

/-- A record of a sweep started with a free child-grid entry: as a child of the sweeping grid, whose child the sweep is, at
the sweep's level. -/
def State.sweepStart (s : State) (g : Grid) (k : Nat) (x : Record × List Nat) : State :=
  let d := g.entryDie
  (s.startGrid (.swept g.gid) g.tag x.1 x.2 g.parent g.nest (some (s.entryOf d k))).2

/-- A record of a sweep is too deep to start: its grid would pass the limit, or stand at the limit where the sweep's own
level counts (log 112). -/
def tooDeep (nest : Nat) : Bool := decide (nestLimit < nest) || (decide (nestLimit ≤ nest + 1) && Config.sweepCounts)

/-- A record that can start as a child of the sweeping grid (R414, R420). -/
def State.sweepable (s : State) (g : Grid) (w : Option (List Word)) : Option (Record × List Nat) :=
  match w with
  | none => none
  | some w => if tooDeep g.nest then none else s.checkRecord g.entryDie g.tag w

/-- The newest record of the tape started, or the sweep ended where it cannot start. -/
def State.sweepTape (s : State) (tag : BitVec 12) (g : Grid) : State :=
  let c := s.ctx tag
  let i := c.ltpos - 1
  let s0 := (s.chargeRun g.entryDie tag false (upFrom (c.tapeAddr i) 64)).charge tag 19 1
  match s0.sweepable g (s0.tapeRecord tag i), s0.freeEntries g.entryDie with
  | none, _ => s0.endSweep tag g true
  | some _, [] => s
  | some x, l =>
    let (n, s1) := s0.draw
    match chooseSlot n l with
    | none => s
    | some k =>
      let s2 := s1.setCtx { s1.ctx tag with ltpos := i }
      s2.sweepStart g k x

/-- The next update record started, or skipped with ERR where it cannot start. -/
def State.sweepUpdate (s : State) (tag : BitVec 12) (g : Grid) (w : Sweep) : State :=
  match w.updates with
  | [] => s
  | r :: rest =>
    let c := s.ctx tag
    let next : Sweep := { w with updates := rest, started := true }
    match s.sweepable g (some r), s.freeEntries g.entryDie with
    | none, _ => s.setCtx { c with
        lterr := true
        sweep := some next }
    | some _, [] => s
    | some x, l =>
      let (n, s1) := s.draw
      match chooseSlot n l with
      | none => s
      | some k => (s1.setCtx { c with sweep := some next }).sweepStart g k x

/-- The next move of a sweep, where one is due. -/
def State.sweepNext (s : State) (tag : BitVec 12) : State :=
  match (s.ctx tag).sweep with
  | none => s
  | some w =>
    match s.grid? w.gid with
    | none => s
    | some g =>
      let idle := (s.sweptBy g.gid).isEmpty
      if w.started || (idle && decide ((s.ctx tag).ltpos = 0)) then
        if w.updates.isEmpty then (if idle then s.endSweep tag g false else s)
        else w.updates.foldl (fun s _ =>
          match (s.ctx tag).sweep with
          | none => s
          | some w => s.sweepUpdate tag g w) s
      else if idle then s.sweepTape tag g
      else s

/-- The lines that the next start of a sweep must wait for: those of the tape's newest record, or of the tables of the
record (R320, R349). -/
def State.sweepLines (s : State) (tag : BitVec 12) (g : Grid) (w : Sweep) : List Nat :=
  let tables := fun (x : Option (List Word)) => match x with
    | some x => s.tableLines g.entryDie tag x
    | none => []
  if w.started || decide ((s.ctx tag).ltpos = 0) then (w.updates.map fun x => tables (some x)).flatten
  else
    let i := (s.ctx tag).ltpos - 1
    s.unitLines g.entryDie false (upFrom ((s.ctx tag).tapeAddr i) 64) ++ tables (s.tapeRecord tag i)

/-- A sweep has a move to make. -/
def State.sweepDue (s : State) (tag : BitVec 12) : Bool :=
  match (s.ctx tag).sweep with
  | none => false
  | some w =>
    match s.grid? w.gid with
    | none => false
    | some g =>
      let idle := (s.sweptBy g.gid).isEmpty
      let room := !(s.freeEntries g.entryDie).isEmpty && (s.sweepLines tag g w).isEmpty
      if g.ending.isSome then false
      else if w.started || (idle && decide ((s.ctx tag).ltpos = 0)) then (if w.updates.isEmpty then idle else room)
      else idle && room

/-- LSWEEP_NEXT_START (R420). -/
def execLsweepNextStart (tag : BitVec 12) (s : State) : Out := .next (s.sweepNext tag)

/-! ## Checkpoints (R428) -/

/-- The entries of a checkpoint descriptor: source address and page count. -/
def ckEntries (bs : List Byte) : List (Nat × Nat) :=
  (List.range (bs.length / 8)).map fun i =>
    let x := leNat ((bs.drop (8 * i)).take 8)
    (x % 2 ^ 48, x / 2 ^ 48 + 1)

/-- The fields of a descriptor before its entries: the destination and the entry count, or none where a field is bad. -/
def ckHead (bs : List Byte) : Option (Nat × Nat) :=
  let dst := leNat (bs.take 8)
  let n := leNat ((bs.drop 8).take 4)
  if dst % 65536 ≠ 0 ∨ 2 ^ 48 ≤ dst ∨ n = 0 ∨ 1024 < n ∨ (bs.drop 16).any (fun b => b ≠ 0) then none else some (dst, n)

/-- Bytes of main memory read by the supervisor for a checkpoint: the bytes, or the trap. -/
def State.ckRead (s : State) (e : Env) (t : Thread) (va n : Nat) : Except Fail (List Byte) :=
  if 2 ^ 47 < va + n then .error (Fail.mk' 0 subField 0)
  else
    match s.agentBytes e.w.die t.owner va n false with
    | .error f => .error (Fail.mk' 5 0 f.2)
    | .ok at' =>
      let bytes := at'.map (s.agentRead t.owner)
      match (List.range n).find? fun i => (bytes.getD i none).isNone with
      | some i => .error (Fail.mk' 6 0 (va + i))
      | none => .ok (bytes.map fun b => b.getD 0)

/-- The system physical addresses of pages, or the trap of the first that fails. -/
def State.ckPages (s : State) (e : Env) (t : Thread) (wr : Bool) : List Nat → Except Fail (List Nat)
  | [] => .ok []
  | va :: l =>
    if 2 ^ 47 ≤ va then .error (Fail.mk' 0 subField 0)
    else
      match s.agentAddr e.w.die t.owner va wr with
      | .error f => .error (Fail.mk' 5 0 f.2)
      | .ok a =>
        match State.ckPages s e t wr l with
        | .error f => .error f
        | .ok r => .ok (a :: r)

/-- The pages that a descriptor marks with their destinations. -/
def State.ckMoves (s : State) (e : Env) (t : Thread) (va : Nat) : Except Fail (List (Nat × Nat)) :=
  match s.ckRead e t va 32 with
  | .error f => .error f
  | .ok bs =>
    match ckHead bs with
    | none => .error (Fail.mk' 0 subField 0)
    | some (dst, n) =>
      match s.ckRead e t (va + 32) (8 * n) with
      | .error f => .error f
      | .ok es =>
        let entries := ckEntries es
        if entries.any fun x => decide (x.1 % 65536 ≠ 0) then .error (Fail.mk' 0 subField 0)
        else
          let pages := (entries.map fun x => (List.range x.2).map fun i => x.1 + 65536 * i).flatten
          match s.ckPages e t false pages, s.ckPages e t true ((List.range pages.length).map fun i => dst + 65536 * i) with
          | .error f, _ => .error f
          | _, .error f => .error f
          | .ok l, .ok m => .ok (l.zip m)

/-- The `ckmark` of the lowest participant. -/
def State.ckmarkOne (s : State) (e : Env) (s0 : State) (a : Opd) (p : BitVec 3) (ps : List Thread) (t : Thread) : State :=
  match s.ckMoves e t (e.farAddr s0 t a).toNat with
  | .error f => s.fail e t f
  | .ok l =>
    if s.pkg.ckBusy.isSome then s.predAll e ps p fun _ => 0
    else
      let pkg : Package := { s.pkg with
        ckBusy := some { moves := l, tag := t.owner }
        ckDone := 0 }
      { s with pkg := pkg }.predAll e ps p fun _ => 7

/-- CKMARK (R428): once per issue. -/
def execCkmark (c : Ctl) (a : Opd) (p : BitVec 3) (s : State) : Out :=
  .next (issue (Form.sup c [a, a.plus 1] []) (holdRelease c) (fun e s =>
    let ps := e.parts c
    (ps.take 1).foldl (fun s' t => s'.ckmarkOne e s a p ps t) s) s)

/-! ## Energy (R431, R433) -/

end Sys2Proof.Machine

namespace Sys2Proof

/-- The destination that follows. -/
def Dst.plus (d : Dst) (k : Nat) : Dst :=
  match d with
  | .v n => .v (n + k)
  | .s n => .s (n + k)
  | .g n => .g (n + k)
  | .none => .none

end Sys2Proof

namespace Sys2Proof.Machine

/-- The counter read into two registers, and cleared where `clr` holds. -/
def enrdBody (c : Ctl) (d : Dst) (clr : Bool) (e : Env) (s : State) : State :=
  let ps := e.parts c
  match ps with
  | [] => s
  | t :: _ =>
    let tag := e.ctxTag t
    let x := (s.ctx tag).energyWord
    let s1 := (s.writeAll e ps d fun _ => .all (x.extractLsb' 0 32)).writeAll e ps (d.plus 1) fun _ => .all (x.extractLsb' 32 32)
    if clr then s1.setCtx { s1.ctx tag with
      energy := 0
      sat := false }
    else s1

/-- ENRD. -/
def execEnrd (c : Ctl) (d : Dst) (s : State) : Out :=
  .next (issue (Form.short c [] (d.opds ++ (d.plus 1).opds)) noHold (enrdBody c d false) s)

/-- ENRD_CLR. -/
def execEnrdClr (c : Ctl) (d : Dst) (s : State) : Out :=
  .next (issue (Form.sup c [] (d.opds ++ (d.plus 1).opds)) noHold (enrdBody c d true) s)

/-- Cycles between two ticks. -/
def tickCycles : Nat := 1050

/-- The slots that each context occupies on a core, contexts in ascending tag. -/
def State.tickShares (s : State) (d core : Nat) : List (BitVec 12 × Nat) :=
  let tags := (s.standing d core).filterMap s.tagOfWarp
  (sortOn (fun t => t.toNat) tags.eraseDups).map fun t => (t, tags.count t)

/-- PERUS apportioned: the floor of each share, the remainder to the context of lowest tag. -/
def apportion (perus : Nat) (l : List (BitVec 12 × Nat)) : List (BitVec 12 × Nat) :=
  let w := (l.map fun x => x.2).sum
  let parts := l.map fun x => (x.1, perus * x.2 / w)
  let rest := perus - (parts.map fun x => x.2).sum
  match parts with
  | [] => []
  | x :: r => (x.1, x.2 + rest) :: r

/-- A core has a tick to apportion. -/
def State.tickDue (s : State) (d core : Nat) : Bool :=
  decide ((s.core d core).lastTick < s.now / tickCycles) && !(s.standing d core).isEmpty

/-- ENERGY_TICK (R431): one tick of one core. -/
def execEnergyTick (d core : Nat) (s : State) : Out :=
  if !s.tickDue d core then .next s
  else
    let c := s.core d core
    let s1 := s.setCore { c with lastTick := c.lastTick + 1 }
    .next ((apportion c.perus.toNat (s.tickShares d core)).foldl (fun s x =>
      if x.2 = 0 then s else s.setCtx ((s.ctx x.1).addEnergy x.2)) s1)

end Sys2Proof.Machine
end

