-- ==== Sys2Proof/Machine/WarpOps.lean ====
section
/-! DEFINITION. Warp instructions: masks, votes, exchanges, reductions, software flags and `gcall` (R185 to R206). -/

namespace Sys2Proof.Machine

/-! ## Masks (R190 to R192) -/

/-- A thread is a member of a mask: its first lane's bit (R190). -/
def memberOf (triple : Bool) (m : BitVec 24) (i : Nat) : Bool := m.getLsbD (if triple then 3 * i else i)

/-- The bits of lanes that hold a thread. -/
def Warp.lanes (w : Warp) (triple : Bool) : BitVec 24 :=
  w.threads.foldl (fun m t => m ||| lanesOf triple t.idx) 0

def State.updMask (s : State) (wid k : Nat) (f : BitVec 24 → BitVec 24) : State :=
  s.updWarp wid fun w => { w with k := setAt w.k k (f (w.k.getD k 0)) }

/-- The lanes of a list of threads. -/
def lanesAll (triple : Bool) (ps : List Thread) : BitVec 24 := ps.foldl (fun m t => m ||| lanesOf triple t.idx) 0

/-- JOIN (R190). -/
def execJoin (c : Ctl) (k : Nat) (s : State) : Out :=
  .next (issue (Form.short c [] []) noHold (fun e s =>
    s.updMask e.w.wid k fun m => m ||| lanesAll e.triple (e.parts c)) s)

/-- LEAVE (R190). -/
def execLeave (c : Ctl) (k : Nat) (s : State) : Out :=
  .next (issue (Form.short c [] []) noHold (fun e s =>
    s.updMask e.w.wid k fun m => m &&& ~~~(lanesAll e.triple (e.parts c))) s)

/-- WAIT (R191): members wait; the release is tested after the step (R192). -/
def execWait (c : Ctl) (k : Nat) (s : State) : Out :=
  .next (issue (Form.short c [] []) noHold (fun e s =>
    s.eachThread e ((e.parts c).filter fun t => memberOf e.triple (e.w.k.getD k 0) t.idx) fun t => t.block (.mask k))
    s)

/-- MSET (R190): the source's one value; bits of lanes that hold no thread are 0. -/
def execMset (c : Ctl) (k : Nat) (a : Opd) (s : State) : Out :=
  .next (issue (Form.short c [a] []) noHold (fun e s =>
    match e.parts c with
    | [] => s
    | t :: _ => s.updMask e.w.wid k fun _ => (e.read0 s t a).extractLsb' 0 24 &&& e.w.lanes e.triple) s)

/-- MGET (R190). -/
def execMget (c : Ctl) (d : Dst) (k : Nat) (s : State) : Out :=
  .next (plainWord (Form.short c [] d.opds) d (fun e _ _ => .all ((e.w.k.getD k 0).setWidth 32)) s)

/-! ## Votes (R194 to R196) -/

/-- The result of `vote` over the participants' booleans. -/
def VoteMode.result' (m : VoteMode) (bs : List Bool) : Bool :=
  match m with
  | .all => bs.all id
  | .any => bs.any id
  | .uni => bs.all id || bs.all not

/-- VOTE (R194). -/
def execVote (c : Ctl) (m : VoteMode) (p ps : BitVec 3) (neg : Bool) (s : State) : Out :=
  .next (issue (Form.short c [] []) noHold (fun e s =>
    let l := e.parts c
    let b := VoteMode.result' m (l.map fun t => t.predTrue ps neg)
    s.predAll e l p fun _ => boolBits b) s)

/-- The word of `ballot` (R195). -/
def ballotVal (triple thr : Bool) (l : List Thread) : Word :=
  if thr then l.foldl (fun w t => w ||| 1 <<< t.idx) 0 else (lanesAll triple l).setWidth 32

/-- BALLOT (R195). -/
def execBallot (c : Ctl) (d : Dst) (ps : BitVec 3) (neg thr : Bool) (s : State) : Out :=
  .next (plainWord (Form.short c [] d.opds) d (fun e _ _ =>
    .all (ballotVal e.triple thr ((e.parts c).filter fun t => t.predTrue ps neg))) s)

/-- ELECT (R196). -/
def execElect (c : Ctl) (p : BitVec 3) (s : State) : Out :=
  .next (issue (Form.short c [] []) noHold (fun e s =>
    let l := e.parts c
    s.predAll e l p fun t => boolBits (decide (l.head? = some t))) s)

/-! ## Exchanges (R197, R198) -/

/-- The source thread of `shfl`, where it exists. -/
def shflSrc (m : ShflMode) (n i b : Nat) : Option Nat :=
  match m with
  | .idx => if b < n then some b else none
  | .up => if b ≤ i then some (i - b) else none
  | .down => if i + b < n then some (i + b) else none
  | .xor => if i ^^^ b < n then some (i ^^^ b) else none

/-- SHFL (R197): a register whose source is no participant keeps its value (R186). -/
def execShfl (c : Ctl) (m : ShflMode) (d a : Nat) (b : Src) (s : State) : Out :=
  .next (issue (Form.short c (.v a :: b.opds) [.v d]) noHold (fun e s =>
    let l := e.parts c
    let from' := fun (t : Thread) =>
      (shflSrc m (warpThreads e.triple) t.idx (e.src s t .zero b).s0.toNat).bind fun i => l.find? fun u => u.idx = i
    s.writeAll e (l.filter fun t => (from' t).isSome) (.v d) fun t =>
      match from' t with
      | some u => e.read s u (.v a)
      | none => .all 0) s)

/-- The distance of a `bfly` code (R198). -/
def bflyDist (dcode : BitVec 3) : Nat := if dcode = 0 then 0 else 2 ^ (dcode.toNat - 1)

/-- Where register `j` of thread `i` takes its value from in a `bfly`, as (thread, register), where the step moves it
(R198). -/
def bflyFrom (dist m m2 i j : Nat) : Option (Nat × Nat) :=
  if dist = 0 then
    (if j.testBit m && !j.testBit m2 then some (i, j - 2 ^ m + 2 ^ m2)
    else if !j.testBit m && j.testBit m2 then some (i, j + 2 ^ m - 2 ^ m2)
    else none)
  else if i &&& dist = 0 then (if j.testBit m then some (i ^^^ dist, j - 2 ^ m) else none)
  else if j.testBit m then none
  else some (i ^^^ dist, j + 2 ^ m)

/-- BFLY (R198). -/
def execBfly (c : Ctl) (base : Nat) (w m m2 dcode : BitVec 3) (s : State) : Out :=
  .next (issue { (Form.short c (vrun base (2 ^ w.toNat)) (vrun base (2 ^ w.toNat))).noA with
      words := if dcode = 0 then max 1 (2 ^ w.toNat / 4) else 2 ^ w.toNat / 2
      bad := fun e _ => if e.triple && decide (4 ≤ dcode.toNat) then some (0, subField, false) else none }
    noHold (fun e s =>
    let l := e.parts c
    (List.range (2 ^ w.toNat)).foldl (fun s' j =>
      let from' := fun (t : Thread) =>
        (bflyFrom (bflyDist dcode) m.toNat m2.toNat t.idx j).bind fun x =>
          (l.find? fun u => u.idx = x.1).map fun u => (u, x.2)
      s'.writeAll e (l.filter fun t => (from' t).isSome) (.v (base + j)) fun t =>
        match from' t with
        | some (u, r) => e.read s u (.v (base + r))
        | none => .all 0) s) s)

/-! ## Reductions (R199) -/

/-- An integer `redux` step. -/
def reduxInt (op : ReduxOp) (u : Bool) (a b : Word) : Word :=
  match op with
  | .add => a + b
  | .min => iminVal u a b
  | .max => imaxVal u a b
  | .and => a &&& b
  | .or => a ||| b

/-- The integer reduction of a list of words. -/
def reduxIntAll (op : ReduxOp) (u : Bool) (l : List Word) : Word :=
  match l with
  | [] => 0
  | x :: xs => xs.foldl (reduxInt op u) x

/-- The F32 sum of a list of words: exact, rounded once; a NaN result raises invalid. -/
def reduxAdd (dir : Rnd) (l : List Word) : Word × Flags :=
  match l with
  | [] => (0, 0)
  | x :: xs =>
    let v := xs.foldl (fun acc w => (acc.add dir (f32v w)).1) (f32v x)
    let r := f32r dir v
    (r.1, if v.isNan then Flags.nv else r.2)

/-- The least or greatest of a list of words under R127. -/
def reduxMinMax (isMax : Bool) (l : List Word) : Word × Flags :=
  match l with
  | [] => (0, 0)
  | x :: xs =>
    let v := xs.foldl (fun acc w => (f32minmax isMax acc w).1) x
    (if (f32v v).isNan then canonNan else v, flagIf (l.any fun w => (f32v w).isSig) Flags.nv)

/-- One sibling of an F32 reduction. -/
def reduxF32 (op : ReduxOp) (dir : Rnd) (l : List Word) : Word × Flags :=
  match op with
  | .add => reduxAdd dir l
  | .min => reduxMinMax false l
  | .max => reduxMinMax true l
  | .and => (0, 0)
  | .or => (0, 0)

/-- REDUX (R199): the result in every participant, or once in an s or g destination (R188). -/
def execRedux (c : Ctl) (op : ReduxOp) (ty : Ty) (u : Bool) (d : Dst) (a : Nat) (s : State) : Out :=
  if ty = .f32 then
    .next (aluWord (Form.fp c [.v a] d.opds) d true (fun e s t =>
      let l := e.parts c
      let dir := fun (j : Nat) => match l with
        | [] => .rn
        | x :: _ => e.dir c.rnd x j
      let word := fun (j : Nat) (x : Thread) => (e.read s x (.v a)).get j
      Res.ofDst d (fun j => reduxF32 op (dir j) (l.map (word j))) (e.read s t (.v a)) (.all 0) (.all 0)) s)
  else
    .next (plainWord (Form.short c [.v a] d.opds) d (fun e s _ =>
      .all (reduxIntAll op u ((e.parts c).map fun x => e.read0 s x (.v a)))) s)

/-! ## Software flags (R200) -/

/-- CFLAG (R200): an inc that does not fit holds the group. -/
def execCflag (c : Ctl) (m : FlagMode) (f : Nat) (n : BitVec 6) (s : State) : Out :=
  .next (issue (Form.short c [] [])
    (fun _ e _ => if m = .inc ∧ (e.parts c).isEmpty = false ∧ 63 < e.w.flags.getD f 0 + n.toNat then
      some (.flagRoom f n.toNat) else none)
    (fun e s =>
      if (e.parts c).isEmpty then s
      else s.updWarp e.w.wid fun w =>
        let x := w.flags.getD f 0
        { w with flags := setAt w.flags f (match m with
          | .inc => x + n.toNat
          | .dec => x - n.toNat
          | .set => n.toNat) }) s)

/-! ## Calls to the runtime and the companion (R201 to R204) -/

/-- The record of Table 8.3. -/
def gcallRecord (e : Env) (s : State) (host : Bool) (fn : BitVec 16) (a : Nat) (ps : List Thread) : List Byte :=
  let bits := ps.foldl (fun m t => m + 2 ^ t.idx) 0
  leBytes 2 fn.toNat ++ [if host then 1 else 0, BitVec.ofNat 8 ps.length] ++ leBytes 3 bits ++ [0] ++
    leBytes 4 e.b.linear ++ leBytes 4 (if e.b.task.isSome then 0 else e.w.index) ++
    (ps.map fun t => leBytes 4 (e.tnum t).toNat ++
      ((List.range 8).map fun i => leBytes 4 (e.read0 s t (.v (a + i))).toNat).flatten).flatten

/-- The hold of `gcall`: an occupied reply buffer, or earlier requests that its release orders (R202, R204). -/
def holdGcall (c : Ctl) (s : State) (e : Env) (t : Thread) : Option Hold :=
  if (e.parts c).isEmpty then none
  else if e.w.gcall.isSome then some .gcallBuf
  else holdRelease c s e t

/-- Reports that the package signs (R443). -/
def reportRoom : Nat := 2 ^ 20

/-- An attestation report: nonce, device chain, the function's chain and number, and the leaf index in 4 bytes (R443). -/
def State.reportOf (s : State) (e : Env) (s0 : State) (a : Nat) (t : Thread) : List Byte :=
  let nonce := ((List.range 8).map fun i => leBytes 4 (e.read0 s0 t (.v (a + i))).toNat).flatten
  let fn := s.funcOf e.w.die (e.w.core / 4)
  nonce ++ digestBytes s.pkg.chain ++ digestBytes ((fn.map fun f => f.chain).getD s.pkg.chain) ++
    leBytes 4 ((fn.map fun f => f.num).getD 0) ++ leBytes 4 s.pkg.leaf

/-- The report for a participant, its nonce the eight words of its record, signed under the leaf index, which advances first.
After the last index none is signed, and the participant's reply is zero (R443). -/
def State.attest (s : State) (e : Env) (s0 : State) (a : Nat) (t : Thread) : State :=
  if reportRoom ≤ s.pkg.leaf then s
  else
    let report := s.reportOf e s0 a t
    { s with pkg := { s.pkg with leaf := s.pkg.leaf + 1 } }.send
      (.attest e.w.wid t.idx report (Config.attestSignature s.pkg.leaf report).toList)

/-- The reply stands in the warp's buffer and its flag falls; for a saved warp it falls on resumption (R202, R204). -/
def Warp.reply (w : Warp) (words : List Word) : Warp :=
  let w1 := { w with gcall := w.gcall.map fun (b : GcallBuf) => { b with words := some words } }
  let mine := fun (p : Pend) => decide (p.wait = .gcall)
  if w.saved then { w1 with pend := mapIf mine (fun p => { p with wait := .ready }) w1.pend }
  else { (w1.pend.filter mine).foldl (fun w p => w.lower p.flag) w1 with pend := dropIf mine w1.pend }

/-- GCALL (R201): the record goes to the runtime at once, or waits for the call ring (R469). -/
def execGcall (c : Ctl) (host : Bool) (fn : BitVec 16) (a : Nat) (s : State) : Out :=
  .next (issue (Form.longLat c (vrun a 8) []) (holdGcall c) (fun e s =>
    let ps := e.parts c
    if ps.isEmpty then s
    else
      let thrs := ps.map fun t => t.idx
      let bytes := gcallRecord e s host fn a ps
      let (pid, s1) := s.newId
      let s2 := s1.addPend e.w.wid
        { id := pid, flag := e.flagOf c, wait := .gcall, parts := [], sparts := [], preds := [], thrs := thrs, epoch := none, sample := none }
      let buf : GcallBuf :=
        { thrs := thrs, consumed := [], words := none, route := if host then none else some (Config.routingWord pid) }
      let s3 := s2.updWarp e.w.wid fun w => { w with gcall := some buf }
      let s4 := s3.charge e.g.tag 27 1
      if host then { s4 with pkg := { s4.pkg with ringWait := s4.pkg.ringWait ++ [(e.w.wid, bytes)] } }
      else
        let s5 := s4.send (.gcall e.w.wid bytes)
        if fn ≠ Config.attestFn then s5
        else if reportRoom ≤ s.pkg.leaf then s5.updWarp e.w.wid fun w => w.reply (ps.map fun _ => 0)
        else ps.foldl (fun s' t => s'.attest e s a t) s5) s)

/-- The place of a thread in the outstanding call, where it has not consumed its word. -/
def GcallBuf.place (b : GcallBuf) (i : Nat) : Option Nat :=
  if i ∈ b.consumed then none else b.thrs.findIdx? fun x => x = i

/-- A thread takes its reply word (R203). -/
def State.takeReply (s : State) (wid i d : Nat) : State :=
  match (s.warp? wid).bind fun w => w.gcall with
  | none => s
  | some b =>
    match b.place i, b.words with
    | some q, some ws =>
      (((s.writeV wid i d (.all (ws.getD q 0))).retag wid d).updWarp wid fun w =>
        { w with gcall := some { b with consumed := b.consumed ++ [i] } })
    | _, _ => s

/-- Whether a thread must wait for the reply (R203). -/
def Warp.replyDue (w : Warp) (i : Nat) : Bool :=
  match w.gcall with
  | none => false
  | some b => (b.place i).isSome && b.words.isNone

/-- GRET (R203). -/
def execGret (c : Ctl) (d : Nat) (s : State) : Out :=
  .next (issue (Form.short c [] [.v d]) noHold (fun e s =>
    (e.parts c).foldl (fun s' t =>
      if e.w.replyDue t.idx then s'.updThread e.w.wid t.idx fun u => u.block (.gret d)
      else s'.takeReply e.w.wid t.idx d) s) s)

/-! ## Steps of the call ring and the companion (R469) -/

/-- The call that a routing word names is outstanding at the warp. -/
def Warp.awaits (w : Warp) (route : DWord) : Bool :=
  match w.gcall with
  | some b => decide (b.route = some route) && b.words.isNone
  | none => false

/-- The flits of a message: transfers of up to 256 bytes, each a header flit and a data flit per 64 bytes (R462). -/
def flitsOf (n : Nat) : Nat := (n + 255) / 256 + (n + 63) / 64

/-- GCALL_REPLY (R202, R469): a routing word that names no outstanding call is discarded. The record's slot is free
again. -/
def execGcallReply (route : DWord) (words : List Word) (s : State) : Out :=
  match s.warps.find? fun w => w.awaits route with
  | none => .next s
  | some w =>
    let s1 := { s with pkg := { s.pkg with ringUsed := dropIf (fun x => x.2 = route) s.pkg.ringUsed } }
    let s2 := s1.updWarp w.wid fun w => w.reply words
    .next (match s.tagOfWarp w with
      | some tag => s2.charge tag 23 (flitsOf (8 + 4 * words.length))
      | none => s2)

end Sys2Proof.Machine
end

