-- ==== Sys2Proof/Machine/Trust.lean ====
section
/-! DEFINITION. Boot and measurement (R441, R442, R470), functions and fencing (R436, R437, R454), keys (R453), Priro ports
(R462, R463), the call ring (R469), and loss of power (R443). -/

namespace Sys2Proof.Machine

/-! ## Boot -/

/-- An image verifies under the package's key (R441). -/
def Package.verifies (p : Package) (x : Image) : Bool := hssVerify p.imageKey x.signature x.bytes

/-- The images that are loaded, in order: the first stage, the later images that verify, the service-warp code that
verifies (R441, R470). -/
def Package.loads (p : Package) (c : BootConfig) : List Image :=
  c.stage :: (c.images ++ c.funcs.map fun f => f.1.service).filter p.verifies

/-- A function as boot leaves it: started where its service-warp code verified, its chain begun at the device's. -/
def Package.bootFunc (p : Package) (device : BitVec 256) (n : Nat) (f : FuncConfig × List Byte) : Func :=
  { num := n, cfg := f.1, started := p.verifies f.1.service, fenced := false, chain := extendChain device f.2 }

/-- The ports that a function's configuration assigns. -/
def bootPorts (f : Func) : List Port :=
  f.cfg.ports.map fun x => { port := x.1, fn := f.num, neighbour := x.2, fenced := false, retries := 0 }

/-- The package after boot: every image that is loaded is measured in load order (R442). -/
def Package.boot (p : Package) (c : BootConfig) : Package :=
  let device := (p.loads c).foldl (fun m x => extendChain m x.bytes) 0
  let funcs := ((List.range c.funcs.length).zip c.funcs).map fun x => p.bootFunc device x.1 x.2
  { p with
    powered := true
    booted := true
    funcs := funcs
    ports := (funcs.map bootPorts).flatten
    boardCount := c.boardCount
    pkg := c.pkg
    entab := c.entab
    chain := device
    ringBase := c.ringBase }

/-- Every core of the package, by die and number. -/
def State.allCores (s : State) : List (Nat × Nat) :=
  ((List.range 4).map fun d => (List.range s.dieCores).map fun k => (d, k)).flatten

/-- The functions of a configuration hold clusters that the part has (R2). -/
def State.clustersExist (s : State) (c : BootConfig) : Bool :=
  c.funcs.all fun f => f.1.clusters.all fun x => decide (x.2 < s.dieClusters)

/-- An image in memory, under the firmware's tag. -/
def State.loadImage (s : State) (x : Image) : State :=
  s.agentWrite 0 ((upFrom x.load x.bytes.length).zip (x.bytes.map some))

/-- The registers that a service warp is given, in the form of a launch record. -/
def serviceRecord (x : ServiceEntry) : Record :=
  { recordOf (List.replicate 16 0) 0 with
    x := 1
    y := 1
    z := 1
    regs := x.vregs
    uregs := x.uregs }

/-- The service warp of a cluster (R280): single-lane, in the supervisor view, outside the warp slots, under the firmware's
tag. -/
def State.startService (s : State) (x : ServiceEntry) (die cl : Nat) : State :=
  let gid := s.uid
  let lr := serviceRecord x
  let g : Grid :=
    { gid := gid, kind := .service, tag := 0, lr := lr, parent := none, nest := 0, entry := none, table := [], shares := [],
      ended := 0, icnt := (0, 0, 0), heaps := [], tasksOf := none, heapChild := none, done := false, retired := false,
      ending := none, report := none }
  let b : Block :=
    { bid := gid + 1, gid := gid, linear := 0, die := die, cores := [4 * cl], triple := false, shBytes := 0, shared := [],
      bars := [], shPoison := [], g := List.replicate 64 0, greps := [], gflight := [], gupdates := [], portions := [], mopcnt := 0,
      hcount := 0, handles := [], lanternAgain := none, wids := [gid + 2], saveId := none, saveBytes := 0, kept := false,
      hung := false, task := none }
  let threads := (List.range (warpThreads false)).map fun i => { Thread.start i x.pc x.vregs lr 0 with super := true }
  let w : Warp :=
    { Warp.start (gid + 2) (gid + 1) 0 die (4 * cl) 0 0 (gid + 1) threads x.vregs x.uregs false with service := true }
  { s with
    uid := gid + 3
    grids := s.grids ++ [g]
    blocks := s.blocks ++ [b]
    warps := s.warps ++ [w] }

/-- The service warps of a function that has started (R470). -/
def State.startServices (s : State) (f : Func) : State :=
  match f.cfg.entry with
  | none => s
  | some x => if f.started then f.cfg.clusters.foldl (fun s y => s.startService x y.1 y.2) s else s

/-- BOOT (R441, R442, R470): where the first stage does not verify, the package answers nothing. A booted package does not
boot again while power is applied. -/
def execBoot (c : BootConfig) (s : State) : Out :=
  if s.pkg.booted || !c.ok || !s.clustersExist c then .next s
  else if !s.pkg.verifies c.stage then .next { s with pkg := { s.pkg with powered := true } }
  else
    let s1 := (s.pkg.loads c).foldl State.loadImage s
    let s2 := { s1 with
      pkg := s1.pkg.boot c
      cores := s.allCores.map fun (x : Nat × Nat) => { s1.core x.1 x.2 with perus := c.perus } }
    .next (s2.pkg.funcs.foldl State.startServices (s2.setCtx { s2.ctx 0 with mptroot := c.root }))

/-- POWER_LOSS (R443): the state ends; the package's key stays, and the leaf counter stays, or skips an index. What the
outside is about to do stays. -/
def execPowerLoss (s : State) : Out :=
  let leaf := s.pkg.leaf + Config.pick s.fresh % 2
  .next { State.reset with
    pkg := { Package.reset with
      reduced := s.pkg.reduced
      imageKey := s.pkg.imageKey
      powered := false
      leaf := leaf }
    fresh := s.fresh + 1
    inputs := s.inputs }

/-! ## Fencing -/

/-- The numbers of the functions with clusters on a die. -/
def State.funcsOn (s : State) (d : Nat) : List Nat :=
  (s.pkg.funcs.filter fun f => f.cfg.clusters.any fun x => decide (x.1 = d)).map fun f => f.num

/-- The functions that an error fences (Table 23.1). -/
def State.fencedBy (s : State) (x : ErrorSite) : List Nat :=
  match x with
  | .cluster d cl => ((s.funcOf d cl).map fun f => f.num).toList
  | .dieUnit d => s.funcsOn d
  | .dieLink d d' => (s.funcsOn d ++ s.funcsOn d').eraseDups
  | .memoryLogic => s.pkg.funcs.map fun f => f.num
  | .port p => ((s.pkg.ports.find? fun x => x.port = p).map fun x => x.fn).toList

/-- The contexts that have launches. -/
def State.liveTags (s : State) : List (BitVec 12) :=
  ((s.grids.filter fun g => !g.retired && decide (g.kind ≠ .service)).map fun g => g.tag).eraseDups

/-- Every launch of a context ends without KEEP, with STATUS 6, its cores having stopped. -/
def State.fenceTag (s : State) (tag : BitVec 12) : State :=
  let gids := (s.gridsOf tag).map fun g => g.gid
  let x := s.endingOf gids 6
  let s0 := s.beginEnd gids x
  let s1 := { s0 with grids := mapIf (fun g => decide (g.gid ∈ gids)) (fun g => { g with ending := some x }) s0.grids }
  ((s1.gridsOf tag).filter fun g => g.parent.isNone).foldl (fun s g => s.finishEnd g.gid) s1

/-- The record of a call still waiting for the ring belongs to a tag of a function. -/
def State.callOf (s : State) (f : Func) (wid : Nat) : Bool :=
  match (s.warp? wid).bind s.tagOfWarp with
  | some tag => decide (f.cfg.tagLo ≤ tag) && decide (tag ≤ f.cfg.tagHi)
  | none => false

/-- A function fenced (R437): its launches end, its clusters stop, its ports stop sending. -/
def State.fenceFunc (s : State) (n : Nat) : State :=
  match s.pkg.funcs.find? fun f => f.num = n with
  | none => s
  | some f =>
    if f.fenced then s
    else
      let calls := dropIf (fun x => s.callOf f x.1) s.pkg.ringWait
      let tags := s.liveTags.filter fun t => decide (f.cfg.tagLo ≤ t) && decide (t ≤ f.cfg.tagHi)
      let s1 := tags.foldl State.fenceTag s
      let s2 := f.cfg.clusters.foldl (fun s x => s.setCluster { s.cluster x.1 x.2 with stopped := true }) s1
      let pkg := s2.pkg
      { s2 with pkg := { pkg with
          funcs := mapIf (fun g => g.num = n) (fun g => { g with fenced := true }) pkg.funcs
          ports := mapIf (fun p => p.fn = n) (fun p => { p with fenced := true }) pkg.ports
          ringWait := calls } }

/-- An uncorrectable control error. -/
def State.controlError (s : State) (x : ErrorSite) : State := (s.fencedBy x).foldl State.fenceFunc s

/-- FUNCTION_FENCE (R437). -/
def execFunctionFence (x : ErrorSite) (s : State) : Out := .next (s.controlError x)

/-- THERMAL_LIMIT (R454): stalls begin or end; at 115 °C every function is fenced. -/
def execThermalLimit (stall fenceAll : Bool) (s : State) : Out :=
  let s1 := { s with pkg := { s.pkg with thermalStall := stall } }
  .next (if fenceAll then (s1.pkg.funcs.map fun f => f.num).foldl State.fenceFunc s1 else s1)

/-- A cluster whose engine firmware has started anew; its slice keeps what it holds (R437). -/
def Cluster.restart (c : Cluster) : Cluster :=
  { c with
    handles := []
    signs := []
    table := []
    pass := none
    lantern := none
    stopped := false }

/-- FIRMWARE_REINITIALISATION (R437): the cores and engines of a fenced function start anew. -/
def execFirmwareReinitialisation (n : Nat) (s : State) : Out :=
  match s.pkg.funcs.find? fun f => f.num = n with
  | none => .next s
  | some f =>
    if !f.fenced then .next s
    else
      let s1 := f.cfg.clusters.foldl (fun s x => s.setCluster (s.cluster x.1 x.2).restart) s
      let mine := fun (c : Core) => decide ((c.die, c.core / 4) ∈ f.cfg.clusters)
      .next { s1 with
        cores := mapIf mine (fun c => { Core.blank c.die c.core with
          perus := c.perus
          tsctl := c.tsctl
          regStep := c.regStep
          shStep := c.shStep
          lastTick := c.lastTick }) s1.cores
        pkg := { s1.pkg with funcs := mapIf (fun g => g.num = n) (fun g => { g with fenced := false }) s1.pkg.funcs } }

/-! ## Priro ports -/

/-- Retries of a flit before it counts as an uncorrectable error (R462). -/
def flitRetries : Nat := 8

/-- PRIRO_FLIT_RECEIVE (R462). -/
def execPriroFlitReceive (n : Nat) (crcOk : Bool) (s : State) : Out :=
  match s.pkg.ports.find? fun p => p.port = n with
  | none => .next s
  | some p =>
    let set := fun (s : State) (k : Nat) =>
      { s with pkg := { s.pkg with ports := mapIf (fun x => x.port = n) (fun x => { x with retries := k }) s.pkg.ports } }
    if crcOk then .next (set s 0)
    else if p.retries < flitRetries then .next (set s (p.retries + 1))
    else .next ((set s 0).controlError (.port n))

/-! ## The call ring (R469) -/

/-- Slots of the call ring. -/
def ringSlots : Nat := 4096

/-- A record can leave the device: some port of its function reaches the companion (R463). -/
def State.callLeaves (s : State) (wid : Nat) : Bool :=
  match (s.warp? wid).bind s.tagOfWarp with
  | some tag => !s.portsDown tag 0
  | none => true

/-- A record may enter the ring: one waits that can leave, and the next slot is free. -/
def State.nextCall (s : State) : Option (Nat × List Byte) :=
  if s.pkg.ringUsed.any fun x => x.1 = s.pkg.ringNext then none else s.pkg.ringWait.find? fun x => s.callLeaves x.1

/-- GCALL_RING_ENTRY (R469): the oldest record that can leave enters the ring in companion memory, behind its routing word,
zero-padded to the slot. Where none can or the ring is full, nothing happens. -/
def execGcallRingEntry (s : State) : Out :=
  match s.nextCall with
  | none => .next s
  | some (wid, bytes) =>
    let slot := s.pkg.ringNext
    let (n, s1) := s.draw
    let route := Config.routingWord n
    let body := leBytes 8 route.toNat ++ bytes ++ List.replicate (1016 - bytes.length) (0 : Byte)
    let pkg := { s1.pkg with
      ringWait := s.pkg.ringWait.erase (wid, bytes)
      ringNext := (slot + 1) % ringSlots
      ringUsed := s1.pkg.ringUsed ++ [(slot, route)] }
    let s2 : State := { s1 with mem := s1.mem.writeBytes (s.pkg.ringBase + slot * 1024) body, pkg := pkg }
    let s3 := match (s.warp? wid).bind s.tagOfWarp with
      | some tag => s2.charge tag 22 (flitsOf 1024)
      | none => s2
    .next (s3.updWarp wid fun w => { w with gcall := w.gcall.map fun b => { b with route := some route } })

/-! ## Keys (R453) -/

/-- The form of a `keyset`. -/
def keyForm (c : Ctl) (src : List Opd) : Form := Form.sup c src []

/-- The body of a `keyset`: the slot that the lowest participant names, set by `f`. -/
def keyBody (c : Ctl) (a : Opd) (f : State → Thread → Key × State) (e : Env) (s : State) : State :=
  ((e.parts c).take 1).foldl (fun s' t =>
    let va := e.read0 s t a
    let tag := va.extractLsb' 0 12
    if va.extractLsb' 12 20 ≠ 0 ∨ tag = 0 ∨ s.tagInFunc e tag = false then e.illegal s' t subField
    else
      let (k, s1) := f s' t
      { s1 with pkg := { s1.pkg with keys := (tag, k) :: dropIf (fun x => x.1 = tag) s1.pkg.keys } }) s

/-- KEYSET_PLAIN. -/
def execKeysetPlain (c : Ctl) (a : Opd) (s : State) : Out :=
  .next (issue (keyForm c [a]) noHold (keyBody c a fun s _ => (.plain, s)) s)

/-- The key pair in sixteen registers, word 0 least significant. -/
def Env.keyPair (e : Env) (s : State) (t : Thread) (b : Nat) : Nat :=
  leNat ((List.range 16).map fun i => wordBytes (e.read0 s t (.v (b + i)))).flatten

/-- KEYSET_LOAD: a key is told by its value. -/
def execKeysetLoad (c : Ctl) (a : Opd) (b : Nat) (s : State) : Out :=
  .next (issue (keyForm c (a :: vrun b 16)) noHold (fun e s =>
    keyBody c a (fun s' t => (.keyed (2 * e.keyPair s t b + 2), s')) e s) s)

/-- KEYSET_GEN: a key that no other is. -/
def execKeysetGen (c : Ctl) (a : Opd) (s : State) : Out :=
  .next (issue (keyForm c [a]) noHold (keyBody c a fun s _ =>
    (.keyed (2 * s.pkg.nextKey + 1), { s with pkg := { s.pkg with nextKey := s.pkg.nextKey + 1 } })) s)

end Sys2Proof.Machine
end

