-- ==== Sys2Proof/Machine/Debug.lean ====
section
/-! DEFINITION. Trace records written and drained (R446, R448, R451), power gating (R448), watchpoints set (R452), and words
of no assigned opcode (R81, R94, R96). -/

namespace Sys2Proof.Machine

/-! ## trace -/

/-- The record of a software trace (Table 23.3). -/
def Env.traceRecord (e : Env) (s : State) (id : Nat) (t : Thread) (x : Triple) : List Word :=
  traceHead 0 e.w.die e.w.traceCore e.g.tag id (e.tnum t) (e.iss.pc.setWidth 32) s.now ++
    (if e.triple then [x.s0, x.s1, x.s2] else [x.s0, 0, 0])

/-- TRACE (R451): one record for each participant where TRCTL.SW is 1. -/
def execTrace (c : Ctl) (a : Opd) (id : BitVec 16) (s : State) : Out :=
  .next (issue (Form.short c [a] []) noHold (fun e s =>
    if (s.die e.w.die).trctl.getLsbD 0 then
      (e.parts c).foldl (fun s' t =>
        s'.traceWrite e.w.die (e.w.core / 4) e.g.tag (e.traceRecord s id.toNat t (e.read s t a))) s
    else s) s)

/-- A record of the records dropped; the spec states no core, tag and T for it (log 20). -/
def lossRecord (n d count now : Nat) : List Word :=
  traceHead 3 d ((Config.freeWord n 0).extractLsb' 0 8).toNat ((Config.freeWord n 1).extractLsb' 0 12) 0
    (Config.freeWord n 2) 0 now ++ [BitVec.ofNat 32 count, 0, 0]

/-- Where the next record of a die's ring goes (R446). -/
def Die.ringAddr (d : Die) : Nat :=
  let log := (d.trctl.extractLsb' 8 4).toNat
  d.trbase.toNat * 2 ^ 16 + 32 * (d.trhead.toNat % 2 ^ (log + 15))

/-- TRACE_DRAIN (R446, R448): the oldest record of a cluster's buffer goes to the die's ring; where records were dropped,
their count takes the free slot. -/
def execTraceDrain (d cl : Nat) (s : State) : Out :=
  let c := s.cluster d cl
  match c.trace with
  | [] => .next s
  | r :: rest =>
    let di := s.die d
    let bytes := nodeBytes r
    let s1 := s.mainWrite 0 ((upFrom di.ringAddr bytes.length).zip (bytes.map some))
    let s2 := s1.setDie { s1.die d with trhead := di.trhead + 1 }
    if c.dropped = 0 then .next (s2.setCluster { s2.cluster d cl with trace := rest })
    else
      let (n, s3) := s2.draw
      .next (s3.setCluster { s3.cluster d cl with
        trace := rest ++ [lossRecord n d c.dropped s3.now]
        dropped := 0 })

/-! ## Power gating -/

/-- No thread of the warp could issue: each waits or has ended. -/
def Warp.waits (w : Warp) : Bool := w.threads.all fun t => decide (t.st ≠ .eligible)

/-- A core may be gated: its resident warps all wait. -/
def State.mayGate (s : State) (d core : Nat) : Bool := !(s.core d core).gated && (s.standing d core).all Warp.waits

/-- A cluster's engine and queue hold nothing to do. -/
def Cluster.idle (c : Cluster) : Bool := c.table.isEmpty && c.queue.isEmpty && c.delivered.isEmpty && c.replies.isEmpty

/-- POWER_GATE (R448): the core is gated; with its last core a cluster is, and the records still in its buffer are
dropped. -/
def execPowerGate (d core : Nat) (s : State) : Out :=
  if !s.mayGate d core then .next s
  else
    let cl := core / 4
    let s1 := s.setCore { s.core d core with gated := true }
    let c := s1.cluster d cl
    if c.idle && (List.range 4).all fun i => (s1.core d (4 * cl + i)).gated then
      .next (s1.setCluster { c with
        gated := true
        trace := []
        dropped := c.dropped + c.trace.length })
    else .next s1

/-- POWER_WAKE (R448): a cluster that wakes writes the count of the records dropped before any other record. -/
def execPowerWake (d core : Nat) (s : State) : Out :=
  if !(s.core d core).gated then .next s
  else
    let s1 := s.setCore { s.core d core with gated := false }
    let c := s1.cluster d (core / 4)
    if !c.gated then .next s1
    else
      let (n, s2) := s1.draw
      .next (s2.setCluster { c with
        gated := false
        trace := lossRecord n d c.dropped s2.now :: c.trace
        dropped := 0 })

/-! ## Watchpoints -/

/-- A watchpoint that is not armed. -/
def Watch.off : Watch := { addr := 0, rd := false, wr := false, en := false, mask := 0 }

/-- The watchpoint that four words hold, or none where a field is bad. -/
def watchOf (w : List Word) : Option Watch :=
  let w0 := w.getD 0 0
  let w1 := w.getD 1 0
  if w0.extractLsb' 0 6 ≠ 0 ∨ w1.extractLsb' 19 13 ≠ 0 then none
  else some
    { addr := w0.toNat + (w1.extractLsb' 0 16).toNat * 2 ^ 32
      rd := w1.getLsbD 16
      wr := w1.getLsbD 17
      en := w1.getLsbD 18
      mask := w.getD 3 0 ++ w.getD 2 0 }

/-- The four watchpoints of a die. -/
def Die.watchList (d : Die) : List Watch := (List.range 4).map fun i => d.watches.getD i Watch.off

/-- WPSET (R452): once per issue. -/
def execWpset (c : Ctl) (n : BitVec 2) (a : Nat) (s : State) : Out :=
  .next (issue (Form.sup c (vrun a 4) []) noHold (fun e s =>
    ((e.parts c).take 1).foldl (fun s' t =>
      match watchOf ((List.range 4).map fun i => e.read0 s t (.v (a + i))) with
      | none => e.illegal s' t subField
      | some x =>
        let di := s'.die e.w.die
        s'.setDie { di with watches := setAt di.watchList n.toNat x }) s) s)

/-! ## Words of no assigned opcode -/

/-- The trap of such a word: a pool header, a reserved restricted opcode after the checks of an earlier half, or an
unassigned opcode. -/
def unassignedTrap (w : DWord) (e : Env) : Nat × Nat × Bool :=
  if isPool w then (0, subPool, false)
  else if decide ((w >>> 62).toNat = 1) then
    match halfOf (w.extractLsb' 31 31) with
    | none => (0, subOpcode, false)
    | some h => (h.check false e.w).getD (0, subOpcode, true)
  else (0, subOpcode, false)

/-- The common fields of a word that has none. -/
def Ctl.zero : Ctl := { pred := 0, neg := false, rnd := .dflt, fsel := false, reuse := false }

/-- UNASSIGNED_OPCODE_WORD: every thread of the group traps before it. -/
def execUnassignedOpcodeWord (w : DWord) (s : State) : Out :=
  .next (issue { Form.short Ctl.zero [] [] with bad := fun e _ => some (unassignedTrap w e) } noHold (fun _ s => s) s)

end Sys2Proof.Machine
end

