-- ==== Sys2Proof/Machine/Queue.lean ====
section
/-! DEFINITION. Stream queues (R331 to R333) and their instructions (R401). -/

namespace Sys2Proof.Machine

/-- A queue's header as it stands at its home (Table 16.7). -/
structure QHead where
  pa : Nat
  isOpen : Nat
  head : Nat
  tail : Nat
  logcap : Nat
  data : Nat
deriving DecidableEq, Repr

/-- The system physical address of bytes that a thread's queue access reads or writes. -/
def State.queuePa (s : State) (e : Env) (t : Thread) (off : Nat) (wr : Bool) : Option Nat :=
  (s.page e t off wr).map fun x => s.spBase e.w.die + leafPa x.1 x.2 off

/-- The location of `n` bytes of a queue. -/
def queueLoc (pa n : Nat) : Loc := { store := .phys, bytes := upFrom pa n, mode := 0, d := false }

/-- The header that a queue access names, or the trap that its checks raise (R331, R401). -/
def State.queueHead (s : State) (e : Env) (t : Thread) (off : Nat) : Except Fail QHead :=
  let a := 0xC00000000000 + off
  if off % 128 ≠ 0 then .error (Fail.mk' 3 0 a)
  else
    match s.page e t off true with
    | none => .error (Fail.mk' 5 0 a)
    | some x =>
      if leafMode x.1 ≠ 0 then .error (Fail.mk' 3 1 a)
      else
        let pa := s.spBase e.w.die + leafPa x.1 x.2 off
        let l := queueLoc pa 32
        match s.foreign e t.owner l, s.poisoned e l with
        | some i, _ => .error (Fail.mk' 6 0 (a + i))
        | none, some i => .error (Fail.mk' 6 0 (a + i))
        | none, none =>
          let n := fun (i k : Nat) => s.mem.readNat (pa + i) k
          let h : QHead :=
            { pa := pa, isOpen := n 0 4, head := n 4 4, tail := n 8 4, logcap := n 12 1, data := n 16 8 }
          if h.logcap < 4 ∨ 20 < h.logcap ∨ h.data < 0xC00000000000 ∨ 0xC00100000000 ≤ h.data ∨ h.data % 8 ≠ 0 then
            .error (Fail.mk' 3 0 a)
          else .ok h

/-- The offset of an entry. -/
def QHead.entry (h : QHead) (i : Nat) : Nat := h.data - 0xC00000000000 + 8 * (i % 2 ^ h.logcap)

/-- What a queue access comes to. -/
inductive QOut where
  | trap (f : Fail)
  | closed
  | wait
  | done (s : State)
deriving DecidableEq, Repr

/-- A count of the header written at the home, which recalls the line first (R313). -/
def State.queueSet (s : State) (e : Env) (a x : Nat) : State :=
  { s.recall e.w.die none (linesOf [a]) true with mem := s.mem.writeNat a 4 (x % 2 ^ 32) }

/-- A push at the home: the entry at TAIL under the pusher's owner tag, then TAIL. -/
def State.queuePush (s : State) (e : Env) (t : Thread) (h : QHead) (lo hi : Word) : QOut :=
  if h.isOpen = 0 then .closed
  else if (h.tail + 2 ^ 32 - h.head) % 2 ^ 32 = 2 ^ h.logcap then .wait
  else
    let off := h.entry h.tail
    let a := 0xC00000000000 + off
    match s.queuePa e t off true with
    | none => .trap (Fail.mk' 5 0 a)
    | some pa =>
      match s.foreign e t.owner (queueLoc pa 8) with
      | some i => .trap (Fail.mk' 6 0 (a + i))
      | none =>
        let s1 := s.recall e.w.die none (linesOf [pa]) true
        .done ({ s1 with mem := s1.mem.writeBytes pa (wordBytes lo ++ wordBytes hi) }.queueSet e (h.pa + 8) (h.tail + 1))

/-- A pop at the home: the entry at HEAD, then HEAD; or end-of-stream. -/
def State.queuePop (s : State) (e : Env) (t : Thread) (h : QHead) (d : Nat) (p : BitVec 3) : QOut :=
  if h.tail = h.head then
    (if h.isOpen = 0 then .done (s.setPred e.w.wid t.idx p (boolBits false)) else .wait)
  else
    let off := h.entry h.head
    let a := 0xC00000000000 + off
    match s.queuePa e t off false with
    | none => .trap (Fail.mk' 5 0 a)
    | some pa =>
      let l := queueLoc pa 8
      match s.poisoned e l with
      | some i => .trap (Fail.mk' 6 0 (a + i))
      | none =>
        let bs := s.readLoc e t.owner l
        let s1 := (s.recall e.w.die none (linesOf [pa]) false).queueSet e (h.pa + 4) (h.head + 1)
        let s2 := (s1.writeV e.w.wid t.idx d (.all (wordAt bs 0))).writeV e.w.wid t.idx (d + 1) (.all (wordAt bs 1))
        .done (((s2.retag e.w.wid d).retag e.w.wid (d + 1)).setPred e.w.wid t.idx p (boolBits true))

/-- The sectors of a queue access that completes: the header's, and the entry's where it moves one (R430). -/
def State.queueSectors (s : State) (e : Env) (t : Thread) (h : QHead) (op : QOp) : List Nat :=
  sectorsOf (upFrom h.pa 32) ++ (match op with
    | .push _ _ => (s.queuePa e t (h.entry h.tail) true).toList.map fun a => a / 32
    | .pop _ _ => if h.tail = h.head then [] else (s.queuePa e t (h.entry h.head) false).toList.map fun a => a / 32)

/-- One queue access of a thread, tested at the home (R332). -/
def State.queueApply (s : State) (e : Env) (t : Thread) (off : Nat) (op : QOp) : QOut :=
  match s.queueHead e t off with
  | .error f => .trap f
  | .ok h =>
    let s1 := s.chargeSectors e.w.core e.g.tag (s.queueSectors e t h op)
    match op with
    | .push lo hi => s1.queuePush e t h lo hi
    | .pop d p => s1.queuePop e t h d p

/-- The bytes of the header and of the entry that an access would use. -/
def State.queueBytes (s : State) (e : Env) (t : Thread) (off : Nat) : List Nat :=
  match s.queueHead e t off with
  | .error _ => []
  | .ok h => upFrom h.pa 32 ++ [h.head, h.tail].filterMap fun i => s.queuePa e t (h.entry i) false

/-- The lines of a queue that an access must wait for (R312, R320). -/
def State.queueLines (s : State) (e : Env) (t : Thread) (off : Nat) : List Nat :=
  s.waitLines e.w.die e.w.ownHeld e.w.home true (s.queueBytes e t off)

/-- A participant whose queue lies on lines that must be waited for. -/
def holdQueue (c : Ctl) (a : Opd) (s : State) (e : Env) (t : Thread) : Option Hold :=
  if !t.predTrue c.pred c.neg then none
  else
    match s.queueLines e t (e.read0 s t a).toNat with
    | [] => none
    | l :: ls => some (.lines true (l :: ls))

/-- A push or pop as it arrives: done, trapped before the word, or waiting with its place in the order of arrival. -/
def State.queueArrive (s : State) (e : Env) (t : Thread) (off : Nat) (op : QOp) : State :=
  match s.queueApply e t off op with
  | .trap f => s.fail e t f
  | .closed => e.trapBefore s t (e.record t 21 0)
  | .done s' => s'
  | .wait =>
    let (n, s1) := s.newId
    s1.updThread e.w.wid t.idx fun u => u.block (.queue n off op t.pc t.cl)

/-- QPUSH (R401), a release (R333). -/
def execQpush (c : Ctl) (a b : Opd) (s : State) : Out :=
  .next (issue (Form.short c (a :: b.run 2) []).accesses
    (fun s e t => match holdRelease c s e t with
      | some w => some w
      | none => holdQueue c a s e t)
    (fun e s => (e.parts c).foldl (fun s' t =>
      s'.queueArrive e t (e.read0 s t a).toNat (.push (e.read0 s t b) (e.read0 s t (b.plus 1)))) s) s)

/-- QPOP (R401). -/
def execQpop (c : Ctl) (d : Nat) (a : Opd) (p : BitVec 3) (s : State) : Out :=
  .next (issue (Form.short c [a] (vrun d 2)).accesses (holdQueue c a)
    (fun e s => (e.parts c).foldl (fun s' t => s'.queueArrive e t (e.read0 s t a).toNat (.pop d p)) s) s)

/-- QCLOSE (R401): OPEN falls by 1; at 0 already, queue closed. -/
def execQclose (c : Ctl) (a : Opd) (s : State) : Out :=
  .next (issue (Form.short c [a] []).accesses (holdQueue c a)
    (fun e s => (e.parts c).foldl (fun s' t =>
      match s'.queueHead e t (e.read0 s t a).toNat with
      | .error f => s'.fail e t f
      | .ok h =>
        if h.isOpen = 0 then e.trapBefore s' t (e.record t 21 0)
        else s'.queueSet e h.pa (h.isOpen - 1)) s) s)

/-- A waiting push or pop tested again (R332): done, or trapped at its word, or still waiting, also for a line of the queue
(R320). -/
def State.queueAgain (s : State) (wid i off : Nat) (op : QOp) (pc : Addr) (cl : Clause) : State :=
  match s.envAt { wid := wid, thrs := [i], pc := pc }, s.thread? wid i with
  | some e, some t =>
    let t' := { t with pc := pc, cl := cl }
    if !(s.queueLines e t' off).isEmpty then s
    else
      match s.queueApply e t' off op with
      | .wait => s
      | .done s' => s'.updThread wid i Thread.release
      | .trap f => s.fail e t' f
      | .closed => e.trapBefore s t' (e.record t' 21 0)
  | _, _ => s

/-- The threads that wait at queues, in order of arrival; saved warps are tested again when they resume (R333). -/
def State.queueWaiters (s : State) : List (Nat × Nat × Nat × Nat × QOp × Addr × Clause) :=
  let all := (s.warps.filter fun w => !w.saved).map fun w => w.threads.filterMap fun t => match t.wait with
    | some (.queue n off op pc cl) => some (n, w.wid, t.idx, off, op, pc, cl)
    | _ => none
  sortOn (fun x => x.1) all.flatten

/-- Every waiter tested once, in order of arrival. -/
def State.settleQueues (s : State) : State :=
  s.queueWaiters.foldl (fun s x => s.queueAgain x.2.1 x.2.2.1 x.2.2.2.1 x.2.2.2.2.1 x.2.2.2.2.2.1 x.2.2.2.2.2.2) s

end Sys2Proof.Machine
end

