-- ==== Sys2Proof/Machine/Quiesce.lean ====
section
/-! DEFINITION. Invalidation of translations (R315, R316, R402), epochs and quiescence (R317, R403). -/

namespace Sys2Proof.Machine

/-! ## tlbinv -/

/-- The entries of a die that meet `f` leave its buffers, and no walk in flight installs one. -/
def State.dropTlbs (s : State) (d : Nat) (f : Tlb → Bool) : State :=
  let di := s.die d
  s.setDie { di with
    tlbs := dropIf f di.tlbs
    walks := dropIf f di.walks }

/-- An old root covered on a die for one page, or for all. -/
def Ctx.cover (x : Ctx) (d : Nat) (page : Option Nat) : Ctx :=
  { x with oldRoots := x.oldRoots.map fun r => { r with covered := (d, page) :: r.covered } }

/-- A cached translation of a scratchpad page of a context, in any buffer. -/
def Tlb.ofPage (x : Tlb) (tag : BitVec 12) (page : Nat) : Bool := x.covers x.core tag false page

/-- The body of the three forms: once per issue, for the lowest participant's OWNER. The model's buffers drop the entries
at once, so the group's wait is over with the word. -/
def tlbinvWord (c : Ctl) (srcs : List Opd) (f : Env → State → Thread → State) : State → State :=
  issue (Form.sup c srcs []) noHold fun e s =>
    match e.parts c with
    | [] => s
    | t :: _ => f e s t

/-- A walk that goes by the level-1 entry of a page's region installs that entry no more. -/
def State.cutWalks (s : State) (d : Nat) (tag : BitVec 12) (page : Nat) : State :=
  let di := s.die d
  s.setDie { di with
    walks := mapIf (fun x => decide (x.tag = tag) && !x.main && decide (x.page / 32 = page / 32)) (fun x => { x with path := [] })
      di.walks }

/-- TLBINV: the leaf that covers an offset and the level-1 entry of its region. -/
def execTlbinv (c : Ctl) (a : Opd) (s : State) : Out :=
  .next (tlbinvWord c [a] (fun e s t =>
    let page := (e.read0 s t a).toNat / 65536
    let s1 := (s.dropTlbs e.w.die fun x => x.ofPage t.owner page || x.points 1 t.owner false page).cutWalks e.w.die t.owner page
    s1.setCtx ((s1.ctx t.owner).cover e.w.die (some page))) s)

/-- TLBINV_CTX: every entry of OWNER's context. -/
def execTlbinvCtx (c : Ctl) (s : State) : Out :=
  .next (tlbinvWord c [] (fun e s t =>
    let s1 := s.dropTlbs e.w.die fun x => decide (x.tag = t.owner)
    s1.setCtx ((s1.ctx t.owner).cover e.w.die none)) s)

/-- TLBINV_ALL: every entry on the die. -/
def execTlbinvAll (c : Ctl) (s : State) : Out :=
  .next (tlbinvWord c [] (fun e s _ =>
    let s1 := s.dropTlbs e.w.die fun _ => true
    { s1 with ctxs := s1.ctxs.map fun x => x.cover e.w.die none }) s)

/-! ## Walks -/

/-- Entries of a core's lookaside buffer, and of the walk cache. -/
def tlbRoom (core : Option Nat) : Nat := if core.isSome then 256 else 4096

/-- An entry takes the place of an older one for the same page, or region. -/
def Tlb.replaces (x y : Tlb) : Bool :=
  if x.level = 0 then y.covers x.core x.tag x.main x.page else y.points x.level x.tag x.main x.page

/-- An entry installed; a full buffer loses its oldest. -/
def installTlb (l : List Tlb) (x : Tlb) : List Tlb :=
  let same := fun (y : Tlb) => decide (y.core = x.core)
  let l1 := dropIf (fun y => same y && x.replaces y) l
  let l2 := if (l1.filter same).length < tlbRoom x.core then l1
    else match l1.find? same with
      | some y => l1.erase y
      | none => l1
  l2 ++ [x]

/-- What a walk installs: its leaf in the core's buffer, and in the walk cache its leaf and its pointer entries (R315). -/
def Tlb.installs (x : Tlb) : List Tlb :=
  let leaf := { x with path := [] }
  let cached := { leaf with core := none }
  leaf :: cached :: ((List.range x.path.length).zip x.path).map fun y => { cached with level := y.1 + 1, leaf := y.2, big := false }

/-- TRANSLATION_WALK_COMPLETE (R315, R316): the oldest walk ends, and its entries stand in the buffers. -/
def execTranslationWalkComplete (d : Nat) (s : State) : Out :=
  match (s.die d).walks with
  | [] => .next s
  | x :: rest =>
    let di := s.die d
    .next (s.setDie { di with
      tlbs := x.installs.foldl installTlb di.tlbs
      walks := rest })

/-! ## Epochs -/

/-- Cycles of an epoch. -/
def epochCycles : Nat := 256

/-- QEPOCH_ADVANCE (R317). -/
def execQepochAdvance (d : Nat) (s : State) : Out :=
  let di := s.die d
  if s.now < di.lastEpoch + epochCycles then .next s
  else .next (s.setDie { di with qepoch := di.qepoch + 1, lastEpoch := di.lastEpoch + epochCycles })

/-- QDONE of a die has reached an epoch (R403). -/
def State.epochDone (s : State) (d : Nat) (e : Word) : Bool := decide ((s.qdone d - e).toNat < 2 ^ 31)

/-- QWAIT (R403). -/
def execQwait (c : Ctl) (a : Opd) (s : State) : Out :=
  .next (issue (Form.sup c [a] []) noHold (fun e s =>
    (e.parts c).foldl (fun s' t =>
      let x := e.read0 s t a
      if s'.epochDone e.w.die x then s' else s'.updThread e.w.wid t.idx fun u => u.block (.epoch x)) s) s)

end Sys2Proof.Machine
end

