-- ==== Sys2Proof/Machine/Settle.lean ====
section
/-! DEFINITION. What follows a step at once: waits that are over, long-latency instructions that have only to complete,
blocks and launches that end, traps due, and the start of slices. The warps of a saved block are not looked at (R183). -/

namespace Sys2Proof.Machine

/-! ## Outstanding instructions -/

/-- A copy of a slot is DONE or FAILED, or gone (R385). -/
def State.copyOver (s : State) (x : Nat × Nat) : Bool :=
  match s.copy? x.1 x.2 with
  | none => true
  | some y => decide (y.st = .done) || decide (y.st = .failed)

/-- A copy has reached the boundary at which it was asked to stop (R388). -/
def State.copyStopped (s : State) (x : Nat × Nat) : Bool :=
  match s.copy? x.1 x.2 with
  | none => true
  | some y => y.stopAt.isNone

/-- Every access of an instruction has been made: no thread is parked for it, none is carried to another core, and no
request for it is without a reply. -/
def State.partsMade (s : State) (w : Warp) (pid : Nat) : Bool :=
  w.threads.all (fun t => decide (t.split ≠ some pid)) &&
    !(s.blocks.any fun b => b.portions.any fun x => decide (x.wid = w.wid) && decide (x.pid = some pid)) &&
    !(s.requests.any fun r => decide (r.wid = w.wid) && decide (r.pid = pid))

/-- The threads of a promotion with an access that is still not performed (R245). -/
def State.stillFlying (s : State) (ts : List (Nat × Nat)) : List (Nat × Nat) :=
  ts.filter fun x => !(s.requestsOf x.1 x.2).isEmpty ||
    s.blocks.any fun b => b.portions.any fun p => decide (p.wid = x.1) && decide (p.thr = x.2)

/-- What an outstanding instruction still waits for. -/
def State.pendUntil (s : State) (w : Warp) (p : Pend) : Until :=
  match p.wait with
  | .ready => .ready
  | .parts => if s.partsMade w p.id then .ready else .parts
  | .copies cs =>
    let left := dropIf s.copyOver cs
    if left.isEmpty then .ready else .copies left
  | .stopped cs =>
    let left := dropIf s.copyStopped cs
    if left.isEmpty then .ready else .stopped left
  | .promoted ts =>
    let left := s.stillFlying ts
    if left.isEmpty then .parts else .promoted left
  | .matrix n => if n ≠ 0 ∧ s.opAlive n = false then .ready else .matrix n
  | .gcall => .gcall
  | .request d p => .request d p

/-- Requests that have come for a `svrecv` are delivered (R303). -/
def State.deliverTo (s : State) (w : Warp) (p : Pend) : State :=
  match p.wait with
  | .request d q =>
    let cl := w.core / 4
    if (s.cluster w.die cl).queue.isEmpty then s else s.deliver w.wid p.id d q w.die cl p.thrs
  | _ => s

/-- Every outstanding instruction looked at. -/
def State.settlePends (s : State) : State :=
  let s1 : State := { s with warps := s.warps.map fun w =>
    if w.saved || w.pend.isEmpty then w else { w with pend := w.pend.map fun p => { p with wait := s.pendUntil w p } } }
  (s1.warps.filter fun w => !w.saved).foldl (fun s w => w.pend.foldl (fun s p => s.deliverTo w p) s) s1

/-! ## Waits -/

/-- A mask wait is over (R191): the thread is no member, or every member waits on the mask and none is HELD. -/
def Warp.maskOver (w : Warp) (triple : Bool) (k i : Nat) : Bool :=
  let m := w.k.getD k 0
  !memberOf triple m i ||
    (!w.held && (w.threads.all fun t => t.inHandler.isNone &&
      (!memberOf triple m t.idx || decide (t.wait = some (.mask k)))))

/-- Whether what holds a thread's word back is over. -/
def State.holdOver (s : State) (w : Warp) (i : Nat) (x : Hold) : Bool :=
  match x with
  | .flagRoom f n => decide (w.flags.getD f 0 + n ≤ 63)
  | .faults => !s.mayFault w.wid i
  | .settled =>
    match w.thread? i with
    | none => true
    | some t =>
      match s.envAt { wid := w.wid, thrs := [i], pc := t.pc } with
      | none => true
      | some e => !s.unsettled e t
  | .drained all => if all then w.pend.isEmpty else !w.busy i
  | .room n => decide ((s.core w.die w.core).reqs.length + n ≤ coreRoom)
  | .lines wr l => (s.waitLines w.die w.ownHeld w.home wr (l.map fun a => a * 128)).isEmpty
  | .unit wr l => (s.unitLines w.die wr (l.map fun a => a * 128)).isEmpty
  | .heapOps => !s.opsCarried w.wid i
  | .acquire => !s.acquiring w.wid i
  | .gcallBuf => w.gcall.isNone

/-- Whether a wait that needs nothing done is over. -/
def State.waitOver (s : State) (w : Warp) (b : Block) (t : Thread) (x : Wait) : Bool :=
  match x with
  | .held l => l.all fun x => s.holdOver w x.1 x.2
  | .mask k => w.maskOver b.triple k t.idx
  | .barrier off target _ _ => passed (b.phaseFor ((s.tagOfWarp w).getD 0) t off) target
  | .arriving _ => false
  | .gret _ => false
  | .qdecl _ _ _ _ _ => false
  | .lantern _ _ _ _ => false
  | .node h => !s.nodeLive w.die h
  | .grid h => !s.gridLive h
  | .queue _ _ _ _ _ => false
  | .epoch e => s.epochDone w.die e
  | .vacate _ _ => false
  | .ending tag => (s.gridsOf tag).isEmpty
  | .header mask => (List.range 12).all fun n => !mask.getLsbD n || decide (w.flags.getD n 0 = 0)
  | .fetch _ => false
  | .result pid => w.pend.all fun p => decide (p.id ≠ pid)

/-- The threads of a warp whose waits are over released together (R192). -/
def State.releaseWarp (s : State) (w : Warp) (b : Block) : Warp :=
  { w with threads := w.threads.map fun t => match t.wait with
      | none => t
      | some x => if s.waitOver w b t x then t.release else t }

/-- Every plain wait tested once, on the state as it stands. -/
def State.settleWaits (s : State) : State :=
  { s with warps := s.warps.map fun w =>
      if w.saved || w.threads.all (fun t => t.wait.isNone) then w
      else match s.block? w.bid with
        | none => w
        | some b => s.releaseWarp w b }

/-- The barrier waits of every block tested again. -/
def State.settlePhases (s : State) : State :=
  (s.blocks.filter fun b => s.warps.any fun w => decide (w.bid = b.bid) && w.threads.any fun t => t.wait.isSome).foldl
    (fun s b => s.seePhases b.bid) s

/-! ## gcall -/

/-- The threads of a warp that wait in `gret` and whose reply stands take it (R203). -/
def State.settleReply (s : State) (w : Warp) : State :=
  w.threads.foldl (fun s t => match t.wait with
    | some (.gret d) =>
      if w.replyDue t.idx then s else (s.takeReply w.wid t.idx d).updThread w.wid t.idx Thread.release
    | _ => s) s

/-- A reply that every thread has consumed, or will not, frees the buffer (R202). -/
def Warp.freeGcall (w : Warp) : Warp :=
  match w.gcall with
  | none => w
  | some x =>
    let gone := fun (i : Nat) => decide (i ∈ x.consumed) || w.threads.any fun t => decide (t.idx = i) && decide (t.st = .ended)
    if x.words.isSome && x.thrs.all gone then { w with gcall := none } else w

def State.settleCalls (s : State) : State :=
  let s1 := (s.warps.filter fun w => !w.saved && w.gcall.isSome).foldl State.settleReply s
  { s1 with warps := s1.warps.map Warp.freeGcall }

/-! ## Sign registers and lanterns -/

/-- A group that waits at a word: its warp, its threads, the number of its issue, and the word with its clause fields. -/
structure Waiter where
  w : Warp
  thrs : List Nat
  stamp : Nat
  pc : Addr
  cl : Clause
  wait : Wait
deriving DecidableEq, Repr

/-- What a wait keeps of its issue: the number, the word, the clause fields. -/
def Wait.issueOf : Wait → Option (Nat × Addr × Clause)
  | .qdecl _ _ n pc cl => some (n, pc, cl)
  | .lantern _ n pc cl => some (n, pc, cl)
  | _ => none

/-- The waiting groups of a warp. -/
def Warp.waiters (w : Warp) : List Waiter :=
  w.threads.foldl (fun l t => match t.wait with
    | none => l
    | some x => match x.issueOf with
      | none => l
      | some (n, pc, cl) =>
        if l.any fun y => y.stamp = n then mapIf (fun (y : Waiter) => y.stamp = n) (fun y => { y with thrs := y.thrs ++ [t.idx] }) l
        else l ++ [{ w := w, thrs := [t.idx], stamp := n, pc := pc, cl := cl, wait := x }]) []

/-- The warp of a resumed block that waits for its lantern again, as if it had executed `lanttake` when it took its slot
(R278). -/
def State.lanternAgain (s : State) (b : Block) : Option Waiter :=
  match b.lanternAgain with
  | none => none
  | some (wid, ring) =>
    if b.inBivouac then none
    else (s.warp? wid).map fun w =>
      { w := w, thrs := [], stamp := w.placed, pc := 0, cl := Clause.none, wait := .lantern ring w.placed 0 Clause.none }

/-- The waiting groups in the order in which they are served: the highest class, then the oldest (R265, R274). -/
def State.waiters (s : State) : List Waiter :=
  let l := ((s.warps.filter fun w => !w.saved).map Warp.waiters).flatten ++ s.blocks.filterMap s.lanternAgain
  if l.isEmpty then [] else sortOn (fun x => (3 - min 3 (s.prioOf x.w)) * 2 ^ 64 + x.stamp) l

def State.releaseAll (s : State) (x : Waiter) : State :=
  x.thrs.foldl (fun s i => s.updThread x.w.wid i Thread.release) s

/-- The FIELD trap of a waiting group, before its word. -/
def State.waiterField (s : State) (x : Waiter) : State :=
  match s.envAt { wid := x.w.wid, thrs := x.thrs, pc := x.pc } with
  | none => s
  | some e => x.thrs.foldl (fun s i => match s.thread? x.w.wid i with
    | none => s
    | some t => e.illegal s { t with pc := x.pc, cl := x.cl } subField) s

/-- A waiting group served, where its turn has come. -/
def State.serve (s : State) (x : Waiter) : State :=
  match s.block? x.w.bid with
  | none => s
  | some b =>
    match x.wait with
    | .qdecl q n _ _ _ =>
      let r := s.sign b.die b.firstCl q
      if r.st = .free then (s.setSign b.die b.firstCl (r.opened b.bid n)).releaseAll x
      else if r.bid = b.bid then s.waiterField x
      else s
    | .lantern ring _ _ _ =>
      match s.lanternBy b with
      | none =>
        let s1 := (s.takeLantern x.w b ring).releaseAll x
        if b.lanternAgain.isSome && x.thrs.isEmpty then s1.updBlock b.bid fun y => { y with lanternAgain := none } else s1
      | some wid => if wid = x.w.wid then s.waiterField x else s
    | _ => s

/-- A lantern whose holder has ended is free (R274). -/
def State.dropLanterns (s : State) : State :=
  { s with clusters := s.clusters.map fun c => match c.lantern with
      | none => c
      | some y => match s.warp? y.1 with
        | none => { c with lantern := none }
        | some w => if w.overflowed then { c with lantern := none } else c }

def State.settleEngines (s : State) : State :=
  let s1 := s.dropLanterns
  (s1.waiters.foldl State.serve s1).settleAcc

/-! ## preempt -/

/-- A thread of a `preempt` whose cores are free receives their number (R421). -/
def State.vacated (s : State) (d : Nat) (x : Save) (wid i : Nat) (v : Dst) : State :=
  let n := (x.cores.filter fun k => (s.ctxWarps d k x.tag).isEmpty).length
  let word := BitVec.ofNat 32 n
  let s1 := match v with
    | .v k => (s.writeV wid i k (.all word)).retag wid k
    | .s k => s.writeS wid k word
    | .g _ => s
    | .none => s
  s1.updThread wid i Thread.release

/-- A vacating that has ended. -/
def State.endSave (s : State) (d : Nat) (x : Save) : State :=
  let waiting := (s.warps.map fun w => w.threads.filterMap fun t => match t.wait with
    | some (.vacate n v) => if n = x.id then some (w.wid, t.idx, v) else none
    | _ => none).flatten
  let s1 := waiting.foldl (fun s y => s.vacated d x y.1 y.2.1 y.2.2) s
  let di := s1.die d
  s1.setDie { di with saves := dropIf (fun y => y.id = x.id) di.saves }

/-- Blocks that have ended need no save; a vacating whose blocks are all saved ends. -/
def State.settleSaves (s : State) : State :=
  s.dies.foldl (fun s d => (s.die d.die).saves.foldl (fun s x =>
    let left := x.bids.filter fun b => (s.block? b).isSome
    if left.isEmpty then s.endSave d.die x
    else
      let di := s.die d.die
      s.setDie { di with saves := mapIf (fun y => y.id = x.id) (fun y => { y with bids := left }) di.saves }) s) s

/-! ## Ends -/

/-- Every warp of a block has ended. -/
def State.blockOver (s : State) (b : Block) : Bool :=
  !b.inBivouac && s.warps.all fun w => decide (w.bid ≠ b.bid) || w.overflowed

/-- A block ends (R154, R417): it counts for its launch; a task that has not called `taskdone` ends with its gain kept
(R397). -/
def State.endBlock (s : State) (b : Block) : State :=
  let s1 := (s.dropBlock b).updGrid b.gid fun g => { g with ended := g.ended + 1 }
  match b.task, s1.grid? b.gid with
  | some n, some g =>
    match (g.heap? b.die).bind fun h => h.task? n with
    | some t => if t.st = .running then s1.heapEvent g.gid b.die fun h => h.dropped n (s1.binFor g b.die n) else s1
    | none => s1
  | _, _ => s1

/-- The lines of its record that the end of a running task's block must wait for: the heap unit keeps its gain (R397,
R349). -/
def State.endLines (s : State) (b : Block) : List Nat :=
  match b.task, s.grid? b.gid with
  | some n, some g =>
    match (g.heap? b.die).bind fun h => h.task? n with
    | some t => if t.st = .running then s.taskLines g b.die n else []
    | none => []
  | _, _ => []

def State.settleBlocks (s : State) : State :=
  (s.blocks.filter s.blockOver).foldl (fun s b => if (s.endLines b).isEmpty then s.endBlock b else s) s

/-- Trees that are being ended end once they have stopped; gain and task launches end with their heaps. -/
def State.settleGrids (s : State) : State :=
  let roots := ((s.grids.filter fun g => g.ending.isSome && !g.retired).map fun g => s.rootOf s.grids.length g.gid).eraseDups
  let s1 := roots.foldl (fun s k => if s.endReady k then s.finishEnd k else s) s
  s1.grids.foldl (fun s g => match s.grid? g.gid with
    | none => s
    | some g => if s.heapsDone g then s.endHeaps g else s) s1

/-! ## Traps due and active sets -/

/-- The ELIGIBLE threads of a warp take the first trap due to them. -/
def State.settleDue (s : State) : State :=
  s.warps.foldl (fun s w =>
    if w.saved || w.threads.all (fun t => t.due.isEmpty) then s
    else w.eligible.foldl (fun s t => s.takeDue w.wid t.idx) s) s

/-- Since when a member has not been ready. -/
def Warp.noteIdle (w : Warp) (now : Nat) : Warp :=
  if !w.active then w
  else if w.ready then { w with idleSince := none }
  else if w.idleSince.isSome then w
  else { w with idleSince := some now }

/-- The warps that a `yield` still lets pass: those that have issued no word in the step from `before`, are ready, and
stand in the set (R155). -/
def State.stillPassing (before s : State) (l : List Nat) : List Nat :=
  l.filter fun i => match before.warp? i, s.warp? i with
    | some w0, some w => decide (w.wissue = w0.wissue) && w.active && w.ready
    | _, _ => false

def State.settleActive (before s : State) : State :=
  let s1 := (s.warps.filter fun w => w.active && w.overflowed).foldl State.leaveActive s
  { s1 with warps := s1.warps.map fun w =>
      let w1 := w.noteIdle s1.now
      if w1.yields.isEmpty then w1
      else { w1 with yields := w1.yields.map fun x => (x.1, x.2.1, before.stillPassing s1 x.2.2) } }

/-! ## Slices -/

/-- The first context named by a core's TSCTL that runs there. -/
def State.sliceTag (s : State) (c : Core) : Option (BitVec 12) :=
  [c.tsctl.extractLsb' 0 12, c.tsctl.extractLsb' 12 12].find? fun t =>
    decide (t ≠ 0) && !(s.ctxWarps c.die c.core t).isEmpty

/-- A core's slicing: it begins when a named context runs; when the running context's last warp has ended, the other's
restore begins, or slicing stands idle (R459). -/
def State.settleSlice (s : State) (c : Core) : State :=
  match c.slice with
  | none =>
    if c.sliceCycles = 0 then s
    else match s.sliceTag c with
      | none => s
      | some t => s.beginSlice c t
  | some x =>
    if x.phase = .restoring || !(s.ctxWarps c.die c.core x.tag).isEmpty then s
    else if (s.sliceSaved c (c.otherTag x.tag)).isEmpty then s.setCore { s.core c.die c.core with slice := none }
    else s.beginRestore c (c.otherTag x.tag)

def State.settleSlices (s : State) : State :=
  s.cores.foldl (fun s c => if c.tsctl = 0 && c.slice.isNone then s else s.settleSlice (s.core c.die c.core)) s

/-! ## The whole -/

/-- A core that had no resident warp starts from the present tick (R431). -/
def State.startTicks (before s : State) : State :=
  let new := ((s.warps.filter fun w => w.inSlot && !w.overflowed).map fun w => (w.die, w.core)).eraseDups.filter fun x =>
    (before.standing x.1 x.2).isEmpty
  new.foldl (fun s x =>
    let c := s.core x.1 x.2
    if c.lastTick = s.now / tickCycles then s else s.setCore { c with lastTick := s.now / tickCycles }) s

/-- Threads that became ELIGIBLE in the step from `before`, HELD ones among them, start from age 0 (R171). -/
def State.freshAges (before s : State) : State :=
  { s with warps := s.warps.map fun w => match before.warp? w.wid with
      | none => w
      | some w0 =>
        let was := w0.eligible.map fun t => t.idx
        let new := (w.eligible.map fun t => t.idx).filter fun i => decide (i ∉ was)
        if new.isEmpty then w
        else { w with threads := mapIf (fun t => decide (t.idx ∈ new)) (fun t => { t with age := 0 }) w.threads } }

/-- What follows a step that led from `before`, up to the words at which threads then stand. -/
def State.settle (before s : State) : State :=
  let s1 := s.settleBlocks.settlePends.settleEngines
  let s2 := s1.settleWaits.settlePhases.settleCalls.settleQueues.settleSaves
  let s3 := s2.settleGrids
  let s4 := (List.range 4).foldl (fun s d => if (s.die d).nodes.isEmpty then s else s.startReady d) s3
  before.freshAges s4.settleDue

/-- What follows once it is known which threads may issue. -/
def State.settleSlots (before s : State) : State := before.startTicks (before.settleActive s).settleSlices

end Sys2Proof.Machine
end

