-- ==== Sys2Proof/Machine/Fetch.lean ====
section
/-! DEFINITION. Fetching: clause headers passed (R71 to R77), the word of a group fetched and decoded (R70 to R75, R86), and a
program placed for the next step. -/

namespace Sys2Proof.Machine

/-! ## Clause headers -/

/-- What comes of a group that is to issue: the instruction to execute, or a state in which it does not. -/
inductive Fetched where
  | run (i : Instr) (s : State)
  | stop (s : State)
deriving DecidableEq, Repr

/-- Every thread of a group traps at its word. -/
def Env.trapGroup (e : Env) (s : State) (code sub : Nat) : State :=
  e.group.foldl (fun s t => e.trapBefore s t (e.record t code sub)) s

/-- The fetch of a word that has no translation or may not be executed: trap 5, with the word's address (R71). -/
def Env.fetchFault (e : Env) (s : State) : State :=
  e.group.foldl (fun s t => e.trapBefore s t { e.record t 5 0 with addr := e.iss.pc }) s

/-- A thread past a header: inside its span, with its flags; a region begins where RE is 1 (R24, R74, R165). -/
def Header.enter (h : Header) (pc : Addr) (t : Thread) : Thread :=
  let t1 := { t with
    pc := nextPc pc
    cl := { pos := 1, count := h.count, aflag := h.aflag, avalid := h.avalid, bflag := h.bflag, bvalid := h.bvalid } }
  if h.re then { t1 with
    regionPc := pc.setWidth 32
    shC := t.c
    shIstat := t.istat } else t1

/-- The flags that a header waits on all read zero (R77). -/
def Warp.flagsZero (w : Warp) (mask : BitVec 12) : Bool :=
  (List.range 12).all fun n => !mask.getLsbD n || decide (w.flags.getD n 0 = 0)

/-! ## Groups (R155, R171, R183) -/

/-- A thread of a block that is being stopped goes on: it stands in the supervisor view, and where its launch ends, the end
awaits its `eret` (R157, R422). -/
def State.goesOn (s : State) (w : Warp) (b : Block) (t : Thread) : Bool :=
  match (s.grid? b.gid).bind fun g => g.ending with
  | some x => s.awaited x w t
  | none => t.super

/-- The threads of a warp that may issue: ELIGIBLE, not held by a `yield`; of a block that is being stopped, those that go
on. -/
def State.issuable (s : State) (w : Warp) (b : Block) : List Thread :=
  let back := (w.yields.map fun x => x.1).flatten
  let l := w.eligible.filter fun t => decide (t.idx ∉ back)
  if s.stopping b then l.filter (s.goesOn w b) else l

/-! ## Words -/

/-- A word that is no instruction: the privilege trap for the threads that may not issue its opcode, FIELD for the others
(R86). -/
def Env.badWord (e : Env) (s : State) (w : DWord) (x : DecodeErr) : State :=
  e.group.foldl (fun s t =>
    if x = .field ∧ privilegedWord w ∧ t.super = false then e.trapBefore s t (e.record t 2 0)
    else e.illegal s t subField) s

/-- The word at the group's address inside a span. -/
def State.fetchSpan (s : State) (i : Issue) : Fetched :=
  match s.envAt i with
  | none => .stop s
  | some e =>
    match s.fetchWord e.g.tag i.pc with
    | none => .stop (e.fetchFault s)
    | some w =>
      match decode w with
      | .ok x => .run x { s with cur := some i }
      | .error err => .stop (e.badWord s w err)

/-- The threads of a warp that stand at a PC and may issue: one group (R171). -/
def State.groupAt (s : State) (wid : Nat) (pc : Addr) : Issue :=
  { wid := wid
    pc := pc
    thrs := match s.warp? wid with
      | none => []
      | some w => match s.block? w.bid with
        | none => []
        | some b => ((s.issuable w b).filter fun t => decide (t.pc = pc)).map fun t => t.idx }

/-- The group past a legal header, with the threads that already stand there: the first word of the span. -/
def State.passHeader (s : State) (i : Issue) (h : Header) : Fetched :=
  let s1 := i.thrs.foldl (fun s k => s.updThread i.wid k (Header.enter h i.pc)) s
  s1.fetchSpan (s1.groupAt i.wid (nextPc i.pc))

/-- A group that stands at a header: it passes where the header is legal and its WAIT satisfied, and issues the first word;
or it is STALLED there; or it traps (R72, R75, R77, R81). -/
def State.fetchHeader (s : State) (i : Issue) : Fetched :=
  match s.envAt i with
  | none => .stop s
  | some e =>
    match s.fetchWord e.g.tag i.pc with
    | none => .stop (e.fetchFault s)
    | some w =>
      if isHeader w then
        match headerOf w with
        | none => .stop (e.trapGroup s 0 subField)
        | some h =>
          if e.w.flagsZero h.wait then s.passHeader i h
          else .stop (s.eachThread e e.group fun t => t.block (.header h.wait))
      else .stop (e.trapGroup s 0 (if isPool w then subPool else subField))

/-- What a group that is chosen to issue comes to. -/
def State.fetch (s : State) (i : Issue) : Fetched :=
  match s.thread? i.wid (i.thrs.headD 0) with
  | none => .stop s
  | some t => if t.cl.pos = 0 then s.fetchHeader i else s.fetchSpan i

/-! ## A program placed from outside -/

/-- The record of the launch that a placed word runs in: one block of one thread in triple mode, with 40 vector and 16
uniform registers. -/
def loadRecord : Record :=
  { recordOf (List.replicate 16 0) 0 with
    triple := true
    regs := 40
    uregs := 16 }

/-- The context, the address of the clause and the word behind its header. -/
def loadTag : BitVec 12 := 1
def loadPc : Addr := 0x100000

/-- The header of a clause of one word that defines both flags. -/
def loadHeader : Header :=
  { wait := 0, aflag := 0, avalid := true, bflag := 1, bvalid := true, count := 1, re := false, yld := false }

/-- The page tables that map the clause's page to itself, and the clause (Table 25.1). -/
def loadMem (m : Mem) (w : DWord) : Mem :=
  let m1 := m.writeNat 0x8000 8 (2 ^ 63 + 0x10000)
  let m2 := m1.writeNat 0x10000 8 (2 ^ 63 + 0x14000)
  let m3 := m2.writeNat (0x14000 + 8 * 16) 8 (2 ^ 63 + 2 ^ 62 + 0x100000)
  let m4 := m3.writeBytes 0x100000 (bytesOfWord loadHeader.word)
  m4.writeBytes 0x100008 (bytesOfWord w)

/-- The thread of the placed word: past the header, at the word. -/
def loadThread : Thread := Header.enter loadHeader loadPc (Thread.start 0 loadPc 40 loadRecord loadTag)

/-- The launch, the block and the warp of a placed word, on core 0 of die 0. -/
def loadGrid (gid : Nat) : Grid :=
  { gid := gid, kind := .host, tag := loadTag, lr := loadRecord, parent := none, nest := 1, entry := none, table := [], shares := [],
    ended := 0, icnt := (0, 0, 0), heaps := [], tasksOf := none, heapChild := none, done := false, retired := false,
    ending := none, report := none }

def loadBlock (gid : Nat) : Block :=
  { bid := gid + 1, gid := gid, linear := 0, die := 0, cores := [0], triple := true, shBytes := 0, shared := [], bars := [],
    shPoison := [], g := List.replicate 64 0, greps := [], gflight := [], gupdates := [], portions := [], mopcnt := 0, hcount := 0,
    handles := [], lanternAgain := none, wids := [gid + 2], saveId := none, saveBytes := 0, kept := false, hung := false,
    task := none }

def loadWarp (gid : Nat) : Warp :=
  { Warp.start (gid + 2) (gid + 1) 0 0 0 0 0 (gid + 1) [loadThread] 40 16 false with active := true }

/-- A machine with a launch of one thread that stands at a word. -/
def State.loadWord (s : State) (w : DWord) : State :=
  let gid := s.uid
  { s with
    uid := gid + 3
    mem := loadMem s.mem w
    ctxs := putBy (fun x => x.tag = loadTag) { s.ctx loadTag with mptroot := 1 } s.ctxs
    grids := s.grids ++ [loadGrid gid]
    blocks := s.blocks ++ [loadBlock gid]
    warps := s.warps ++ [loadWarp gid] }

end Sys2Proof.Machine
end

