-- ==== Sys2Proof/Machine/Recalls.lean ====
section
/-! DEFINITION. The homes' recalls of claimed lines (R312, R313, R389): which lines are asked for, by which agents, and what
the engine that claims a line does for them. -/

namespace Sys2Proof.Machine

/-! ## Who waits for lines (R313, R320, R349) -/

/-- The lines that a hold names. -/
def Hold.lineList : Hold → List Nat
  | .lines _ l => l
  | .unit _ l => l
  | _ => []

/-- The lines that a wait names. -/
def Wait.lineList : Wait → List Nat
  | .held l => (l.map fun x => x.2.lineList).flatten
  | .fetch l => (l.map fun x => x * 32 / 128).eraseDups
  | _ => []

/-- Of the threads: what their waits name, and the lines of the queues at which they wait. -/
def State.threadLines (s : State) : List Nat :=
  let named := (s.warps.filter fun w => !w.saved).map fun w => (w.threads.map fun t => match t.wait with
    | some x => x.lineList
    | none => []).flatten
  let queued := s.queueWaiters.map fun x =>
    match s.envAt { wid := x.2.1, thrs := [x.2.2.1], pc := x.2.2.2.2.2.1 }, s.thread? x.2.1 x.2.2.1 with
    | some e, some t => s.queueLines e t x.2.2.2.1
    | _, _ => []
  named.flatten ++ queued.flatten

/-- Of the clusters: the first request of a service queue, and the B rows of the next K-step. -/
def State.clusterLines (s : State) (c : Cluster) : List Nat :=
  let heads := ((c.queue.take 1).map fun r => linesOf r.bytes).flatten
  let rows := match c.pass with
    | none => []
    | some p =>
      match c.table.find? fun x => x.id = p.entry with
      | none => []
      | some x =>
        match s.block? x.bid, x.desc with
        | some b, some d =>
          match s.bRows b x d p.h (lookupD p.h 0 x.handles) with
          | .error _ => []
          | .ok phys => linesOf phys.flatten
        | _, _ => []
  heads ++ rows

/-- Of a launch's heaps: the operation to enter next, the task to dispatch next, and the tasks that the end makes idle. -/
def State.gridLines (s : State) (g : Grid) : List Nat :=
  let heap := fun (h : Heap) =>
    ((h.ops.take 1).map fun x => s.taskLines g h.die x.n).flatten ++
      (if g.done || g.retired || g.ending.isSome || !h.mayDispatch g then [] else match h.pickTask with
        | some (t, _) => s.taskLines g h.die t.n
        | none => [])
  (g.heaps.map heap).flatten ++
    (if g.done || g.retired || !g.heapsOver || s.blocks.any (fun b => b.gid = g.gid) then [] else s.leftLines g)

/-- Of a die's node queue: the first ready node. -/
def State.nodeWants (s : State) (d : Nat) : List Nat := ((s.readyNodes d).take 1).map (s.nodeLines d) |>.flatten

/-- Of a context's sweep: the next record to start. -/
def State.sweepWants (s : State) (c : Ctx) : List Nat :=
  match c.sweep with
  | none => []
  | some w => match s.grid? w.gid with
    | none => []
    | some g => if g.ending.isSome || (!w.started && !(s.sweptBy g.gid).isEmpty) then [] else s.sweepLines c.tag g w

/-- The lines of a host launch's tables (R412). -/
def State.inputLines (s : State) (x : Input) : List Nat :=
  match x with
  | .act (.hostLaunch tag w) => if s.pkg.booted && s.serves tag then s.tableLines 0 tag w else []
  | _ => []

/-- The lines that a copy's unit would access and that copies entered before it claim. -/
def State.copyWants (s : State) (d : Nat) (x : Copy) (c : Nat) (whole : Bool) : List Nat :=
  let src := x.desc.srcSpan (whole && x.desc.trans) c
  let read := match s.agentBytes d x.tag src.1 src.2 false with
    | .error _ => []
    | .ok l => l
  let write := match s.copyDst d x (x.desc.spans c) with
    | .error _ => []
    | .ok l => l
  (linesOf (read ++ write)).filter fun l =>
    s.dies.any fun k => k.copies.any fun y => decide (y.order < x.order) && decide (l ∈ y.claims)

/-- Of a die's engines: the next unit of each copy that an engine runs or may take up. -/
def State.engineWants (s : State) (d : Nat) : List Nat :=
  (((s.die d).copies.filter fun x => decide (x.st = .running) || decide (x.st = .queued)).map fun x =>
    s.copyWants d x x.p false).flatten

/-- The copy of a die whose claim of a line is the oldest, with its chunk that holds the line. -/
def State.claimant (s : State) (d l : Nat) : Option (Copy × Nat) :=
  (leastOn (fun (x : Copy) => x.order) ((s.die d).copies.filter fun x => decide (l ∈ x.claims))).bind fun x =>
    (x.remaining.find? fun c => decide (l ∈ x.chunkLines c)).map fun c => (x, c)

/-- The lines for which the recalls of some lines wait in their turn, by fuel over the copies. -/
def State.recallWants (s : State) : Nat → List Nat → List Nat
  | 0, l => l
  | fuel + 1, l =>
    let more := (l.map fun k => ((List.range 4).map fun d => match s.claimant d k with
      | some (x, c) => s.copyWants d x c true
      | none => []).flatten).flatten.eraseDups
    if more.isEmpty then l else l ++ State.recallWants s fuel more

/-- The lines that anything waits for. -/
def State.wantedLines (s : State) : List Nat :=
  let l := s.threadLines ++ (s.clusters.map s.clusterLines).flatten ++ (s.grids.map s.gridLines).flatten ++
    (s.ctxs.map s.sweepWants).flatten ++
    ((List.range 4).map fun d => s.nodeWants d ++ s.engineWants d).flatten ++
    ((s.blocks.filter s.blockOver).map s.endLines).flatten ++ ((s.inputs.take 1).map s.inputLines).flatten
  (s.recallWants (s.dies.map fun d => d.copies.length).sum l).eraseDups

/-! ## The recall -/

/-- The first wanted line of a slice whose oldest claim is a copy that can write the line now, with that copy. -/
def State.recallTarget (s : State) (d cl : Nat) : Option (Nat × Copy) :=
  (s.wantedLines.filter fun l => decide (homeOf (l * 128) = cl)).findSome? fun l =>
    (s.claimant d l).bind fun x => if (s.copyStep d x.1 x.2 true).isSome then some (l, x.1) else none

/-- SLICE_LINE_REQUEST: the home of a claimed line recalls it for the request that waits: the engine moves the chunk that
holds the line to the front and writes it, a transposing copy the whole row (R313, R389). Requests that no claim holds
back are served with the access itself; for a HELD line the home waits. -/
def execSliceLineRequest (d cl : Nat) (s : State) : Out :=
  match s.recallTarget d cl with
  | none => .next s
  | some (l, x) =>
    match x.remaining.find? fun c => decide (l ∈ x.chunkLines c) with
    | none => .next s
    | some c => .next ((s.copyStep d x c true).getD s)

end Sys2Proof.Machine
end

