-- ==== Sys2Proof/Machine/Sched.lean ====
section
/-! DEFINITION. Which steps are possible: the group that each issue slot would issue (R171, R173), and the steps of the other
agents that have something to do. The spec orders few of them against each other; `Config.pick` chooses (log 13). -/

namespace Sys2Proof.Machine

/-! ## Groups (R155, R171, R183) -/

/-- The thread whose PC is chosen: the greatest age from 64 on, then the lowest PC; else the lowest PC. -/
def chosenThread (l : List Thread) : Option Thread :=
  match leastOn (fun (t : Thread) => (255 - min t.age 255) * 2 ^ 48 + t.pc.toNat) (l.filter fun t => decide (64 ≤ t.age)) with
  | some t => some t
  | none => leastOn (fun (t : Thread) => t.pc.toNat) l

/-- A warp's core, cluster and block let it issue; a service warp runs on in a cluster that a fence has stopped (R437). -/
def State.mayRun (s : State) (w : Warp) (b : Block) : Bool :=
  !w.saved && (w.service || (!(s.core w.die w.core).gated && !(s.cluster w.die (w.core / 4)).stopped)) && !b.hung &&
    (match b.lanternAgain with
    | some x => decide (x.1 ≠ w.wid)
    | none => true)

/-- The group that a warp would issue. -/
def State.nextGroup (s : State) (w : Warp) : Option Issue :=
  match s.block? w.bid with
  | none => none
  | some b =>
    if !s.mayRun w b then none
    else
      let l := s.issuable w b
      (chosenThread l).map fun h =>
        { wid := w.wid
          thrs := (l.filter fun t => decide (t.pc = h.pc) && decide (t.cl = h.cl)).map fun t => t.idx
          pc := h.pc }

/-- The groups that the issue slots would issue now: of each slot's active set the first ready warp; and those of service
warps (R173). -/
def State.issues (s : State) : List Issue :=
  let l := (s.warps.filter fun w => w.active || w.service).filterMap fun w => (s.nextGroup w).map fun i => (w, i)
  (l.filter fun x => x.1.service || l.all fun y => !x.1.sameSlot y.1 || decide (s.rank x.1 ≤ s.rank y.1)).map fun x => x.2

/-! ## Steps of the other agents -/

def opt (b : Bool) (i : Instr) : List Instr := if b then [i] else []

/-- Of the warps. -/
def State.warpEvents (s : State) (w : Warp) : List Instr :=
  if w.saved then []
  else
    (w.threads.filterMap fun t => match t.st, t.wait with
      | .parked, some (.fetch sectors) =>
        if (s.blockedLines w.die w.ownHeld (sectors.map fun x => x * 32)).isEmpty then some (Instr.lineArrival w.wid t.idx) else none
      | _, some (.barrier _ _ since _) =>
        if since + hangCycles ≤ s.now && !s.watchStopped w.bid && !(s.blocks.any fun b => decide (b.bid = w.bid) && b.hung) then
          some (Instr.hangWatchdog w.wid t.idx) else none
      | _, _ => none) ++
    (w.pend.filter fun p => decide (p.wait = .ready)).map (fun p => Instr.longLatencyComplete w.wid p.id) ++
    (w.yields.filter fun x => yieldOver s.now x).map (fun x => Instr.yieldHoldExpiry w.wid (x.1.headD 0)) ++
    opt (w.inSlot && !w.active && w.ready && decide ((s.members w).length < activeRoom) &&
      decide ((s.nextIn w).map (fun x => x.wid) = some w.wid)) (.activeSetEntry w.wid) ++
    opt (s.mayLeave w) (.activeSetIdleLeave w.wid) ++
    (if !w.active && w.ready then
      (match s.displaces w with
      | some v => [Instr.activeSetDisplace w.wid v.wid]
      | none => [])
    else [])

/-- Of the blocks. -/
def State.blockEvents (s : State) (b : Block) : List Instr :=
  opt (!b.gflight.isEmpty) (.gWriteHomeArrival b.bid) ++
    (b.gupdates.map fun x => x.1).eraseDups.map (fun r => Instr.gReplicaUpdate b.bid r) ++
    opt (!b.portions.isEmpty) (.sharedPortionAccessArrival b.bid) ++
    opt (s.saveDue b).isSome (.bivouacSaveEnd b.bid) ++
    opt (b.inBivouac && (s.mayResume b).isSome) (.blockResume b.bid)

/-- A slice has a step to make (R426, R457). -/
def State.sliceDue (s : State) (c : Core) : List Instr :=
  match c.slice with
  | none => []
  | some x =>
    match x.phase with
    | .running => opt (decide (x.expiry ≤ s.now)) (.timeSliceExpiry c.die c.core)
    | .saving => opt ((s.sliceBlocks c x.tag).all s.quiet) (.sliceTransferEnd c.die c.core)
    | .restoring => [.sliceTransferEnd c.die c.core]

/-- Of the cores. -/
def State.coreEvents (s : State) (c : Core) : List Instr :=
  opt (!(s.mayEnter c.die c.core).isEmpty) (.remoteRequestEnqueue c.die c.core) ++
    opt (c.lines.any fun l => l.lapsed s.now) (.parkedLineHoldExpiry c.die c.core) ++
    opt (c.gated && !(s.standing c.die c.core).all Warp.waits) (.powerWake c.die c.core) ++ s.sliceDue c

/-- Of the cores with warps on them. -/
def State.residentEvents (s : State) : List Instr :=
  let l := ((s.warps.filter fun w => w.inSlot && !w.overflowed).map fun w => (w.die, w.core)).eraseDups
  (l.map fun x => opt (s.tickDue x.1 x.2) (.energyTick x.1 x.2) ++ opt (s.mayGate x.1 x.2) (.powerGate x.1 x.2)).flatten

/-- Of the clusters. -/
def State.clusterEvents (s : State) (c : Cluster) : List Instr :=
  (c.signs.filter fun r => decide (r.st = .pending) && !r.saved &&
      r.toEnter.any fun k => decide ((s.cluster c.die k).parts < tableRoom)).map
      (fun r => Instr.signsetPendingEntry c.die c.cl r.q) ++
    opt (c.pass.isNone && (s.choosePass c).isSome) (.matrixPassStart c.die c.cl) ++
    opt c.pass.isSome (.matrixKstep c.die c.cl) ++
    opt (!c.replies.isEmpty || ((s.serviceWarp c.die c.cl).isNone && (s.headReady c.die c.cl).isSome)) (.remoteReply c.die c.cl) ++
    opt (!c.trace.isEmpty && !c.gated) (.traceDrain c.die c.cl)

/-- A copy has a chunk to move, or a boundary to stop at. -/
def State.copyDue (s : State) (d : Nat) (x : Copy) : Bool :=
  x.stopAt.isSome || decide (((s.nextCopy d (x.slot / 64)).map fun y => y.slot) = some x.slot)

/-- A recall that can be made (R313). -/
def State.recallDue (s : State) (d cl : Nat) : Bool :=
  (s.recallTarget d cl).isSome

/-- Of the dies. -/
def State.dieEvents (s : State) (d : Nat) : List Instr :=
  let di := s.die d
  opt (decide (di.lastEpoch + epochCycles ≤ s.now)) (.qepochAdvance d) ++
    opt (!di.walks.isEmpty) (.translationWalkComplete d) ++
    (di.copies.filter (s.copyDue d)).map (fun x => Instr.copyChunk d x.slot) ++
    (di.nodes.filter (s.nodeDone d)).map (fun n => Instr.graphNodeFinish d n.slot) ++
    (if di.copies.isEmpty then []
    else ((s.wantedLines.map fun l => homeOf (l * 128)).eraseDups.filter (s.recallDue d)).map fun k => Instr.sliceLineRequest d k)

/-- Of a launch's heaps. -/
def State.heapEvents (s : State) (g : Grid) (h : Heap) : List Instr :=
  opt (s.opReady g h) (.heapOperationArrival g.gid h.die) ++
    opt (h.firstOver.isSome && decide (h.queued < heapRoom)) (.heapOverflowEntry g.gid h.die) ++
    opt (g.spread && !g.retired && decide (h.lastExchange + exchangeCycles ≤ s.now)) (.residPartExchange g.gid h.die) ++
    opt ((s.dispatch g h.die).isSome) (.heapDispatch g.gid h.die)

/-- Of the launches. -/
def State.gridEvents (s : State) (g : Grid) : List Instr :=
  (g.shares.filter fun x => (s.placeNext g x).isSome).map (fun x => Instr.blockPlace g.gid x.die) ++
    opt (s.mayRetire g) (.gridRetire g.gid) ++ (g.heaps.map (s.heapEvents g)).flatten

/-- Of the package. -/
def State.packageEvents (s : State) : List Instr :=
  opt (s.nextCall.isSome) .gcallRingEntry ++
    (match s.pkg.ckBusy with
    | none => []
    | some x => (x.moves.take 1).map fun m => Instr.checkpointDrainPage m.1) ++
    (s.ctxs.filter fun x => s.sweepDue x.tag).map fun x => Instr.lsweepNextStart x.tag

/-- The steps whose time is up, before anything else happens: g writes that 64 cycles have passed since (R219), and energy
ticks (R431). -/
def State.urgent (s : State) : List Instr :=
  (s.blocks.map fun b =>
    opt (!(b.gLate s.now).isEmpty) (.gWriteHomeArrival b.bid) ++
      ((b.gupdates.filter fun x => decide (x.2.since + gSight ≤ s.now)).map fun x => x.1).eraseDups.map
        fun r => Instr.gReplicaUpdate b.bid r).flatten ++
    (((s.warps.filter fun w => w.inSlot && !w.overflowed).map fun w => (w.die, w.core)).eraseDups.filter fun x =>
      s.tickDue x.1 x.2).map fun x => Instr.energyTick x.1 x.2

/-- Every step that another agent could make now. -/
def State.agentSteps (s : State) : List Instr :=
  (s.warps.map s.warpEvents).flatten ++ (s.blocks.map s.blockEvents).flatten ++ (s.cores.map s.coreEvents).flatten ++
    s.residentEvents ++ (s.clusters.map s.clusterEvents).flatten ++ ((List.range 4).map s.dieEvents).flatten ++
    (s.grids.map s.gridEvents).flatten ++ s.packageEvents

/-! ## The choice -/

/-- What a step does: a step of an agent, the issue of a group, or nothing but the passing of time. -/
inductive Choice where
  | event (i : Instr)
  | group (i : Issue)
  | idle
deriving DecidableEq, Repr

/-- What may come next. Under a thermal limit stalls may be inserted (R454). -/
def State.choices (s : State) : List Choice :=
  s.issues.map Choice.group ++ s.agentSteps.map Choice.event ++ (if s.pkg.thermalStall then [.idle] else [])

/-- One of some choices. -/
def chooseOf (n : Nat) (l : List Choice) : Choice :=
  match l with
  | [] => .idle
  | [x] => x
  | x :: y :: r => (x :: y :: r).getD (Config.pick n % (x :: y :: r).length) .idle

def State.choose (s : State) : Choice := chooseOf s.fresh s.choices

/-! ## Time -/

/-- Time passes (log 14), and the next number is drawn. -/
def State.passTime (s : State) : State :=
  { s.passCycles (Config.elapsed s.fresh) with
    fresh := s.fresh + 1
    cur := none }

end Sys2Proof.Machine
end

