-- ==== Sys2Proof/Machine/Tape.lean ====
section
/-! DEFINITION. Mode and tape: `dmode` (R351, R361, R398), `tapemark`, `tapedrop` (R399), `adjld` and `adjclr` (R400). -/

namespace Sys2Proof.Machine

/-- The body of `dmode`: every store and tape record of the model is performed when its word issues, so the wait of R351
is over at once (log 11). -/
def dmodeWord (c : Ctl) (rev : Bool) : State → State :=
  issue (Form.short c [] []) noHold fun e s => s.eachThread e (e.parts c) fun t => { t with rev := rev }

/-- DMODE_FWD (R398). -/
def execDmodeFwd (c : Ctl) (s : State) : Out := .next (dmodeWord c false s)

/-- DMODE_REV (R398). -/
def execDmodeRev (c : Ctl) (s : State) : Out := .next (dmodeWord c true s)

/-- TAPEMARK (R399). -/
def execTapemark (c : Ctl) (d : Dst) (s : State) : Out :=
  .next (issue (Form.short c [] d.opds) noHold (fun e s =>
    s.writeAll e (e.parts c) d fun t => .all (BitVec.ofNat 32 t.tapepos)) s)

/-- TAPEDROP (R399): a position above TAPEPOS raises FIELD. -/
def execTapedrop (c : Ctl) (a : Opd) (s : State) : Out :=
  .next (issue (Form.short c [a] []) noHold (fun e s =>
    (e.parts c).foldl (fun s' t =>
      let p := (e.read0 s t a).toNat
      if t.tapepos < p then e.illegal s' t subField
      else s'.updThread e.w.wid t.idx fun u => { u with tapepos := p }) s) s)

/-- ADJLD (R400): the adjoint cell, without accumulating, in either mode. -/
def execAdjld (c : Ctl) (m : MemWord) (s : State) : Out :=
  .next (loadWord { c := c, m := m, kind := .cell, split := true } s)

/-- ADJCLR (R400): +0 to the cell. -/
def execAdjclr (c : Ctl) (m : MemWord) (s : State) : Out := .next (storeWord { c := c, m := m, kind := .cell } s)

end Sys2Proof.Machine
end

