-- ==== Sys2Proof/Machine/Dispatch.lean ====
section
/-! DEFINITION. The meaning of each instruction: one arm for each constructor of `Instr`, each a direct call. -/

namespace Sys2Proof.Machine

def exec (i : Instr) (s : State) : Host.Outcome State Fault Refusal :=
  match i with
  | .iadd c d a b sat => Sys2Proof.Machine.execIadd c d a b sat s
  | .isub c d a b sat => Sys2Proof.Machine.execIsub c d a b sat s
  | .imul c d a b => Sys2Proof.Machine.execImul c d a b s
  | .imulh c d a b u => Sys2Proof.Machine.execImulh c d a b u s
  | .imad c d a b e hi u => Sys2Proof.Machine.execImad c d a b e hi u s
  | .imin c d a b u => Sys2Proof.Machine.execImin c d a b u s
  | .imax c d a b u => Sys2Proof.Machine.execImax c d a b u s
  | .iabs c d a sat => Sys2Proof.Machine.execIabs c d a sat s
  | .ineg c d a sat => Sys2Proof.Machine.execIneg c d a sat s
  | .idiv c d a b u => Sys2Proof.Machine.execIdiv c d a b u s
  | .irem c d a b u => Sys2Proof.Machine.execIrem c d a b u s
  | .and c d a b => Sys2Proof.Machine.execAnd c d a b s
  | .or c d a b => Sys2Proof.Machine.execOr c d a b s
  | .xor c d a b => Sys2Proof.Machine.execXor c d a b s
  | .andn c d a b => Sys2Proof.Machine.execAndn c d a b s
  | .not c d a => Sys2Proof.Machine.execNot c d a s
  | .shl c d a b => Sys2Proof.Machine.execShl c d a b s
  | .shr c d a b => Sys2Proof.Machine.execShr c d a b s
  | .sar c d a b => Sys2Proof.Machine.execSar c d a b s
  | .rot c d a b => Sys2Proof.Machine.execRot c d a b s
  | .popc c d a => Sys2Proof.Machine.execPopc c d a s
  | .clz c d a => Sys2Proof.Machine.execClz c d a s
  | .brev c d a => Sys2Proof.Machine.execBrev c d a s
  | .bfx c d a b sgn => Sys2Proof.Machine.execBfx c d a b sgn s
  | .bfi c d a b => Sys2Proof.Machine.execBfi c d a b s
  | .icmp c p cc a b => Sys2Proof.Machine.execIcmp c p cc a b s
  | .sel c d a b p neg => Sys2Proof.Machine.execSel c d a b p neg s
  | .mov c d a => Sys2Proof.Machine.execMov c d a s
  | .movi c d imm z => Sys2Proof.Machine.execMovi c d imm z s
  | .movh c d imm => Sys2Proof.Machine.execMovh c d imm s
  | .ldlit c d imm idx => Sys2Proof.Machine.execLdlit c d imm idx s
  | .lea c d a b sh => Sys2Proof.Machine.execLea c d a b sh s
  | .iaddc c d a b ci co cin sub => Sys2Proof.Machine.execIaddc c d a b ci co cin sub s
  | .prmt c d a b => Sys2Proof.Machine.execPrmt c d a b s
  | .cvt c d a dest frm e => Sys2Proof.Machine.execCvt c d a dest frm e s
  | .cvtpk c d a b dest frm h => Sys2Proof.Machine.execCvtpk c d a b dest frm h s
  | .unpk c d a dest frm h => Sys2Proof.Machine.execUnpk c d a dest frm h s
  | .fadd c d a b => Sys2Proof.Machine.execFadd c d a b s
  | .fsub c d a b => Sys2Proof.Machine.execFsub c d a b s
  | .fmul c d a b => Sys2Proof.Machine.execFmul c d a b s
  | .fma c d a b e np nc => Sys2Proof.Machine.execFma c d a b e np nc s
  | .fmin c d a b => Sys2Proof.Machine.execFmin c d a b s
  | .fmax c d a b => Sys2Proof.Machine.execFmax c d a b s
  | .fdiv c d a b => Sys2Proof.Machine.execFdiv c d a b s
  | .fsqrt c d a => Sys2Proof.Machine.execFsqrt c d a s
  | .frcp c d a => Sys2Proof.Machine.execFrcp c d a s
  | .frsq c d a => Sys2Proof.Machine.execFrsq c d a s
  | .fexp2 c d a => Sys2Proof.Machine.execFexp2 c d a s
  | .flog2 c d a => Sys2Proof.Machine.execFlog2 c d a s
  | .fsin c d a => Sys2Proof.Machine.execFsin c d a s
  | .fcos c d a => Sys2Proof.Machine.execFcos c d a s
  | .fcmp c p cc a b => Sys2Proof.Machine.execFcmp c p cc a b s
  | .fclass c d a => Sys2Proof.Machine.execFclass c d a s
  | .fint c d a => Sys2Proof.Machine.execFint c d a s
  | .fscale c d a b => Sys2Proof.Machine.execFscale c d a b s
  | .hadd2 c d a b e16 => Sys2Proof.Machine.execHadd2 c d a b e16 s
  | .hmul2 c d a b e16 => Sys2Proof.Machine.execHmul2 c d a b e16 s
  | .hfma2 c d a b e e16 => Sys2Proof.Machine.execHfma2 c d a b e e16 s
  | .digits c d a => Sys2Proof.Machine.execDigits c d a s
  | .spread c d a => Sys2Proof.Machine.execSpread c d a s
  | .mean c d a => Sys2Proof.Machine.execMean c d a s
  | .sibget c d a j => Sys2Proof.Machine.execSibget c d a j s
  | .sibset c d a b e => Sys2Proof.Machine.execSibset c d a b e s
  | .draw c d packed => Sys2Proof.Machine.execDraw c d packed s
  | .rnd c d f32 => Sys2Proof.Machine.execRnd c d f32 s
  | .maskgen c d a b e => Sys2Proof.Machine.execMaskgen c d a b e s
  | .istat c d clr => Sys2Proof.Machine.execIstat c d clr s
  | .iclr c mask => Sys2Proof.Machine.execIclr c mask s
  | .exact c d a b mul => Sys2Proof.Machine.execExact c d a b mul s
  | .pairedWord h1 h2 => Sys2Proof.Machine.execPairedWord h1 h2 s
  | .bra c off => Sys2Proof.Machine.execBra c off s
  | .jmp c a => Sys2Proof.Machine.execJmp c a s
  | .call c off => Sys2Proof.Machine.execCall c off s
  | .callr c a => Sys2Proof.Machine.execCallr c a s
  | .ret c => Sys2Proof.Machine.execRet c s
  | .exit c => Sys2Proof.Machine.execExit c s
  | .trap c n => Sys2Proof.Machine.execTrap c n s
  | .brk c => Sys2Proof.Machine.execBrk c s
  | .nop c => Sys2Proof.Machine.execNop c s
  | .yield c => Sys2Proof.Machine.execYield c s
  | .tret c => Sys2Proof.Machine.execTret c s
  | .join c k => Sys2Proof.Machine.execJoin c k s
  | .leave c k => Sys2Proof.Machine.execLeave c k s
  | .wait c k => Sys2Proof.Machine.execWait c k s
  | .mset c k a => Sys2Proof.Machine.execMset c k a s
  | .mget c d k => Sys2Proof.Machine.execMget c d k s
  | .vote c m p ps neg => Sys2Proof.Machine.execVote c m p ps neg s
  | .ballot c d ps neg thr => Sys2Proof.Machine.execBallot c d ps neg thr s
  | .shfl c m d a b => Sys2Proof.Machine.execShfl c m d a b s
  | .bfly c base w m m2 dcode => Sys2Proof.Machine.execBfly c base w m m2 dcode s
  | .redux c op ty u d a => Sys2Proof.Machine.execRedux c op ty u d a s
  | .elect c p => Sys2Proof.Machine.execElect c p s
  | .gcall c host fn a => Sys2Proof.Machine.execGcall c host fn a s
  | .gcallReply route words => Sys2Proof.Machine.execGcallReply route words s
  | .gcallRingEntry => Sys2Proof.Machine.execGcallRingEntry s
  | .gret c d => Sys2Proof.Machine.execGret c d s
  | .cflag c m f n => Sys2Proof.Machine.execCflag c m f n s
  | .ld c m => Sys2Proof.Machine.execLd c m s
  | .st c m => Sys2Proof.Machine.execSt c m s
  | .ldx c m => Sys2Proof.Machine.execLdx c m s
  | .stx c m => Sys2Proof.Machine.execStx c m s
  | .push c a n => Sys2Proof.Machine.execPush c a n s
  | .pop c d n => Sys2Proof.Machine.execPop c d n s
  | .atom c d a b op ty => Sys2Proof.Machine.execAtom c d a b op ty s
  | .fence c k sc => Sys2Proof.Machine.execFence c k sc s
  | .ldacq c m sc => Sys2Proof.Machine.execLdacq c m sc s
  | .strel c m sc => Sys2Proof.Machine.execStrel c m sc s
  | .acqrem c m sc => Sys2Proof.Machine.execAcqrem c m sc s
  | .barinit c a b => Sys2Proof.Machine.execBarinit c a b s
  | .bararr c d a => Sys2Proof.Machine.execBararr c d a s
  | .barwait c a b done => Sys2Proof.Machine.execBarwait c a b done s
  | .barsync c a => Sys2Proof.Machine.execBarsync c a s
  | .bardrop c a b => Sys2Proof.Machine.execBardrop c a b s
  | .hangWatchdog wid thr => Sys2Proof.Machine.execHangWatchdog wid thr s
  | .pref c m ex => Sys2Proof.Machine.execPref c m ex s
  | .ctlget c d r => Sys2Proof.Machine.execCtlget c d r s
  | .ctlset c r b => Sys2Proof.Machine.execCtlset c r b s
  | .drawctrWrite c b => Sys2Proof.Machine.execDrawctrWrite c b s
  | .trappcWrite c b => Sys2Proof.Machine.execTrappcWrite c b s
  | .handlerWrite c b => Sys2Proof.Machine.execHandlerWrite c b s
  | .dstackWrite c b => Sys2Proof.Machine.execDstackWrite c b s
  | .tapeposWrite c b => Sys2Proof.Machine.execTapeposWrite c b s
  | .tapecapWrite c b => Sys2Proof.Machine.execTapecapWrite c b s
  | .carveWrite c b => Sys2Proof.Machine.execCarveWrite c b s
  | .sptrootWrite c b => Sys2Proof.Machine.execSptrootWrite c b s
  | .qfreeWrite c b => Sys2Proof.Machine.execQfreeWrite c b s
  | .qtakeRead c d => Sys2Proof.Machine.execQtakeRead c d s
  | .resid0Read c d => Sys2Proof.Machine.execResid0Read c d s
  | .bivsizeWrite c b => Sys2Proof.Machine.execBivsizeWrite c b s
  | .tsctlWrite c b => Sys2Proof.Machine.execTsctlWrite c b s
  | .energyloWrite c b => Sys2Proof.Machine.execEnergyloWrite c b s
  | .energyhiWrite c b => Sys2Proof.Machine.execEnergyhiWrite c b s
  | .dbgctlWrite c b => Sys2Proof.Machine.execDbgctlWrite c b s
  | .eret c => Sys2Proof.Machine.execEret c s
  | .eretRegion c => Sys2Proof.Machine.execEretRegion c s
  | .eretEpc c => Sys2Proof.Machine.execEretEpc c s
  | .qdecl c q b => Sys2Proof.Machine.execQdecl c q b s
  | .mma c q a desc tA tB tAcc tRes => Sys2Proof.Machine.execMma c q a desc tA tB tAcc tRes s
  | .signsetPendingEntry die cl q => Sys2Proof.Machine.execSignsetPendingEntry die cl q s
  | .matrixPassStart die cl => Sys2Proof.Machine.execMatrixPassStart die cl s
  | .matrixKstep die cl => Sys2Proof.Machine.execMatrixKstep die cl s
  | .matrixPartResume die cl entry => Sys2Proof.Machine.execMatrixPartResume die cl entry s
  | .accrd c d vc t run => Sys2Proof.Machine.execAccrd c d vc t run s
  | .acczero c t => Sys2Proof.Machine.execAcczero c t s
  | .accst c d a t run => Sys2Proof.Machine.execAccst c d a t run s
  | .accstSh c a b t triple => Sys2Proof.Machine.execAccstSh c a b t triple s
  | .accwait c t => Sys2Proof.Machine.execAccwait c t s
  | .lanttake c a len => Sys2Proof.Machine.execLanttake c a len s
  | .lantpass c => Sys2Proof.Machine.execLantpass c s
  | .lantpassRel c => Sys2Proof.Machine.execLantpassRel c s
  | .ratom c d a b op ty adj far => Sys2Proof.Machine.execRatom c d a b op ty adj far s
  | .rred c a b op ty adj far => Sys2Proof.Machine.execRred c a b op ty adj far s
  | .rcas c d a b ty adj far => Sys2Proof.Machine.execRcas c d a b ty adj far s
  | .remoteRequestEnqueue die core => Sys2Proof.Machine.execRemoteRequestEnqueue die core s
  | .remoteReply die cl => Sys2Proof.Machine.execRemoteReply die cl s
  | .svrecv c d p wt => Sys2Proof.Machine.execSvrecv c d p wt s
  | .svreply c a b => Sys2Proof.Machine.execSvreply c a b s
  | .cpy c a => Sys2Proof.Machine.execCpy c a s
  | .cpyst c d a => Sys2Proof.Machine.execCpyst c d a s
  | .cpysus c a => Sys2Proof.Machine.execCpysus c a s
  | .cpyres c a => Sys2Proof.Machine.execCpyres c a s
  | .copyChunk die slot => Sys2Proof.Machine.execCopyChunk die slot s
  | .copyFaultResume die slot => Sys2Proof.Machine.execCopyFaultResume die slot s
  | .gpost c d a p => Sys2Proof.Machine.execGpost c d a p s
  | .graphNodeFinish die slot => Sys2Proof.Machine.execGraphNodeFinish die slot s
  | .gwait c a => Sys2Proof.Machine.execGwait c a s
  | .launch c d a p => Sys2Proof.Machine.execLaunch c d a p s
  | .lwait c a => Sys2Proof.Machine.execLwait c a s
  | .hostLaunch tag record => Sys2Proof.Machine.execHostLaunch tag record s
  | .blockPlace grid die => Sys2Proof.Machine.execBlockPlace grid die s
  | .gridRetire grid => Sys2Proof.Machine.execGridRetire grid s
  | .runtimeEndLaunch grid status => Sys2Proof.Machine.execRuntimeEndLaunch grid status s
  | .spawn c d a p => Sys2Proof.Machine.execSpawn c d a p s
  | .gainadd c a b ch => Sys2Proof.Machine.execGainadd c a b ch s
  | .gainset c a b ch => Sys2Proof.Machine.execGainset c a b ch s
  | .gainget c d a what ch => Sys2Proof.Machine.execGainget c d a what ch s
  | .residget c d ch => Sys2Proof.Machine.execResidget c d ch s
  | .taskdone c b => Sys2Proof.Machine.execTaskdone c b s
  | .heapDispatch grid die => Sys2Proof.Machine.execHeapDispatch grid die s
  | .heapOverflowEntry grid die => Sys2Proof.Machine.execHeapOverflowEntry grid die s
  | .residPartExchange grid die => Sys2Proof.Machine.execResidPartExchange grid die s
  | .dmodeFwd c => Sys2Proof.Machine.execDmodeFwd c s
  | .dmodeRev c => Sys2Proof.Machine.execDmodeRev c s
  | .tapemark c d => Sys2Proof.Machine.execTapemark c d s
  | .tapedrop c a => Sys2Proof.Machine.execTapedrop c a s
  | .adjld c m => Sys2Proof.Machine.execAdjld c m s
  | .adjclr c m => Sys2Proof.Machine.execAdjclr c m s
  | .qpush c a b => Sys2Proof.Machine.execQpush c a b s
  | .qpop c d a p => Sys2Proof.Machine.execQpop c d a p s
  | .qclose c a => Sys2Proof.Machine.execQclose c a s
  | .tlbinv c a => Sys2Proof.Machine.execTlbinv c a s
  | .tlbinvCtx c => Sys2Proof.Machine.execTlbinvCtx c s
  | .tlbinvAll c => Sys2Proof.Machine.execTlbinvAll c s
  | .qwait c a => Sys2Proof.Machine.execQwait c a s
  | .qepochAdvance die => Sys2Proof.Machine.execQepochAdvance die s
  | .translationWalkComplete die => Sys2Proof.Machine.execTranslationWalkComplete die s
  | .sliceLineRequest die cl => Sys2Proof.Machine.execSliceLineRequest die cl s
  | .lineArrival wid thr => Sys2Proof.Machine.execLineArrival wid thr s
  | .parkedLineHoldExpiry die core => Sys2Proof.Machine.execParkedLineHoldExpiry die core s
  | .longLatencyComplete wid pid => Sys2Proof.Machine.execLongLatencyComplete wid pid s
  | .gReplicaUpdate bid rank => Sys2Proof.Machine.execGReplicaUpdate bid rank s
  | .activeSetEntry wid => Sys2Proof.Machine.execActiveSetEntry wid s
  | .activeSetIdleLeave wid => Sys2Proof.Machine.execActiveSetIdleLeave wid s
  | .activeSetDisplace wid victim => Sys2Proof.Machine.execActiveSetDisplace wid victim s
  | .yieldHoldExpiry wid thr => Sys2Proof.Machine.execYieldHoldExpiry wid thr s
  | .lpush c a p => Sys2Proof.Machine.execLpush c a p s
  | .lsweep c d a p => Sys2Proof.Machine.execLsweep c d a p s
  | .lsweepNextStart tag => Sys2Proof.Machine.execLsweepNextStart tag s
  | .preempt c d a b => Sys2Proof.Machine.execPreempt c d a b s
  | .bivouacSaveEnd bid => Sys2Proof.Machine.execBivouacSaveEnd bid s
  | .blockResume bid => Sys2Proof.Machine.execBlockResume bid s
  | .timeSliceExpiry die core => Sys2Proof.Machine.execTimeSliceExpiry die core s
  | .sliceTransferEnd die core => Sys2Proof.Machine.execSliceTransferEnd die core s
  | .halt c a => Sys2Proof.Machine.execHalt c a s
  | .haltKeep c a => Sys2Proof.Machine.execHaltKeep c a s
  | .ckmark c a p => Sys2Proof.Machine.execCkmark c a p s
  | .checkpointDrainPage page => Sys2Proof.Machine.execCheckpointDrainPage page s
  | .enrd c d => Sys2Proof.Machine.execEnrd c d s
  | .enrdClr c d => Sys2Proof.Machine.execEnrdClr c d s
  | .energyTick die core => Sys2Proof.Machine.execEnergyTick die core s
  | .trace c a id => Sys2Proof.Machine.execTrace c a id s
  | .traceDrain die cl => Sys2Proof.Machine.execTraceDrain die cl s
  | .powerGate die core => Sys2Proof.Machine.execPowerGate die core s
  | .powerWake die core => Sys2Proof.Machine.execPowerWake die core s
  | .wpset c n a => Sys2Proof.Machine.execWpset c n a s
  | .keysetPlain c a => Sys2Proof.Machine.execKeysetPlain c a s
  | .keysetLoad c a b => Sys2Proof.Machine.execKeysetLoad c a b s
  | .keysetGen c a => Sys2Proof.Machine.execKeysetGen c a s
  | .functionFence site => Sys2Proof.Machine.execFunctionFence site s
  | .thermalLimit stall fenceAll => Sys2Proof.Machine.execThermalLimit stall fenceAll s
  | .priroFlitReceive port crcOk => Sys2Proof.Machine.execPriroFlitReceive port crcOk s
  | .boot cfg => Sys2Proof.Machine.execBoot cfg s
  | .unassignedOpcodeWord w => Sys2Proof.Machine.execUnassignedOpcodeWord w s
  | .gWriteHomeArrival bid => Sys2Proof.Machine.execGWriteHomeArrival bid s
  | .sharedPortionAccessArrival bid => Sys2Proof.Machine.execSharedPortionAccessArrival bid s
  | .heapOperationArrival grid die => Sys2Proof.Machine.execHeapOperationArrival grid die s
  | .firmwareReinitialisation fn => Sys2Proof.Machine.execFirmwareReinitialisation fn s
  | .powerLoss => Sys2Proof.Machine.execPowerLoss s

end Sys2Proof.Machine
end

