-- ==== Sys2Proof/Machine/Stalls.lean ====
section
/-! DEFINITION. Threads that stand at a header whose WAIT is not satisfied, or at a word that cannot yet issue, are STALLED
there at once (R170, R179); and the end of a step. -/

namespace Sys2Proof.Machine

/-- A thread waits at a header or at a word that is held back. -/
def Thread.stallsAt (t : Thread) : Bool :=
  match t.wait with
  | some (.header _) => true
  | some (.held _) => true
  | _ => false

/-- What a group comes to where it can only wait: its fetch and execution would stop at a header or at a hold. -/
def State.stalled (s : State) (g : Issue) : Option State :=
  let waits := fun (u : State) => match u.thread? g.wid (g.thrs.headD 0) with
    | some t => t.stallsAt
    | none => false
  match s.fetch g with
  | .stop u => if waits u then some u else none
  | .run i u =>
    match exec i u with
    | .next v => if waits v then some { v with cur := none } else none
    | .fault _ => none
    | .refused _ => none

/-- The groups of a warp that can only wait are STALLED. -/
def State.stallWarp (s : State) (w : Warp) : State :=
  match s.block? w.bid with
  | none => s
  | some b =>
    if w.saved then s
    else ((s.issuable w b).map fun t => t.pc).eraseDups.foldl (fun s pc => (s.stalled (s.groupAt w.wid pc)).getD s) s

def State.stallAll (s : State) : State := s.warps.foldl State.stallWarp s

/-- The end of a step that led from `before`. -/
def State.after (before s : State) : State :=
  (before.settleSlots (before.settle { s with cur := none }).stallAll).passTime

end Sys2Proof.Machine
end

