-- ==== Sys2Proof/Machine/Step.lean ====
section
/-! DEFINITION. One step of the machine: what the outside does, or else one of the steps that are possible. -/

namespace Sys2Proof.Machine

/-- An instruction executed, and what follows at once. -/
def State.execStep (before s : State) (i : Instr) : Host.Outcome State Fault Refusal :=
  match exec i s with
  | .next t => .next (before.after t)
  | .fault f => .fault f
  | .refused r => .refused r

/-- The issue of a group. -/
def State.issueStep (s : State) (g : Issue) : Host.Outcome State Fault Refusal :=
  match s.fetch g with
  | .run i t => s.execStep t i
  | .stop t => .next (s.after t)

/-- What the outside does next, where the machine takes it: without power only boot is taken (R441, R443). -/
def State.takesInput (s : State) (x : Input) : Bool :=
  s.pkg.powered || (match x with
    | .act (.boot _) => true
    | _ => false)

/-- The outside acts. -/
def State.inputStep (s : State) (x : Input) : Host.Outcome State Fault Refusal :=
  match x with
  | .act i => s.execStep s i
  | .allocate tag lines => .next (s.after (s.allocate tag lines))
  | .softError site correctable => .next (s.after (s.strike site correctable))
  | .freeKept bids => .next (s.after (s.freeKept bids))

/-- A group issues, or an agent moves, or time passes. A machine without power stops (R443). -/
def State.ownStep (s : State) : Host.Outcome State Fault Refusal :=
  if s.pkg.powered then
    match s.choose with
    | .event i => s.execStep s i
    | .group g => s.issueStep g
    | .idle => .next (s.after s)
  else .fault .poweredOff

/-- The step where no time is up: the outside acts, but for a launch whose tables must be waited for (R320), or else the
machine itself. -/
def State.freeStep (s : State) : Host.Outcome State Fault Refusal :=
  match s.inputs with
  | x :: rest =>
    if !s.takesInput x then .fault .poweredOff
    else if (s.inputLines x).isEmpty then { s with inputs := rest }.inputStep x
    else s.ownStep
  | [] => s.ownStep

/-- The step: what is urgent comes first. -/
def step (s : State) : Host.Outcome State Fault Refusal :=
  match s.urgent with
  | i :: _ => if s.pkg.powered then s.execStep s i else s.freeStep
  | [] => s.freeStep

/-- A word placed where the next step fetches it: a launch of one thread that stands at the word. It stands for the loading
of a program from outside (log 22). -/
def State.withFetchWord (s : State) (nbits w : Nat) : State :=
  s.loadWord (BitVec.ofNat 64 (w % 2 ^ nbits))

end Sys2Proof.Machine
end

