-- ==== Sys2Proof/Safety.lean ====
section
/-! DEFINITION. What statements about the machine are said in: what can be read of a state, when a word issues and nothing
stops it, what a word leaves unchanged, and the invariant of the machine. -/

namespace Sys2Proof

/-- The destination is no block register. -/
def Dst.notG : Dst → Prop
  | .g _ => False
  | .v _ => True
  | .s _ => True
  | .none => True

end Sys2Proof

namespace Sys2Proof.Machine

/-! ## What can be read -/

/-- A vector register of a thread, as it stands. -/
def State.vreg (s : State) (wid thr n : Nat) : Option Triple := (s.thread? wid thr).bind fun t => t.v[n]?

/-- A uniform register of a warp, as it stands. -/
def State.sreg (s : State) (wid n : Nat) : Option Word := (s.warp? wid).bind fun w => w.s[n]?

/-- A predicate of a thread, its three bits. -/
def State.preg (s : State) (wid thr : Nat) (p : BitVec 3) : Option (BitVec 3) :=
  (s.thread? wid thr).map fun t => t.predBits p

/-- A block register as the cores of rank `rank` of the block see it (R218). -/
def State.greg (s : State) (bid rank n : Nat) : Option Word :=
  (s.block? bid).bind fun b => (if rank = 0 then b.g else lookupD rank b.g b.greps)[n]?

/-- One byte of the system physical address space. -/
def State.byte (s : State) (a : Nat) : Byte := s.mem.read a

/-! ## The word issues -/

/-- The group that issues passes every check of R86, nothing holds the word back (R76, R152, R343), no operand is poisoned
(R439), no breakpoint stands at the word (R444), and its slot issues it in this cycle (R175, R218, R227): conditions on the
state and the word alone. -/
structure Runs (s : State) (e : Env) (f : Form) (h : State → Env → Thread → Option Hold) : Prop where
  group : s.env = some e
  view : f.priv = true → ∀ t ∈ e.group, t.super = true
  last : f.last = true → ∀ t ∈ e.group, t.cl.pos = t.cl.count
  flag : f.long = true → ∀ t ∈ e.group, t.cl.flagValid f.c.fsel = true
  fields : ∀ t ∈ e.group, f.bad e t = none
  bounds : ∀ o ∈ f.src ++ f.dst, e.w.beyond o = false
  room : ∀ t ∈ e.group, e.hold s f h t = none
  clean : ∀ t ∈ e.parts f.c, f.poisoned t = false
  unbroken : ∀ t ∈ e.group, s.breaks e t = false
  cycle : s.turn e f ≤ s.now

/-- No trap is due to a thread of the group, and the warp does not single-step (R181). -/
structure Calm (e : Env) : Prop where
  step : e.w.step = false
  due : ∀ t ∈ e.group, t.due = []

/-- What placing and every step leave true of a warp: its threads have different numbers, each has the registers that the
launch gave it, the warp has twelve flags and twelve mask registers, and a return stack holds at most four entries. -/
structure Warp.Sound (w : Warp) : Prop where
  distinct : (w.threads.map fun t => t.idx).Nodup
  vregs : ∀ t ∈ w.threads, t.v.length = w.vregs
  preds : ∀ t ∈ w.threads, t.p.length = 8
  flags : w.flags.length = 12
  masks : w.k.length = 12
  stack : ∀ t ∈ w.threads, t.rs.length ≤ 4
  spill : w.spill.wf

/-- What placing and every step leave true of a block: 64 block registers at its home and in each replica, and block
shared memory in canonical form. -/
structure Block.Sound (b : Block) : Prop where
  gregs : b.g.length = 64
  reps : ∀ x ∈ b.greps, x.2.length = 64
  shared : b.shared.wf

/-- The invariant of the machine: memories stand in their canonical form, warps and blocks are sound, and the numbers
that the model gives outstanding instructions are past ones. -/
structure State.Inv (s : State) : Prop where
  mem : s.mem.wf
  warps : ∀ w ∈ s.warps, w.Sound
  blocks : ∀ b ∈ s.blocks, b.Sound
  ids : ∀ w ∈ s.warps, ∀ p ∈ w.pend, p.id < s.uid

/-- No write that this cycle has seen to a block register comes after the issuing warp's in the order of keys: the warp's own
write prevails (R218). -/
structure Env.Newest (e : Env) (s : State) (n : Nat) : Prop where
  home : ∀ y ∈ e.b.gLast, y.1 = n → y.2.1 = s.now → y.2.2 ≤ e.w.key
  core : ∀ y ∈ e.b.gflight, y.rank = e.w.rank → y.reg = n → y.since = s.now → y.key ≤ e.w.key

/-- A word issues, no trap is due, its warp and block are sound, its write of a block register prevails, and the model's
numbers of its outstanding instructions are past ones: the conditions under which a word has its own effect and nothing else
happens. -/
structure Normal (s : State) (e : Env) (f : Form) (h : State → Env → Thread → Option Hold) : Prop where
  runs : Runs s e f h
  calm : Calm e
  warp : e.w.Sound
  block : e.b.Sound
  ids : ∀ p ∈ e.w.pend, p.id < s.uid
  newest : ∀ n, Opd.g n ∈ f.dst → e.Newest s n

/-! ## What a word leaves of a thread, a warp and the state -/

/-- A thread of the group past the word: at the next word of its clause or at the header that follows, its age 0, a
breakpoint passed forgotten (R79, R171, R444). A participant that reads %clocklo has latched %clockhi (Table 4.6). -/
def Env.past (e : Env) (s : State) (f : Form) (t : Thread) : Thread :=
  let u : Thread :=
    { t with
      pc := nextPc e.iss.pc
      cl := t.cl.next
      age := 0
      passOnce := false }
  if t.predTrue f.c.pred f.c.neg then latchClock f s.now u else u

/-- A thread of the warp as the issue leaves it: past the word, or one older, or as it was (R171). -/
def Env.aged (e : Env) (s : State) (f : Form) (t : Thread) : Thread :=
  if t.idx ∈ e.iss.thrs then
    (if t.idx ∈ (e.parts f.c).map fun u => u.idx then latchClock f s.now (e.advance t) else e.advance t)
  else if t.idx ∈ e.w.eligible.map fun u => u.idx then { t with age := min 255 (t.age + 1) }
  else t

/-- A vector register of a thread replaced; its poison clears (R439). -/
def Thread.putV (t : Thread) (n : Nat) (x : Triple) : Thread :=
  { t with
    v := setAt t.v n x
    poison := dropIf (fun k => k / 3 = n) t.poison }

/-- The thread with a vector destination's result; every other destination leaves the thread alone. -/
def Thread.putDst (t : Thread) (d : Dst) (x : Triple) : Thread :=
  match d with
  | .v n => t.putV n x
  | .s _ => t
  | .g _ => t
  | .none => t

/-- What becomes of a thread of the group: past the word, and for a participant the result in a vector destination. -/
def Env.post (e : Env) (s : State) (f : Form) (d : Dst) (x : Thread → Triple) (t : Thread) : Thread :=
  if t ∈ e.parts f.c then (e.past s f t).putDst d (x t) else e.past s f t

/-- A thread after the events of its word's results: the masked ones set its ISTAT and FPSTAT, and the trap of R32, where
one is enabled, is taken after the word (R32, R95, R133). -/
def Env.afterEvents (e : Env) (s : State) (t : Thread) (rs : List (Bool × Res)) (u : Thread) : Thread :=
  let m := rs.foldl (fun u x => x.2.mask (tookOf (chosen t rs) x.1) u) u
  match chosen t rs with
  | none => m
  | some (k, half, r) => m.trapTo (s.attached e.w.die m.owner) e.codeHi (e.eventRecord t k half r) m.pc m.cl

/-- The launch's counters after the masked events of a thread's word (R33). -/
def countEvents (t : Thread) (rs : List (Bool × Res)) (n : Word × Word × Word) : Word × Word × Word :=
  rs.foldl (fun n x => x.2.count (tookOf (chosen t rs) x.1) n) n

/-- What becomes of a thread of the group under a word that computes: past the word; for a participant, C advanced where
the word draws (R20), the result in a vector destination, and the events of the threads that compute (R188). -/
def Env.computed (e : Env) (s : State) (f : Form) (d : Dst) (adv : Bool) (r : Thread → Res) (t : Thread) : Thread :=
  if t ∈ e.parts f.c then
    let u := e.past s f t
    let u1 := if adv then { u with c := u.c + 1 } else u
    let u2 := u1.putDst d (r t).val
    if t ∈ computing d (e.parts f.c) then e.afterEvents s t [(false, r t)] u2 else u2
  else e.past s f t

/-- What becomes of a thread of the group under a word that writes a predicate (R107). -/
def Env.tested (e : Env) (s : State) (f : Form) (p : BitVec 3) (x : Thread → BitVec 3 × Res) (t : Thread) : Thread :=
  if t ∈ e.parts f.c then e.afterEvents s t [(false, (x t).2)] ((e.past s f t).setPred p (x t).1) else e.past s f t

/-- A change of every participant on top of the issue. -/
def Env.each (e : Env) (s : State) (f : Form) (g : Thread → Thread → Thread) (t : Thread) : Thread :=
  if t ∈ e.parts f.c then g t (e.past s f t) else e.past s f t

/-- An outstanding instruction without the marks of R78. -/
def Pend.bare (p : Pend) : Pend :=
  { p with
    written := []
    writtenS := [] }

/-- The warp as any word may leave it whose destination is `d`: threads aside, its counters, its register cache, its
uniform tags, the marks of its outstanding instructions, and the uniform register that is the destination. -/
structure Warp.After (w w' : Warp) (d : Dst) : Prop where
  rest : w' =
    { w with
      threads := w'.threads
      wissue := w.wissue + 1
      wbeat := w'.wbeat
      wunif := w'.wunif
      rcache := w'.rcache
      utag := w'.utag
      pend := w'.pend
      s := w'.s }
  pend : w'.pend.map Pend.bare = w.pend.map Pend.bare
  sregs : ∀ n, d ≠ .s n → w'.s[n]? = w.s[n]?

/-- The block as any word may leave it whose destination is `d`: its block registers, their replicas, the writes on their
way and their order within the cycle, and of the registers that its own core sees, only the destination (R218). -/
structure Block.After (b b' : Block) (rank : Nat) (d : Dst) : Prop where
  rest : b' =
    { b with
      g := b'.g
      greps := b'.greps
      gflight := b'.gflight
      gupdates := b'.gupdates
      gLast := b'.gLast
      lastKey := b'.lastKey }
  other : (∀ n, d ≠ .g n) → b' = { b with lastKey := b'.lastKey }
  gregs : ∀ n, d ≠ .g n →
    (if rank = 0 then b'.g else lookupD rank b'.g b'.greps)[n]? = (if rank = 0 then b.g else lookupD rank b.g b.greps)[n]?

/-- What a word that writes registers leaves unchanged. Outside the warps, the blocks, the energy counters, the launch's
event counters and the marks of the order within a cycle (R175, R218, R227, R373) nothing changes: no byte of memory, no tag,
core, cluster or die, no control register of a context or die, no key. Other warps, and threads of the warp that are not in
the group, keep all but ages and the marks of R78.
`icnt` are the launch's event counters afterwards (R33), and `post` is what becomes of a thread of the group. -/
structure Frame (s s' : State) (e : Env) (d : Dst) (icnt : Word × Word × Word) (post : Thread → Thread) : Prop where
  rest : s' =
    { s with
      grids := s'.grids
      warps := s'.warps
      blocks := s'.blocks
      cores := s'.cores
      dies := s'.dies
      ctxs := s'.ctxs }
  cores : ∀ d k, s'.core d k =
    { s.core d k with
      busy := (s'.core d k).busy
      lastIssue := (s'.core d k).lastIssue }
  dies : ∀ d, s'.die d = { s.die d with heapKey := (s'.die d).heapKey }
  ctxs : ∀ tag, s'.ctx tag =
    { s.ctx tag with
      energy := (s'.ctx tag).energy
      sat := (s'.ctx tag).sat }
  grids : ∀ gid, s'.grid? gid = if gid = e.g.gid then some { e.g with icnt := icnt } else s.grid? gid
  warp : ∃ w', s'.warp? e.w.wid = some w' ∧ e.w.After w' d ∧
    (w'.threads.map fun t => t.idx) = e.w.threads.map fun t => t.idx
  others : ∀ wid, wid ≠ e.w.wid → ∀ w, s.warp? wid = some w → ∃ w', s'.warp? wid = some w' ∧
    w' = { w with pend := w'.pend } ∧ w'.pend.map Pend.bare = w.pend.map Pend.bare
  block : ∃ b', s'.block? e.b.bid = some b' ∧ e.b.After b' e.w.rank d
  blocks : ∀ bid, bid ≠ e.b.bid → s'.block? bid = s.block? bid
  group : ∀ t ∈ e.group, s'.thread? e.w.wid t.idx = some (post t)
  bystanders : ∀ t ∈ e.w.threads, t.idx ∉ e.iss.thrs →
    ∃ u, s'.thread? e.w.wid t.idx = some u ∧ u = { t with age := u.age }

/-- A result delivered: every participant's own in its v register; in a register of one copy, sibling 0 of the lowest
participant's (R16, R188). -/
def Delivered (s' : State) (e : Env) (ps : List Thread) (d : Dst) (x : Thread → Triple) : Prop :=
  match d with
  | .v n => ∀ t ∈ ps, s'.vreg e.w.wid t.idx n = some (x t)
  | .s n => ∀ t, ps.head? = some t → s'.sreg e.w.wid n = some (x t).s0
  | .g n => ∀ t, ps.head? = some t → s'.greg e.b.bid e.w.rank n = some (x t).s0
  | .none => True

end Sys2Proof.Machine
end

