-- ==== Sys2Proof/Certificates/Slice0/Obligations.lean ====
section
/-! DEFINITION. The statements. Each is about one step of one instruction, or about every step. The tables at the head of
each group say what the rules of the spec give for each instruction; `Normal` says on the state alone when a word issues
with nothing in its way, `Frame` what it leaves unchanged, `Delivered` that its result stands in its destination. -/

namespace Sys2Proof.Claims

open Sys2Proof.Machine

/-- What a word with one plain result does where nothing is in its way: it answers a next state with the result delivered
to every participant, and everything else as it was. -/
def PlainForm (i : Instr) (f : Form) (d : Dst) (val : Env → State → Thread → Triple) : Prop :=
  ∀ (s : State) (e : Env), d.wf = true → Normal s e f noHold →
    ∃ s', exec i s = .next s' ∧ Delivered s' e (e.parts f.c) d (val e s) ∧
      Frame s s' e d e.g.icnt (e.post s f d (val e s))

/-- The same for a word whose form is the plain one of its sources. -/
def PlainWord (i : Instr) (c : Ctl) (d : Dst) (src : List Opd) (val : Env → State → Thread → Triple) : Prop :=
  PlainForm i (Form.short c src d.opds) d val

/-- A word as the integer its form takes it for. -/
def intOf (u : Bool) (w : Word) : Int := if u then w.toNat else w.toInt

/-- The nearest 32-bit signed integer. -/
def nearestI32 (n : Int) : Word := BitVec.ofInt 32 (max (-2147483648) (min 2147483647 n))

/-- Two operands, the computation made once from sibling 0 and given to all three (R16, R108). -/
def once (a : Opd) (x : Ext) (b : Src) (f : Word → Word → Word) (e : Env) (s : State) (t : Thread) : Triple :=
  .all (f (e.read0 s t a) (e.src s t x b).s0)

/-- Integer arithmetic: Table 5.2, R108 to R111. -/
inductive IntRule : Instr → Ctl → Dst → List Opd → (Env → State → Thread → Triple) → Prop where
  | iadd c d a b sat : IntRule (.iadd c d a b sat) c d (a :: b.opds)
      (once a .sign b fun x y => if sat then nearestI32 (x.toInt + y.toInt) else x + y)
  | isub c d a b sat : IntRule (.isub c d a b sat) c d (a :: b.opds)
      (once a .sign b fun x y => if sat then nearestI32 (x.toInt - y.toInt) else x - y)
  | imul c d a b : IntRule (.imul c d a b) c d (a :: b.opds) (once a .sign b fun x y => x * y)
  | imulh c d a b u : IntRule (.imulh c d a b u) c d (a :: b.opds)
      (once a .sign b fun x y => BitVec.ofInt 32 (intOf u x * intOf u y / 2 ^ 32))
  | imad c d a b x hi u : IntRule (.imad c d a b x hi u) c d [a, b, x]
      (fun e s t => .all (BitVec.ofInt 32 ((intOf u (e.read0 s t a) * intOf u (e.read0 s t b) + intOf u (e.read0 s t x)) /
        (if hi then 2 ^ 32 else 1))))
  | imin c d a b u : IntRule (.imin c d a b u) c d (a :: b.opds)
      (once a .sign b fun x y => if intOf u y < intOf u x then y else x)
  | imax c d a b u : IntRule (.imax c d a b u) c d (a :: b.opds)
      (once a .sign b fun x y => if intOf u x < intOf u y then y else x)
  | iabs c d a sat : IntRule (.iabs c d a sat) c d [a]
      (fun e s t => .all (if sat then nearestI32 (e.read0 s t a).toInt.natAbs
        else BitVec.ofNat 32 (e.read0 s t a).toInt.natAbs))
  | ineg c d a sat : IntRule (.ineg c d a sat) c d [a]
      (fun e s t => .all (if sat then nearestI32 (-(e.read0 s t a).toInt) else -(e.read0 s t a)))
  | idiv c d a b u : IntRule (.idiv c d a b u) c d (a :: b.opds)
      (once a .sign b fun x y => if y = 0 then 0xFFFFFFFF else BitVec.ofInt 32 ((intOf u x).tdiv (intOf u y)))
  | irem c d a b u : IntRule (.irem c d a b u) c d (a :: b.opds)
      (once a .sign b fun x y => if y = 0 then x else BitVec.ofInt 32 ((intOf u x).tmod (intOf u y)))

/-- Per sibling, a bitwise operation (R16, R108). -/
def perSibling (a : Opd) (b : Src) (f : Word → Word → Word) (e : Env) (s : State) (t : Thread) : Triple :=
  .ofFn fun j => f ((e.read s t a).get j) ((e.src s t .zero b).get j)

/-- One operand, the computation made once from sibling 0. -/
def once1 (a : Opd) (f : Word → Word) (e : Env) (s : State) (t : Thread) : Triple := .all (f (e.read0 s t a))

/-- Bitwise words per sibling; shifts and counts once: Table 5.2, R108, R111. -/
inductive BitRule : Instr → Ctl → Dst → List Opd → (Env → State → Thread → Triple) → Prop where
  | and c d a b : BitRule (.and c d a b) c d (a :: b.opds) (perSibling a b fun x y => x &&& y)
  | or c d a b : BitRule (.or c d a b) c d (a :: b.opds) (perSibling a b fun x y => x ||| y)
  | xor c d a b : BitRule (.xor c d a b) c d (a :: b.opds) (perSibling a b fun x y => x ^^^ y)
  | andn c d a b : BitRule (.andn c d a b) c d (a :: b.opds) (perSibling a b fun x y => x &&& ~~~y)
  | not c d a : BitRule (.not c d a) c d [a] (fun e s t => .ofFn fun j => ~~~(e.read s t a).get j)
  | shl c d a b : BitRule (.shl c d a b) c d (a :: b.opds) (once a .zero b fun x y => x <<< y.toNat)
  | shr c d a b : BitRule (.shr c d a b) c d (a :: b.opds) (once a .zero b fun x y => x >>> y.toNat)
  | sar c d a b : BitRule (.sar c d a b) c d (a :: b.opds) (once a .zero b fun x y => x.sshiftRight y.toNat)
  | rot c d a b : BitRule (.rot c d a b) c d (a :: b.opds) (once a .zero b fun x y => x.rotateLeft (y.toNat % 32))
  | popc c d a : BitRule (.popc c d a) c d [a]
      (once1 a fun x => BitVec.ofNat 32 ((List.range 32).countP fun i => x.getLsbD i))
  | clz c d a : BitRule (.clz c d a) c d [a]
      (once1 a fun x => BitVec.ofNat 32 (if x = 0 then 32 else 31 - Nat.log2 x.toNat))
  | brev c d a : BitRule (.brev c d a) c d [a] (once1 a fun x => x.reverse)

/-- A field of `len` bits from position `pos` of a word that goes on with zeros, or with its sign (R114). -/
def fieldOf (sgn : Bool) (x : Word) (pos len : Nat) : Word :=
  let wide : BitVec 64 := if sgn then x.signExtend 64 else x.setWidth 64
  let fld : BitVec (min len 32) := wide.extractLsb' pos (min len 32)
  if sgn then fld.signExtend 32 else fld.setWidth 32

/-- A field of `len` bits replaced at position `pos` (R115). -/
def fieldInto (x base : Word) (pos len : Nat) : Word :=
  let mask : Word := (BitVec.allOnes (min len 32)).setWidth 32 <<< pos
  (base &&& ~~~mask) ||| ((x <<< pos) &&& mask)

/-- One byte that a selector names among eight, or eight copies of its bit 7 (R121). -/
def permuted (src : BitVec 64) (sel : Word) (i : Nat) : BitVec 8 :=
  let b := src.extractLsb' (8 * (sel.extractLsb' (4 * i) 3).toNat) 8
  if sel.getLsbD (4 * i + 3) then (if b.getLsbD 7 then 0xFF else 0) else b

/-- Bit fields, selection, moves, addresses: R113 to R115, R117 to R119, R121. -/
inductive MoveRule : Instr → Ctl → Dst → List Opd → (Env → State → Thread → Triple) → Prop where
  | leaReg c d a o sh : MoveRule (.lea c d a (.reg o) sh) c d [a, o]
      (fun e s t => .all (e.read0 s t a + e.read0 s t o * BitVec.ofNat 32 (2 ^ sh.toNat)))
  | leaImm c d a w sh : MoveRule (.lea c d a (.imm w) sh) c d [a]
      (fun e s t => .all (e.read0 s t a + w.signExtend 32))
  | bfxReg c d a o sgn : MoveRule (.bfx c d a (.reg o) sgn) c d [a, o]
      (fun e s t => .all (fieldOf sgn (e.read0 s t a) ((e.read0 s t o).extractLsb' 0 5).toNat
        ((e.read0 s t o).extractLsb' 8 6).toNat))
  | bfxImm c d a w sgn : MoveRule (.bfx c d a (.imm w) sgn) c d [a]
      (fun e s t => .all (fieldOf sgn (e.read0 s t a) (w.extractLsb' 0 5).toNat (w.extractLsb' 5 6).toNat))
  | bfiReg c d a x y : MoveRule (.bfi c d a (.regs x y)) c d [a, x, y]
      (fun e s t => .all (fieldInto (e.read0 s t a) (e.read0 s t x) ((e.read0 s t y).extractLsb' 0 5).toNat
        ((e.read0 s t y).extractLsb' 8 6).toNat))
  | bfiImm c d a w : MoveRule (.bfi c d a (.imm w)) c d (a :: d.opds)
      (fun e s t => .all (fieldInto (e.read0 s t a) (e.oldDst s t d).s0 (w.extractLsb' 0 5).toNat
        (w.extractLsb' 5 6).toNat))
  | sel c d a b p neg : MoveRule (.sel c d a b p neg) c d [a, b]
      (fun e s t => if t.predTrue p neg then e.read s t a else e.read s t b)
  | mov c d a : MoveRule (.mov c d a) c d [a] (fun e s t => e.read s t a)
  | movi c d imm z : MoveRule (.movi c d imm z) c d []
      (fun _ _ _ => .all (if z then imm.setWidth 32 else imm.signExtend 32))
  | prmtReg c d a x y : MoveRule (.prmt c d a (.regs x y)) c d [a, x, y]
      (fun e s t =>
        let src : BitVec 64 := e.read0 s t x ++ e.read0 s t a
        let m := permuted src (e.read0 s t y)
        .all (m 3 ++ m 2 ++ m 1 ++ m 0))
  | prmtImm c d a w : MoveRule (.prmt c d a (.imm w)) c d [a]
      (fun e s t =>
        let src : BitVec 64 := 0#32 ++ e.read0 s t a
        let m := permuted src (w.setWidth 32)
        .all (m 3 ++ m 2 ++ m 1 ++ m 0))

/-- Words that read or shape the siblings as a group: R135 to R139, R142. -/
inductive SiblingRule : Instr → Ctl → Dst → List Opd → (Env → State → Thread → Triple) → Prop where
  | digits c d a : SiblingRule (.digits c d a) c d [a]
      (fun e s t => .all (BitVec.ofNat 32 (match e.triple, a with
        | true, .v _ => digits3 (e.read s t a)
        | true, .sp _ => digits3 (e.read s t a)
        | _, _ => 24)))
  | spread c d a : SiblingRule (.spread c d a) c d [a]
      (fun e s t => if e.triple then .all (spread3 (e.read s t a)) else .all 0)
  | mean c d a : SiblingRule (.mean c d a) c d [a]
      (fun e s t => if e.triple then .all (mean3 (e.read s t a)) else e.read s t a)
  | sibget c d a j : SiblingRule (.sibget c d a j) c d [a] (fun e s t => .all ((e.read s t a).get j.toNat))
  | sibset c d a b x : SiblingRule (.sibset c d a b x) c d [a, b, x]
      (fun e s t =>
        if e.triple then { s0 := (e.read s t a).s0, s1 := (e.read s t b).s1, s2 := (e.read s t x).s2 }
        else e.read s t a)
  | maskgen c d a b x : SiblingRule (.maskgen c d a b x) c d [a, b, x]
      (fun e s t => .all (maskgenVal e.g.lr.seed (e.read0 s t a) ((e.read0 s t b) &&& 0xFFFF) (e.read0 s t x)))

/-- What an instruction completes with: it answers a next state that differs from `s` by the frame. -/
def Completes (i : Instr) (s : State) (e : Env) (d : Dst) (icnt : Word × Word × Word) (post : Thread → Thread) : Prop :=
  ∃ s', exec i s = .next s' ∧ Frame s s' e d icnt post

/-- One result of a floating-point word in every sibling, by the value and flags of each (R105, R133); written to a
register of one copy, that of sibling 0 alone (R188). -/
def sibs (d : Dst) (f : Nat → Word × Flags) (x y z : Triple) : Res :=
  if d.single then
    { Res.plain (.all (f 0).1) with
      fl := (f 0).2
      opa := x
      opb := y
      opc := z }
  else
    { Res.plain (.ofFn fun j => (f j).1) with
      fl := (f 0).2 ||| (f 1).2 ||| (f 2).2
      opa := x
      opb := y
      opc := z }

/-- CANCEL where the result has fewer digits than the smaller of its addends' by more than CANCELTH, in triple mode
(R29). -/
def cancels (e : Env) (t : Thread) (d : Dst) (d1 d2 : Nat) (r : Res) : Res :=
  if d.single then r
  else if e.triple ∧ digits3 r.val + t.cancelth.toNat < min d1 d2 then
    { r with
      cancel := true
      cancelArg := BitVec.ofNat 16 (digits3 r.val + 256 * min d1 d2) }
  else r

/-- Short-latency floating-point words: R122, R123, R126, R127, R131, R132, R134, R140, R141, R144. The table gives the
control field, the destination, the operands, whether C advances (Table 2.5), whether the word counts as a lane operation
(Table 22.8), and the result with its events. `e.dir c.rnd t j` is Dir of sibling j (R104). -/
inductive FloatRule : Instr → Ctl → Dst → List Opd → Bool → Bool → (Env → State → Thread → Res) → Prop where
  | cvt c d a dest frm k : FloatRule (.cvt c d a dest frm k) c d [a] true true (fun e s t =>
      sibs d (fun j => convert dest frm (e.dir c.rnd t j) (frm.elem ((e.read s t a).get j) k.toNat)) (e.read s t a)
        (.all 0) (.all 0))
  | cvtpk c d a b dest frm h : FloatRule (.cvtpk c d a b dest frm h) c d (a :: b :: if dest.is8 then d.opds else []) true true
      (fun e s t =>
        let old := if dest.is8 then e.oldDst s t d else .all 0
        sibs d (fun j => cvtpkVal dest frm h (e.dir c.rnd t j) (old.get j) ((e.read s t a).get j) ((e.read s t b).get j))
          (e.read s t a) (e.read s t b) (.all 0))
  | fadd c d a b : FloatRule (.fadd c d a b) c d (a :: b.opds) true true (fun e s t =>
      let x := e.read s t a
      let y := e.src s t .high b
      cancels e t d (e.opdDigits a x) (e.srcDigits b y)
        (sibs d (fun j => f32add (e.dir c.rnd t j) (x.get j) (y.get j)) x y (.all 0)))
  | fsub c d a b : FloatRule (.fsub c d a b) c d (a :: b.opds) true true (fun e s t =>
      let x := e.read s t a
      let y := e.src s t .high b
      cancels e t d (e.opdDigits a x) (e.srcDigits b y)
        (sibs d (fun j => f32add (e.dir c.rnd t j) (x.get j) (f32neg (y.get j))) x y (.all 0)))
  | fmul c d a b : FloatRule (.fmul c d a b) c d (a :: b.opds) true true (fun e s t =>
      let x := e.read s t a
      let y := e.src s t .high b
      sibs d (fun j => f32mul (e.dir c.rnd t j) (x.get j) (y.get j)) x y (.all 0))
  | fma c d a b x np nc : FloatRule (.fma c d a b x np nc) c d [a, b, x] true true (fun e s t =>
      let u := e.read s t a
      let v := e.read s t b
      let w := e.read s t x
      let prod := fun (j : Nat) => ((f32v (u.get j)).mul (f32v (v.get j))).1
      cancels e t d (digitsVal (prod 0) (prod 1) (prod 2)) (e.opdDigits x w)
        (sibs d (fun j => f32fma (e.dir c.rnd t j) np nc (u.get j) (v.get j) (w.get j)) u v w))
  | fmin c d a b : FloatRule (.fmin c d a b) c d (a :: b.opds) false true (fun e s t =>
      let x := e.read s t a
      let y := e.src s t .high b
      sibs d (fun j => f32minmax false (x.get j) (y.get j)) x y (.all 0))
  | fmax c d a b : FloatRule (.fmax c d a b) c d (a :: b.opds) false true (fun e s t =>
      let x := e.read s t a
      let y := e.src s t .high b
      sibs d (fun j => f32minmax true (x.get j) (y.get j)) x y (.all 0))
  | fclass c d a : FloatRule (.fclass c (.word d) a) c d [a] false true (fun e s t =>
      Res.plain (.ofFn fun j => BitVec.ofNat 32 (2 ^ fclassNum ((e.read s t a).get j))))
  | fint c d a : FloatRule (.fint c d a) c d [a] true true (fun e s t =>
      sibs d (fun j => fintVal (e.dir c.rnd t j) ((e.read s t a).get j)) (e.read s t a) (.all 0) (.all 0))
  | fscale c d a b : FloatRule (.fscale c d a b) c d (a :: b.opds) true true (fun e s t =>
      let x := e.read s t a
      let y := e.src s t .sign b
      sibs d (fun j => fscaleVal (e.dir c.rnd t j) (x.get j) (y.get j)) x y (.all 0))
  | hadd2 c d a b e16 : FloatRule (.hadd2 c d a b e16) c d [a, b] true true (fun e s t =>
      let u := e.read s t a
      let v := e.read s t b
      sibs d (fun j => packed16 (half16 e16) (e.dir c.rnd t j) (fun x y _ => x.add (e.dir c.rnd t j) y) (u.get j) (v.get j) 0)
        u v (.all 0))
  | hmul2 c d a b e16 : FloatRule (.hmul2 c d a b e16) c d [a, b] true true (fun e s t =>
      let u := e.read s t a
      let v := e.read s t b
      sibs d (fun j => packed16 (half16 e16) (e.dir c.rnd t j) (fun x y _ => x.mul y) (u.get j) (v.get j) 0) u v (.all 0))
  | hfma2 c d a b x e16 : FloatRule (.hfma2 c d a b x e16) c d [a, b, x] true true (fun e s t =>
      let u := e.read s t a
      let v := e.read s t b
      let w := e.read s t x
      sibs d (fun j => packed16 (half16 e16) (e.dir c.rnd t j)
        (fun x y z => (((x.mul y).1.add (e.dir c.rnd t j) z).1, (x.mul y).2 ||| ((x.mul y).1.add (e.dir c.rnd t j) z).2))
        (u.get j) (v.get j) (w.get j)) u v w)
  | draw c d packed : FloatRule (.draw c d packed) c d [] true false (fun e _ t =>
      let w := fun (j : Nat) => if drawBit e.g.lr.seed (e.tnum t) t.c j then (1 : Word) else 0
      Res.plain (if packed then .all (w 0 + 2 * w 1 + 4 * w 2) else if e.triple then .ofFn w else .all (w 0)))
  | rnd c d f32 : FloatRule (.rnd c d f32) c d [] true false (fun e _ t =>
      let r := rand e.g.lr.seed (e.tnum t) t.c
      Res.plain (.all (if f32 then rndF32 r else r)))
  | exact c d a b mul : FloatRule (.exact c d a b mul) c d [a, b] false false (fun e s t =>
      let x := e.read s t a
      let y := e.read s t b
      sibs d (fun j => exactVal mul (x.get j) (y.get j)) x y (.all 0))

/-- The form of a word of the table. -/
def floatForm (c : Ctl) (d : Dst) (src : List Opd) (lane : Bool) : Form :=
  if lane then Form.fp c src d.opds else Form.short c src d.opds

/-- The test of an integer comparison (R116). -/
def intTest (cc : ICond) (x y : Word) : Bool :=
  match cc with
  | .eq => x == y
  | .ne => x != y
  | .lt => x.slt y
  | .le => x.sle y
  | .gt => y.slt x
  | .ge => y.sle x
  | .lo => x.ult y
  | .hs => y.ule x

/-- SPLIT where the siblings' bits disagree, in triple mode (R30). -/
def splits (e : Env) (bits : BitVec 3) (fl : Flags) (x y : Triple) : BitVec 3 × Res :=
  (bits,
    { Res.plain (.ofFn fun j => if bits.getLsbD j then 1 else 0) with
      fl := fl
      opa := x
      opb := y
      split := e.triple && bits != 0 && bits != 7
      splitArg := if e.triple && bits != 0 && bits != 7 then bits.setWidth 16 else 0 })

/-- Words that write a predicate: R116, R130, R131. -/
inductive TestRule : Instr → Form → BitVec 3 → (Env → State → Thread → BitVec 3 × Res) → Prop where
  | icmp c p cc a b : TestRule (.icmp c p cc a b) (Form.short c (a :: b.opds) []) p (fun e s t =>
      (if intTest cc (e.read0 s t a) (e.src s t .sign b).s0 then 7 else 0, Res.plain (.all 0)))
  | fcmp c p cc a b : TestRule (.fcmp c p cc a b) (Form.fp c (a :: b.opds) []) p (fun e s t =>
      let x := e.read s t a
      let y := e.src s t .high b
      let r := fun (j : Nat) => FCond.test cc (x.get j) (y.get j)
      splits e (BitVec.ofBool (r 2).1 ++ BitVec.ofBool (r 1).1 ++ BitVec.ofBool (r 0).1)
        ((r 0).2 ||| (r 1).2 ||| (r 2).2) x y)
  | fclass c p m a : TestRule (.fclass c (.pred p m) a) (Form.fp c [a] []) p (fun e s t =>
      let x := e.read s t a
      let bit := fun (j : Nat) => BitVec.ofBool (m.getLsbD (fclassNum (x.get j)))
      splits e (bit 2 ++ bit 1 ++ bit 0) 0 x (.all 0))

/-- The sum of `iaddc` with its carry (R112), as a natural number. -/
def carrySum (e : Env) (s : State) (t : Thread) (a b : Opd) (ci : BitVec 3) (cin sub : Bool) : Nat :=
  let y := if sub then ~~~e.read0 s t b else e.read0 s t b
  (e.read0 s t a).toNat + y.toNat + (if cin then t.predVal ci else sub).toNat

/-- A thread that takes a trap before the word: as it stood at the issue, to resume at the word (R156). -/
def trapped (e : Env) (s : State) (t : Thread) (r : TrapRec) : Thread :=
  t.trapTo (s.attached e.w.die t.owner) e.codeHi r t.pc t.cl

/-- A thread that takes a trap after the word. -/
def trappedAfter (e : Env) (s : State) (u : Thread) (r : TrapRec) : Thread :=
  u.trapTo (s.attached e.w.die u.owner) e.codeHi r u.pc u.cl

/-- The issuing group's view of a warp that the word changes as `g` says, threads aside. -/
def withWarp (e : Env) (g : Warp → Warp) : Env := { e with w := g e.w }

/-- The status word of a thread: FPSTAT in bits [12:8], ISTAT in bits [3:0] (R143). -/
def statusWord (t : Thread) : Word := (t.fpstat ++ 0#4 ++ t.istat).setWidth 32

/-- The address that `ldlit` reads for a thread (R120). -/
def literalAt (e : Env) (s : State) (t : Thread) (imm : BitVec 20) (idx : Option Opd) : Addr :=
  e.iss.pc + 4 * imm.signExtend 48 +
    4 * (match idx with
      | some o => (e.read0 s t o).signExtend 48
      | none => 0)

/-- The item at an address on the instruction path: the low or the high half of the word around it (R83, R120). -/
def literal (s : State) (tag : BitVec 12) (a : Addr) : Option Word :=
  (s.fetchWord tag (a &&& 0xFFFFFFFFFFF8#48)).map fun w => if a.getLsbD 2 then w.extractLsb' 32 32 else w.extractLsb' 0 32

/-- The results of a paired word whose events a thread raises, half 1's first (R95). -/
def pairEvents (h1 h2 : Half) (e : Env) (s : State) (t : Thread) : List (Bool × Res) :=
  (if t ∈ h1.threads e then [(false, h1.result e s t t.c)] else []) ++
    (if t ∈ h2.threads e then [(true, h2.result e s t (if h1.draws && h1.active t then t.c + 1 else t.c))] else [])

/-- What becomes of a thread under a paired word: the draws of its active halves, both results (read before either is
written), the events of both (R95). -/
def pairPost (h1 h2 : Half) (e : Env) (s : State) (t : Thread) : Thread :=
  let r1 := h1.result e s t t.c
  let r2 := h2.result e s t (if h1.draws && h1.active t then t.c + 1 else t.c)
  let n := (if h1.draws && h1.active t then 1 else 0) + (if h2.draws && h2.active t then 1 else 0)
  let u := e.past s (pairForm h1 h2) t
  let u1 : Thread := { u with c := t.c + n }
  let u2 := if t ∈ h1.threads e then u1.putDst h1.dst r1.val else u1
  let u3 := if t ∈ h2.threads e then u2.putDst h2.dst r2.val else u2
  e.afterEvents s t (pairEvents h1 h2 e s t) u3

/-- The warp's uniform registers after a half's result: its own of the lowest thread that executes it (R188). -/
def uniformAfter (h : Half) (e : Env) (x : Thread → Triple) (l : List Word) : List Word :=
  match h.dst, (h.threads e).head? with
  | .s n, some t => setAt l n (x t).s0
  | _, _ => l

/-- The result of a long-latency function for a thread: per sibling in Dir, with ZDIV for a division by zero (R31, R128,
R129). -/
def longResult (e : Env) (s : State) (c : Ctl) (d : Dst) (op : LongOp) (a : Opd) (b : Option Opd) (t : Thread) : Res :=
  let x := e.read s t a
  let y := match b with
    | some o => e.read s t o
    | none => .all 0
  let r := sibs d (fun j => op.sib (e.dir c.rnd t j) (x.get j) (y.get j)) x y (.all 0)
  let z := if b.isSome then y else x
  let dg := e.opdDigits (b.getD a) z
  if (op = .div ∨ op = .rcp) ∧ d.single = false ∧ zdivOf e z dg = true then
    { r with
      zdiv := true
      zdivArg := BitVec.ofNat 16 dg }
  else r

/-- The outstanding instruction that a long-latency function leaves: its results stand until it completes (R76, R78). -/
def longPend (e : Env) (s : State) (c : Ctl) (d : Dst) (op : LongOp) (a : Opd) (b : Option Opd) : Pend :=
  let x := (computing d (e.parts c)).map fun t => (t, (longResult e s c d op a b t).val)
  { id := s.uid
    flag := e.flagOf c
    wait := .ready
    parts := (partsOf d x).1
    sparts := (partsOf d x).2
    preds := []
    thrs := (e.parts c).map fun t => t.idx
    epoch := none
    sample := none }

/-- A thread as R471 has its long-latency events see it: in single-lane mode IMASK.ZDIV enables no trap (the model's reading,
log 91). -/
def longView (e : Env) (t : Thread) : Thread := if e.triple then t else { t with imask := t.imask &&& 3#3 }

/-- A thread that has issued a long-latency function: masked events are recorded; with a trap enabled that the function may
raise it issues nothing more until the result is written, the trap then due (R471). -/
def longPost (e : Env) (s : State) (c : Ctl) (d : Dst) (op : LongOp) (a : Opd) (b : Option Opd) (t : Thread) : Thread :=
  let f : Form := { Form.longLat c (a :: b.toList) d.opds with lanes := 3 }
  if t ∈ e.parts c then
    let u : Thread := { e.past s f t with c := t.c + 1 }
    if t ∈ computing d (e.parts c) then
      let r := longResult e s c d op a b t
      let ch := chosen (longView e t) [(false, r)]
      let m := r.mask (tookOf ch false) u
      if t.trapsEnabled e.triple (decide (op = .div) || decide (op = .rcp)) then
        { m with
          st := .waiting
          wait := some (.result s.uid)
          due := match ch with
            | some (k, h, r) => [e.eventRecord t k h r]
            | none => [] }
      else m
    else u
  else e.past s f t

/-- The long-latency floating-point instructions (R128, R129). -/
inductive LongRule : Instr → Ctl → Dst → LongOp → Opd → Option Opd → Prop where
  | fdiv c d a b : LongRule (.fdiv c d a b) c d .div a (some b)
  | fsqrt c d a : LongRule (.fsqrt c d a) c d .sqrt a none
  | frcp c d a : LongRule (.frcp c d a) c d .rcp a none
  | frsq c d a : LongRule (.frsq c d a) c d .rsq a none
  | fexp2 c d a : LongRule (.fexp2 c d a) c d .exp2 a none
  | flog2 c d a : LongRule (.flog2 c d a) c d .log2 a none
  | fsin c d a : LongRule (.fsin c d a) c d .sin a none
  | fcos c d a : LongRule (.fcos c d a) c d .cos a none

/-- Calls: the target of a thread (R149). -/
inductive CallRule : Instr → Form → (Env → State → Thread → Addr) → Prop where
  | call c off : CallRule (.call c off) { Form.short c [] [] with last := true } (fun e _ _ =>
      codePc (e.iss.pc.extractLsb' 32 16) (e.iss.pc.extractLsb' 0 32 + 8 * off.signExtend 32))
  | callr c a : CallRule (.callr c a) { Form.short c [a] [] with last := true } (fun e s t =>
      codePc (e.iss.pc.extractLsb' 32 16) (e.read0 s t a))

/-- The word's address that follows, in the launch's code region. -/
def returnAddress (e : Env) : Addr := codePc (e.iss.pc.extractLsb' 32 16) (e.iss.pc.extractLsb' 0 32 + 8)

/-- A call's oldest entry moves to the spill area where all four are in use (R149). -/
def callSpills (t : Thread) : Bool := decide (4 ≤ t.rs.length)

/-- The thread's spill area holds another record (R149, R150). -/
def spillRoom (e : Env) (t : Thread) : Bool := decide (t.rsp + 8 + t.dsp ≤ e.g.lr.spillK * 1024)

/-- The offset in the warp's spill window at which the record that a call spills is written. -/
def spillSlot (e : Env) (t : Thread) : Nat := t.idx * (e.g.lr.spillK * 1024) + e.g.lr.spillK * 1024 - (t.rsp + 8)

/-- The record of a return address: bit 63 set, bits [62:48] zero (R149). -/
def returnRecord (a : Addr) : DWord := 1#1 ++ 0#15 ++ a

/-- What becomes of a thread under a call: misaligned traps 3; else the return address is pushed, the oldest moved to the
spill area where the stack is full, or trap 19 where that has no room (R149). -/
def callPost (e : Env) (s : State) (f : Form) (target : Addr) (t : Thread) : Thread :=
  if target.extractLsb' 0 3 ≠ 0 then trapped e s t { e.record t 3 0 with addr := target }
  else if callSpills t then
    if spillRoom e t then
      { e.past s f t with
        pc := target
        cl := Clause.none
        rs := t.rs.drop 1 ++ [returnAddress e]
        rsp := t.rsp + 8 }
    else trapped e s t (e.record t 19 0)
  else
    { e.past s f t with
      pc := target
      cl := Clause.none
      rs := t.rs ++ [returnAddress e] }

/-- The warp's spill window after the calls of a list of threads. -/
def spillAfter (e : Env) (s : State) (target : Env → State → Thread → Addr) (l : List Thread) (m : Mem) : Mem :=
  l.foldl (fun m t =>
    if (target e s t).extractLsb' 0 3 = 0 ∧ callSpills t = true ∧ spillRoom e t = true then
      m.writeBytes (spillSlot e t) (leBytes 8 (returnRecord (t.rs.headD 0)).toNat)
    else m) m

/-- What becomes of a participant under `ret`: to the newest entry of the return stack; with none, to the newest record of
its spill area; trap 19 where there is none or it is no record, trap 3 where it is misaligned (R148, R149). -/
def retPost (e : Env) (s : State) (f : Form) (t : Thread) : Thread :=
  let w : DWord := BitVec.ofNat 64 (e.w.spill.readNat (t.idx * (e.g.lr.spillK * 1024) + e.g.lr.spillK * 1024 - t.rsp) 8)
  match t.rs.getLast? with
  | some a =>
    { e.past s f t with
      pc := a
      cl := Clause.none
      rs := t.rs.dropLast }
  | none =>
    if t.rsp = 0 then trapped e s t (e.record t 19 1)
    else if w.extractLsb' 48 16 ≠ 0x8000 then trapped e s t (e.record t 19 2)
    else if w.extractLsb' 0 3 ≠ 0 then
      trapped e s t { e.record t 3 0 with addr := e.iss.pc.extractLsb' 32 16 ++ w.extractLsb' 0 32 }
    else
      { e.past s f t with
        pc := e.iss.pc.extractLsb' 32 16 ++ w.extractLsb' 0 32
        cl := Clause.none
        rsp := t.rsp - 8 }

/-- The lanes of a list of threads in a mask register: three bits each in triple mode, one in single-lane mode (R190). -/
def lanesIn (e : Env) (l : List Thread) : BitVec 24 := l.foldl (fun m t => m ||| lanesOf e.triple t.idx) 0

end Sys2Proof.Claims

open Sys2Proof Sys2Proof.Machine Sys2Proof.Claims

/-- Table 5.2, R108 to R111, R113 to R115, R117 to R119, R121, R135 to R139, R142: where nothing is in the way, every
integer, bitwise, shift, count, field, select, move, address and permute word, and every word that reads or shapes the
siblings as a group, completes with the value of its rule for every participant, in every form, and changes nothing else.
`movh`, which has no operand A, keeps bits [15:0] of its destination. -/
def Obligations.plain_words_compute : Prop :=
  (∀ i c d src val, IntRule i c d src val ∨ BitRule i c d src val ∨ MoveRule i c d src val ∨ SiblingRule i c d src val →
    PlainWord i c d src val) ∧
  ∀ c d imm, PlainForm (.movh c d imm) (Form.short c d.opds d.opds).noA d fun e s t =>
    .ofFn fun j => imm ++ ((e.oldDst s t d).get j).extractLsb' 0 16

/-- R112: `iaddc` writes bits [31:0] of the exact sum and gives its bit 32 to the carry-out predicate, in all three
sibling bits, of every thread that computes. -/
def Obligations.add_with_carry : Prop :=
  ∀ (c : Ctl) (d : Dst) (a b : Opd) (ci co : BitVec 3) (cin sub : Bool) (s : State) (e : Env), d.wf = true →
    Normal s e (Form.short c [a, b] d.opds) noHold →
    Completes (.iaddc c d a b ci co cin sub) s e d e.g.icnt fun t =>
      let u := e.post s (Form.short c [a, b] d.opds) d (fun t => .all (BitVec.ofNat 32 (carrySum e s t a b ci cin sub))) t
      if t ∈ computing d (e.parts c) then u.setPred co (if 2 ^ 32 ≤ carrySum e s t a b ci cin sub then 7 else 0) else u

/-- R20, R29, R105, R122 to R134, R140, R141, R144: the short-latency floating-point words, `draw`, `rnd` and `exact`. Every
participant has its result and its advanced draw counter; the flags and events of each thread that computes set FPSTAT,
ISTAT and the launch's counters, or are trapped after the word (R32, R133). -/
def Obligations.float_words_compute : Prop :=
  ∀ i c d src adv lane r, FloatRule i c d src adv lane r → ∀ (s : State) (e : Env), d.wf = true →
    Normal s e (floatForm c d src lane) noHold →
    Completes i s e d ((computing d (e.parts c)).foldl (fun n t => countEvents t [(false, r e s t)] n) e.g.icnt)
      (e.computed s (floatForm c d src lane) d adv (r e s))

/-- R107, R116, R130, R131: `icmp`, `fcmp` and `fclass` write their predicate, with the events of the comparison. -/
def Obligations.tests_write_predicates : Prop :=
  ∀ i f p x, TestRule i f p x → ∀ (s : State) (e : Env), Normal s e f noHold →
    Completes i s e .none ((e.parts f.c).foldl (fun n t => countEvents t [(false, (x e s t).2)] n) e.g.icnt)
      (e.tested s f p (x e s))

/-- R143: `istat` writes the status word, and with `clr` clears what a thread that computes reports; `iclr` clears the
bits of its mask. -/
def Obligations.status_words : Prop :=
  ∀ (c : Ctl) (s : State) (e : Env),
    (∀ (d : Dst) (clr : Bool), d.wf = true → Normal s e (Form.short c [] d.opds) noHold →
      Completes (.istat c d clr) s e d e.g.icnt fun t =>
        let u := e.post s (Form.short c [] d.opds) d (fun t => .all (statusWord t)) t
        if clr = true ∧ t ∈ computing d (e.parts c) then
          { u with
            istat := 0
            fpstat := 0 }
        else u) ∧
    (∀ (mask : BitVec 20), Normal s e (Form.short c [] []) noHold →
      Completes (.iclr c mask) s e .none e.g.icnt (e.each s (Form.short c [] []) fun _ u =>
        { u with
          istat := u.istat &&& ~~~(mask.extractLsb' 0 4)
          fpstat := u.fpstat &&& ~~~(mask.extractLsb' 8 5) }))

/-- R124: `unpk` converts two neighbouring elements into a pair of registers, with the flags of both. -/
def Obligations.unpack_two_elements : Prop :=
  ∀ (c : Ctl) (d : Nat) (a : Opd) (dest frm : Ty) (h : Bool) (s : State) (e : Env),
    Normal s e (Form.short c [a] [.v d, .v (d + 1)]) noHold →
    let el := fun (t : Thread) (k j : Nat) => convert dest frm .rn (frm.elem ((e.read s t a).get j) (2 * h.toNat + k))
    let r := fun (t : Thread) =>
      { Res.plain (.ofFn fun j => (el t 0 j).1) with
        fl := ((el t 0 0).2 ||| (el t 0 1).2 ||| (el t 0 2).2) ||| ((el t 1 0).2 ||| (el t 1 1).2 ||| (el t 1 2).2)
        opa := e.read s t a }
    Completes (.unpk c d a dest frm h) s e .none
      ((e.parts c).foldl (fun n t => countEvents t [(false, r t)] n) e.g.icnt)
      (e.each s (Form.short c [a] [.v d, .v (d + 1)]) fun t u =>
        e.afterEvents s t [(false, r t)]
          ((u.putV d (.ofFn fun j => (el t 0 j).1)).putV (d + 1) (.ofFn fun j => (el t 1 j).1)))

/-- R120: `ldlit` gives every thread that computes the item at its own address, and trap 5 with that address to a thread
whose item has no translation. -/
def Obligations.load_literal : Prop :=
  ∀ (c : Ctl) (d : Dst) (imm : BitVec 20) (idx : Option Opd) (s : State) (e : Env), d.wf = true →
    let f := Form.short c idx.toList d.opds
    Normal s e f noHold →
    Completes (.ldlit c d imm idx) s e d e.g.icnt fun t =>
      if t ∈ computing d (e.parts c) then
        match literal s e.g.tag (literalAt e s t imm idx) with
        | some w => (e.past s f t).putDst d (.all w)
        | none => trapped e s t { e.record t 5 0 with addr := literalAt e s t imm idx }
      else e.past s f t

/-- R93 to R95: a paired word executes its two halves on the operands read before either writes, draws in order, and
records or traps the events of both. Its threads are the whole group; each half has its own predicate. Nothing else
changes. -/
def Obligations.paired_word : Prop :=
  ∀ (h1 h2 : Half) (s : State) (e : Env), Normal s e (pairForm h1 h2) noHold →
    let x1 := fun (t : Thread) => (h1.result e s t t.c).val
    let x2 := fun (t : Thread) => (h2.result e s t (if h1.draws && h1.active t then t.c + 1 else t.c)).val
    ∃ s', exec (.pairedWord h1 h2) s = .next s' ∧
      Frame s s' (withWarp e fun w => { w with s := uniformAfter h2 e x2 (uniformAfter h1 e x1 w.s) }) .none
        (e.group.foldl (fun n t => countEvents t (pairEvents h1 h2 e s t) n) e.g.icnt) (pairPost h1 h2 e s) ∧
      Delivered s' e (h1.threads e) h1.dst x1 ∧ Delivered s' e (h2.threads e) h2.dst x2

/-- R20, R76, R78, R128, R129, R471: a long-latency floating-point instruction leaves its result outstanding, its flag
raised by one and C advanced; a thread with a trap enabled that it may raise waits for the result. -/
def Obligations.long_latency_floats_issue : Prop :=
  ∀ i c d op a b, LongRule i c d op a b → ∀ (s : State) (e : Env), d.wf = true →
    Normal s e { Form.longLat c (a :: b.toList) d.opds with lanes := 3 } noHold → e.parts c ≠ [] →
    ∃ s', exec i s = .next s' ∧
      Frame { s with uid := s.uid + 1 } s'
        (withWarp e fun w =>
          { w with
            flags := setAt w.flags (e.flagOf c) (w.flags.getD (e.flagOf c) 0 + 1)
            pend := w.pend ++ [longPend e s c d op a b] })
        .none
        ((computing d (e.parts c)).foldl (fun n t => countEvents (longView e t) [(false, longResult e s c d op a b t)] n)
          e.g.icnt)
        (longPost e s c d op a b)

/-- R145, R147, R148: `bra` takes every participant to PC + 8 × IMM20 within its code region; `jmp` takes it to its own
register's address there, and one that is not a multiple of 8 is trap 3 with that address, before the transfer. -/
def Obligations.jumps_reach_their_targets : Prop :=
  ∀ (c : Ctl) (s : State) (e : Env),
    (∀ off, Normal s e { Form.short c [] [] with last := true } noHold →
      Completes (.bra c off) s e .none e.g.icnt (e.each s { Form.short c [] [] with last := true } fun _ u =>
        { u with
          pc := codePc (e.iss.pc.extractLsb' 32 16) (e.iss.pc.extractLsb' 0 32 + 8 * off.signExtend 32)
          cl := Clause.none })) ∧
    (∀ a, Normal s e { Form.short c [a] [] with last := true } holdTransfer →
      Completes (.jmp c a) s e .none e.g.icnt (e.each s { Form.short c [a] [] with last := true } fun t u =>
        let target := codePc (e.iss.pc.extractLsb' 32 16) (e.read0 s t a)
        if target.extractLsb' 0 3 = 0 then
          { u with
            pc := target
            cl := Clause.none }
        else trapped e s t { e.record t 3 0 with addr := target }))

/-- R148 to R150: calls push the return address and reach their target; a full stack moves its oldest entry to the thread's
spill area, as the record of R149. `ret` takes the newest return address, from the stack or from the spill area. -/
def Obligations.calls_and_returns : Prop :=
  (∀ i f target, CallRule i f target → ∀ (s : State) (e : Env), Normal s e f holdTransfer →
     ∃ s', exec i s = .next s' ∧
       Frame s s' (withWarp e fun w => { w with spill := spillAfter e s target (e.parts f.c) w.spill }) .none e.g.icnt
         (e.each s f fun t _ => callPost e s f (target e s t) t)) ∧
  (∀ (c : Ctl) (s : State) (e : Env), Normal s e { Form.short c [] [] with last := true } holdTransfer →
     Completes (.ret c) s e .none e.g.icnt
       (e.each s { Form.short c [] [] with last := true } fun t _ => retPost e s { Form.short c [] [] with last := true } t))

/-- R153, R155, R190: `exit` ends every participant and takes it out of every mask register; `nop` does nothing; `yield`
holds the group back for 64 cycles or until the other ready warps of its issue slot have issued. -/
def Obligations.exit_nop_yield : Prop :=
  ∀ (c : Ctl) (s : State) (e : Env),
    (Normal s e { Form.short c [] [] with last := true } (holdExit c) →
      ∃ s', exec (.exit c) s = .next s' ∧
        Frame s s' (withWarp e fun w => { w with k := w.k.map fun m => m &&& ~~~lanesIn e (e.parts c) }) .none e.g.icnt
          (e.each s { Form.short c [] [] with last := true } fun _ u =>
            { u with
              st := .ended
              wait := none
              inHandler := none
              due := [] })) ∧
    (Normal s e (Form.short c [] []) noHold →
      Completes (.nop c) s e .none e.g.icnt (e.past s (Form.short c [] []))) ∧
    (Normal s e (Form.short c [] []) noHold → e.parts c ≠ [] →
      ∃ s' others, exec (.yield c) s = .next s' ∧
        (∀ k, k ∈ others ↔ ∃ x ∈ s.warps, x.wid = k ∧ k ≠ e.w.wid ∧ x.active = true ∧ x.saved = false ∧
          x.die = e.w.die ∧ x.core = e.w.core ∧ x.slot % 8 = e.w.slot % 8 ∧ x.eligible ≠ []) ∧
        Frame s s' (withWarp e fun w => { w with yields := w.yields ++ [(e.iss.thrs, s.now + 64, others)] }) .none
          e.g.icnt (e.past s (Form.short c [] [])))

/-- R154, R156: `trap` takes code 18 with its number in ARG and `brk` code 15, after the word (what taking a trap does:
`taking_a_trap`). -/
def Obligations.software_traps_are_taken : Prop :=
  ∀ (c : Ctl) (s : State) (e : Env), Normal s e (Form.short c [] []) noHold →
    (∀ n, Completes (.trap c n) s e .none e.g.icnt (e.each s (Form.short c [] []) fun t u =>
      trappedAfter e s u { e.record t 18 0 with arg := n })) ∧
    Completes (.brk c) s e .none e.g.icnt (e.each s (Form.short c [] []) fun t u => trappedAfter e s u (e.record t 15 0))

/-- R160: `tret` leaves the user handler: C, REGIONPC, the region shadow and the traps still due are restored, and the
thread resumes at the saved point, or at TRAPPC where that was written, then leaving every mask register. -/
def Obligations.tret_leaves_the_handler : Prop :=
  ∀ (c : Ctl) (s : State) (e : Env), c.pred = 0 → c.neg = false →
    let f : Form :=
      { Form.short c [] [] with
        last := true
        bad := fun _ t => if t.inHandler.isSome then none else some (0, 1, false) }
    Normal s e f holdTransfer → (∀ t ∈ e.group, ∀ h, t.inHandler = some h → h.due = []) →
    ∃ s', exec (.tret c) s = .next s' ∧
      Frame s s' (withWarp e fun w =>
          { w with k := w.k.map fun m => m &&& ~~~lanesIn e (e.group.filter fun t => t.trappcWritten) }) .none e.g.icnt
        fun t => match t.inHandler with
          | none => t
          | some h =>
            { e.past s f t with
              inHandler := none
              c := h.c
              regionPc := h.regionPc
              shC := h.shC
              shIstat := h.shIstat
              due := h.due
              pc := if t.trappcWritten then codePc (e.iss.pc.extractLsb' 32 16) t.trap.pc else h.pc
              cl := if t.trappcWritten then Clause.none else h.cl }

/-- R167, R251: the three forms of `eret` leave the supervisor view: to the saved return point inside its clause, to
REGIONPC with C and ISTAT from the region shadow, or to EPC. -/
def Obligations.eret_returns : Prop :=
  ∀ (c : Ctl) (s : State) (e : Env), Normal s e (eretForm c) noHold →
    (∀ t ∈ e.group, ∀ r, t.runtime = some r → r.due = []) →
    Completes (.eret c) s e .none e.g.icnt (e.each s (eretForm c) fun t u => match t.runtime with
      | none => u
      | some r =>
        { u with
          super := false
          runtime := none
          due := []
          pc := r.pc
          cl := r.cl
          passOnce := decide (t.strap.info.extractLsb' 0 5 = 17) ||
            (decide (t.strap.info.extractLsb' 0 5 = 15) && decide (t.strap.info.extractLsb' 8 3 = 1)) }) ∧
    Completes (.eretRegion c) s e .none e.g.icnt (e.each s (eretForm c) fun _ u =>
        { u with
          super := false
          runtime := none
          due := []
          c := u.shC
          istat := u.shIstat
          pc := codePc e.g.lr.codeHi u.regionPc
          cl := Clause.none }) ∧
    Completes (.eretEpc c) s e .none e.g.icnt (e.each s (eretForm c) fun _ u =>
        { u with
          super := false
          runtime := none
          due := []
          pc := codePc e.g.lr.codeHi u.epc
          cl := Clause.none })

/-- R194 to R196: `vote` writes to every participant whether all, any, or equal many predicates are true; `ballot` writes
a bit per true thread; `elect` makes the lowest participant's predicate true and the others' false. -/
def Obligations.vote_words : Prop :=
  ∀ (c : Ctl) (ps : BitVec 3) (neg : Bool),
    (∀ (s : State) (e : Env), Normal s e (Form.short c [] []) noHold →
      (∀ p, Completes (.vote c .all p ps neg) s e .none e.g.icnt (e.each s (Form.short c [] []) fun _ u =>
        u.setPred p (if ∀ x ∈ e.parts c, x.predTrue ps neg = true then 7 else 0))) ∧
      (∀ p, Completes (.vote c .any p ps neg) s e .none e.g.icnt (e.each s (Form.short c [] []) fun _ u =>
        u.setPred p (if ∃ x ∈ e.parts c, x.predTrue ps neg = true then 7 else 0))) ∧
      (∀ p, Completes (.vote c .uni p ps neg) s e .none e.g.icnt (e.each s (Form.short c [] []) fun _ u =>
        u.setPred p (if ∀ x ∈ e.parts c, ∀ y ∈ e.parts c, x.predTrue ps neg = y.predTrue ps neg then 7 else 0))) ∧
      (∀ p, Completes (.elect c p) s e .none e.g.icnt (e.each s (Form.short c [] []) fun t u =>
        u.setPred p (if (e.parts c).head? = some t then 7 else 0)))) ∧
    (∀ (d : Dst) (thr : Bool), PlainWord (.ballot c d ps neg thr) c d [] fun e _ _ =>
      let l := (e.parts c).filter fun t => t.predTrue ps neg
      .all (if thr then l.foldl (fun w t => w ||| 1 <<< t.idx) 0 else (lanesIn e l).setWidth 32))

/-- R190: `join`, `leave`, `mset` and `mget` set, clear, write and read a mask register; R191: under `wait` a participant that
is a member waits for the mask, and the others go on. R200: `cflag` adds to, takes from or sets a flag; a count that would
fall below 0 stops at 0. -/
def Obligations.masks_and_flags : Prop :=
  (∀ (c : Ctl) (k : Nat) (s : State) (e : Env),
     (Normal s e (Form.short c [] []) noHold →
       (∃ s', exec (.join c k) s = .next s' ∧
         Frame s s' (withWarp e fun w => { w with k := setAt w.k k (w.k.getD k 0 ||| lanesIn e (e.parts c)) }) .none
           e.g.icnt (e.past s (Form.short c [] []))) ∧
       (∃ s', exec (.leave c k) s = .next s' ∧
         Frame s s' (withWarp e fun w => { w with k := setAt w.k k (w.k.getD k 0 &&& ~~~lanesIn e (e.parts c)) }) .none
           e.g.icnt (e.past s (Form.short c [] []))) ∧
       Completes (.wait c k) s e .none e.g.icnt (e.each s (Form.short c [] []) fun t u =>
         if (e.w.k.getD k 0).getLsbD (if e.triple then 3 * t.idx else t.idx) then
           { u with
             st := .waiting
             wait := some (.mask k) }
         else u)) ∧
     (∀ a, Normal s e (Form.short c [a] []) noHold → ∀ t, (e.parts c).head? = some t →
       ∃ s', exec (.mset c k a) s = .next s' ∧
         Frame s s' (withWarp e fun w =>
             { w with k := setAt w.k k ((e.read0 s t a).extractLsb' 0 24 &&& lanesIn e e.w.threads) }) .none
           e.g.icnt (e.past s (Form.short c [a] []))) ∧
     (∀ d, PlainWord (.mget c d k) c d [] fun e _ _ => .all ((e.w.k.getD k 0).setWidth 32))) ∧
  (∀ (c : Ctl) (m : FlagMode) (k : Nat) (n : BitVec 6) (s : State) (e : Env),
     Normal s e (Form.short c [] []) noHold → (m = .inc → e.w.flags.getD k 0 + n.toNat ≤ 63) → e.parts c ≠ [] →
     ∃ s', exec (.cflag c m k n) s = .next s' ∧
       Frame s s' (withWarp e fun w => { w with flags := setAt w.flags k (match m with
         | .inc => w.flags.getD k 0 + n.toNat
         | .dec => w.flags.getD k 0 - n.toNat
         | .set => n.toNat) }) .none e.g.icnt (e.past s (Form.short c [] [])))

/-! ## Completion of long-latency instructions, exchanges, calls to the runtime -/

namespace Sys2Proof.Claims

/-- Where participant `i` takes block register `j` of a `bfly` from, as thread and register; none for a register that the
step does not move (R198). -/
def bflySource (dist m m2 i j : Nat) : Option (Nat × Nat) :=
  if dist ≠ 0 then
    if (i &&& dist = 0) ↔ j.testBit m = true then
      some (i ^^^ dist, if j.testBit m then j - 2 ^ m else j + 2 ^ m)
    else none
  else if j.testBit m = j.testBit m2 then none
  else some (i, if j.testBit m then j - 2 ^ m + 2 ^ m2 else j + 2 ^ m - 2 ^ m2)

/-- The form of a `bfly`: an unlawful distance in triple mode is FIELD, and a step takes the beats of its words (R198). -/
def bflyForm (c : Ctl) (base : Nat) (w dcode : BitVec 3) : Form :=
  { (Form.short c (vrun base (2 ^ w.toNat)) (vrun base (2 ^ w.toNat))).noA with
    words := if dcode = 0 then max 1 (2 ^ w.toNat / 4) else 2 ^ w.toNat / 2
    bad := fun e _ => if e.triple = true ∧ 4 ≤ dcode.toNat then some (0, 1, false) else none }

/-- The participant that stands at a thread position. -/
def partAt (e : Env) (c : Ctl) (i : Nat) : Option Thread := (e.parts c).find? fun u => u.idx = i

/-- The source of a `shfl` for a thread (R197). -/
def shuffleSource (e : Env) (c : Ctl) (m : ShflMode) (b : Nat) (t : Thread) : Option Thread :=
  let n := if e.triple then 8 else 24
  match m with
  | .idx => if b < n then partAt e c b else none
  | .up => if b ≤ t.idx then partAt e c (t.idx - b) else none
  | .down => if t.idx + b < n then partAt e c (t.idx + b) else none
  | .xor => if t.idx ^^^ b < n then partAt e c (t.idx ^^^ b) else none

/-- An integer combination (R199). -/
def combine (op : ReduxOp) (u : Bool) (x y : Word) : Word :=
  match op with
  | .add => x + y
  | .min => if intOf u y < intOf u x then y else x
  | .max => if intOf u x < intOf u y then y else x
  | .and => x &&& y
  | .or => x ||| y

/-- The reply word of a participant of the outstanding call that has not consumed it, where the reply stands (R203). -/
def replyWord (e : Env) (t : Thread) : Option Word :=
  match e.w.gcall with
  | none => none
  | some b =>
    if t.idx ∈ b.consumed then none
    else match b.thrs.findIdx? (fun x => x = t.idx), b.words with
      | some q, some ws => some (ws.getD q 0)
      | _, _ => none

end Sys2Proof.Claims

/-- R76, R78, R202: a long-latency instruction whose work is done completes: its flag falls by one, stopping at 0, it is
outstanding no more, every register that nothing wrote meanwhile holds its result, other vector registers keep theirs, and
threads that wait for it go on. -/
def Obligations.long_latency_completes : Prop :=
  ∀ (s : State) (wid pid : Nat) (w : Warp) (b : Block) (p : Pend),
    s.warp? wid = some w → w.saved = false → (w.pend.find? fun q => q.id = pid) = some p → p.wait = .ready →
    s.block? w.bid = some b → p.sample = none → p.poisoned = false →
    ∃ s' w', exec (.longLatencyComplete wid pid) s = .next s' ∧ s'.warp? wid = some w' ∧ s'.mem = s.mem ∧
      w'.pend.map Pend.bare = (w.pend.filter fun q => q.id ≠ pid).map Pend.bare ∧
      w'.flags = setAt w.flags p.flag (w.flags.getD p.flag 0 - 1) ∧
      (∀ thr n, (∀ x ∈ p.parts, ¬(x.thr = thr ∧ x.reg = n)) → s'.vreg wid thr n = s.vreg wid thr n) ∧
      (∀ x ∈ p.parts, (x.thr, x.reg) ∉ p.written → (∀ y ∈ p.parts, y.thr = x.thr → y.reg = x.reg → y = x) →
        ∀ t, s.thread? wid x.thr = some t → x.reg < t.v.length → s'.vreg wid x.thr x.reg = some x.val) ∧
      (∀ i t, s.thread? wid i = some t → t.wait = some (.result pid) →
        ∃ u, s'.thread? wid i = some u ∧ u.st = .eligible ∧ u.wait = none)

/-- R197 to R199: `shfl` gives each participant the value of its source thread, all read before any is written, and leaves
the register where the source is no participant (R186); `bfly` exchanges a thread bit or a register bit with a register
bit; `redux` gives every participant the combination over all, the F32 forms in the direction of the lowest, with their
flags and the advance of C. -/
def Obligations.exchanges_and_reductions : Prop :=
  ∀ (c : Ctl) (s : State) (e : Env),
    (∀ m d a b, Normal s e (Form.short c (.v a :: b.opds) [.v d]) noHold →
      Completes (.shfl c m d a b) s e (.v d) e.g.icnt (e.each s (Form.short c (.v a :: b.opds) [.v d]) fun t u =>
        match shuffleSource e c m (e.src s t .zero b).s0.toNat t with
        | some x => u.putV d (e.read s x (.v a))
        | none => u)) ∧
    (∀ base w m m2 dcode, Normal s e (bflyForm c base w dcode) noHold →
      Completes (.bfly c base w m m2 dcode) s e .none e.g.icnt (e.each s (bflyForm c base w dcode) fun t u =>
        (List.range (2 ^ w.toNat)).foldl (fun u j =>
          match bflySource (if dcode = 0 then 0 else 2 ^ (dcode.toNat - 1)) m.toNat m2.toNat t.idx j with
          | none => u
          | some x =>
            match partAt e c x.1 with
            | some y => u.putV (base + j) (e.read s y (.v (base + x.2)))
            | none => u) u)) ∧
    (∀ op u d a, PlainWord (.redux c op .i32 u d a) c d [.v a] fun e s _ =>
      .all (match (e.parts c).map fun x => e.read0 s x (.v a) with
        | [] => 0
        | y :: l => l.foldl (combine op u) y)) ∧
    (∀ op u d a, d.wf = true → Normal s e (floatForm c d [.v a] true) noHold → ∀ low, (e.parts c).head? = some low →
      let r := fun (t : Thread) =>
        sibs d (fun j => reduxF32 op (e.dir c.rnd low j) ((e.parts c).map fun x => (e.read s x (.v a)).get j))
          (e.read s t (.v a)) (.all 0) (.all 0)
      Completes (.redux c op .f32 u d a) s e d
        ((computing d (e.parts c)).foldl (fun n t => countEvents t [(false, r t)] n) e.g.icnt)
        (e.computed s (floatForm c d [.v a] true) d true r))

/-- R201, R202: `gcall` takes the reply buffer for its participants, raises its flag, and hands its record over: to the
runtime at once, or to the queue of the call ring. R443: an attestation report is asked for by its function number; after the
last leaf index none is signed and the reply is zero. -/
def Obligations.gcall_sends_its_record : Prop :=
  ∀ (c : Ctl) (fn : BitVec 16) (a : Nat) (s : State) (e : Env),
    Normal s e (Form.longLat c (vrun a 8) []) (holdGcall c) → e.parts c ≠ [] →
    let thrs := (e.parts c).map fun t => t.idx
    let issued := fun (route : Option DWord) (w : Warp) =>
      { w with
        gcall := some { thrs := thrs, consumed := [], words := none, route := route }
        flags := setAt w.flags (e.flagOf c) (w.flags.getD (e.flagOf c) 0 + 1)
        pend := w.pend ++
          [{ id := s.uid, flag := e.flagOf c, wait := .gcall, parts := [], sparts := [], preds := [], thrs := thrs
             epoch := none, sample := none }] }
    let refused := GcallBuf.mk thrs [] (some (thrs.map fun _ => 0)) (some (Config.routingWord s.uid))
    (∃ s', exec (.gcall c true fn a) s = .next s' ∧
      s'.pkg = { s.pkg with ringWait := s.pkg.ringWait ++ [(e.w.wid, gcallRecord e s true fn a (e.parts c))] } ∧
      Frame { s with uid := s.uid + 1, pkg := s'.pkg } s' (withWarp e (issued none)) .none e.g.icnt
        (e.past s (Form.longLat c (vrun a 8) []))) ∧
    (∃ s' more, exec (.gcall c false fn a) s = .next s' ∧
      s'.out = s.out ++ Msg.gcall e.w.wid (gcallRecord e s false fn a (e.parts c)) :: more ∧
      (fn ≠ Config.attestFn → more = [] ∧ s'.pkg = s.pkg) ∧
      (fn ≠ Config.attestFn ∨ s.pkg.leaf < 2 ^ 20 →
        Frame { s with uid := s.uid + 1, pkg := s'.pkg, out := s'.out } s'
          (withWarp e (issued (some (Config.routingWord s.uid)))) .none e.g.icnt
          (e.past s (Form.longLat c (vrun a 8) [])))) ∧
    (fn = Config.attestFn → 2 ^ 20 ≤ s.pkg.leaf → e.w.saved = false → (∀ p ∈ e.w.pend, p.wait ≠ .gcall) →
      ∃ s', exec (.gcall c false fn a) s = .next s' ∧
        s'.out = s.out ++ [Msg.gcall e.w.wid (gcallRecord e s false fn a (e.parts c))] ∧
        Frame { s with uid := s.uid + 1, out := s'.out } s'
          (withWarp e fun w =>
            { w with gcall := some refused })
          .none e.g.icnt (e.past s (Form.longLat c (vrun a 8) [])))

/-- R203: `gret` gives a participant of the outstanding call its reply word in all three siblings and marks it consumed; before
the reply it waits; any other thread keeps its register and goes on. R202, R469: a reply under a routing word that names no
outstanding call is discarded; otherwise it stands in the warp's buffer, the call's flag falls and its instruction is
outstanding no more, and the ring slot is free. A record that may enter the ring stands in companion memory behind its
routing word, and the ring's next slot follows. -/
def Obligations.replies_of_calls : Prop :=
  (∀ (c : Ctl) (d : Nat) (s : State) (e : Env), Normal s e (Form.short c [] [.v d]) noHold →
     ∃ s', exec (.gret c d) s = .next s' ∧
       Frame s s' (withWarp e fun w =>
           { w with gcall := w.gcall.map fun b =>
               { b with consumed := b.consumed ++
                   ((e.parts c).filter fun t => (replyWord e t).isSome).map fun t => t.idx } })
         .none e.g.icnt fun t =>
           if t ∈ e.parts c then
             match replyWord e t with
             | some x => (e.past s (Form.short c [] [.v d]) t).putV d (.all x)
             | none =>
               let u := e.past s (Form.short c [] [.v d]) t
               if (e.w.gcall.map fun b => decide (t.idx ∈ b.thrs ∧ t.idx ∉ b.consumed ∧ b.words = none)) = some true then
                 { u with
                   st := .waiting
                   wait := some (.gret d) }
               else u
           else e.past s (Form.short c [] [.v d]) t) ∧
  (∀ (s : State) (route : DWord) (words : List Word),
     ((∀ w ∈ s.warps, w.awaits route = false) → exec (.gcallReply route words) s = .next s) ∧
     (∀ w, (s.warps.find? fun w => w.awaits route) = some w → s.warp? w.wid = some w → w.saved = false →
       (w.pend.filter fun p => p.wait = .gcall).length = 1 →
       ∃ s' w' p, exec (.gcallReply route words) s = .next s' ∧ s'.warp? w.wid = some w' ∧
         (w.pend.find? fun p => p.wait = .gcall) = some p ∧
         w'.gcall = w.gcall.map (fun b => { b with words := some words }) ∧
         w'.flags = setAt w.flags p.flag (w.flags.getD p.flag 0 - 1) ∧
         w'.pend = w.pend.filter (fun p => p.wait ≠ .gcall) ∧ w'.threads = w.threads ∧
         s'.pkg.ringUsed = s.pkg.ringUsed.filter (fun x => x.2 ≠ route) ∧ s'.mem = s.mem) ∧
     (s.nextCall = none → exec .gcallRingEntry s = .next s) ∧
     (∀ wid bytes, s.nextCall = some (wid, bytes) → bytes.length ≤ 1016 →
       ∃ s', exec .gcallRingEntry s = .next s' ∧
         s'.pkg.ringNext = (s.pkg.ringNext + 1) % ringSlots ∧
         s'.pkg.ringWait = s.pkg.ringWait.erase (wid, bytes) ∧
         ∃ x, s'.pkg.ringUsed = s.pkg.ringUsed ++ [(s.pkg.ringNext, x)] ∧
           s'.mem.readBytes (s.pkg.ringBase + s.pkg.ringNext * 1024) 1024 =
             leBytes 8 x.toNat ++ bytes ++ List.replicate (1016 - bytes.length) (0 : Byte) ∧
           ∀ w, s.warp? wid = some w → s'.warp? wid =
             some { w with gcall := w.gcall.map fun b => { b with route := some x } }))

/-! ## Checks, traps and the issue logic -/

namespace Sys2Proof.Claims

/-- Two states differ in one warp. -/
def OnlyWarp (s s' : State) (wid : Nat) (w' : Warp) : Prop :=
  s' = { s with warps := s'.warps } ∧ s'.warp? wid = some w' ∧ ∀ k, k ≠ wid → s'.warp? k = s.warp? k

/-- The first check of R86 that a thread fails: the supervisor view, the place in the clause, the flag's validity, the
fields that the form names, the register bounds; with its code, subcode and half. -/
def firstBreach (f : Form) (e : Env) (t : Thread) : Option (Nat × Nat × Bool) :=
  if f.priv = true ∧ t.super = false then some (2, 0, false)
  else if f.last = true ∧ t.cl.pos ≠ t.cl.count then some (0, 1, false)
  else if f.long = true ∧ (if f.c.fsel then t.cl.bvalid else t.cl.avalid) = false then some (0, 1, false)
  else match f.bad e t with
    | some x => some x
    | none => if ∃ o ∈ f.src ++ f.dst, e.w.beyond o = true then some (1, 0, false) else none

/-- A code whose trap goes to the user handler: instability, IEEE flag, tape, `trap`; and `brk` and a breakpoint with no
debugger attached (Table 6.3). -/
def userCode (code : Nat) (att : Bool) : Prop := (7 ≤ code ∧ code ≤ 13) ∨ code = 18 ∨ (code = 15 ∧ att = false)

/-- TRAPINFO as Table 6.4 lays it out. -/
def TrapInfo (x : Word) (r : TrapRec) : Prop :=
  x.extractLsb' 0 5 = BitVec.ofNat 5 r.code ∧ x.extractLsb' 5 3 = 0 ∧ x.extractLsb' 8 3 = BitVec.ofNat 3 r.sub ∧
    x.getLsbD 11 = r.half ∧ x.extractLsb' 12 4 = BitVec.ofNat 4 r.pos ∧ x.extractLsb' 16 16 = r.arg

/-- The trap registers of a record (Tables 6.4 to 6.8). -/
def TrapRegsOf (x : TrapRegs) (r : TrapRec) : Prop :=
  TrapInfo x.info r ∧ x.pc = r.pc.setWidth 32 ∧ x.opa = r.opa ∧ x.opb = r.opb ∧ x.opc = r.opc ∧ x.res = r.res ∧
    x.addr = r.addr

end Sys2Proof.Claims

/-- R86, R91, R92, R97, R182: where a thread of the group fails a check, each failing thread takes that check's trap before the
word, and nothing else happens: the word is not issued for any thread. R86, R98: a word of no assigned opcode traps every
thread of its group, illegal instruction, before the word: a pool header with subcode POOL, any other word with OPCODE. -/
def Obligations.checks_before_issue : Prop :=
  (∀ (i : Instr) (f : Form) (h : State → Env → Thread → Option Hold) (body : Env → State → State),
     (∀ s, exec i s = .next (issue f h body s)) → ∀ (s : State) (e : Env), s.env = some e → e.w.Sound →
       (∃ t ∈ e.group, firstBreach f e t ≠ none) →
       ∃ s', exec i s = .next s' ∧ s' = { s with warps := s'.warps } ∧
         (∀ k, k ≠ e.w.wid → s'.warp? k = s.warp? k) ∧
         ∀ t ∈ e.group, s'.thread? e.w.wid t.idx = some (match firstBreach f e t with
           | some (code, sub, half) => trapped e s t { e.record t code sub with half := half }
           | none => t)) ∧
  (∀ (x : DWord) (s : State) (e : Env), s.env = some e → e.w.Sound → e.group ≠ [] →
     (x >>> 62).toNat ≠ 1 →
     ∃ s', exec (.unassignedOpcodeWord x) s = .next s' ∧ s' = { s with warps := s'.warps } ∧
       ∀ t ∈ e.group, s'.thread? e.w.wid t.idx = some (trapped e s t (e.record t 0 (if isPool x then 2 else 0))))

/-- R24, R157 to R161, R251: what taking a trap does to a thread. A user trap outside handler mode with HANDLER set saves
the return point, C, REGIONPC and the region shadow, writes the user view's trap registers, and stands at HANDLER, whose
entry begins a region; every other trap saves the return point and EPC, writes the supervisor view's registers, and stands
in the supervisor view. Registers, predicates, the draw counter and the return stack stay. -/
def Obligations.taking_a_trap : Prop :=
  ∀ (t : Thread) (att : Bool) (hi : BitVec 16) (r : TrapRec) (pc : Addr) (cl : Clause),
    let u := t.trapTo att hi r pc cl
    (u.v = t.v ∧ u.p = t.p ∧ u.c = t.c ∧ u.istat = t.istat ∧ u.fpstat = t.fpstat ∧ u.rs = t.rs ∧ u.rsp = t.rsp ∧
      u.dsp = t.dsp ∧ u.idx = t.idx ∧ u.owner = t.owner ∧ u.cl = Clause.none ∧ u.st = .eligible) ∧
    (userCode r.code att → t.inHandler = none → t.handler ≠ 0 →
      u.inHandler = some
        { pc := pc
          cl := cl
          c := t.c
          regionPc := t.regionPc
          shC := t.shC
          shIstat := t.shIstat
          due := t.due } ∧
      TrapRegsOf u.trap r ∧ u.trappcWritten = false ∧ u.pc = hi ++ t.handler ∧ u.regionPc = t.handler ∧ u.shC = t.c ∧
      u.shIstat = t.istat ∧ u.super = t.super ∧ u.strap = t.strap) ∧
    (¬(userCode r.code att ∧ t.inHandler = none ∧ t.handler ≠ 0) →
      u.super = true ∧ u.runtime = some { pc := pc, cl := cl, due := t.due } ∧ TrapRegsOf u.strap r ∧
      u.epc = r.pc.setWidth 32 ∧ u.trap = t.trap ∧ u.inHandler = t.inHandler ∧ u.regionPc = t.regionPc ∧
      u.shC = t.shC ∧ u.shIstat = t.shIstat)

/-- R155, R173, R174, R178: the steps of the issue logic. A `yield` hold that is over lets its group go; the lines of a
parked thread arrive in its core's cache and it is ELIGIBLE at its load; a line's hold for it ends after 1,024 cycles; the first
ready non-member enters an active set with room, an idle member leaves, and one of a higher class displaces the youngest of
the lowest. -/
def Obligations.issue_logic_steps : Prop :=
  ∀ (s : State) (wid : Nat) (w : Warp), s.warp? wid = some w →
    (∀ thr, ∃ s', exec (.yieldHoldExpiry wid thr) s = .next s' ∧
      OnlyWarp s s' wid { w with yields := w.yields.filter fun x => ¬(thr ∈ x.1 ∧ (x.2.1 ≤ s.now ∨ x.2.2 = [])) }) ∧
    (∀ thr t sectors, s.thread? wid thr = some t → t.st = .parked → t.wait = some (.fetch sectors) → w.saved = false →
      s.blockedLines w.die w.ownHeld (sectors.map fun x => x * 32) = [] →
      ∃ s' u, exec (.lineArrival wid thr) s = .next s' ∧ s'.thread? wid thr = some u ∧
        u =
          { t with
            st := .eligible
            age := 0
            wait := none } ∧
        (∀ x ∈ sectors, (s'.core w.die w.core).holds [x * 32] = true) ∧ s'.mem = s.mem) ∧
    (∃ s', exec (.parkedLineHoldExpiry w.die w.core) s = .next s' ∧ s' = { s with cores := s'.cores } ∧
      s'.core w.die w.core =
        { s.core w.die w.core with
          lines := (s.core w.die w.core).lines.map fun l =>
            { l with held := l.held.filter fun x => decide (s.now < x.2.2 + 1024) } }) ∧
    (w.inSlot = true → (s.members w).length < 8 → (s.nextIn w).map (fun x => x.wid) = some wid →
      ∃ s', exec (.activeSetEntry wid) s = .next s' ∧ OnlyWarp s s' wid
        { w with
          active := true
          rcache := []
          idleSince := none }) ∧
    (s.mayLeave w = true → ∃ s' w', exec (.activeSetIdleLeave wid) s = .next s' ∧ s'.warp? wid = some w' ∧
      w' =
        { w with
          active := false
          rcache := []
          idleSince := none }) ∧
    (∀ v, s.displaces w = some v → v.wid ≠ wid → s.warp? v.wid = some v →
      ∃ s', exec (.activeSetDisplace wid v.wid) s = .next s' ∧
        s'.warp? v.wid = some
          { v with
            active := false
            rcache := []
            idleSince := none } ∧
        s'.warp? wid = some
          { w with
            active := true
            rcache := []
            idleSince := none })

/-! ## Memory -/

namespace Sys2Proof.Claims

/-- Outside memory, the warps, the blocks and the launch counters, an access changes only what the core caches hold, the
samples that cores count, the walks that translation has started, trace buffers, and the marks of the order within a cycle: no
control register of a core, cluster or die. -/
structure CachesOnly (s s' : State) : Prop where
  dies : ∀ d, s'.die d =
    { s.die d with
      walks := (s'.die d).walks
      heapKey := (s'.die d).heapKey }
  cores : ∀ d k, s'.core d k =
    { s.core d k with
      lines := (s'.core d k).lines
      sampled := (s'.core d k).sampled
      busy := (s'.core d k).busy
      lastIssue := (s'.core d k).lastIssue }
  clusters : ∀ d k, s'.cluster d k =
    { s.cluster d k with
      trace := (s'.cluster d k).trace
      dropped := (s'.cluster d k).dropped }

/-- The state with the caches, walks and trace buffers of another. -/
def State.withCaches (s s' : State) : State :=
  { s with
    cores := s'.cores
    clusters := s'.clusters
    dies := s'.dies }

/-- The warp with one more outstanding instruction, its flag raised (R76). -/
def addPend (p : Pend) (w : Warp) : Warp :=
  { w with
    flags := setAt w.flags p.flag (w.flags.getD p.flag 0 + 1)
    pend := w.pend ++ [p] }

/-- Loads: `ld`, `ldx`, `ldacq`, `acqrem` and `adjld`. -/
inductive LoadRule : Instr → LoadSpec → Prop where
  | ld c m : LoadRule (.ld c m) { c := c, m := m, kind := .elem m.width, split := true }
  | ldx c m : LoadRule (.ldx c m) { c := c, m := m, kind := .raw, split := true }
  | ldacq c m sc : LoadRule (.ldacq c m sc) { c := c, m := m, kind := .ordered m.width, split := false, acq := true }
  | acqrem c m sc : LoadRule (.acqrem c m sc)
      { c := c, m := m, kind := .ordered m.width, split := false, acq := true, promote := true }
  | adjld c m : LoadRule (.adjld c m) { c := c, m := m, kind := .cell, split := true }

/-- Stores: `st`, `stx`, `strel` and `adjclr`, with what holds each back. -/
inductive StoreRule : Instr → StoreSpec → (State → Env → Thread → Option Hold) → Prop where
  | st c m : StoreRule (.st c m) { c := c, m := m, kind := .elem m.width }
      (StoreSpec.hold { c := c, m := m, kind := .elem m.width })
  | stx c m : StoreRule (.stx c m) { c := c, m := m, kind := .raw } (StoreSpec.hold { c := c, m := m, kind := .raw })
  | strel c m sc : StoreRule (.strel c m sc) { c := c, m := m, kind := .ordered m.width } (fun s e t =>
      match holdRelease c s e t with
      | some w => some w
      | none => StoreSpec.hold { c := c, m := m, kind := .ordered m.width } s e t)
  | adjclr c m : StoreRule (.adjclr c m) { c := c, m := m, kind := .cell }
      (StoreSpec.hold { c := c, m := m, kind := .cell })

/-- One participant loads, its checks pass, it is not a reissue, and no soft error lies in wait. -/
structure LoadsOne (s : State) (e : Env) (x : LoadSpec) (t : Thread) (p : Plan) : Prop where
  parts : e.parts x.c = [t]
  plan : x.plan e s t = .ok p
  first : t.split = none
  latent : s.pkg.latent = []

/-- The load is one of block shared memory that another core of the block holds (R227). -/
def carriedAway (e : Env) (t : Thread) (l : Loc) : Prop :=
  l.store = .shared ∧ e.b.rankOf (l.bytes.headD 0) ≠ e.w.rank ∧ t.owner = e.g.tag

/-- No thread of the block waits at a barrier. -/
def Unawaited (s : State) (bid : Nat) : Prop :=
  ∀ w ∈ s.warps, w.bid = bid → ∀ t ∈ w.threads, ∀ off target since seen, t.wait ≠ some (.barrier off target since seen)

/-- An access on its way to the core that holds its portion (R227): its place in the key order of R218, its thread, and the
instruction and the register that its result goes to. -/
def carriedAcc (e : Env) (t : Thread) (off : Nat) (op : PortionOp) (pid : Option Nat) (dest : Option Opd) : PortionAcc :=
  { wid := e.w.wid
    thr := t.idx
    key := e.w.rank * 512 + e.w.slot
    issue := e.w.wissue
    trap := none
    pid := pid
    dest := dest
    off := off
    op := op }

/-- The issue with that access among those on their way. -/
def withAcc (e : Env) (a : PortionAcc) : Env := { e with b := { e.b with portions := e.b.portions ++ [a] } }

/-- One participant stores, its checks pass, no soft error lies in wait, the die samples nothing, and no thread waits at a
barrier that the store could change (what waiters see: `barrier_words`). -/
structure StoresOne (s : State) (e : Env) (x : StoreSpec) (t : Thread) (p : Plan) : Prop where
  parts : e.parts x.c = [t]
  plan : s.plan e t (x.acc e s t) = .ok p
  latent : s.pkg.latent = []
  still : (s.die e.w.die).trctl.extractLsb' 4 4 = 0
  unawaited : p.loc.store = .shared → Unawaited s e.b.bid

/-- Memory, the block and the warp with bytes written at a location, in one of the three stores. -/
def putBytes (m : Mem) (l : Loc) (bs : List Byte) (k : Store) : Mem :=
  if l.store = k then m.writeAll (l.bytes.zip bs) else m

/-- The issue with bytes written at a location of block shared memory or of the spill window. -/
def withStored (e : Env) (l : Loc) (bs : List Byte) : Env :=
  { e with
    b := { e.b with shared := putBytes e.b.shared l bs .shared }
    w := { e.w with spill := putBytes e.w.spill l bs .spill } }

/-- The bytes that a store's registers give. -/
def storedBytes (e : Env) (s : State) (x : StoreSpec) (t : Thread) (p : Plan) : List Byte :=
  storeBytes x.kind p.loc.mode e.triple (x.data.map fun o => e.read s t o)

/-- The threads of a store in the order in which they store, each with the state that it finds (R232). -/
def storeTurns (x : StoreSpec) (e : Env) (s0 : State) : List Thread → State → List (Thread × State)
  | [], _ => []
  | t :: l, s =>
    (t, s) :: storeTurns x e s0 l (match s.plan e t (x.acc e s0 t) with
      | .error f => s.fail e t f
      | .ok p => if x.badDest p then e.illegal s t subField else s.storeOne e s0 x t p)

/-- Every system physical byte that a store writes: of each thread in its turn, the element, its adjoint cell and its tape
record (R235, R364). -/
def storeReach (x : StoreSpec) (e : Env) (s : State) (a : Nat) : Prop :=
  ∃ y ∈ storeTurns x e (s.issued e x.form) (x.threads e) ((s.issued e x.form).countMem e).1, ∃ p,
    y.2.plan e y.1 (x.acc e (s.issued e x.form) y.1) = .ok p ∧ a ∈ p.phys

/-- Bytes of one register in the data stack (R238). -/
def frameBytes (e : Env) : Nat := if e.triple then 12 else 4

/-- The offset of a thread's area in its warp's spill window (R213). -/
def areaStart (e : Env) (t : Thread) : Nat := t.idx * (e.g.lr.spillK * 1024)

/-- The image of registers `a` to `a + k − 1` of a thread in the data stack (R238). -/
def frameImage (e : Env) (s : State) (t : Thread) (a k : Nat) : List Byte :=
  ((List.range k).map fun i =>
    let x := e.read s t (.v (a + i))
    if e.triple then leBytes 4 x.s0.toNat ++ leBytes 4 x.s1.toNat ++ leBytes 4 x.s2.toNat
    else leBytes 4 x.s0.toNat).flatten

/-- The data stack of a thread has room for `n` more bytes beside its return records (R149, R238). -/
def stackRoom (e : Env) (t : Thread) (n : Nat) : Bool := decide (t.dsp + n + t.rsp ≤ e.g.lr.spillK * 1024)

/-- The trap that a floating-point minimum or maximum takes where it meets a signalling NaN: an enabled IEEE trap, outside
handler mode, with the operands of the word (R133, R240). -/
def atomNan (e : Env) (s : State) (a b : Opd) (op : AtomOp) (ty : AtomTy) (t : Thread) : Option TrapRec :=
  if (op = .min ∨ op = .max) ∧ ty = .f32 ∧ t.inHandler = none ∧ t.fpmask.getLsbD 0 = true then
    some
      { e.record t 10 0 with
        opa := e.read s t a
        opb := e.read s t b }
  else none

/-- The atomic access of a thread (R239). -/
def atomAccess (e : Env) (s : State) (c : Ctl) (d : Option Nat) (a b : Opd) (op : AtomOp) (ty : AtomTy) (pid : Nat)
    (t : Thread) : PortionAcc :=
  { carriedAcc e t (e.read0 s t a).toNat (.atom op ty (e.atomArgs s c t b (if op = .cas then d else none) ty)) (some pid)
      (d.map Opd.v) with trap := atomNan e s a b op ty t }

/-- The form of `atom`. -/
def atomForm (c : Ctl) (d : Option Nat) (a b : Opd) (op : AtomOp) (ty : AtomTy) : Form :=
  (Form.longLat c (a :: (operandRun b ty ++ destRun (if op = .cas then d else none) ty)) (destRun d ty)).accesses

/-- The thread after an atomic that adds in floating point has drawn (R20), and, where its trap may come, waits for the
result (log 96). -/
def atomPost (e : Env) (s : State) (a b : Opd) (op : AtomOp) (ty : AtomTy) (t u : Thread) : Thread :=
  let v := { u with c := if op = .add ∧ (ty = .f32 ∨ ty = .f32x) then u.c + 1 else u.c }
  if (atomNan e s a b op ty t).isSome then
    { v with
      st := .waiting
      wait := some (.result s.uid) }
  else v

/-- What the invalid flag of an atomic does: the trap due, or the flag in FPSTAT. -/
def atomRaise (trap : Option TrapRec) (fl : Flags) (old : Triple) (u : Thread) : Thread :=
  if fl = 0 then u
  else match trap with
    | some r =>
      { u with due :=
          { r with
            arg := fl.setWidth 16
            res := old } :: u.due }
    | none => { u with fpstat := u.fpstat ||| fl }

/-- The reads of a thread that are not performed, marked as standing before an acquire (R243, R343). -/
def beforeAcquire (ts : List Thread) (w : Warp) : Warp :=
  { w with pend := w.pend.map fun p =>
      { p with acq := p.acq ++ (ts.map fun t => t.idx).filter fun i => decide (i ∈ p.thrs ∧ i ∉ p.acq) } }

end Sys2Proof.Claims

/-- R227, R230 to R237, R244, R245, R282, R400: a load whose checks pass completes: its value, in the storage mode of its
page, stands in an outstanding instruction whose flag is raised; a compact word with a reserved digit count sets FORMAT; the
cache holds the bytes it touched. A load of a part of block shared memory that another core holds travels there. A
reverse-mode load of a D page reads nothing: it sends an accumulate of its register to the adjoint cell and advances C. No
byte of memory changes. -/
def Obligations.loads_deliver_or_travel : Prop :=
  ∀ i x, LoadRule i x → ∀ (s : State) (e : Env) (t : Thread) (p : Plan), Normal s e x.form x.hold →
    LoadsOne s e x t p →
    let l := p.target x.kind
    let v := loadValue x.kind l.mode e.triple (s.readLoc e t.owner l)
    let pend := fun (parts : List Part × List (Nat × Word)) (smp : Option Sample) =>
      addPend
        { id := s.uid
          flag := e.flagOf x.c
          wait := if x.promote then .promoted (s.inFlight e) else .parts
          parts := parts.1
          sparts := parts.2
          preds := []
          thrs := [t.idx]
          epoch := some (s.die e.w.die).qepoch
          sample := smp
          acq := if x.acq then [t.idx] else [] }
    (p.accumulates x.kind = false → ¬carriedAway e t l →
      ∃ s' smp, exec i s = .next s' ∧ CachesOnly s s' ∧
        Frame { State.withCaches s s' with uid := s.uid + 1 } s' (withWarp e (pend (destParts t.idx x.m.data v.1) smp)) .none
          e.g.icnt (e.each s x.form fun _ u => { u with istat := if v.2 then u.istat ||| 8 else u.istat }) ∧
        (l.store = .phys → e.w.service = false → (s'.core e.w.die e.w.core).holds l.bytes = true)) ∧
    (p.accumulates x.kind = false → carriedAway e t l →
      ∃ s' smp, exec i s = .next s' ∧ CachesOnly s s' ∧
        Frame { State.withCaches s s' with uid := s.uid + 1 } s'
          (withAcc (withWarp e (pend ([], []) smp))
            (carriedAcc e t (l.bytes.headD 0) (.load x.m.width (decide (x.kind = .raw))) (some s.uid) (some x.m.data)))
          .none e.g.icnt (e.past s x.form)) ∧
    (p.accumulates x.kind = true → ∀ cell, p.adj = some cell →
      let r := e.request t (p.a + 0x100000000) cell.bytes s.uid 3 .add .f32 cell.mode none x.m.data.code.toNat
        { b := e.read s t x.m.data, bHi := 0, cv := .all 0, cvHi := 0, dirs := e.dirs x.c.rnd t }
      ∃ s' smp, exec i s = .next s' ∧ CachesOnly (s.sendRequest e r) s' ∧
        Frame { State.withCaches s s' with uid := s.uid + 1 } s' (withWarp e (pend ([], []) smp)) .none e.g.icnt
          (e.each s x.form fun _ u => { u with c := u.c + 1 }))

/-- R34 to R41, R230 to R237, R244, R364, R400: a store whose checks pass writes its bytes, in the storage mode of its page,
to its location and nowhere else. A forward store to a D page first writes its tape record, the old element in it, and
advances TAPEPOS; in reverse mode the store takes the last record back: the element and the adjoint cell are restored and
cleared, TAPEPOS falls, and its data register receives the cell. `adjclr` clears the cell. -/
def Obligations.stores_write_their_bytes : Prop :=
  ∀ i x h, StoreRule i x h → ∀ (s : State) (e : Env) (t : Thread) (p : Plan), Normal s e x.form h → StoresOne s e x t p →
    x.badDest p = false →
    let bs := storedBytes e s x t p
    let zeros := List.replicate p.loc.bytes.length (0 : Byte)
    let base := fun (s' : State) (m : Mem) =>
      { State.withCaches s s' with
        mem := m
        pkg := { s.pkg with poison := s'.pkg.poison } }
    (x.kind ≠ .cell → p.tape = none →
      ¬(p.loc.store = .shared ∧ e.b.rankOf (p.loc.bytes.headD 0) ≠ e.w.rank) →
      ∃ s', exec i s = .next s' ∧ CachesOnly s s' ∧
        Frame (base s' (putBytes s.mem p.loc bs .phys)) s' (withStored e p.loc bs) .none e.g.icnt (e.past s x.form)) ∧
    (x.kind ≠ .cell → p.tape = none → p.loc.store = .shared → e.b.rankOf (p.loc.bytes.headD 0) ≠ e.w.rank →
      ∃ s', exec i s = .next s' ∧ CachesOnly s s' ∧
        Frame (State.withCaches s s') s'
          (withAcc e (carriedAcc e t (p.loc.bytes.headD 0) (.store bs) none none)) .none e.g.icnt (e.past s x.form)) ∧
    (∀ r, x.kind ≠ .cell → p.tape = some r → p.adj = none →
      ∃ s', exec i s = .next s' ∧ CachesOnly s s' ∧
        Frame (base s' ((s.mem.writeAll (r.bytes.zip
            (recordBytes p.a p.loc.mode t.tapepos (s.readLoc e t.owner p.loc)))).writeAll (p.loc.bytes.zip bs))) s' e .none
          e.g.icnt (e.each s x.form fun _ u => { u with tapepos := u.tapepos + 1 })) ∧
    (∀ r cell, x.kind ≠ .cell → p.tape = some r → p.adj = some cell →
      ∃ s', exec i s = .next s' ∧ CachesOnly s s' ∧
        s'.mem = (s.mem.writeAll (cell.bytes.zip zeros)).writeAll (p.loc.bytes.zip
          (((s.readLoc e t.owner r).drop 8).take p.loc.bytes.length)) ∧
        (∀ n, x.m.data = .v n → s'.thread? e.w.wid t.idx = some
          { (e.past s x.form t).putV n (laneTriple e.triple (rawValue (s.readLoc e t.owner cell))) with tapepos := t.tapepos - 1 }) ∧
        (∀ n, x.m.data = .s n → n < e.w.s.length →
          s'.sreg e.w.wid n = some (laneTriple e.triple (rawValue (s.readLoc e t.owner cell))).s0 ∧
          s'.thread? e.w.wid t.idx = some { e.past s x.form t with tapepos := t.tapepos - 1 })) ∧
    (∀ cell, x.kind = .cell → p.adj = some cell →
      ∃ s', exec i s = .next s' ∧ CachesOnly s s' ∧
        Frame (base s' (s.mem.writeAll (cell.bytes.zip bs))) s' e .none e.g.icnt (e.past s x.form) ∧
        ∀ y ∈ bs, y = 0)

/-- R232, R364: whatever a store does for its threads, in ascending index and each on what the earlier ones left, no byte of the
system physical memory changes but those of the elements stored, their adjoint cells and their tape records. R243, R248:
`pref` changes no value, only what its core's cache holds; a `fence` changes nothing but its threads' place: it waits until
their earlier accesses are performed, and one that acquires marks the reads that are not performed, for which later accesses
wait. -/
def Obligations.what_memory_words_leave : Prop :=
  (∀ i x h, StoreRule i x h → ∀ (s : State) (e : Env), Runs s e x.form h → s.pkg.latent = [] →
     ∃ s', exec i s = .next s' ∧ ∀ a, ¬storeReach x e s a → s'.byte a = s.byte a) ∧
  (∀ (c : Ctl) (s : State) (e : Env),
     (∀ m ex, Normal s e (Form.short c (addrOpds m) []) noHold →
       ∃ s', exec (.pref c m ex) s = .next s' ∧ CachesOnly s s' ∧
         Frame (State.withCaches s s') s' e .none e.g.icnt (e.past s (Form.short c (addrOpds m) []))) ∧
     (∀ k sc, Normal s e (Form.short c [] []) (fun s e t => if k = .acq then none else holdRelease c s e t) →
       ∃ s', exec (.fence c k sc) s = .next s' ∧
         Frame s s' (withWarp e (if k = .rel then fun w => w else beforeAcquire (e.parts c))) .none e.g.icnt
           (e.past s (Form.short c [] []))))

/-- R149, R213, R238: `push` writes the registers' image at the top of each participant's data stack and moves it up; one
without room takes trap 19, OVERFLOW, and writes nothing. `pop` moves it down and leaves the registers' values in an
outstanding instruction; one that holds too little takes trap 19, UNDERFLOW. -/
def Obligations.data_stack : Prop :=
  ∀ (c : Ctl) (a : Nat) (n : BitVec 3) (s : State) (e : Env),
    let k := n.toNat + 1
    let z := k * frameBytes e
    (Normal s e (Form.short c (vrun a k) []).accesses noHold → (∀ t ∈ e.parts c, t.owner = e.g.tag) →
      let ok := (e.parts c).filter fun t => stackRoom e t z
      ∃ s', exec (.push c a n) s = .next s' ∧ CachesOnly s s' ∧
        Frame (State.withCaches s s') s'
          (withWarp e fun w =>
            { w with
              spill := ok.foldl (fun m t => m.writeBytes (areaStart e t + t.dsp) (frameImage e s t a k)) w.spill
              spillPoison := ok.foldl (fun l t => l.filter fun u =>
                ¬(areaStart e t + t.dsp ≤ u ∧ u + 32 ≤ areaStart e t + t.dsp + z)) w.spillPoison })
          .none e.g.icnt (e.each s (Form.short c (vrun a k) []).accesses fun t u =>
            if stackRoom e t z then { u with dsp := u.dsp + z } else trapped e s t (e.record t 19 0))) ∧
    (Normal s e (Form.longLat c [] (vrun a k)).accesses noHold → e.w.spillPoison = [] → (∀ t ∈ e.parts c, t.owner = e.g.tag) →
      let ok := (e.parts c).filter fun t => decide (z ≤ t.dsp)
      ok ≠ [] →
      ∃ s' smp, exec (.pop c a n) s = .next s' ∧ CachesOnly s s' ∧
        Frame { State.withCaches s s' with uid := s.uid + 1 } s'
          (withWarp e (addPend
            { id := s.uid
              flag := e.flagOf c
              wait := .ready
              parts := (ok.map fun t => (List.range k).map fun i =>
                { thr := t.idx
                  reg := a + i
                  val := rawValue (e.w.spill.readBytes (areaStart e t + (t.dsp - z) + i * frameBytes e) (frameBytes e)) }).flatten
              sparts := []
              preds := []
              thrs := ok.map fun t => t.idx
              epoch := none
              sample := smp }))
          .none e.g.icnt (e.each s (Form.longLat c [] (vrun a k)).accesses fun t u =>
            if z ≤ t.dsp then { u with dsp := u.dsp - z } else trapped e s t (e.record t 19 1)))

/-- R215, R227, R239, R240: `atom` is one access to block shared memory: at the thread's own core it is performed at once,
the new value in the block's memory and the old one with the outstanding instruction; elsewhere it travels to the core that
holds its portion. A floating-point add advances C; a minimum or maximum that meets a signalling NaN raises invalid. -/
def Obligations.atom_reads_modifies_writes : Prop :=
  ∀ (c : Ctl) (d : Option Nat) (a b : Opd) (op : AtomOp) (ty : AtomTy) (s : State) (e : Env) (t : Thread),
    Normal s e (atomForm c d a b op ty) noHold → e.parts c = [t] →
    let off := (e.read0 s t a).toNat
    e.sharedCheck t off (AtomTy.bytes' ty) (if ty = .w64 then 8 else 4) = none →
    let r := atomPlain op ty e.triple (e.atomArgs s c t b (if op = .cas then d else none) ty)
      (s.sharedBytes e.b off (AtomTy.bytes' ty))
    let pend := fun (parts : List Part) (smp : Option Sample) =>
      addPend
        { id := s.uid
          flag := e.flagOf c
          wait := .parts
          parts := parts
          sparts := []
          preds := []
          thrs := [t.idx]
          epoch := none
          sample := smp }
    (e.b.rankOf off = e.w.rank → Unawaited s e.b.bid →
      let fl := atomFlags op ty e.triple (e.atomArgs s c t b (if op = .cas then d else none) ty)
        (s.sharedBytes e.b off (AtomTy.bytes' ty))
      ∃ s' smp, exec (.atom c d a b op ty) s = .next s' ∧ CachesOnly s s' ∧
        Frame { State.withCaches s s' with uid := s.uid + 1 } s'
          { withWarp e (pend (match d with
              | some n => (destParts t.idx (.v n) r.2).1
              | none => []) smp) with
            b := { e.b with shared := e.b.shared.writeAll ((upFrom off r.1.length).zip r.1) } }
          .none e.g.icnt (e.each s (atomForm c d a b op ty) fun t u =>
            atomPost e s a b op ty t (atomRaise (atomNan e s a b op ty t) fl (r.2.headD (.all 0)) u))) ∧
    (e.b.rankOf off ≠ e.w.rank →
      ∃ s' smp, exec (.atom c d a b op ty) s = .next s' ∧ CachesOnly s s' ∧
        Frame { State.withCaches s s' with uid := s.uid + 1 } s'
          (withAcc (withWarp e (pend [] smp)) (atomAccess e s c d a b op ty s.uid t)) .none e.g.icnt
          (e.each s (atomForm c d a b op ty) (atomPost e s a b op ty)))

/-! ## Control registers -/

namespace Sys2Proof.Claims

/-- The form of a control-register write. -/
def setForm (c : Ctl) (b : Src) (priv : Bool) : Form := { Form.short c b.opds [] with priv := priv }

/-- The FIELD trap of a thread, before the word. -/
def fieldTrap (e : Env) (s : State) (t : Thread) : Thread := trapped e s t (e.record t 0 1)

/-- What a register of the thread, the warp or the launch reads (Tables 4.6, 6.6 to 6.8, 18.9 and R250). -/
inductive ReadRule : CtlReg → (Env → Thread → Word) → Prop where
  | seedlo : ReadRule .seedlo (fun e _ => e.g.lr.seed.extractLsb' 0 32)
  | seedhi : ReadRule .seedhi (fun e _ => e.g.lr.seed.extractLsb' 32 32)
  | drawctr : ReadRule .drawctr (fun _ t => t.c)
  | istat : ReadRule .istat (fun _ t => t.istat.setWidth 32)
  | imask : ReadRule .imask (fun _ t => t.imask.setWidth 32)
  | cancelth : ReadRule .cancelth (fun _ t => t.cancelth.setWidth 32)
  | fpstat : ReadRule .fpstat (fun _ t => t.fpstat.setWidth 32)
  | fpmask : ReadRule .fpmask (fun _ t => t.fpmask.setWidth 32)
  | handler : ReadRule .handler (fun _ t => t.handler)
  | trapinfo : ReadRule .trapinfo (fun _ t => if t.super then t.strap.info else t.trap.info)
  | trappc : ReadRule .trappc (fun _ t => if t.super then t.strap.pc else t.trap.pc)
  | regionpc : ReadRule .regionpc (fun _ t => t.regionPc)
  | mode : ReadRule .mode (fun e _ => if e.triple then 1 else 0)
  | dmode : ReadRule .dmode (fun _ t => if t.rev then 1 else 0)
  | tapepos : ReadRule .tapepos (fun _ t => BitVec.ofNat 32 t.tapepos)
  | tapecap : ReadRule .tapecap (fun _ t => BitVec.ofNat 32 t.tapecap)
  | dstack : ReadRule .dstack (fun _ t => BitVec.ofNat 32 t.dsp)
  | wissue : ReadRule .wissue (fun e _ => e.w.wissue)
  | wbeat : ReadRule .wbeat (fun e _ => e.w.wbeat)
  | wunif : ReadRule .wunif (fun e _ => e.w.wunif)
  | wsplit : ReadRule .wsplit (fun e _ => e.w.wsplit)
  | cpylast : ReadRule .cpylast (fun _ t => t.cpylast)
  | tapebase : ReadRule .tapebase (fun e _ => e.g.lr.tapeBase)
  | tapestride : ReadRule .tapestride (fun e _ => e.g.lr.tapeStride)
  | priv : ReadRule .priv (fun _ t => if t.super then 1 else 0)
  | owner : ReadRule .owner (fun _ t => t.owner.setWidth 32)
  | epc : ReadRule .epc (fun _ t => t.epc)
  | qfree : ReadRule .qfree (fun _ _ => 0)

/-- Writes of a register of the thread itself: what becomes of the thread, or none where the value raises FIELD (Tables
6.2, 6.6, 6.7, R23, R161, R238, R251, R365). -/
inductive OwnWrite : Instr → Ctl → Src → Bool → (Env → Thread → Word → Option (Thread → Thread)) → Prop where
  | istat c b : OwnWrite (.ctlset c .istat b) c b false (fun _ _ v =>
      some fun u => { u with istat := u.istat &&& ~~~(v.extractLsb' 0 4) })
  | imask c b : OwnWrite (.ctlset c .imask b) c b false (fun _ _ v => some fun u => { u with imask := v.extractLsb' 0 3 })
  | cancelth c b : OwnWrite (.ctlset c .cancelth b) c b false (fun _ _ v =>
      some fun u => { u with cancelth := v.extractLsb' 0 5 })
  | fpstat c b : OwnWrite (.ctlset c .fpstat b) c b false (fun _ _ v =>
      some fun u => { u with fpstat := u.fpstat &&& ~~~(v.extractLsb' 0 5) })
  | fpmask c b : OwnWrite (.ctlset c .fpmask b) c b false (fun _ _ v =>
      some fun u => { u with fpmask := v.extractLsb' 0 5 })
  | owner c b : OwnWrite (.ctlset c .owner b) c b true (fun _ _ v => some fun u => { u with owner := v.extractLsb' 0 12 })
  | epc c b : OwnWrite (.ctlset c .epc b) c b true (fun _ _ v =>
      if v.extractLsb' 0 3 = 0 then some fun u => { u with epc := v } else none)
  | readOnly c b r : r.writable = false → OwnWrite (.ctlset c r b) c b r.sup (fun _ _ _ => none)
  | drawctr c b : OwnWrite (.drawctrWrite c b) c b false (fun _ t v => some fun u =>
      match t.inHandler with
      | some h => { u with inHandler := some { h with c := v } }
      | none => { u with c := v })
  | trappc c b : OwnWrite (.trappcWrite c b) c b false (fun _ t v =>
      if t.inHandler.isSome ∧ t.super = false ∧ v.extractLsb' 0 3 = 0 then
        some fun u =>
          { u with
            trap := { u.trap with pc := v }
            trappcWritten := true }
      else none)
  | handler c b : OwnWrite (.handlerWrite c b) c b false (fun _ _ v =>
      if v.extractLsb' 0 3 = 0 then some fun u => { u with handler := v } else none)
  | dstack c b : OwnWrite (.dstackWrite c b) c b false (fun e t v =>
      let n := (v.extractLsb' 0 17).toNat
      if n % 4 = 0 ∧ n + t.rsp ≤ e.g.lr.spillK * 1024 then some fun u => { u with dsp := n } else none)
  | tapepos c b : OwnWrite (.tapeposWrite c b) c b false (fun _ t v =>
      let n := (v.extractLsb' 0 27).toNat
      if n ≤ t.tapecap then some fun u => { u with tapepos := n } else none)
  | tapecap c b : OwnWrite (.tapecapWrite c b) c b false (fun e t v =>
      let n := (v.extractLsb' 0 27).toNat
      if t.tapepos ≤ n ∧ n ≤ e.g.lr.tapeStride.toNat / 32 then some fun u => { u with tapecap := n } else none)

/-- Writes of a register that several threads share: the state with the register written, or none where the value raises
FIELD (Tables 22.3 to 22.10, 23.2, 25.4, R208, R314, R318, R432). -/
inductive SharedWrite : Instr → Ctl → Src → Bool → (Env → State → Thread → Word → Option State) → Prop where
  | gqstat c b : SharedWrite (.ctlset c .gqstat b) c b false (fun e s _ v =>
      some (if v.getLsbD 16 then s.setDie { s.die e.w.die with gerr := false } else s))
  | ltstat c b : SharedWrite (.ctlset c .ltstat b) c b false (fun e s t v =>
      some (if v.getLsbD 31 then s.setCtx { s.ctx (if t.super then t.owner else e.g.tag) with lterr := false } else s))
  | ltbase c b : SharedWrite (.ctlset c .ltbase b) c b true (fun _ s t v =>
      some (s.setCtx { s.ctx t.owner with ltbase := v }))
  | ckstat c b : SharedWrite (.ctlset c .ckstat b) c b true (fun _ s _ v =>
      some { s with pkg := { s.pkg with ckPoison := if v.getLsbD 30 then false else s.pkg.ckPoison } })
  | enstatic c b : SharedWrite (.ctlset c .enstatic b) c b true (fun e s _ v =>
      some (s.setCore { s.core e.w.die e.w.core with perus := v.extractLsb' 0 16 }))
  | mptroot c b : SharedWrite (.ctlset c .mptroot b) c b true (fun _ s t v =>
      some (s.setCtx { s.ctx t.owner with mptroot := v }))
  | entab c b k : SharedWrite (.ctlset c (.entab k) b) c b true (fun _ s _ v =>
      some { s with pkg := { s.pkg with entab := setAt s.pkg.entab k (v.extractLsb' 0 16) } })
  | bp c b k : SharedWrite (.ctlset c (.bp k) b) c b true (fun e s _ v =>
      some (s.setDie { s.die e.w.die with bps := setAt (s.die e.w.die).bps k (v &&& 0xFFFFFFF9) }))
  | bpctx c b : SharedWrite (.ctlset c .bpctx b) c b true (fun e s _ v =>
      if v.extractLsb' 0 12 = 0 ∨ s.tagInFunc e (v.extractLsb' 0 12) = true then
        some (s.setDie { s.die e.w.die with bpctx := v &&& 0x0FFFFFFF })
      else none)
  | trctl c b : SharedWrite (.ctlset c .trctl b) c b true (fun e s _ v =>
      if (v.extractLsb' 8 4).toNat ≤ 8 then some (s.setDie { s.die e.w.die with trctl := v &&& 0xFF1 }) else none)
  | trbase c b : SharedWrite (.ctlset c .trbase b) c b true (fun e s _ v =>
      some (s.setDie { s.die e.w.die with trbase := v }))
  | wpstat c b : SharedWrite (.ctlset c .wpstat b) c b true (fun e s _ v =>
      some (s.setDie { s.die e.w.die with wpstat := (s.die e.w.die).wpstat &&& ~~~(v.extractLsb' 0 4) }))
  | eccstat c b : SharedWrite (.ctlset c .eccstat b) c b true (fun e s _ v =>
      some (s.setDie { s.die e.w.die with ecc := v }))
  | sptroot c b : SharedWrite (.sptrootWrite c b) c b true (fun e s t v =>
      let x := s.ctx t.owner
      let root := v &&& 0x0FFF8000
      some (s.setCtx
        { x with
          sptroot := root
          rootBy := some (e.w.wid, t.idx)
          oldRoots := if root = x.sptroot then x.oldRoots else x.oldRoots ++ [{ root := x.sptroot, covered := [] }] }))
  | qfree c b : SharedWrite (.qfreeWrite c b) c b true (fun e s _ v =>
      let n := (v.extractLsb' 0 12).toNat
      let d := s.die e.w.die
      if n < 2560 ∧ ∀ x ∈ d.quarantine, x.1 ≠ n then
        some (s.setDie { d with quarantine := d.quarantine ++ [(n, d.qepoch)] })
      else none)
  | bivsize c b : SharedWrite (.bivsizeWrite c b) c b true (fun e s _ v =>
      let n := (v.extractLsb' 0 7).toNat
      if n ≤ 64 ∧ ∀ l ∈ s.areaUsed e.w.die, s.areaTop e.w.die < l + 8192 * n then
        some (s.setDie { s.die e.w.die with bivSize := n })
      else none)
  | tsctl c b : SharedWrite (.tsctlWrite c b) c b true (fun e s _ v =>
      some (s.setCore { s.core e.w.die e.w.core with tsctl := v }))
  | energylo c b : SharedWrite (.energyloWrite c b) c b false (fun _ s t v =>
      if t.super then some (s.setCtx { s.ctx t.owner with elatch := some v }) else none)

end Sys2Proof.Claims

/-- R161, R229, R249, R250, R268, R318, R378: `ctlget` delivers what the register reads, with no other effect, registers
from 200h on in the supervisor view alone; the read of RESID0 latches the upper words for the thread, and each read of
QTAKE takes the page that it returns, FFFF_FFFFh where there is none. -/
def Obligations.control_register_reads : Prop :=
  ∀ (c : Ctl) (d : Dst) (s : State) (e : Env), d.wf = true →
    (∀ r, Normal s e (getForm c d r) noHold →
      let val := fun (t : Thread) => e.ctlRead (s.issued e (getForm c d r)) t r
      (∀ x, ReadRule r x → ∀ t, val t = .all (x e t)) ∧
      ∃ s', exec (.ctlget c d r) s = .next s' ∧ Delivered s' e (e.parts c) d val ∧
        Frame s s' e d e.g.icnt (e.post s (getForm c d r) d val)) ∧
    (Normal s e (getForm c d .resid0) noHold →
      let n := match e.heap s with
        | some (_, h) => h.view
        | none => 0
      let x := fun (_ : Thread) => Triple.all (BitVec.ofNat 32 n)
      ∃ s', exec (.resid0Read c d) s = .next s' ∧ Delivered s' e (e.parts c) d x ∧
        Frame s s' e d e.g.icnt fun t =>
          let u := e.post s (getForm c d .resid0) d x t
          if t ∈ computing d (e.parts c) then
            { u with residLatch := some (BitVec.ofNat 32 (n / 2 ^ 32), BitVec.ofNat 32 (n / 2 ^ 64)) }
          else u) ∧
    (∀ t, Normal s e (getForm c d .qtake) noHold → e.parts c = [t] →
      (s.takePage e.w.die = none →
        ∃ s', exec (.qtakeRead c d) s = .next s' ∧ Delivered s' e [t] d (fun _ => .all 0xFFFFFFFF) ∧
          Frame s s' e d e.g.icnt (e.post s (getForm c d .qtake) d fun _ => .all 0xFFFFFFFF)) ∧
      (∀ x, s.takePage e.w.die = some x →
        ∃ s', exec (.qtakeRead c d) s = .next s' ∧ Delivered s' e [t] d (fun _ => .all (BitVec.ofNat 32 x.1)) ∧
          Frame (s.setDie { s.die e.w.die with quarantine := (s.die e.w.die).quarantine.erase x }) s' e d e.g.icnt
            (e.post s (getForm c d .qtake) d fun _ => .all (BitVec.ofNat 32 x.1))))

/-- R23, R161, R238, R249 to R251, R365: a write of a register of the thread changes that register of each participant and
nothing else; a value or register that it does not take raises FIELD. R208, R249, R250, R314, R318, R424, R432, R436, R444,
R445: a write of a register that threads share changes that register and nothing else, or raises FIELD. -/
def Obligations.writes_of_control_registers : Prop :=
  (∀ i c b priv g, OwnWrite i c b priv g → ∀ (s : State) (e : Env), Normal s e (setForm c b priv) noHold →
     Completes i s e .none e.g.icnt (e.each s (setForm c b priv) fun t u =>
       match g e t (e.src s t .zero b).s0 with
       | some k => k u
       | none => fieldTrap e s t)) ∧
  ((∀ i c b priv g, SharedWrite i c b priv g → ∀ (s : State) (e : Env) (t : Thread), Normal s e (setForm c b priv) noHold →
     e.parts c = [t] →
     match g e s t (e.src s t .zero b).s0 with
     | some s1 => ∃ s', exec i s = .next s' ∧ Frame s1 s' e .none e.g.icnt (e.past s (setForm c b priv))
     | none => Completes i s e .none e.g.icnt (e.each s (setForm c b priv) fun t _ => fieldTrap e s t)) ∧
   (∀ (c : Ctl) (b : Src) (s : State) (e : Env) (t : Thread), e.parts c = [t] →
     let v := (e.src s t .zero b).s0
     (Normal s e (setForm c b false) noHold → t.super = true →
       ∃ s', exec (.energyhiWrite c b) s = .next s' ∧
         (s'.ctx t.owner).energy = v.extractLsb' 0 16 ++ (s.ctx t.owner).elatch.getD ((s'.ctx t.owner).energy.extractLsb' 0 32) ∧
         (s'.ctx t.owner).sat = v.getLsbD 31 ∧
         Frame (s.setCtx { s.ctx t.owner with elatch := none }) s' e .none e.g.icnt (e.past s (setForm c b false))) ∧
     (Normal s e (setForm c b true) noHold →
       let core := (v.extractLsb' 8 8).toNat
       let sh := (v.extractLsb' 4 4).toNat
       let rg := (v.extractLsb' 0 4).toNat
       let k := s.core e.w.die core
       core < s.dieCores → rg ≤ 3 → sh ≤ 7 → 1024 + 512 * rg + 256 * sh + 256 ≤ 3072 → s.residents e.w.die core = [] →
       ∃ s', exec (.carveWrite c b) s = .next s' ∧
         Frame (if k.shStep = sh ∧ k.regStep = rg then s
             else s.setCore
               { k with
                 regStep := rg
                 shStep := sh
                 lines := [] }) s' e .none e.g.icnt
           (e.each s (setForm c b true) fun _ u => { u with carveCore := v.extractLsb' 8 8 })) ∧
     (Normal s e (setForm c b true) noHold → ∀ w,
       s.warpAt e.w.die (v.extractLsb' 0 8).toNat (v.extractLsb' 8 9).toNat = some w → s.warp? w.wid = some w →
       w.wid ≠ e.w.wid → s.tagOfWarp w = some ((s.die e.w.die).bpctx.extractLsb' 0 12) →
       ∃ s', exec (.dbgctlWrite c b) s = .next s' ∧ s'.mem = s.mem ∧
         s'.die e.w.die = { s.die e.w.die with dbgctl := v &&& 0x1FFFF } ∧
         s'.warp? w.wid = some
           { w with
             held := v.getLsbD 18
             step := v.getLsbD 17 } ∧
         ∀ t ∈ e.group, s'.thread? e.w.wid t.idx = some (e.past s (setForm c b true) t))))

/-! ## The issue, tasks, tapes and graphs -/

namespace Sys2Proof.Claims

/-- A word that has issued for its group does what `effect` says to the issued state (which `an_issue_counts_and_advances`
describes), and nothing is due after it. -/
def Does (i : Instr) (s : State) (e : Env) (f : Form) (effect : State → State) : Prop :=
  exec i s = .next (effect (s.issued e f))

/-- The task of a launch's heap on a die. -/
def taskOf (s : State) (gid d n : Nat) : Option Task :=
  ((s.grid? gid).bind fun g => g.heap? d).bind fun h => h.task? n

/-- A gain after an addition or a setting, normalised (R371). -/
def newGain (set : Bool) (old val : Word) : Word := (gainNorm (if set then f32v val else ((f32v old).add .rn (f32v val)).1)).1

/-- Gain, pending gain and state of a task after `gainadd` or `gainset` (Table 18.6). -/
def gainEvent (set : Bool) (val : Word) (k : Task) : Word × Word × TaskSt :=
  match k.st with
  | .running => (k.gain, newGain set k.pend val, .running)
  | .queued => (newGain set k.gain val, k.pend, if newGain set k.gain val = 0 then .idle else .queued)
  | .idle => (newGain set k.gain val, k.pend, if newGain set k.gain val = 0 then .idle else .queued)
  | .retired => (newGain set k.gain val, k.pend, if newGain set k.gain val = 0 then .retired else .queued)

/-- The gain left by `taskdone c`: GAIN less Norm(c), not below 0, plus PEND, normalised (Table 18.6). -/
def gainLeft (c : Word) (k : Task) : Word :=
  let left : FVal := ((f32v k.gain).add .rn (f32v (gainNorm (f32v c)).1).negate).1
  let rest : FVal := if left.neg then .fin { neg := false, mag := 0, exp := 0, sticky := false } else left
  (gainNorm (rest.add .rn (f32v k.pend)).1).1

/-- The task that a thread's operand names, where it has one; a record that no `spawn` has entered is idle, with the gain of
log 106. -/
def namedTask (e : Env) (s : State) (t : Thread) (a : Opd) (ch : Bool) : Option Task :=
  let n := (e.read0 s t a).toNat
  (s.heapTarget e ch false n).bind fun x => (x.1.heap? x.2).bind fun h => (h.enroll x.1.gid n).task? n

/-- What `gainget` reads (R396). -/
def taskField (what : GainWhat) (k : Task) : Word :=
  match what with
  | .gain => k.gain
  | .pend => k.pend
  | .state => match k.st with
    | .idle => 0
    | .queued => 1
    | .running => 2
    | .retired => 3

end Sys2Proof.Claims

/-- R20, R24, R72, R78, R171, R175, R176, R430: the issue of a word: its group stands past it with age 0, the other
ELIGIBLE threads are one older, the warp and the context count it, and nothing else changes. -/
def Obligations.an_issue_counts_and_advances : Prop :=
  ∀ (s : State) (e : Env) (f : Form) (h : State → Env → Thread → Option Hold), Normal s e f h →
    Frame s (s.issued e f) e .none e.g.icnt (e.past s f) ∧
    (∃ w', (s.issued e f).warp? e.w.wid = some w' ∧ w'.wissue = e.w.wissue + 1 ∧
      w'.wbeat = e.w.wbeat + BitVec.ofNat 32 (f.words * beats e.triple e.iss.thrs.length)) ∧
    ∀ t ∈ e.w.threads, t.idx ∉ e.iss.thrs → (∃ u ∈ e.w.eligible, u.idx = t.idx) →
      (s.issued e f).thread? e.w.wid t.idx = some { t with age := min 255 (t.age + 1) }

/-- R369 to R373, R378, R395, R396: `gainadd` and `gainset` change a task of their own die as Table 18.6 says, at once, and
send an operation to another die; `gainget` and `residget` deliver a task's field and the residual. -/
def Obligations.gain_operations : Prop :=
  ∀ (c : Ctl) (s : State) (e : Env),
    (∀ (set ch : Bool) (a : Opd) (b : Src) (t : Thread) (g : Grid) (d : Nat) (h : Heap) (k : Task),
      let n := (e.read0 s t a).toNat
      let val := match b with
        | .reg o => oneF32 e.triple (e.read s t o)
        | .imm w => w ++ 0#12
      let i := if set then Instr.gainset c a b ch else Instr.gainadd c a b ch
      Normal s e (heapForm c a b) (holdChange c a ch) → e.parts c = [t] → s.heapTarget e ch true n = some (g, d) →
      s.grid? g.gid = some g → g.heap? d = some h → (h.enroll g.gid n).task? n = some k →
      ∃ s', exec i s = .next s' ∧
        (d = e.w.die → ∃ k', taskOf s' g.gid d n = some k' ∧ (k'.gain, k'.pend, k'.st) = gainEvent set val k) ∧
        (d ≠ e.w.die → s'.mem = s.mem ∧ ∃ h', (s'.grid? g.gid).bind (fun g => g.heap? d) = some h' ∧
          h' = { h with ops := h.ops ++ [{ n := n, set := set, val := val, wid := e.w.wid, thr := t.idx }] })) ∧
    (∀ (d : Dst) (a : Opd) (what : GainWhat) (ch : Bool), d.wf = true →
      Normal s e (Form.short c [a] d.opds).accesses (holdOps c) →
      (∀ t ∈ computing d (e.parts c), namedTask e s t a ch ≠ none) →
      let x := fun (t : Thread) => Triple.all (((namedTask e s t a ch).map (taskField what)).getD 0)
      ∃ s', exec (.gainget c d a what ch) s = .next s' ∧ Delivered s' e (computing d (e.parts c)) d x ∧
        Frame s s' e d e.g.icnt fun t =>
          if t ∈ computing d (e.parts c) then (e.past s (Form.short c [a] d.opds).accesses t).putDst d (x t)
          else e.past s (Form.short c [a] d.opds).accesses t) ∧
    (∀ (d : Dst) (ch : Bool), d.wf = true → Normal s e (Form.short c [] d.opds) noHold →
      (ch = true → s.heapGrid e ch ≠ none) →
      let x := fun (_ : Thread) => Triple.all (match s.heapGrid e ch with
        | some g => residWord (g.residOn e.w.die)
        | none => 0)
      ∃ s', exec (.residget c d ch) s = .next s' ∧ Delivered s' e (e.parts c) d x ∧
        Frame s s' e d e.g.icnt (e.post s (Form.short c [] d.opds) d x))

/-- R373, R375, R376, R394, R397: `taskdone` ends its warp and leaves its task retired or queued with the gain of Table 18.6;
`spawn` enters its record as a task and gives the launch's handle; a dispatch starts the chosen task where there is room.
R374, R380: an operation from another die is performed on its task; a task that waited for room enters the heap with a new
stamp; a die sends its part of the residual, and the die of rank 0 also STOP, to every other die of the launch. -/
def Obligations.tasks_and_heaps : Prop :=
  (∀ (c : Ctl) (s : State) (e : Env) (t : Thread),
     (∀ (b : Src) (n : Nat) (h : Heap) (k : Task), Normal s e { Form.short c b.opds [] with heap := true } (holdTask c) →
       (e.parts c).head? = some t → e.b.task = some n → e.g.heap? e.w.die = some h → h.task? n = some k →
       k.st = .running →
       let v := match b with
         | .reg o => oneF32 e.triple (e.read s t o)
         | .imm w => w ++ 0#12
       ∃ s' k', exec (.taskdone c b) s = .next s' ∧
         (∀ u ∈ e.w.threads, ∃ u', s'.thread? e.w.wid u.idx = some u' ∧ u'.st = .ended) ∧
         taskOf s' e.g.gid e.w.die n = some k' ∧ k'.pend = 0 ∧ k'.gain = gainLeft v k ∧
         k'.st = if gainLeft v k = 0 then .retired else .queued) ∧
     (∀ (d : Dst) (a : Opd) (p : BitVec 3) (w : List Word) (g : Grid) (s1 : State), d.wf = true →
       let f : Form := { Form.short c [a] d.opds with heap := true }
       Normal s e f (holdRecord c a d 8) → e.parts c = [t] →
       let st := s.issued e f
       let off := (e.read0 s t a).toNat
       let n := (off - e.g.spawnBase) / 32
       st.readRecord e t off 8 32 = .ok w → e.g.spawnBase ≤ off → n < 2 ^ 24 → footOk (w.getD 7 0) = true →
       e.g.nest < 10 → (st.chargeRecord e t off 8).openTasks e = some (g, s1) → g.busyTask n = false → s1.grid? g.gid = some g →
       ∃ s' k, exec (.spawn c d a p) s = .next s' ∧ Delivered s' e [t] d (fun _ => .all g.handle) ∧
         (p ≠ 0 → p.toNat < t.p.length → s'.preg e.w.wid t.idx p = some 7) ∧ taskOf s' g.gid e.w.die n = some k ∧
         k.gain = (gainNorm (f32v (w.getD 4 0))).1 ∧ k.st = if k.gain = 0 then .idle else .queued) ∧
     (∀ (gid d : Nat) (g : Grid) (h h1 : Heap) (k : Task) (x : Site), s.grid? gid = some g → g.heap? d = some h →
       g.done = false → g.retired = false → g.ending = none → h.mayDispatch g = true → s.savedWaiting d g.tag = false →
       h.pickTask = some (k, h1) → s.taskLines g d k.n = [] → footOk (s.taskWord g d k.n 7) = true →
       s.taskFits d g.tag (g.lr.taskNeed (s.taskWord g d k.n 7)) = true → s.taskSite g d k = some x →
       ∃ s' k', exec (.heapDispatch gid d) s = .next s' ∧ taskOf s' gid d k.n = some k' ∧
         k' =
           { k with
             st := .running
             pend := 0 } ∧
         ∃ b ∈ s'.blocks, b.gid = gid ∧ b.die = d ∧ b.task = some k.n)) ∧
  (∀ (s : State) (gid d : Nat) (g : Grid) (h : Heap), s.grid? gid = some g → g.heap? d = some h →
     (∀ x rest k, h.ops = x :: rest → h.task? x.n = some k → s.taskLines g d x.n = [] →
       ∃ s' k', exec (.heapOperationArrival gid d) s = .next s' ∧ taskOf s' gid d x.n = some k' ∧
         (k'.gain, k'.pend, k'.st) = gainEvent x.set x.val k ∧
         ((s'.grid? gid).bind fun g => g.heap? d).map (fun h => h.ops) = some rest) ∧
     (∀ t, h.firstOver = some t → h.queued < 65536 →
       ∃ s', exec (.heapOverflowEntry gid d) s = .next s' ∧
         taskOf s' gid d t.n = some
           { t with
             overflowed := false
             stamp := h.nextStamp }) ∧
     (1 < g.heaps.length → g.retired = false → h.lastExchange + 512 ≤ s.now →
       ∃ s', exec (.residPartExchange gid d) s = .next s' ∧
         s' = { s with grids := s'.grids } ∧
         (((s'.grid? gid).bind fun g => g.heap? d).map fun h => h.lastExchange) = some s.now ∧
         ∀ d' x, d' ≠ d → g.heap? d' = some x → ∃ x', (s'.grid? gid).bind (fun g => g.heap? d') = some x' ∧
           lookupD d 0 x'.parts = h.part ∧ (h.stop = true → d = g.rank0 → x'.stop = true)))

/-- R351, R361, R398, R399: `dmode` sets the thread's direction, `tapemark` delivers TAPEPOS, and `tapedrop` sets it back,
FIELD for a position above it. -/
def Obligations.direction_and_tape_position : Prop :=
  ∀ (c : Ctl) (s : State) (e : Env),
    (Normal s e (Form.short c [] []) noHold →
      Completes (.dmodeFwd c) s e .none e.g.icnt (e.each s (Form.short c [] []) fun _ u => { u with rev := false }) ∧
      Completes (.dmodeRev c) s e .none e.g.icnt (e.each s (Form.short c [] []) fun _ u => { u with rev := true })) ∧
    (∀ d, PlainWord (.tapemark c d) c d [] fun _ _ t => .all (BitVec.ofNat 32 t.tapepos)) ∧
    (∀ a, Normal s e (Form.short c [a] []) noHold →
      Completes (.tapedrop c a) s e .none e.g.icnt (e.each s (Form.short c [a] []) fun t u =>
        if (e.read0 s t a).toNat ≤ t.tapepos then { u with tapepos := (e.read0 s t a).toNat } else fieldTrap e s t))

/-- R327 to R330, R390, R391: `gpost` enters its node and gives the handle with a true predicate, or FFFF_FFFFh with a
false one where no slot is free; `gwait` waits while the node it names has not left its slot; a node that is done leaves
its slot, which gets the next generation. -/
def Obligations.graph_nodes : Prop :=
  ∀ (c : Ctl) (s : State) (e : Env) (t : Thread) (a : Opd),
    (∀ (d : Dst) (p : BitVec 3), d.wf = true → Normal s e (Form.short c (a.run 16) d.opds) (holdRelease c) →
      e.parts c = [t] →
      let st := s.issued e (Form.short c (a.run 16) d.opds)
      let w := e.nodeWords s t a
      e.nodeFail w = none →
      (∀ h s1, st.enterNode e (e.tnum t) w = some (h, s1) →
        Does (.gpost c d a p) s e (Form.short c (a.run 16) d.opds) (fun _ => s1.giveHandle e [t] d p h true)) ∧
      (st.enterNode e (e.tnum t) w = none →
        Does (.gpost c d a p) s e (Form.short c (a.run 16) d.opds) (fun s =>
          s.giveHandle e [t] d p 0xFFFFFFFF false))) ∧
    (Normal s e (Form.short c [a] []) noHold →
      Completes (.gwait c a) s e .none e.g.icnt (e.each s (Form.short c [a] []) fun t u =>
        if 65536 ≤ (e.read0 s t a).toNat then fieldTrap e s t
        else if s.nodeLive e.w.die (e.read0 s t a) then
          { u with
            st := .waiting
            wait := some (.node (e.read0 s t a)) }
        else u)) ∧
    (∀ (d slot : Nat) (n : Node), s.node? d slot = some n → s.nodeDone d n = true →
      ∃ s3 : State, exec (.graphNodeFinish d slot) s = .next (s3.startReady d) ∧ s3.node? d slot = none ∧
        lookupD slot 0 (s3.die d).nodeGens = (n.gen + 1) % 16)

/-! ## The matrix engine -/

namespace Sys2Proof.Claims

/-- The sign register that a word of the issue names (R265). -/
def signReg (s : State) (e : Env) (q : Nat) : SignReg := s.sign e.w.die e.b.firstCl q

/-- The form of a `qdecl`: no operand A, and its place is by the key order (R287). -/
def qdeclForm (c : Ctl) (b : Src) : Form := { (Form.short c b.opds []).noA with keyed := true }

/-- The form of `acczero`, `accwait` and `accst`: they enter their handle's order by the key order (R297). -/
def orderForm (c : Ctl) (t : Nat) (src dst : List Opd) : Form := { accForm c t src dst with keyed := true }

/-- A signer's entry in its set (R291). -/
def signerOf (s : State) (e : Env) (c : Ctl) (q a pid : Nat) (x : MDesc) (t : Thread) : Signer :=
  { wid := e.w.wid
    thr := t.idx
    t := e.tnum t
    pid := pid
    reuse := c.reuse
    frag := if ((signReg s e q).latched e.b.bid x).isNone then
        (vrun a (x.share (signReg s e q).expect)).map fun o => e.read s t o
      else [] }

/-- One participant signs: every check passes, and no register of its fragment is poisoned (R290). -/
structure SignsOne (s : State) (e : Env) (c : Ctl) (q a : Nat) (x : MDesc) (t : Thread) : Prop where
  parts : e.parts c = [t]
  ok : s.signFail e t q x = none
  clean : s.fragPoisoned e t q a x = false

/-- The outstanding instruction of an accumulator word of the issue. -/
def accPend (s : State) (e : Env) (c : Ctl) (wait : Until) (parts : List Part) : Pend :=
  { id := s.uid
    flag := e.flagOf c
    wait := wait
    parts := parts
    sparts := []
    preds := []
    thrs := (e.parts c).map fun u => u.idx
    epoch := none
    sample := none }

/-- An entry of an engine that the arbiter may grant a pass, with its block and descriptor: while the lantern is held, only
entries of the holder's block (R273, R275). -/
structure Candidate (s : State) (c : Cluster) (x : REntry) (b : Block) (m : MDesc) : Prop where
  present : x ∈ c.table
  kind : x.kind = .op
  here : x.saved = false
  runs : x.blocked = false
  block : s.block? x.bid = some b
  desc : x.desc = some m
  lantern : ∀ wid ring pos w, c.lantern = some (wid, ring, pos) → s.warp? wid = some w → w.bid = x.bid

/-- An entry has K-steps left on a handle, and no entry that issued earlier has some there (R272). -/
def MayServe (s : State) (x : REntry) (b : Block) (m : MDesc) (h : Nat) : Prop :=
  (∃ k, (h, k) ∈ x.handles ∧ k < m.steps) ∧ s.before b h x.opId = false

/-- The handle that an entry serves next, round-robin in ascending order from the one after the last (R272). -/
def NextHandle (s : State) (x : REntry) (b : Block) (m : MDesc) (h : Nat) : Prop :=
  MayServe s x b m h ∧ ∀ h', MayServe s x b m h' →
    if x.rr ≤ h then x.rr ≤ h' → h ≤ h' else h' < x.rr ∧ h ≤ h'

/-- The numbers by which the arbiter ranks an entry lie in their ranges. -/
def Ranked (x : REntry) : Prop := x.prio ≤ 3 ∧ x.entered < 2 ^ 64 ∧ x.opcount < 2 ^ 32 ∧ x.id < 2 ^ 64

/-- The arbiter's order: higher class, earlier entry cycle, lower opcount, lower place in the table (R273). -/
def ServedBefore (x y : REntry) : Prop :=
  y.prio < x.prio ∨ (y.prio = x.prio ∧ (x.entered < y.entered ∨ (x.entered = y.entered ∧
    (x.opcount < y.opcount ∨ (x.opcount = y.opcount ∧ x.id < y.id)))))

/-- The directions of an element's planes in a K-step, by the draw key and by the promotion key (R66, R67). -/
def drawOf (seed : DWord) (triple : Bool) (i n h opcount k : Nat) (promotion : Bool) (j : Nat) : Rnd :=
  let tm := i * 512 + n + 2 ^ 20 * h + (if promotion then 2 ^ 25 else 0)
  let cm := opcount % 2 ^ 20 * 2 ^ 12 + k % 2 ^ 12
  if triple then (if drawBit seed (BitVec.ofNat 32 tm) (BitVec.ofNat 32 cm) j then .ru else .rd) else .rn

/-- Element `r` of a K-step in a row of A, as sibling plane `j` of its signer supplied it (R267, R291). -/
def elementA (m : MDesc) (frag : List Triple) (i k j r : Nat) : Word :=
  m.a.elem ((frag.getD (i * m.rowWords + (k * m.ks + r) / m.perWord) (.all 0)).get j) ((k * m.ks + r) % m.perWord)

/-- The K-step's products for an element of a plane: row `i` of A with column `n` of the rows of B (R291). -/
def prods (m : MDesc) (frag : List Triple) (bRows : List (List Word)) (i n k j : Nat) : List FVal :=
  (List.range m.ks).map fun r => m.product (elementA m frag i k j r) ((bRows.getD r []).getD n 0)

/-- The exact sum of a K-step's integer products (R68). -/
def intSum (m : MDesc) (frag : List Triple) (bRows : List (List Word)) (i n k : Nat) : Int :=
  ((List.range m.ks).map fun r =>
    ((elementA m frag i k 0 r).setWidth 8).toInt * (((bRows.getD r []).getD n 0).setWidth 8).toInt).sum

/-- The K-step promotes: every P K-steps and at the operation's last, planes of A26 alone (R64). -/
def promotes (m : MDesc) (k : Nat) : Bool :=
  decide (m.acc = .a26) && (decide ((k + 1) % m.p = 0) || decide (k + 1 = m.steps))

/-- A plane and its outer sum after a K-step (R64). -/
def planeAfter (dir : Bool → Nat → Rnd) (promote : Bool) (e : Elem) (j : Nat) (products : List FVal) : BitVec 26 × Word :=
  let a := a26r (dir false j) ((e.plane j).add (dir false j) (sumVals (dir false j) products)).1
  if promote then (0, (f32r (dir true j) ((f32v (e.outer j)).add (dir true j) (Ty.value .a26 (a.setWidth 32))).1).1)
  else (a, e.outer j)

/-- An outstanding `mma` of an operation that has met poison at an address (R292). -/
def markPoison (opId a : Nat) (p : Pend) : Pend :=
  if p.wait = .matrix opId then
    { p with
      poisoned := true
      traps := p.traps.map fun y => (y.1, { y.2 with addr := BitVec.ofNat 48 a }) }
  else p

/-- An accumulator word's entry in the order of its handle (R276, R297). -/
def accEntry (s : State) (e : Env) (t : Nat) (k : OrderKind) : REntry :=
  { id := s.uid
    opId := s.uid
    kind := k
    bid := e.b.bid
    desc := none
    opcount := 0
    frag := []
    handles := [(t, 0)]
    rr := 0
    prio := e.g.lr.prio
    entered := s.now
    triple := e.b.triple
    blocked := false
    tag := e.g.tag
    poisoned := false }

/-- The state with that entry in the table of the handle's engine. -/
def queued (s : State) (e : Env) (t : Nat) (k : OrderKind) : State :=
  let c := s.cluster e.b.die (e.b.handleCl t)
  s.setCluster { c with table := c.table ++ [accEntry s e t k] }

/-- A byte lies in one of the 64 rows of the memory form of `accst` (R296). -/
def inRows (base stride n a : Nat) : Bool :=
  (List.range 64).any fun r => decide (base + r * stride ≤ a) && decide (a < base + r * stride + n)

/-- The elements that `accst` and `accrd` name for a thread: a run of 2^run from its index register, modulo 4,096
(R293). -/
def elementsOf (e : Env) (s : State) (u : Thread) (o : Opd) (run : BitVec 2) : List Nat :=
  (List.range (2 ^ run.toNat)).map fun j => ((e.read0 s u o).toNat % 4096 + j) % 4096

end Sys2Proof.Claims

/-- R265, R287: `qdecl` opens a free sign register for its block and count; of a register held by another block its threads wait;
its own register, a count out of range, or a block without handles raises FIELD for every participant. R266 to R271, R290,
R291: `mma` signs its set and is outstanding; the last signer's word issues the operation, which takes the block's next
operation number and enters the table of every engine of its tile that has room, PENDING where some has none. -/
def Obligations.signing_sets : Prop :=
  (∀ (c : Ctl) (q : Nat) (b : Src) (s : State) (e : Env) (t : Thread), Normal s e (qdeclForm c b) noHold →
     (e.parts c).head? = some t →
     let n := (e.src s t .zero b).s0.toNat
     let r := signReg s e q
     let lawful := 1 ≤ n ∧ n ≤ 1024 ∧ e.b.handles ≠ []
     (lawful → r.st = .free → ∃ s', exec (.qdecl c q b) s = .next s' ∧
       Frame (s.setSign e.w.die e.b.firstCl (r.opened e.b.bid n)) s' e .none e.g.icnt (e.past s (qdeclForm c b))) ∧
     (lawful → r.st ≠ .free → r.bid ≠ e.b.bid → ∃ s', exec (.qdecl c q b) s = .next s' ∧
       Frame { s with uid := s.uid + 1 } s' e .none e.g.icnt (e.each s (qdeclForm c b) fun u v =>
         { v with
           st := .waiting
           wait := some (.qdecl q n s.uid u.pc u.cl) })) ∧
     (¬lawful ∨ (r.st ≠ .free ∧ r.bid = e.b.bid) →
       Completes (.qdecl c q b) s e .none e.g.icnt (e.each s (qdeclForm c b) fun u _ => fieldTrap e s u))) ∧
  ((∀ (c : Ctl) (q a desc : Nat) (tA tB tAcc tRes : BitVec 4) (s : State) (e : Env) (t : Thread),
     let f := s.mmaForm c q a desc tA tB tAcc tRes
     let x := e.mdesc s t desc tA tB tAcc tRes
     let r := signReg s e q
     Normal s e f (holdRelease c) → SignsOne s e c q a x t →
     (r.signers.length + 1 < r.expect →
       ∃ s', exec (.mma c q a desc tA tB tAcc tRes) s = .next s' ∧
         Frame
           { s.setSign e.w.die e.b.firstCl
               { r with
                 desc := some x
                 signers := r.signers ++ [signerOf s e c q a s.uid x t] } with uid := s.uid + 1 }
           s' (withWarp e (addPend { accPend s e c (.matrix 0) [] with traps := [(t.idx, e.record t 6 0)] })) .none e.g.icnt
           (e.past s f)) ∧
     (r.signers.length + 1 = r.expect → e.w.die = e.b.die →
       ∃ s' b', exec (.mma c q a desc tA tB tAcc tRes) s = .next s' ∧ s'.block? e.b.bid = some b' ∧
         b'.mopcnt = e.b.mopcnt + 1 ∧ s'.mem = s.mem ∧
         (∀ u ∈ e.group, s'.thread? e.w.wid u.idx = some (e.past s f u)) ∧
         (∀ cl ∈ e.b.clustersOf x.tile, (s.cluster e.b.die cl).parts < 64 →
           ∃ y ∈ (s'.cluster e.b.die cl).table, y.opId = s.uid + 1 ∧ y.bid = e.b.bid ∧ y.kind = .op ∧ y.desc = some x ∧
             y.opcount = e.b.mopcnt.toNat) ∧
         (s'.sign e.b.die e.b.firstCl q).st =
           if ∀ cl ∈ e.b.clustersOf x.tile, (s.cluster e.b.die cl).parts < 64 then .free else .pending)) ∧
   (∀ (s : State) (d cl q : Nat) (x : MDesc) (b : Block) (g : Grid),
     let r := s.sign d cl q
     r.desc = some x → s.block? r.bid = some b → b.die = d → b.firstCl = cl → s.grid? b.gid = some g → r.st = .pending →
     r.q = q → r.saved = false →
       ∃ s', exec (.signsetPendingEntry d cl q) s = .next s' ∧
         (∀ k ∈ r.toEnter, (s.cluster d k).parts < 64 →
           ∃ y ∈ (s'.cluster d k).table, y.opId = r.opId ∧ y.bid = b.bid ∧ y.desc = some x) ∧
         ((s'.sign d cl q).st = if ∀ k ∈ r.toEnter, (s.cluster d k).parts < 64 then .free else .pending)))

/-- R64, R66, R68, R272, R273, R275, R291, R292: an engine without a pass starts one for the candidate that ranks first, on
that entry's next handle, of at most 16 K-steps. A K-step updates every element of its handle by R64, or R68 for I32, and
counts in KC; the pass and the entry end with their last K-step, and poisoned B data marks every signer for the trap. A part
that meets an unmapped page of B stops there with a report, its handles as they were, and goes on when it is resumed. -/
def Obligations.matrix_passes : Prop :=
  ∀ (s : State) (d cl : Nat),
    (∀ x b m h k, (s.cluster d cl).pass = none → Candidate s (s.cluster d cl) x b m → NextHandle s x b m h →
      (h, k) ∈ x.handles → (∀ y ∈ (s.cluster d cl).table, (y.handles.map fun z => z.1).Pairwise fun a a' => a < a') →
      (∀ y ∈ (s.cluster d cl).table, Ranked y) →
      (∀ y b' m' h', Candidate s (s.cluster d cl) y b' m' → MayServe s y b' m' h' → y ≠ x → ServedBefore x y) →
      ∃ s', exec (.matrixPassStart d cl) s = .next s' ∧ s' = { s with clusters := s'.clusters } ∧
        s'.cluster d cl =
          { s.cluster d cl with
            pass := some { entry := x.id, h := h, left := min 16 (m.steps - k) }
            table := (s.cluster d cl).table.map fun y => if y.id = x.id then { y with rr := h + 1 } else y }) ∧
    (∀ p x b g m, (s.cluster d cl).pass = some p → ((s.cluster d cl).table.find? fun x => x.id = p.entry) = some x →
      s.block? x.bid = some b → x.desc = some m → s.grid? b.gid = some g →
      let k := lookupD p.h 0 x.handles
      (∀ phys, s.bRows b x m p.h k = .ok phys → s.blockedLines d none phys.flatten = [] → s.pkg.latent = [] → k < m.steps →
        let hd := s.handle b p.h
        let old := if k = 0 ∧ hd.acc ≠ m.tAcc then hd.cleared else hd
        let data := s.bData b x m p.h k phys
        let hs := x.handles.map fun y => if y.1 = p.h then (y.1, y.2 + 1) else y
        ∃ s', exec (.matrixKstep d cl) s = .next s' ∧ s'.mem = s.mem ∧
          (∀ i n, i < 64 → n < 64 →
            let e := (s'.handle b p.h).elem (64 * i + n)
            let draw := drawOf g.lr.seed x.triple (m.row0 p.h + i) (m.col0 p.h + n) p.h x.opcount k
            let at' := fun (j : Nat) => prods m x.frag data.1 (m.row0 p.h + i) n k j
            if m.acc = .i32 then e.outer 0 = BitVec.ofInt 32
              (((old.elem (64 * i + n)).outer 0).toInt + intSum m x.frag data.1 (m.row0 p.h + i) n k)
            else ∀ j, j < (if x.triple then 3 else 1) →
              (e.a.getD j 0, e.outer j) = planeAfter draw (promotes m k) (old.elem (64 * i + n)) j (at' j)) ∧
          (s'.handle b p.h).kc = old.kc + 1 ∧
          (k = 0 → (s'.handle b p.h).acc = m.tAcc ∧ (s'.handle b p.h).res = m.tRes ∧ (s'.handle b p.h).ores = m.oR) ∧
          (s'.cluster d cl).pass = (if p.left ≤ 1 then none else some { p with left := p.left - 1 }) ∧
          (s'.cluster d cl).table =
            (if ∀ y ∈ hs, m.steps ≤ y.2 then (s.cluster d cl).table.erase x
            else (s.cluster d cl).table.map fun y => if y.id = x.id then { y with handles := hs } else y) ∧
          s'.warps = (match data.2 with
            | none => s.warps
            | some a => s.warps.map fun w => if w.bid = x.bid then { w with pend := w.pend.map (markPoison x.opId a) } else w)) ∧
      (∀ off, s.bRows b x m p.h k = .error off →
        ∃ s', exec (.matrixKstep d cl) s = .next s' ∧
          s' = { s with clusters := s'.clusters, out := s.out ++ [.matrixFault d cl x.id (0xC00000000000 + off)] } ∧
          s'.cluster d cl =
            { s.cluster d cl with
              pass := none
              table := (s.cluster d cl).table.map fun y => if y.id = x.id then { y with blocked := true } else y })) ∧
    (∀ entry, ∃ s', exec (.matrixPartResume d cl entry) s = .next s' ∧ s' = { s with clusters := s'.clusters } ∧
      s'.cluster d cl =
        { s.cluster d cl with
          table := (s.cluster d cl).table.map fun x => if x.id = entry then { x with blocked := false } else x })

/-- R276, R277, R293 to R297: `accrd` reads a snapshot of its handle at issue; `acczero`, `accst` and `accwait` take effect at
once where nothing earlier stands before them on the handle, and otherwise enter its order; the memory form of `accst` writes
the handle's rows to block shared memory, once for the issue. R274, R275, R298, R299: `lanttake` takes the lantern of its
block's engines where it is free and waits where another warp of the block holds it; `lantpass` hands it to the next warp of
the ring, or frees it where none is left, and the release form frees it. By a warp that does not hold it, FIELD. -/
def Obligations.accumulators_and_lantern : Prop :=
  (∀ (c : Ctl) (t : Nat) (s : State) (e : Env), e.parts c ≠ [] →
     (∀ d vc run, Normal s e (accForm c t [.v vc] (vrun d (2 ^ run.toNat) ++ [.v vc])) noHold →
       let hd := s.handle e.b t
       ∃ s', exec (.accrd c d vc t run) s = .next s' ∧
         Frame { s with uid := s.uid + 1 } s' (withWarp e (addPend (accPend s e c .ready
             (((e.parts c).map fun u =>
               (destParts u.idx (.v d)
                 ((elementsOf e s u (.v vc) run).map (hd.snapshot e.g.lr.seed e.triple))).1 ++
               (destParts u.idx (.v vc) [.all hd.kc]).1).flatten))))
           .none e.g.icnt (e.past s (accForm c t [.v vc] (vrun d (2 ^ run.toNat) ++ [.v vc])))) ∧
     (Normal s e (orderForm c t [] []) noHold →
       let issue := withWarp e (addPend (accPend s e c (.matrix s.uid) []))
       (s.before e.b t s.uid = false →
         (∃ s', exec (.acczero c t) s = .next s' ∧
           Frame { s.setHandle e.b (s.handle e.b t).cleared with uid := s.uid + 1 } s' issue .none e.g.icnt
             (e.past s (orderForm c t [] []))) ∧
         (∃ s', exec (.accwait c t) s = .next s' ∧
           Frame { s with uid := s.uid + 1 } s' issue .none e.g.icnt (e.past s (orderForm c t [] [])))) ∧
       (s.before e.b t s.uid = true →
         (∃ s', exec (.acczero c t) s = .next s' ∧
           Frame { queued s e t .acczero with uid := s.uid + 1 } s' issue .none e.g.icnt (e.past s (orderForm c t [] []))) ∧
         (∃ s', exec (.accwait c t) s = .next s' ∧
           Frame { queued s e t .accwait with uid := s.uid + 1 } s' issue .none e.g.icnt (e.past s (orderForm c t [] []))))) ∧
     (∀ d a run, Normal s e (orderForm c t [.v a] (vrun d (2 ^ run.toNat))) noHold → s.before e.b t s.uid = false →
       let hd := s.handle e.b t
       ∃ s', exec (.accst c d a t run) s = .next s' ∧
         Frame { s with uid := s.uid + 1 } s' (withWarp e (addPend (accPend s e c (.matrix s.uid)
             (((e.parts c).map fun u => (List.range (2 ^ run.toNat)).map fun j =>
               { thr := u.idx
                 reg := d + j
                 val := hd.result e.g.lr.seed e.b.triple ((elementsOf e s u (.v a) run).getD j 0) }).flatten))))
           .none e.g.icnt (e.past s (orderForm c t [.v a] (vrun d (2 ^ run.toNat))))) ∧
     (∀ a b triple u, Normal s e (orderForm c t [a, b] []) noHold → (e.parts c).head? = some u →
       let base := (e.read0 s u a).toNat
       let stride := (e.read0 s u b).toNat
       let hd := s.handle e.b t
       (e.accstBad s t base stride triple = false → s.before e.b t s.uid = false → Unawaited s e.b.bid →
         ∃ s', exec (.accstSh c a b t triple) s = .next s' ∧
           Frame { s with uid := s.uid + 1 } s'
             { withWarp e (addPend (accPend s e c (.matrix s.uid) [])) with
               b := { e.b with
                 shared := (List.range 64).foldl (fun m r =>
                   m.writeBytes (base + r * stride) (hd.rowBytes e.g.lr.seed e.b.triple triple r)) e.b.shared
                 shPoison := e.b.shPoison.filter fun u =>
                   !(List.range 32).all fun i => inRows base stride (rowLength (tyOf hd.res) triple) (u + i) } }
             .none e.g.icnt (e.past s (orderForm c t [a, b] []))) ∧
       (e.accstBad s t base stride triple = true →
         Completes (.accstSh c a b t triple) s e .none e.g.icnt (e.each s (orderForm c t [a, b] []) fun v _ =>
           trapped e s v { e.record v 3 0 with addr := BitVec.ofNat 48 (0xE00000000000 + base) })))) ∧
  (∀ (c : Ctl) (s : State) (e : Env) (t : Thread), (e.parts c).head? = some t →
     (∀ a len,
       let n := len.toNat + 1
       let f := Form.short c ((List.range ((n + 1) / 2)).map fun i => Opd.s (a + i)) []
       let ring := (List.range n).map fun k => ((e.read0 s t (.s (a + k / 2))).extractLsb' (16 * (k % 2)) 16).toNat
       Normal s e f noHold → e.b.handles ≠ [] → (∀ i ∈ ring, s.warpNamed e.b.bid i = true) →
       (s.lanternBy e.b = none →
         ∃ s', exec (.lanttake c a len) s = .next s' ∧
           Frame (s.takeLantern e.w e.b ring) s' e .none e.g.icnt (e.past s f)) ∧
       (∀ k, s.lanternBy e.b = some k → k ≠ e.w.wid →
         ∃ s', exec (.lanttake c a len) s = .next s' ∧
           Frame { s with uid := s.uid + 1 } s' e .none e.g.icnt (e.each s f fun u v =>
             { v with
               st := .waiting
               wait := some (.lantern ring s.uid u.pc u.cl) })) ∧
       (s.lanternBy e.b = some e.w.wid →
         Completes (.lanttake c a len) s e .none e.g.icnt (e.each s f fun u _ => fieldTrap e s u))) ∧
     (Normal s e (Form.short c [] []) noHold →
       ∀ held, (e.b.engines.findSome? fun cl => (s.cluster e.b.die cl).lantern) = held →
       (∀ ring pos, held = some (e.w.wid, ring, pos) →
         (∃ s', exec (.lantpass c) s = .next s' ∧
           Frame (s.setLantern e.b ((s.ringNext e.b.bid ring pos).map fun x => (x.1.wid, ring, some x.2))) s' e .none
             e.g.icnt (e.past s (Form.short c [] []))) ∧
         (∃ s', exec (.lantpassRel c) s = .next s' ∧
           Frame (s.setLantern e.b none) s' e .none e.g.icnt (e.past s (Form.short c [] [])))) ∧
       ((∀ ring pos, held ≠ some (e.w.wid, ring, pos)) →
         Completes (.lantpass c) s e .none e.g.icnt (e.each s (Form.short c [] []) fun u _ => fieldTrap e s u) ∧
         Completes (.lantpassRel c) s e .none e.g.icnt (e.each s (Form.short c [] []) fun u _ => fieldTrap e s u))))

/-! ## Barriers and block registers -/

namespace Sys2Proof.Claims

/-- PHASE, ARRIVED and EXPECTED of a barrier object (Table 9.4). -/
def phaseOf (x : DWord) : BitVec 16 := x.extractLsb' 0 16
def arrivedOf (x : DWord) : BitVec 16 := x.extractLsb' 16 16
def expectedOf (x : DWord) : BitVec 16 := x.extractLsb' 32 16

/-- A barrier object with the fields given, the others zero. -/
def barObject (expected arrived phase : BitVec 16) : DWord := 0#16 ++ expected ++ arrived ++ phase

/-- A barrier object after an arrival (R221). -/
def afterArrival (x : DWord) : DWord :=
  if 0 < (expectedOf x).toNat ∧ (arrivedOf x).toNat + 1 < (expectedOf x).toNat then
    barObject (expectedOf x) (arrivedOf x + 1) (phaseOf x)
  else barObject (expectedOf x) 0 (phaseOf x + 1)

/-- A barrier object after a drop of `n` (R223). -/
def afterDrop (x : DWord) (n : Nat) : DWord :=
  let ex := BitVec.ofNat 16 ((expectedOf x).toNat - n)
  if 0 < (arrivedOf x).toNat ∧ ex.toNat ≤ (arrivedOf x).toNat then barObject ex 0 (phaseOf x + 1)
  else barObject ex (arrivedOf x) (phaseOf x)

/-- The object after the arrivals of the first `n` participants of an issue, one by one (R221). -/
def afterArrivals (x : DWord) : Nat → DWord
  | 0 => x
  | n + 1 => afterArrival (afterArrivals x n)

/-- How many participants stand before a thread. -/
def turnOf (e : Env) (c : Ctl) (t : Thread) : Nat := (e.parts c).findIdx fun u => u.idx = t.idx

/-- A barrier address inside the window, a multiple of 8, in a sector without poison (R220, Table 10.4). -/
def BarAt (e : Env) (off : Nat) : Prop := off % 8 = 0 ∧ off + 8 ≤ e.b.shBytes ∧ off / 32 * 32 ∉ e.b.shPoison

/-- A barrier address that a write is made at: the thread stands in the launch's context (R228). -/
def BarOk (e : Env) (t : Thread) (off : Nat) : Prop := BarAt e off ∧ t.owner = e.g.tag

/-- The checks refuse a barrier address with a trap code: outside the window or no multiple of 8 (R220), or, for what is
written, of another owner tag, or poisoned (Table 10.4). -/
def BarRefused (e : Env) (t : Thread) (wr : Bool) (off code : Nat) : Prop :=
  ((off % 8 ≠ 0 ∨ e.b.shBytes < off + 8) ∧ code = 3) ∨
    (off % 8 = 0 ∧ off + 8 ≤ e.b.shBytes ∧ ((wr = true ∧ t.owner ≠ e.g.tag) ∨ off / 32 * 32 ∈ e.b.shPoison) ∧ code = 6)

/-- A block with a barrier object replaced. -/
def putBar (b : Block) (off : Nat) (x : DWord) : Block :=
  { b with
    shared := b.shared.writeNat off 8 x.toNat
    bars := if off ∈ b.bars then b.bars else b.bars ++ [off] }

/-- The issue with a barrier object of its block replaced. -/
def withBar (e : Env) (off : Nat) (x : DWord) : Env := { e with b := putBar e.b off x }

/-- The trap of a thread at a barrier address that the checks refuse. -/
def barTrap (e : Env) (s : State) (u : Thread) (off code : Nat) : Thread :=
  trapped e s u { e.record u code 0 with addr := BitVec.ofNat 48 (0xE00000000000 + off) }

/-- A thread at a PHASE of the barrier it waits at: it waits no more once its target has passed (R222); a change restarts its
watchdog count (R225). Under another owner tag it reads 0 (R228). -/
def seen (b : Block) (tag : BitVec 12) (now : Nat) (t : Thread) : Thread :=
  match t.wait with
  | some (.barrier off target _ last) =>
    let phase := if t.owner = tag then phaseOf (b.bar off) else 0
    if (phase - target).toNat < 0x8000 then
      { t with
        st := .eligible
        age := 0
        wait := none }
    else if phase = last then t
    else { t with wait := some (.barrier off target now phase) }
  | _ => t

/-- The threads of a block that wait at barriers have seen what `b` holds (R222, R224). -/
def WaitersSee (s s' : State) (b : Block) (tag : BitVec 12) : Prop :=
  ∀ wid w, s.warp? wid = some w → w.bid = b.bid → w.saved = false →
    ∃ w', s'.warp? wid = some w' ∧ w'.threads = w.threads.map (seen b tag s.now)

/-- The form of a `bararr`. -/
def bararrForm (c : Ctl) (d : Nat) (a : Opd) : Form := { (Form.longLat c [a] [.v d]).accesses with keyed := true }

/-- The form of a `barsync`. -/
def barsyncForm (c : Ctl) (a : Opd) : Form := { barForm c [a] with keyed := true }

/-- The outstanding instruction of a `bararr`. -/
def arrivalPend (s : State) (e : Env) (c : Ctl) (parts : List Part) : Pend :=
  { id := s.uid
    flag := e.flagOf c
    wait := .parts
    parts := parts
    sparts := []
    preds := []
    thrs := (e.parts c).map fun t => t.idx
    epoch := none
    sample := none }

/-- The thread waits for an access that it has sent to another core's portion. -/
def sentFrom (off : Nat) (u : Thread) : Thread :=
  { u with
    st := .waiting
    wait := some (.arriving off) }

/-- What becomes of a participant of a `barsync`: it waits beyond the phase of its arrival, but for one whose phase has
completed by then or by a later arrival of the issue. -/
def synced (e : Env) (c : Ctl) (off now : Nat) (t u : Thread) : Thread :=
  let phase := fun (n : Nat) => phaseOf (afterArrivals (e.b.bar off) n)
  let n := turnOf e c t
  if ∃ j, j ≤ (e.parts c).length ∧ n < j ∧ phase j ≠ phase n then
    { u with
      st := .eligible
      age := 0
      wait := none }
  else
    { u with
      st := .waiting
      wait := some (.barrier off (phase n + 1) now (phase n)) }

/-- Two accesses of one thread, or of one issue of one warp, to a byte in common (R227, R232). -/
def sameOrder (b : Block) (x y : PortionAcc) : Bool :=
  decide (x.wid = y.wid) && (decide (x.thr = y.thr) || decide (x.issue = y.issue)) &&
    decide (x.off < y.off + y.op.size b.triple) && decide (y.off < x.off + x.op.size b.triple)

/-- The accesses on their way that may arrive: those that no earlier one of their order stands before. -/
def mayArrive (b : Block) : List PortionAcc :=
  ((List.range b.portions.length).zip b.portions).filterMap fun y =>
    if (b.portions.take y.1).any (sameOrder b y.2) then none else some y.2

/-- What an access that has arrived delivers in its warp. -/
def arrived (p : PortionAcc) (vals : List Triple) (w : Warp) : Warp :=
  match p.pid, p.dest with
  | some pid, some d =>
    { w with pend := w.pend.map fun q =>
        if q.id = pid then
          { q with
            parts := q.parts ++ (destParts p.thr d vals).1
            sparts := q.sparts ++ (destParts p.thr d vals).2
            sample := q.sample.map fun x => { x with thr := p.thr } }
        else q }
  | _, _ => w

/-- The block after bytes written to its shared memory; poison of a sector covered whole is cleared (R439). -/
def putShared (b : Block) (off : Nat) (bs : List Byte) : Block :=
  { b with
    shared := b.shared.writeAll ((upFrom off bs.length).zip bs)
    shPoison := b.shPoison.filter fun u => ¬(off ≤ u ∧ u + 32 ≤ off + bs.length) }

/-- What a barrier access that has arrived makes of the object. -/
def barAfter (op : PortionOp) (x : DWord) : Option DWord :=
  match op with
  | .arrive _ => some (afterArrival x)
  | .drop n => some (afterDrop x n)
  | .init n => some (barObject (BitVec.ofNat 16 n) 0 0)
  | _ => none

/-- The writes of block registers that may reach the home next: the oldest of its rank, and before all others one whose 64
cycles are up (R219). -/
def homeNext (b : Block) (now : Nat) : List GWrite :=
  let late := b.gflight.filter fun x => decide (x.since + 64 ≤ now)
  (if late = [] then b.gflight else late).filter fun x => decide ((b.gflight.find? fun y => y.rank = x.rank) = some x)

/-- The thread waits at the barrier. -/
def standsAt (off : Nat) (t : Thread) : Bool :=
  match t.wait with
  | some (.barrier o _ _ _) => decide (o = off)
  | _ => false

/-- The updates that a write applied at the home sends, one to every replica (R218). -/
def updatesOf (b : Block) (x : GWrite) : List (Nat × GWrite) :=
  ((List.range b.cores.length).filter fun r => r ≠ 0).map fun r => (r, x)

/-- A warp's write of a larger key has reached the register's home in this cycle (R218). -/
def Overtaken (b : Block) (now : Nat) (x : GWrite) : Prop :=
  ∃ y ∈ b.gLast, y.1 = x.reg ∧ y.2.1 = now ∧ x.rank * 512 + x.slot < y.2.2

end Sys2Proof.Claims

/-- R220 to R224, R227, R228, R246, R247: the barrier instructions. At the thread's own core `barinit` writes the object,
`bardrop` lowers EXPECTED, and the participants of a `bararr` or `barsync` arrive one by one, each with the phase of its own
arrival, which `bararr` delivers and `barsync` waits beyond; the threads that wait see each PHASE; an access to another core's
portion travels there. `barwait` waits unless its phase has passed. A count above 32,768 is FIELD, and an address that the
checks refuse traps. -/
def Obligations.barrier_words : Prop :=
  ∀ (c : Ctl) (a : Opd) (s : State) (e : Env) (off : Nat),
    (∀ (b : Src) (t : Thread), Normal s e (barForm c (a :: b.opds)) noHold → e.parts c = [t] →
      (e.read0 s t a).toNat = off →
      let f := barForm c (a :: b.opds)
      let n := (e.src s t .zero b).s0
      let bar := e.b.bar off
      (BarOk e t off → Unawaited s e.b.bid → e.b.rankOf off = e.w.rank →
        (n.toNat ≤ 32768 → ∃ s', exec (.barinit c a b) s = .next s' ∧
          Frame s s' (withBar e off (barObject (n.extractLsb' 0 16) 0 0)) .none e.g.icnt (e.past s f)) ∧
        (∃ s', exec (.bardrop c a b) s = .next s' ∧
          Frame s s' (withBar e off (afterDrop bar n.toNat)) .none e.g.icnt (e.past s f))) ∧
      (BarOk e t off → e.b.rankOf off ≠ e.w.rank →
        (n.toNat ≤ 32768 → ∃ s', exec (.barinit c a b) s = .next s' ∧
          Frame s s' (withAcc e (carriedAcc e t off (.init n.toNat) none none)) .none e.g.icnt (e.past s f)) ∧
        (∃ s', exec (.bardrop c a b) s = .next s' ∧
          Frame s s' (withAcc e (carriedAcc e t off (.drop n.toNat) none none)) .none e.g.icnt (e.past s f))) ∧
      (BarOk e t off → 32768 < n.toNat →
        Completes (.barinit c a b) s e .none e.g.icnt (e.each s f fun u _ => fieldTrap e s u)) ∧
      (BarOk e t off → e.b.rankOf off = e.w.rank →
        (n.toNat ≤ 32768 → ∃ s', exec (.barinit c a b) s = .next s' ∧
          ∀ wid w, wid ≠ e.w.wid → s.warp? wid = some w → w.bid = e.b.bid → w.saved = false →
            ∃ w', s'.warp? wid = some w' ∧
              w'.threads = w.threads.map (seen (putBar e.b off (barObject (n.extractLsb' 0 16) 0 0)) e.g.tag s.now)) ∧
        (∃ s', exec (.bardrop c a b) s = .next s' ∧
          ∀ wid w, wid ≠ e.w.wid → s.warp? wid = some w → w.bid = e.b.bid → w.saved = false →
            ∃ w', s'.warp? wid = some w' ∧
              w'.threads = w.threads.map (seen (putBar e.b off (afterDrop bar n.toNat)) e.g.tag s.now))) ∧
      (BarAt e off → ∀ done : Bool,
        let target := n.extractLsb' 0 16 + if done then 1 else 0
        let phase := if t.owner = e.g.tag then phaseOf bar else 0
        (e.b.rankOf off = e.w.rank → Unawaited s e.b.bid → e.w.saved = false →
          ∃ s', exec (.barwait c a b done) s = .next s' ∧
            Frame s s' (withBar e off bar) .none e.g.icnt (e.each s f fun _ u =>
              if (phase - target).toNat < 0x8000 then
                { u with
                  st := .eligible
                  age := 0
                  wait := none }
              else
                { u with
                  st := .waiting
                  wait := some (.barrier off target s.now phase) })) ∧
        (e.b.rankOf off ≠ e.w.rank →
          ∃ s', exec (.barwait c a b done) s = .next s' ∧
            Frame s s' (withAcc e (carriedAcc e t off (.await target) none none)) .none e.g.icnt
              (e.each s f fun _ u => sentFrom off u))) ∧
      (∀ code, BarRefused e t true off code → ∀ i, i ∈ [Instr.barinit c a b, .bardrop c a b] →
        Completes i s e .none e.g.icnt (e.each s f fun u _ => barTrap e s u off code)) ∧
      (∀ code, BarRefused e t false off code → ∀ done,
        Completes (.barwait c a b done) s e .none e.g.icnt (e.each s f fun u _ => barTrap e s u off code))) ∧
    ((∀ t ∈ e.parts c, (e.read0 s t a).toNat = off ∧ BarOk e t off) → e.parts c ≠ [] → e.b.rankOf off = e.w.rank →
      let phase := fun (t : Thread) => phaseOf (afterArrivals (e.b.bar off) (turnOf e c t))
      let after := withBar e off (afterArrivals (e.b.bar off) (e.parts c).length)
      (∀ d, Normal s e (bararrForm c d a) (holdRelease c) → Unawaited s e.b.bid →
        ∃ s', exec (.bararr c d a) s = .next s' ∧
          Frame { s with uid := s.uid + 1 } s'
            (withWarp after (addPend (arrivalPend s e c ((e.parts c).map fun t =>
              { thr := t.idx, reg := d, val := .all ((phase t).setWidth 32) }))))
            .none e.g.icnt (e.past s (bararrForm c d a))) ∧
      (Normal s e (barsyncForm c a) (holdRelease c) → Unawaited s e.b.bid → e.w.saved = false →
        ∃ s', exec (.barsync c a) s = .next s' ∧
          Frame s s' after .none e.g.icnt (e.each s (barsyncForm c a) (synced e c off s.now))) ∧
      (∀ t d i, e.parts c = [t] →
        (i = Instr.bararr c d a ∧ Normal s e (bararrForm c d a) (holdRelease c)) ∨
          (i = .barsync c a ∧ Normal s e (barsyncForm c a) (holdRelease c)) →
        ∃ s', exec i s = .next s' ∧
          ∀ wid w, wid ≠ e.w.wid → s.warp? wid = some w → w.bid = e.b.bid → w.saved = false →
            ∃ w', s'.warp? wid = some w' ∧
              w'.threads = w.threads.map (seen (putBar e.b off (afterArrival (e.b.bar off))) e.g.tag s.now))) ∧
    (∀ t code, e.parts c = [t] → (e.read0 s t a).toNat = off → BarRefused e t true off code →
      (∀ d, Normal s e (bararrForm c d a) (holdRelease c) →
        Completes (.bararr c d a) s e .none e.g.icnt (e.each s (bararrForm c d a) fun u _ => barTrap e s u off code)) ∧
      (Normal s e (barsyncForm c a) (holdRelease c) →
        Completes (.barsync c a) s e .none e.g.icnt (e.each s (barsyncForm c a) fun u _ => barTrap e s u off code))) ∧
    (∀ t, e.parts c = [t] → (e.read0 s t a).toNat = off → BarOk e t off → e.b.rankOf off ≠ e.w.rank →
      (∀ d, Normal s e (bararrForm c d a) (holdRelease c) →
        ∃ s', exec (.bararr c d a) s = .next s' ∧
          Frame { s with uid := s.uid + 1 } s'
            (withAcc (withWarp e (addPend (arrivalPend s e c [])))
              (carriedAcc e t off (.arrive false) (some s.uid) (some (.v d))))
            .none e.g.icnt (e.past s (bararrForm c d a))) ∧
      (Normal s e (barsyncForm c a) (holdRelease c) →
        ∃ s', exec (.barsync c a) s = .next s' ∧
          Frame s s' (withAcc e (carriedAcc e t off (.arrive true) none none)) .none e.g.icnt
            (e.each s (barsyncForm c a) fun _ u => sentFrom off u)))

/-- R218, R219, R222, R225, R227, R232, R240: what arrives in a block. Of the writes of block registers on their way, one that is
the oldest of its rank reaches the home, before the others one whose 64 cycles are up, and an update goes to every replica;
a write of a larger key that the home has taken in the same cycle prevails. A replica takes its next update, unless that is
its own write or the home ordered it before a later write of its own. Of the accesses to portions, one that follows no other of
its order is performed at its core: it stores, delivers what it read, or changes the object, and the threads that wait see the
PHASE. The watchdog of a barrier wait that has counted 2^24 cycles stops its block and sends the hang record, and no thread
traps; before that it does nothing. -/
def Obligations.block_arrivals : Prop :=
  ∀ (s : State) (bid : Nat) (b : Block), s.block? bid = some b →
    (homeNext b s.now ≠ [] →
      ∃ x ∈ homeNext b s.now, ∃ s' b', exec (.gWriteHomeArrival bid) s = .next s' ∧ s' = { s with blocks := s'.blocks } ∧
        s'.block? bid = some b' ∧ (∀ k, k ≠ bid → s'.block? k = s.block? k) ∧
        (¬Overtaken b s.now x →
          b' =
            { b with
              g := setAt b.g x.reg x.val
              gflight := b.gflight.erase x
              gupdates := b.gupdates ++ updatesOf b x
              gLast := b'.gLast } ∧
          (x.reg, s.now, x.rank * 512 + x.slot) ∈ b'.gLast) ∧
        (Overtaken b s.now x → ∃ y, y.reg = x.reg ∧ y.val = b.g.getD x.reg 0 ∧
          b' =
            { b with
              gflight := b.gflight.erase x
              gupdates := b.gupdates ++ updatesOf b y })) ∧
    (∀ rank x, (b.gupdates.find? fun y => y.1 = rank) = some (rank, x) →
      let later := x.rank = rank ∨ (∃ y ∈ b.gflight, y.rank = rank ∧ y.reg = x.reg) ∨
        ∃ y ∈ b.gupdates.erase (rank, x), y.1 = rank ∧ y.2.rank = rank ∧ y.2.reg = x.reg
      ∃ s' b', exec (.gReplicaUpdate bid rank) s = .next s' ∧ s' = { s with blocks := s'.blocks } ∧
        s'.block? bid = some b' ∧ (∀ k, k ≠ bid → s'.block? k = s.block? k) ∧
        b' =
          { b with
            gupdates := b.gupdates.erase (rank, x)
            greps := b'.greps } ∧
        (later → b'.greps = b.greps) ∧
        (¬later → lookupD rank b.g b'.greps = setAt (lookupD rank b.g b.greps) x.reg x.val) ∧
        ∀ k, k ≠ rank → lookupD k b.g b'.greps = lookupD k b.g b.greps) ∧
    (∀ g, s.grid? b.gid = some g → mayArrive b ≠ [] → b.Sound →
      (∀ k, b.lastKey = some (s.now, k) → ∀ p ∈ mayArrive b, k ≤ p.key) →
      ∃ p ∈ mayArrive b, ∃ s' b', exec (.sharedPortionAccessArrival bid) s = .next s' ∧ s'.mem = s.mem ∧
        s'.block? bid = some b' ∧ (∀ k, k ≠ bid → s'.block? k = s.block? k) ∧
        (∀ wid w, s.warp? wid = some w → w.bid ≠ bid → wid ≠ p.wid → s'.warp? wid = some w) ∧
        let rest := { b with portions := b.portions.erase p }
        (∀ bs, p.op = .store bs → b' = putShared rest p.off bs ∧ WaitersSee s s' b' g.tag) ∧
        (∀ w raw, p.op = .load w raw → b' = rest ∧
          let bytes := s.sharedBytes rest p.off (if raw then (if b.triple then 12 else 4) else w.bytes)
          s'.warp? p.wid = (s.warp? p.wid).map (arrived p (if raw then [rawValue bytes] else widthValues w bytes))) ∧
        (∀ op ty x, p.op = .atom op ty x →
          let old := s.sharedBytes rest p.off (AtomTy.bytes' ty)
          let new := atomPlain op ty b.triple x old
          b' = putShared rest p.off new.1 ∧
          (∀ w, s.warp? p.wid = some w → (s'.warp? p.wid).map (fun w => w.pend) = some (arrived p new.2 w).pend) ∧
          ∀ w t, s.warp? p.wid = some w → w.bid = bid → w.saved = false → w.thread? p.thr = some t →
            s'.thread? p.wid p.thr =
              some (atomRaise p.trap (atomFlags op ty b.triple x old) (new.2.headD (.all 0)) (seen b' g.tag s.now t))) ∧
        (∀ x, barAfter p.op (b.bar p.off) = some x →
          b' = { putBar rest p.off x with lastKey := b'.lastKey } ∧ (p.op ≠ .arrive true → WaitersSee s s' b' g.tag)) ∧
        (p.op = .arrive false → s'.warp? p.wid ≠ none →
          (s'.warp? p.wid).map (fun w => w.pend) =
            (s.warp? p.wid).map fun w => (arrived p [.all ((phaseOf (b.bar p.off)).setWidth 32)] w).pend) ∧
        ∀ w t target, (p.op = .arrive true ∧ target = phaseOf (b.bar p.off) + 1) ∨ p.op = .await target →
          s.warp? p.wid = some w → w.bid = bid → w.saved = false → w.thread? p.thr = some t → t.owner = g.tag →
          s'.thread? p.wid p.thr = some (seen b' g.tag s.now
            { t with
              st := .waiting
              wait := some (.barrier p.off target s.now (phaseOf (b.bar p.off))) })) ∧
    (∀ wid thr w t g off target since last, s.warp? wid = some w → s.thread? wid thr = some t → w.bid = bid →
      t.wait = some (.barrier off target since last) → s.grid? b.gid = some g →
      (since + 2 ^ 24 ≤ s.now → (∀ x ∈ s.warps, x.bid = bid → x.held = false ∧ x.saved = false) → b.hung = false →
        ∃ s' x n, exec (.hangWatchdog wid thr) s = .next s' ∧
          s' =
            { s with
              blocks := s'.blocks
              grids := s'.grids
              out := s.out ++ [.hang bid off x (tnumOf w b g thr) target n] } ∧
          (off % 8 = 0 → off ∈ b.bars → x = b.bar off &&& ~~~((1 : DWord) <<< 48)) ∧
          n = ((s.warps.filter fun y => y.bid = bid).filter fun y => y.threads.any (standsAt off)).length ∧
          s'.block? bid = some { b with hung := true } ∧ (∀ k, k ≠ bid → s'.block? k = s.block? k) ∧
          s'.grid? b.gid = some { g with report := some (0, tnumOf w b g thr, BitVec.ofNat 32 off, x) }) ∧
      (s.now < since + 2 ^ 24 → exec (.hangWatchdog wid thr) s = .next s))

/-! ## Remote atomics and service warps -/

namespace Sys2Proof.Claims

/-- The remote words and what each sends (R300). -/
inductive RemoteRule : Instr → RemoteSpec → Prop where
  | ratom c d a b op ty adj far : RemoteRule (.ratom c d a b op ty adj far)
      { c := c, kind := 0, d := d, a := a, b := b, op := op, ty := ty, adj := adj, far := far }
  | rred c a b op ty adj far : RemoteRule (.rred c a b op ty adj far)
      { c := c, kind := 1, d := none, a := a, b := b, op := op, ty := ty, adj := adj, far := far }
  | rcas c d a b ty adj far : RemoteRule (.rcas c d a b ty adj far)
      { c := c, kind := 2, d := some d, a := a, b := b, op := .cas, ty := ty, adj := adj, far := far }

/-- The outstanding instruction of a remote word with one participant. -/
def remotePend (s : State) (e : Env) (c : Ctl) (t : Thread) (smp : Option Sample) : Pend :=
  { id := s.uid
    flag := e.flagOf c
    wait := .parts
    parts := []
    sparts := []
    preds := []
    thrs := [t.idx]
    epoch := some (s.die e.w.die).qepoch
    sample := smp }

/-- What a reply does in its warp: the data go to the outstanding instruction that the request names, whose sample names
the thread whose data return last (R446). -/
def replied (r : Request) (data : List Triple) (w : Warp) : Warp :=
  let got := match r.dest with
    | some d => if r.ret then (destParts r.thr (.v d) data).1 else []
    | none => []
  { w with pend := w.pend.map fun p =>
      if p.id = r.pid then
        { p with
          parts := p.parts ++ got
          sample := p.sample.map fun x => { x with thr := r.thr } }
      else p }

/-- The effect of a reply on the requester: its data delivered for status 0, else the trap of that code. -/
def ReplyEffect (s s' : State) (r : Request) (status : Nat) (data : List Triple) : Prop :=
  (status = 0 → s'.warp? r.wid = (s.warp? r.wid).map (replied r data)) ∧
  (status ≠ 0 → ∀ w t, s.warp? r.wid = some w → s.thread? r.wid r.thr = some t → t.st ≠ .ended →
    s'.thread? r.wid r.thr = some (t.trapTo (s.attached w.die t.owner) (s.hiOf r.wid) (r.trap status) t.pc t.cl)) ∧
  ∀ k, k ≠ r.wid → s'.warp? k = s.warp? k

/-- The form of `svrecv`: the supervisor view alone, sixteen destinations (R303). -/
def svrecvForm (c : Ctl) (d : Nat) : Form := { Form.longLat c [] (vrun d 16) with priv := true }

end Sys2Proof.Claims

/-- R281, R282, R300 to R302: a remote word whose checks pass sends one request to its core's store, raises its flag and is
outstanding; a TYPE 1 add advances C. A thread that a check stops traps before the word. -/
def Obligations.remote_words_send_requests : Prop :=
  ∀ i x, RemoteRule i x → ∀ (s : State) (e : Env) (t : Thread), Normal s e x.form (holdRoom x.c) → e.parts x.c = [t] →
    let a := if x.far then e.farAddr s t x.a
      else (if x.adj then 0xC00100000000 else 0xC00000000000) + (e.read0 s t x.a).setWidth 48
    (∀ l, s.remotePlan e t a x.ty = .ok l →
      let code := if x.kind = 1 then 0 else x.d.getD 960
      let r := e.request t a l.bytes s.uid x.kind x.op x.ty l.mode x.d code (e.atomArgs s x.c t x.b x.cmp x.ty)
      ∃ s' smp, exec i s = .next s' ∧ CachesOnly (s.sendRequest e r) s' ∧
        Frame { State.withCaches s s' with uid := s.uid + 1 } s'
          (withWarp e (addPend (remotePend s e x.c t smp))) .none e.g.icnt (e.each s x.form fun _ u =>
            { u with c := if x.op = .add ∧ x.ty = .f32 then u.c + 1 else u.c })) ∧
    (∀ f, s.remotePlan e t a x.ty = .error f → f.hits = [] →
      Completes i s e .none e.g.icnt (e.each s x.form fun u _ =>
        trapped e s u { e.record u f.code f.sub with addr := BitVec.ofNat 48 f.addr }))

/-- R282 to R285, R301, R302: a request enters its slice's queue, the oldest of its slice first; the slice applies the head of
its queue as one change of the bytes it names and replies, or replies with status 5 or 6 and changes nothing; a reply
delivers its data or raises its trap. R303 to R305: `svrecv` takes the oldest requests of its slice, one for each participant
in turn, and leaves their records in an outstanding instruction, its predicate true where a lane has one; the waiting form of
an empty queue stays outstanding. `svreply` ends the delivered request of its slot word and queues its reply; a status other
than 0, 5 and 6 is FIELD. -/
def Obligations.requests_and_services : Prop :=
  (∀ (s : State) (d : Nat),
     (∀ core, s.mayEnter d core ≠ [] →
       ∃ r ∈ s.mayEnter d core, ∃ s', exec (.remoteRequestEnqueue d core) s = .next s' ∧
         s' =
           { s with
             cores := s'.cores
             clusters := s'.clusters } ∧
         s'.core d core = { s.core d core with reqs := (s.core d core).reqs.erase r } ∧
         s'.cluster d (homeOf r.pa) =
           { s.cluster d (homeOf r.pa) with queue := (s.cluster d (homeOf r.pa)).queue ++ [r] }) ∧
     (∀ cl r status x rest, (s.cluster d cl).replies = (r, status, x) :: rest →
       ∃ s', exec (.remoteReply d cl) s = .next s' ∧ s'.cluster d cl = { s.cluster d cl with replies := rest } ∧
         s'.mem = s.mem ∧ ReplyEffect s s' r status (r.data x)) ∧
     (∀ cl r, (s.cluster d cl).replies = [] → s.serviceWarp d cl = none → s.headReady d cl = some r →
       s.pkg.latent = [] →
       (∀ bytes, s.requestBytes r = .ok bytes →
         let res := r.apply (bytes.map s.byte)
         ∃ s', exec (.remoteReply d cl) s = .next s' ∧ s'.mem = s.mem.writeAll (bytes.zip res.1) ∧
           (s'.cluster d cl).queue = (s.cluster d cl).queue.drop 1 ∧
           (s'.cluster d cl).svDone = (s.cluster d cl).svDone + 1 ∧ ReplyEffect s s' r 0 res.2) ∧
       (∀ n, s.requestBytes r = .error n →
         ∃ s', exec (.remoteReply d cl) s = .next s' ∧ s'.mem = s.mem ∧
           (s'.cluster d cl).queue = (s.cluster d cl).queue.drop 1 ∧ ReplyEffect s s' r n []))) ∧
  (∀ (c : Ctl) (s : State) (e : Env),
     let k := s.cluster e.w.die (e.w.core / 4)
     (∀ (d : Nat) (p : BitVec 3) (wt : Bool), Normal s e (svrecvForm c d) noHold → e.parts c ≠ [] →
       let thrs := (e.parts c).map fun t => t.idx
       let got := thrs.zip (k.queue.take (min thrs.length 24))
       let pend := fun (wait : Until) (preds : List (Nat × BitVec 3 × BitVec 3)) =>
         addPend
           { id := s.uid
             flag := e.flagOf c
             wait := wait
             parts := (got.map fun x =>
               (destParts x.1 (.v d) (x.2.record.map Triple.all)).1).flatten
             sparts := []
             preds := preds
             thrs := thrs
             epoch := none
             sample := none }
       (wt = true → k.queue = [] →
         ∃ s', exec (.svrecv c d p wt) s = .next s' ∧
           Frame { s with uid := s.uid + 1 } s' (withWarp e (pend (.request d p) [])) .none e.g.icnt
             (e.past s (svrecvForm c d))) ∧
       (wt = false ∨ k.queue ≠ [] →
         ∃ s', exec (.svrecv c d p wt) s = .next s' ∧
           Frame
             { s.setCluster
                 { k with
                   queue := k.queue.drop got.length
                   delivered := k.delivered ++ k.queue.take got.length } with uid := s.uid + 1 } s'
             (withWarp e (pend .ready (thrs.map fun i => (i, p, if ∃ x ∈ got, x.1 = i then 7 else 0)))) .none e.g.icnt
             (e.past s (svrecvForm c d)))) ∧
     (∀ (a b : Nat) (t : Thread), Normal s e (Form.sup c (.v a :: vrun b 4) []) noHold → e.parts c = [t] →
       let status := (e.read0 s t (.v b)).toNat
       let x : Triple :=
         { s0 := e.read0 s t (.v (b + 1))
           s1 := e.read0 s t (.v (b + 2))
           s2 := e.read0 s t (.v (b + 3)) }
       (status ∈ [0, 5, 6] → ∀ r, (k.delivered.find? fun r => r.slotWord = e.read0 s t (.v a)) = some r →
         ∃ s', exec (.svreply c a b) s = .next s' ∧
           Frame
             (s.setCluster
               { k with
                 delivered := k.delivered.erase r
                 replies := k.replies ++ [(r, status, x)]
                 svDone := k.svDone + 1 }) s' e .none e.g.icnt (e.past s (Form.sup c (.v a :: vrun b 4) []))) ∧
       (status ∈ [0, 5, 6] → (k.delivered.find? fun r => r.slotWord = e.read0 s t (.v a)) = none →
         Completes (.svreply c a b) s e .none e.g.icnt (e.past s (Form.sup c (.v a :: vrun b 4) []))) ∧
       (status ∉ [0, 5, 6] →
         Completes (.svreply c a b) s e .none e.g.icnt (e.each s (Form.sup c (.v a :: vrun b 4) []) fun u _ =>
           fieldTrap e s u))))

/-! ## Copies -/

namespace Sys2Proof.Claims

/-- The descriptor that a `cpy` reads from its run of eight registers (R383). -/
def cpyWords (e : Env) (s : State) (t : Thread) (a : Opd) : List Word := (List.range 8).map fun i => e.read0 s t (a.plus i)

/-- The scratchpad pages that a whole copy's destination touches. -/
def destPages (x : CopyDesc) : List (Nat × Nat) := scratchPages ((List.range x.chunks.length).map x.spans).flatten

/-- The issue with one more outstanding instruction, without results. -/
def withWait (s : State) (e : Env) (c : Ctl) (ts : List Thread) (u : Until) : Env :=
  withWarp e (addPend
    { id := s.uid
      flag := e.flagOf c
      wait := u
      parts := []
      sparts := []
      preds := []
      thrs := ts.map fun t => t.idx
      epoch := none
      sample := none })

/-- What `cpysus` makes of a copy, where it changes it, and whether its flag waits for the chunk boundary (Table 19.5). -/
def suspended (x : Copy) : Option Copy × Bool :=
  match x.st with
  | .queued => (some
      { x with
        st := .suspended
        cause := 0
        claims := []
        pages := []
        stopAt := none }, false)
  | .running => (some
      { x with
        stopAt := some (x.stopAt.getD 0)
        hold := x.hold || decide (x.stopAt = some 4) }, true)
  | .suspended => (if x.cause = 4 then some { x with hold := true } else none, false)
  | .faulted => (some { x with hold := true }, false)
  | .done => (none, false)
  | .failed => (none, false)

/-- A state with a copy replaced, where one is given. -/
def withCopy (s : State) (d : Nat) (x : Option Copy) : State :=
  match x with
  | some y => s.setCopy d y
  | none => s

/-- A state in which the copy is reported FAILED: it leaves its slot, and its node keeps that it failed (R329, R386). -/
def withoutFailed (s : State) (d : Nat) (x : Copy) : State :=
  s.setDie
    { s.die d with
      copies := (s.die d).copies.filter fun y => y.slot ≠ x.slot
      nodes := (s.die d).nodes.map fun n => if x.node = some n.slot then { n with failed := true } else n }

/-- A copy FAULTED for a cause at an address, without claims (R324). -/
def faultedCopy (x : Copy) (cause va : Nat) : Copy :=
  { x with
    st := .faulted
    cause := cause
    claims := []
    pages := []
    stopAt := none
    fault := some va }

/-- A copy FAILED for a cause, without claims (R325). -/
def failedCopy (x : Copy) (cause : Nat) : Copy :=
  { x with
    st := .failed
    cause := cause
    claims := []
    pages := []
    stopAt := none }

/-- A copy as it continues (R323, R324). -/
def continuing (x : Copy) : Copy :=
  { x with
    st := .queued
    cause := 0 }

/-- A chunk of an untransposed copy between scratchpad bytes, with nothing in its way: its source bytes and its destination
bytes translate, no earlier claim, no held line, no line held for a parked thread, no other owner, no poison, no soft error
and no watchpoint. -/
structure ChunkClear (s : State) (d : Nat) (x : Copy) (c : Nat) (src dst : List Nat) : Prop where
  plain : x.desc.trans = false
  chunk : c ∈ x.remaining
  reads : s.agentBytes d x.tag (x.desc.srcSpan false c).1 (x.desc.srcSpan false c).2 false = .ok src
  writes : s.copyDst d x (x.desc.spans c) = .ok dst
  inside : ∀ a ∈ src ++ dst, ∃ p k, regionOf a = .scratch p k
  joined : s.cutOff x.tag src = false ∧ s.cutOff x.tag dst = false
  free : s.copyWaits x src = false ∧ s.copyWaits x dst = false ∧ s.parkedLines d none dst = []
  owned : s.otherTag x.tag dst = false
  clean : s.pkg.poison = [] ∧ s.pkg.latent = [] ∧ s.pkg.ckBusy = none
  unwatched : s.copyStrikes d x c true = [] ∧ s.copyStrikes d x c false = []

/-- What moving a chunk does: its bytes, those of a line of another owner as zeros, and no other; the copy has the chunk
behind it and gives its claims back, and is DONE with the last. -/
def ChunkMoved (s s' : State) (d : Nat) (x : Copy) (c : Nat) (src dst : List Nat) : Prop :=
  s'.mem = s.mem.writeAll (dst.zip (src.map fun a => if s.lineTag a = x.tag then s.byte a else 0)) ∧
  s'.warps = s.warps ∧
  ∃ y, s'.copy? d x.slot = some y ∧ y.remaining = x.remaining.filter (fun k => k ≠ c) ∧ y.desc = x.desc ∧
    (∀ l ∈ y.claims, l ∈ x.claims) ∧ y.st = if y.p = x.desc.chunks.length then .done else x.st

end Sys2Proof.Claims

/-- R320, R383 to R388: `cpy` checks its copy and enters it QUEUED with its claims in a slot that is free, gives the thread
its handle and stays outstanding until it is over; with every slot taken the handle is FFFF_FFFFh, and a failing check
traps. `cpyst` reports the status word, and frees the slot of a copy that FAILED. `cpysus` and `cpyres` do what Table 19.5
gives; on a handle that names no copy, nothing. -/
def Obligations.copy_words : Prop :=
  (∀ x : Copy,
    x.status.extractLsb' 29 3 = BitVec.ofNat 3 x.st.code ∧ x.status.extractLsb' 26 3 = BitVec.ofNat 3 x.cause ∧
      x.status.getLsbD 25 = (x.hold && decide (x.st = .faulted)) ∧ x.status.extractLsb' 0 25 = BitVec.ofNat 25 x.p) ∧
  ∀ (c : Ctl) (a : Opd) (s : State) (e : Env) (t : Thread), e.parts c = [t] →
    (Normal s e (Form.longLat c (a.run 8) []).accesses noHold →
      let f := (Form.longLat c (a.run 8) []).accesses
      let w := cpyWords e s t a
      let x := copyDesc w
      let d := e.w.die
      (∀ ps, s.copyCheck e w = none → s.claimPages d e.g.tag (destPages x) = .ok ps → s.freeCopySlots d ≠ [] →
        ∃ s' k y w', exec (.cpy c a) s = .next s' ∧ s'.mem = s.mem ∧ k ∈ s.freeCopySlots d ∧ s'.copy? d k = some y ∧
          y.st = .queued ∧ y.p = 0 ∧ y.desc = x ∧ y.tag = e.g.tag ∧ y.prio = e.g.lr.prio ∧ y.pages = ps ∧
          y.claims = y.claimsLeft ∧ y.gen = lookupD k 0 (s.die d).copyGens ∧
          s'.thread? e.w.wid t.idx = some { e.past s f t with cpylast := handleWord d y.gen k } ∧
          s'.warp? e.w.wid = some w' ∧
          w'.flags = setAt e.w.flags (e.flagOf c) (e.w.flags.getD (e.flagOf c) 0 + 1) ∧
          ∃ p ∈ w'.pend, p.id = s.uid ∧ p.wait = .copies [(d, k)]) ∧
      (s.copyCheck e w = none → s.freeCopySlots d = [] →
        ∃ s', exec (.cpy c a) s = .next s' ∧
          Frame { s with uid := s.uid + 1 } s' (withWait s e c [t] (.copies [])) .none e.g.icnt
            (e.each s f fun _ u => { u with cpylast := 0xFFFFFFFF })) ∧
      (∀ k, s.copyCheck e w = some k → k.hits = [] →
        ∃ s', exec (.cpy c a) s = .next s' ∧
          Frame { s with uid := s.uid + 1 } s' e .none e.g.icnt (e.each s f fun u _ =>
            trapped e s u { e.record u k.code k.sub with addr := BitVec.ofNat 48 k.addr }))) ∧
    (∀ (d : Dst), Normal s e (Form.longLat c [a] d.opds) noHold →
      let report := fun (x : Word) => addPend
        { copyPend s.uid (e.flagOf c) [t] .ready with
          parts := (d.opds.map fun o => (destParts t.idx o [.all x]).1).flatten
          sparts := (d.opds.map fun o => (destParts t.idx o [.all x]).2).flatten }
      (s.copyNamed t (e.read0 s t a) = none →
        ∃ s', exec (.cpyst c d a) s = .next s' ∧
          Frame { s with uid := s.uid + 1 } s' (withWarp e (report 0xC0000000)) .none e.g.icnt
            (e.past s (Form.longLat c [a] d.opds))) ∧
      (∀ k x, s.copyNamed t (e.read0 s t a) = some (k, x) →
        ∃ s', exec (.cpyst c d a) s = .next s' ∧
          Frame { (if x.st = .failed then withoutFailed s k x else s) with uid := s.uid + 1 } s'
            (withWarp e (report x.status)) .none e.g.icnt (e.past s (Form.longLat c [a] d.opds)))) ∧
    (Normal s e (Form.longLat c [a] []) noHold →
      let f := Form.longLat c [a] []
      (s.copyNamed t (e.read0 s t a) = none →
        (∃ s', exec (.cpysus c a) s = .next s' ∧
          Frame { s with uid := s.uid + 1 } s' (withWait s e c [t] (.stopped [])) .none e.g.icnt (e.past s f)) ∧
        (∃ s', exec (.cpyres c a) s = .next s' ∧
          Frame { s with uid := s.uid + 1 } s' (withWait s e c [t] .ready) .none e.g.icnt (e.past s f))) ∧
      (∀ k x, s.copyNamed t (e.read0 s t a) = some (k, x) →
        (∃ s', exec (.cpysus c a) s = .next s' ∧
          Frame { withCopy s k (suspended x).1 with uid := s.uid + 1 } s'
            (withWait s e c [t] (.stopped (if (suspended x).2 then [(k, x.slot)] else []))) .none e.g.icnt (e.past s f)) ∧
        (x.st ≠ .suspended ∨ x.cause = 4 →
          ∃ s', exec (.cpyres c a) s = .next s' ∧
            Frame { (if x.st = .faulted then s.setCopy k { x with hold := false } else s) with uid := s.uid + 1 } s'
              (withWait s e c [t] .ready) .none e.g.icnt (e.past s f)) ∧
        (∀ ps, x.st = .suspended → x.cause ≠ 4 →
          s.claimPages k x.tag (scratchPages (x.remaining.map x.desc.spans).flatten) = .ok ps →
          ∃ s' y, exec (.cpyres c a) s = .next s' ∧ s'.mem = s.mem ∧ s'.copy? k x.slot = some y ∧ y.st = .queued ∧
            y.p = x.p ∧ y.claims = y.claimsLeft ∧ s'.thread? e.w.wid t.idx = some (e.past s f t)) ∧
        (∀ y, x.st = .suspended → x.cause ≠ 4 →
          s.claimPages k x.tag (scratchPages (x.remaining.map x.desc.spans).flatten) = .error y →
          ∃ s', exec (.cpyres c a) s = .next s' ∧ s'.mem = s.mem ∧ s'.copy? k x.slot = some (faultedCopy x y.1 y.2) ∧
            s'.out = s.out ++ [.copyFault k x.slot y.2] ∧ s'.thread? e.w.wid t.idx = some (e.past s f t))))

/-- R312, R313, R321 to R325, R389: an engine moves the next chunk of its first copy, or the home of a claimed line has the
chunk that holds it moved first: the chunk's bytes are written, no others, and the copy has it behind it. A chunk whose
source is unmapped makes the copy FAULTED and is reported. A copy asked to stop does not run on, and one whose launch ends is
DONE or FAILED. A copy that faulted continues from its place, QUEUED, when the page has been mapped, or stays SUSPENDED where
it was held; where the page is unmapped still, it is FAILED (log 67), and another page that fails is a fault of its own. -/
def Obligations.copies_move_their_chunks : Prop :=
  ∀ (s : State) (d slot : Nat) (x : Copy), s.copy? d slot = some x →
    (∀ z, x.stopAt = none → s.nextCopy d (slot / 64) = some z → z.slot = slot →
      let y := { x with st := .running }
      (∀ src dst, ChunkClear s d y x.p src dst →
        ∃ s', exec (.copyChunk d slot) s = .next s' ∧ ChunkMoved s s' d y x.p src dst) ∧
      (∀ cause va, s.agentBytes d x.tag (x.desc.srcSpan false x.p).1 (x.desc.srcSpan false x.p).2 false =
          .error (cause, va) →
        ∃ s', exec (.copyChunk d slot) s = .next s' ∧ s' =
          { s.setCopy d (faultedCopy y.fallBack cause va) with out := s.out ++ [.copyFault d slot va] })) ∧
    (∀ n, x.stopAt = some n →
      ∃ s' y, exec (.copyChunk d slot) s = .next s' ∧ s'.copy? d slot = some y ∧ y.stopAt = none ∧
        y.st ∈ [CopySt.suspended, .done, .faulted, .failed] ∧ (n = 8 → y.st ∈ [CopySt.done, .failed])) ∧
    (∀ cl l c src dst, s.recallTarget d cl = some (l, x) →
      (x.remaining.find? fun c => decide (l ∈ x.chunkLines c)) = some c → x.stopAt = none →
      ChunkClear s d x c src dst →
      ∃ s', exec (.sliceLineRequest d cl) s = .next s' ∧ ChunkMoved s s' d x c src dst) ∧
    (x.st = .faulted → x.hold = true →
      exec (.copyFaultResume d slot) s = .next (s.setCopy d
        { x with
          st := .suspended
          cause := 0
          hold := false })) ∧
    (x.st = .faulted → x.hold = false →
      let there := fun (va : Nat) => x.fault.map (fun a => a / 65536) = some (va / 65536)
      (∀ s1 y, s.enterClaims d (continuing x) = .ok s1 → s1.copy? d slot = some y →
        ((∀ cause va, s1.copyUnit d y y.p true = .error (.fault cause va) → ¬there va) →
          exec (.copyFaultResume d slot) s = .next s1 ∧ y.st = .queued ∧ y.p = x.p ∧ y.claims = y.claimsLeft ∧
            s1.mem = s.mem ∧ s1.warps = s.warps) ∧
        (∀ cause va, s1.copyUnit d y y.p true = .error (.fault cause va) → there va →
          exec (.copyFaultResume d slot) s = .next (s.setCopy d (failedCopy x cause)))) ∧
      (∀ f, s.enterClaims d (continuing x) = .error f →
        (there f.2 → exec (.copyFaultResume d slot) s = .next (s.setCopy d (failedCopy x f.1))) ∧
        (¬there f.2 → exec (.copyFaultResume d slot) s = .next
          { s.setCopy d (faultedCopy x f.1 f.2) with out := s.out ++ [.copyFault d slot f.2] })))

/-! ## Launches, queues, translation -/

namespace Sys2Proof.Claims

/-- A thread that has the handle and the predicate of an operation (R382). -/
def given (d : Dst) (p : BitVec 3) (h : Word) (ok : Bool) (u : Thread) : Thread :=
  (u.putDst d (.all h)).setPred p (if ok then 7 else 0)

/-- The end record of a launch: STATUS, trap registers, and the final energy count (Table 22.2, R433). -/
def endRecordOf (s : State) (g : Grid) (status : Byte) (r : Option Report) : Msg :=
  let x := r.getD (0, 0, 0, 0)
  .endRecord g.gid status x.1 x.2.1 x.2.2.1 x.2.2.2 (s.ctx g.tag).energyWord

/-- The state in which the end of some launches has begun: they stop, their copies end FAILED and their nodes are
discarded (R422, R427). -/
def stopped (s : State) (gids : List Nat) (x : Ending) : State :=
  { s with
    grids := s.grids.map fun g =>
      if g.gid ∈ gids ∧ g.retired = false ∧ g.ending = none then { g with ending := some x } else g
    dies := s.dies.map fun d => d.endGrids gids }

/-- The state after bytes of a queue have been written at their homes. -/
def withQueue (s s' : State) (m : Mem) : State := { State.withCaches s s' with mem := m }

/-- The issue's threads as they wait at a queue, with their place in the order of arrival (R332). -/
def atQueue (stamp off : Nat) (op : QOp) (t u : Thread) : Thread :=
  { u with
    st := .waiting
    wait := some (.queue stamp off op t.pc t.cl) }

/-- A cached entry that `tlbinv` of a page names: the leaf that covers it, or the level-1 entry of its region (R402). -/
def namesPage (tag : BitVec 12) (page : Nat) (x : Tlb) : Bool :=
  decide (x.tag = tag) && !x.main &&
    (if x.level = 0 then (if x.big then decide (x.page / 32 = page / 32) else decide (x.page = page))
    else decide (x.level = 1) && decide (x.page / 32 = page / 32))

/-- The state in which the die's translations that do not meet `keep` are forgotten, in its buffers and its walks. -/
def forgetting (s : State) (d : Nat) (keep : Tlb → Bool) : State :=
  s.setDie
    { s.die d with
      tlbs := (s.die d).tlbs.filter keep
      walks := (s.die d).walks.filter keep }

end Sys2Proof.Claims

/-- R352, R392, R393, R412 to R414: `launch` reads and checks its record and starts a child grid, one level deeper, with a handle
and a true predicate; with every entry taken, FFFF_FFFFh and a false one; a record that fails is FIELD, and at nesting level
10 it is trap 20. `lwait` waits while the grid it names runs. R330, R334 to R337, R415 to R417, R436: a record from the host
starts its grid, or returns STATUS 4; the distributor places the next block with its registers, block registers and shared
memory zero and its threads at the entry address; a grid whose threads and children are done retires, its entry free with the
next generation, a host launch with its end record, a gain or task launch of a parent staying for its parent's reads; the
runtime ends a launch: its tree stops, and once nothing of it is left to stop, its grids, blocks and copies are gone and the
host has the end record with the STATUS, and for a double trap both trap records (R159, R422, R427). -/
def Obligations.launches_start_and_end : Prop :=
  (∀ (c : Ctl) (a : Opd) (s : State) (e : Env),
     (∀ (d : Dst) (p : BitVec 3) (t : Thread), d.wf = true → Normal s e (Form.short c [a] d.opds) (holdRecord c a d 16) →
       e.parts c = [t] →
       let f := Form.short c [a] d.opds
       let off := (e.read0 s t a).toNat
       (∀ w, s.readRecord e t off 16 64 = .ok w →
         (∀ r table, s.checkRecord e.w.die e.g.tag w = some (r, table) → e.g.nest < 10 →
           (s.freeEntries e.w.die ≠ [] →
             ∃ s' g k, exec (.launch c d a p) s = .next s' ∧ g ∈ s'.grids ∧ g.gid = s.uid ∧ g.kind = .child ∧ g.lr = r ∧
               g.table = table ∧ g.tag = e.g.tag ∧ g.parent = some e.g.gid ∧ g.nest = e.g.nest + 1 ∧
               k ∈ s.freeEntries e.w.die ∧ g.entry = some (e.w.die, k, lookupD k 0 (s.die e.w.die).gridGens) ∧
               s'.thread? e.w.wid t.idx =
                 some (given d p (handleWord e.w.die (lookupD k 0 (s.die e.w.die).gridGens) k) true (e.past s f t)) ∧
               Delivered s' e [t] d (fun _ => .all (handleWord e.w.die (lookupD k 0 (s.die e.w.die).gridGens) k)) ∧
               (r.gain = false → s'.mem = s.mem)) ∧
           (s.freeEntries e.w.die = [] →
             ∃ s', exec (.launch c d a p) s = .next s' ∧ Delivered s' e [t] d (fun _ => .all 0xFFFFFFFF) ∧
               Frame s s' e d e.g.icnt (e.each s f fun _ u => given d p 0xFFFFFFFF false u))) ∧
         (s.checkRecord e.w.die e.g.tag w = none →
           Completes (.launch c d a p) s e .none e.g.icnt (e.each s f fun u _ => fieldTrap e s u)) ∧
         (s.checkRecord e.w.die e.g.tag w ≠ none → 10 ≤ e.g.nest →
           Completes (.launch c d a p) s e .none e.g.icnt (e.each s f fun u _ => trapped e s u (e.record u 20 0)))) ∧
       (∀ k, s.readRecord e t off 16 64 = .error k → k.hits = [] →
         Completes (.launch c d a p) s e .none e.g.icnt (e.each s f fun u _ =>
           trapped e s u { e.record u k.code k.sub with addr := BitVec.ofNat 48 k.addr }))) ∧
     (Normal s e (Form.short c [a] []) noHold →
       Completes (.lwait c a) s e .none e.g.icnt (e.each s (Form.short c [a] []) fun t u =>
         if s.gridLive (e.read0 s t a) then
           { u with
             st := .waiting
             wait := some (.grid (e.read0 s t a)) }
         else u))) ∧
  (∀ (s : State),
     (∀ tag w, s.pkg.booted = false → exec (.hostLaunch tag w) s = .next s) ∧
     (∀ tag w, s.pkg.booted = true →
       (s.serves tag = false ∨ s.checkRecord 0 tag w = none →
         exec (.hostLaunch tag w) s =
           .next { s with out := s.out ++ [.endRecord 0 4 0 0 0 0 (s.ctx tag).energyWord] }) ∧
       (∀ r table, s.serves tag = true → s.checkRecord 0 tag w = some (r, table) →
         ∃ s' g, exec (.hostLaunch tag w) s = .next s' ∧ s'.grids = s.grids ++ [g] ∧ g.gid = s.uid ∧ g.kind = .host ∧
           g.lr = r ∧ g.table = table ∧ g.tag = tag ∧ g.parent = none ∧ g.nest = 1 ∧ g.retired = false ∧
           s'.warps = s.warps ∧ (r.gain = false → s'.mem = s.mem))) ∧
     (∀ gid d g x cl site, s.grid? gid = some g → g.lr.gain = false → g.kind ≠ .tasks → g.kind ≠ .sweep → g.ending = none →
       (g.shares.find? fun x => x.die = d) = some x → s.savedWaiting d g.tag = false → x.assigned = [] →
       x.next < g.lr.groups → s.clusterFor gid d g.tag g.lr.need = some cl → s.siteIn d g.tag g.lr.need cl = some site →
       site.deferred = false →
       ∃ s' b, exec (.blockPlace gid d) s = .next s' ∧ s'.mem = s.mem ∧ s'.blocks = s.blocks ++ [b] ∧ b.gid = gid ∧
         b.die = d ∧ b.cores = site.cores ∧ b.linear = (g.groupBlocks x.next).getD 0 0 ∧ b.shared = [] ∧
         b.g = List.replicate 64 0 ∧ (∀ y ∈ b.greps, y.2 = List.replicate 64 0) ∧
         (∀ w ∈ s.warps, w ∈ s'.warps) ∧
         ∀ k, k < g.lr.need.warps → ∃ w ∈ s'.warps, w.bid = b.bid ∧ w.index = k ∧ w.die = d ∧
           w.rank = k % site.cores.length ∧ w.core = site.cores.getD (k % site.cores.length) 0 ∧
           w.s = List.replicate g.lr.need.uregs 0 ∧ w.k = List.replicate 12 0 ∧ w.flags = List.replicate 12 0 ∧
           w.threads.length =
             min (warpThreads g.lr.triple) (g.lr.blockSize - k * warpThreads g.lr.triple) ∧
           ∀ t ∈ w.threads, t.pc = g.entryPc ∧ t.st = .eligible ∧ t.v = List.replicate g.lr.need.vregs (.all 0) ∧
             t.p = List.replicate 8 0 ∧ t.c = 0 ∧ t.rs = [] ∧ t.super = false ∧ t.owner = g.tag) ∧
     (∀ gid g, s.grid? gid = some g → s.mayRetire g = true →
       ∃ s', exec (.gridRetire gid) s = .next s' ∧ s'.mem = s.mem ∧ s'.warps = s.warps ∧
         s'.grid? gid =
           (if g.kind = .tasks ∨ (g.kind = .child ∧ g.lr.gain = true) then some { g with retired := true } else none) ∧
         (∀ d k gen, g.entry = some (d, k, gen) → lookupD k 0 (s'.die d).gridGens = (gen + 1) % 16) ∧
         (g.kind = .host → s'.out = s.out ++ [endRecordOf s g 0 g.report])) ∧
     (∀ gid status g, s.grid? gid = some g →
       (g.retired = true → exec (.runtimeEndLaunch gid status) s = .next s) ∧
       (g.retired = false →
         let gids := s.wholeTree gid
         let x := s.endingOf gids status
         let s1 := stopped s gids x
         (s1.endReady (s1.rootOf s1.grids.length gid) = false → exec (.runtimeEndLaunch gid status) s = .next s1) ∧
         (g.parent = none → g.ending = none → s1.endReady gid = true →
           ∃ s', exec (.runtimeEndLaunch gid status) s = .next s' ∧ s'.mem = s.mem ∧ s'.grid? gid = none ∧
             (∀ y ∈ s'.grids, y.parent ≠ some gid) ∧ (∀ b ∈ s'.blocks, b.gid = gid → b.kept = true) ∧
             (∀ d y, y ∈ (s'.die d).copies → y.gid = gid → y.st = .done) ∧
             s'.out = s.out ++ endRecordOf s g status x.report ::
               (x.handler.map fun r => Msg.handlerRecord gid r.1 r.2.1 r.2.2.1 r.2.2.2).toList))))

/-- R313, R331 to R333, R401: `qpush` writes its pair at TAIL, `qpop` takes the pair at HEAD with a true predicate, and
`qclose` lowers OPEN: each at the queue's home, with nothing else of memory changed. A push to a full queue and a pop of an
open empty one wait in their order of arrival; a pop of a closed empty one gives a false predicate; a push to, or a close
of, a closed one is trap 21. -/
def Obligations.stream_queues : Prop :=
  ∀ (c : Ctl) (a : Opd) (s : State) (e : Env) (t : Thread) (h : QHead), e.parts c = [t] →
    let off := (e.read0 s t a).toNat
    s.queueHead e t off = .ok h →
    let entry := fun (i : Nat) => h.data - 0xC00000000000 + 8 * (i % 2 ^ h.logcap)
    (∀ b, Normal s e (Form.short c (a :: b.run 2) []).accesses (fun s e t => match holdRelease c s e t with
          | some w => some w
          | none => holdQueue c a s e t) →
      let f := (Form.short c (a :: b.run 2) []).accesses
      let lo := e.read0 s t b
      let hi := e.read0 s t (b.plus 1)
      (h.isOpen = 0 →
        Completes (.qpush c a b) s e .none e.g.icnt (e.each s f fun u _ => trapped e s u (e.record u 21 0))) ∧
      (h.isOpen ≠ 0 → (h.tail + 2 ^ 32 - h.head) % 2 ^ 32 = 2 ^ h.logcap →
        ∃ s', exec (.qpush c a b) s = .next s' ∧
          Frame { s with uid := s.uid + 1 } s' e .none e.g.icnt (e.each s f (atQueue s.uid off (.push lo hi)))) ∧
      (∀ pa, h.isOpen ≠ 0 → (h.tail + 2 ^ 32 - h.head) % 2 ^ 32 ≠ 2 ^ h.logcap →
        s.queuePa e t (entry h.tail) true = some pa → s.foreign e t.owner (queueLoc pa 8) = none →
        ∃ s', exec (.qpush c a b) s = .next s' ∧ CachesOnly s s' ∧
          Frame (withQueue s s' ((s.mem.writeBytes pa (leBytes 4 lo.toNat ++ leBytes 4 hi.toNat)).writeNat (h.pa + 8) 4
            ((h.tail + 1) % 2 ^ 32))) s' e .none e.g.icnt (e.past s f))) ∧
    (∀ d p, Normal s e (Form.short c [a] (vrun d 2)).accesses (holdQueue c a) →
      let f := (Form.short c [a] (vrun d 2)).accesses
      (h.tail = h.head → h.isOpen = 0 →
        Completes (.qpop c d a p) s e .none e.g.icnt (e.each s f fun _ u => u.setPred p 0)) ∧
      (h.tail = h.head → h.isOpen ≠ 0 →
        ∃ s', exec (.qpop c d a p) s = .next s' ∧
          Frame { s with uid := s.uid + 1 } s' e .none e.g.icnt (e.each s f (atQueue s.uid off (.pop d p)))) ∧
      (∀ pa, h.tail ≠ h.head → s.queuePa e t (entry h.head) false = some pa →
        s.poisoned e (queueLoc pa 8) = none →
        let bs := s.readLoc e t.owner (queueLoc pa 8)
        ∃ s', exec (.qpop c d a p) s = .next s' ∧ CachesOnly s s' ∧
          Frame (withQueue s s' (s.mem.writeNat (h.pa + 4) 4 ((h.head + 1) % 2 ^ 32))) s' e .none e.g.icnt
            (e.each s f fun _ u =>
              ((u.putV d (.all (wordAt bs 0))).putV (d + 1) (.all (wordAt bs 1))).setPred p 7))) ∧
    (Normal s e (Form.short c [a] []).accesses (holdQueue c a) →
      let f := (Form.short c [a] []).accesses
      (h.isOpen = 0 →
        Completes (.qclose c a) s e .none e.g.icnt (e.each s f fun u _ => trapped e s u (e.record u 21 0))) ∧
      (h.isOpen ≠ 0 →
        ∃ s', exec (.qclose c a) s = .next s' ∧ CachesOnly s s' ∧
          Frame (withQueue s s' (s.mem.writeNat h.pa 4 ((h.isOpen - 1) % 2 ^ 32))) s' e .none e.g.icnt (e.past s f)))

/-- R315 to R317, R402, R403: the three forms of `tlbinv` forget the translations that they name on their die, in every
buffer and in walks, and change nothing else; that of an offset forgets its leaf and the level-1 entry of its 2 MiB region, which
no walk in flight installs. `qwait` waits until QDONE of its die has reached its epoch; a walk that ends stands in its buffer
and, with the pointer entries that it went by, in the walk cache; QEPOCH advances after 256 cycles. -/
def Obligations.translation_upkeep : Prop :=
  (∀ (c : Ctl) (s : State) (e : Env) (t : Thread), (e.parts c).head? = some t →
    let d := e.w.die
    (∀ a, Normal s e (Form.sup c [a] []) noHold →
      let page := (e.read0 s t a).toNat / 65536
      let s1 := s.setDie
        { s.die d with
          tlbs := (s.die d).tlbs.filter fun x => !namesPage t.owner page x
          walks := ((s.die d).walks.filter fun x => !namesPage t.owner page x).map fun x =>
            if x.tag = t.owner ∧ x.main = false ∧ x.page / 32 = page / 32 then { x with path := [] } else x }
      ∃ s', exec (.tlbinv c a) s = .next s' ∧
        Frame (s1.setCtx ((s.ctx t.owner).cover d (some page))) s' e .none e.g.icnt (e.past s (Form.sup c [a] []))) ∧
    (Normal s e (Form.sup c [] []) noHold →
      (∃ s', exec (.tlbinvCtx c) s = .next s' ∧
        Frame ((forgetting s d fun x => decide (x.tag ≠ t.owner)).setCtx ((s.ctx t.owner).cover d none)) s' e .none
          e.g.icnt (e.past s (Form.sup c [] []))) ∧
      (∃ s', exec (.tlbinvAll c) s = .next s' ∧
        Frame { forgetting s d (fun _ => false) with ctxs := s.ctxs.map fun x => x.cover d none } s' e .none
          e.g.icnt (e.past s (Form.sup c [] [])))) ∧
    (∀ a, Normal s e (Form.sup c [a] []) noHold →
      Completes (.qwait c a) s e .none e.g.icnt (e.each s (Form.sup c [a] []) fun v u =>
        if (s.qdone d - e.read0 s v a).toNat < 2 ^ 31 then u
        else
          { u with
            st := .waiting
            wait := some (.epoch (e.read0 s v a)) }))) ∧
  ∀ (s : State) (d : Nat),
    (∀ x rest, (s.die d).walks = x :: rest →
      ∃ s', exec (.translationWalkComplete d) s = .next s' ∧ s' = { s with dies := s'.dies } ∧
        s'.die d =
          { s.die d with
            tlbs := (s'.die d).tlbs
            walks := rest } ∧
        (x.level = 0 → x.path.length ≤ 2 →
          { x with path := [] } ∈ (s'.die d).tlbs ∧
          { x with
            core := none
            path := [] } ∈ (s'.die d).tlbs ∧
          ∀ k (hk : k < x.path.length),
            { x with
              core := none
              path := []
              level := k + 1
              leaf := x.path[k]
              big := false } ∈ (s'.die d).tlbs)) ∧
    ((s.die d).lastEpoch + 256 ≤ s.now →
      exec (.qepochAdvance d) s = .next (s.setDie
        { s.die d with
          qepoch := (s.die d).qepoch + 1
          lastEpoch := (s.die d).lastEpoch + 256 })) ∧
    (s.now < (s.die d).lastEpoch + 256 → exec (.qepochAdvance d) s = .next s)

/-! ## The package: launch tape, saving, checkpoints, energy -/

namespace Sys2Proof.Claims

/-- What a word leaves of its group and of the cores. -/
def OnlyThread (s s' : State) (e : Env) (post : Thread → Thread) : Prop :=
  (∀ t ∈ e.group, s'.thread? e.w.wid t.idx = some (post t)) ∧
    ∀ d k, s'.core d k =
      { s.core d k with
        busy := (s'.core d k).busy
        lastIssue := (s'.core d k).lastIssue }

/-- A change of the lowest participant, and of every other participant. -/
def lowest (t : Thread) (f g : Thread → Thread → Thread) (u v : Thread) : Thread := if u.idx = t.idx then f u v else g u v

/-- No key is set, no unit was written under one, no byte is poisoned and no checkpoint drains: main memory reads and is
written as it stands. -/
structure PlainMemory (s : State) : Prop where
  keys : s.pkg.keys = []
  written : s.pkg.written = []
  poison : s.pkg.poison = []
  drain : s.pkg.ckBusy = none

end Sys2Proof.Claims

/-- R418 to R420: `lpush` puts its record on the tape of its context and gives a true predicate; on a full tape, or while it
is swept, it gives a false one, and a record that cannot start is FIELD. `lsweep` starts the sweep of its launch as a child
grid with a handle, or is refused; a sweep starts the newest record of the tape, one at a time, then its update records, each
as a child of the sweeping grid, and ends when they have run, or with ERR at a record of the tape that cannot start; an update
record that cannot start sets ERR and is passed over. -/
def Obligations.the_launch_tape : Prop :=
  (∀ (c : Ctl) (a : Opd) (s : State) (e : Env) (t : Thread), (e.parts c).head? = some t →
    let off := (e.read0 s t a).toNat
    let tape := s.ctx e.g.tag
    (∀ p w, Normal s e (Form.short c [a] []) (holdPush c a) → e.parts c = [t] → s.readRecord e t off 16 64 = .ok w →
      let f := Form.short c [a] []
      (s.checkRecord e.w.die e.g.tag w = none →
        Completes (.lpush c a p) s e .none e.g.icnt (e.each s f fun u _ => fieldTrap e s u)) ∧
      (s.checkRecord e.w.die e.g.tag w ≠ none → 4096 ≤ tape.ltpos ∨ tape.sweep ≠ none →
        Completes (.lpush c a p) s e .none e.g.icnt (e.each s f fun _ u => u.setPred p 0)) ∧
      (s.checkRecord e.w.die e.g.tag w ≠ none → tape.ltpos < 4096 → tape.sweep = none → PlainMemory s →
        ∃ s', exec (.lpush c a p) s = .next s' ∧
          s'.mem = s.mem.writeAll
            ((upFrom (tape.ltbase.toNat * 2 ^ 16 + 64 * tape.ltpos) 64).zip ((w.map fun x => leBytes 4 x.toNat).flatten)) ∧
          (s'.ctx e.g.tag).ltpos = tape.ltpos + 1 ∧ (s'.ctx e.g.tag).ltbase = tape.ltbase ∧
          OnlyThread s s' e (e.each s f fun _ u => u.setPred p 7))) ∧
    (∀ (d : Dst) (p : BitVec 3) (head : List Word), d.wf = true → Normal s e (Form.short c [a] d.opds) (holdSweep c a) →
      s.readRecord e t off 1 64 = .ok head →
      let f := Form.short c [a] d.opds
      let n := ((head.getD 0 0).extractLsb' 0 13).toNat
      (4096 < n → Completes (.lsweep c d a p) s e .none e.g.icnt
        (e.each s f (lowest t (fun u _ => fieldTrap e s u) fun _ v => v))) ∧
      (∀ l, n ≤ 4096 → s.readUpdates e t off n 0 = .ok l →
        (tape.sweep ≠ none ∨ 9 ≤ e.g.nest ∨ s.freeEntries e.w.die = [] →
          ∃ s', exec (.lsweep c d a p) s = .next s' ∧ Delivered s' e (e.parts c) d (fun _ => .all 0xFFFFFFFF) ∧
            Frame s s' e d e.g.icnt (e.each s f fun _ u => given d p 0xFFFFFFFF false u)) ∧
        (tape.sweep = none → e.g.nest < 9 → s.freeEntries e.w.die ≠ [] →
          ∃ s' g k, exec (.lsweep c d a p) s = .next s' ∧ g ∈ s'.grids ∧ g.gid = s.uid ∧ g.kind = .sweep ∧
            g.parent = some e.g.gid ∧ g.nest = e.g.nest + 1 ∧ g.tag = e.g.tag ∧ k ∈ s.freeEntries e.w.die ∧
            g.entry = some (e.w.die, k, lookupD k 0 (s.die e.w.die).gridGens) ∧
            (s'.ctx e.g.tag).sweep = some { gid := g.gid, updates := l, started := false } ∧
            s'.mem = s.mem ∧
            ∀ u ∈ e.parts c, s'.thread? e.w.wid u.idx =
              some (given d p (handleWord e.w.die (lookupD k 0 (s.die e.w.die).gridGens) k) true (e.past s f u)))))) ∧
  ∀ (s : State) (tag : BitVec 12) (w : Sweep) (g : Grid), (s.ctx tag).sweep = some w → s.grid? w.gid = some g →
    g.kind = .sweep → s.sweptBy g.gid = [] →
    (∀ n, w.started = false → (s.ctx tag).ltpos = n + 1 →
      (∀ r table, s.sweepable g (s.tapeRecord tag n) = some (r, table) → s.freeEntries g.entryDie ≠ [] →
        ∃ s' g', exec (.lsweepNextStart tag) s = .next s' ∧ (s'.ctx tag).ltpos = n ∧ g' ∈ s'.grids ∧
          g'.kind = .swept g.gid ∧ g'.lr = r ∧ g'.parent = g.parent ∧ g'.nest = g.nest ∧ g'.tag = g.tag) ∧
      (s.sweepable g (s.tapeRecord tag n) = none →
        ∃ s', exec (.lsweepNextStart tag) s = .next s' ∧ (s'.ctx tag).ltpos = n + 1 ∧ (s'.ctx tag).lterr = true ∧
          (s'.ctx tag).sweep = none ∧ s'.grid? g.gid = none ∧ s'.mem = s.mem)) ∧
    (∀ r table x rest, w.started = true ∨ (s.ctx tag).ltpos = 0 → w.updates = x :: rest →
      s.sweepable g (some x) = some (r, table) → s.freeEntries g.entryDie ≠ [] →
      ∃ s' g', exec (.lsweepNextStart tag) s = .next s' ∧ g' ∈ s'.grids ∧ g'.kind = .swept g.gid ∧ g'.lr = r ∧
        g'.parent = g.parent ∧ g'.nest = g.nest ∧ ((s'.ctx tag).sweep.map fun w => w.started) = some true) ∧
    (∀ x rest, w.started = true ∨ (s.ctx tag).ltpos = 0 → w.updates = x :: rest → s.sweepable g (some x) = none →
      ∃ s' w', exec (.lsweepNextStart tag) s = .next s' ∧ (s'.ctx tag).lterr = true ∧ (s'.ctx tag).sweep = some w' ∧
        w'.started = true ∧ w'.updates.length ≤ rest.length) ∧
    (w.started = true ∨ (s.ctx tag).ltpos = 0 → w.updates = [] →
      ∃ s', exec (.lsweepNextStart tag) s = .next s' ∧ (s'.ctx tag).sweep = none ∧
        (s'.ctx tag).lterr = (s.ctx tag).lterr ∧ s'.grid? g.gid = none ∧ s'.mem = s.mem)

/-- R183, R416, R421 to R427, R456 to R459: `preempt` has the blocks of a context on the chosen cores stop and waits; the
blocks of a core that are all quiet are saved together, with everything that they hold, in lines of the bivouac area that
carry the context's tag, or the core is refused where they do not fit; a saved block resumes on new cores with what was saved,
its registers untagged (R177) and its accesses in the present epoch (R317); `halt` begins the end of the launches of a context
and waits; a slice that expires gives its core to the other context where the running one's state fits, and the other's slice
begins when the restore ends. -/
def Obligations.stopping_saving_resuming : Prop :=
  (∀ (c : Ctl) (s : State) (e : Env) (t : Thread), (e.parts c).head? = some t →
    (∀ (d : Dst) (a b : Opd), Normal s e (Form.sup c [a, b] d.opds) noHold →
      let f := Form.sup c [a, b] d.opds
      let va := e.read0 s t a
      let vb := e.read0 s t b
      let n := (vb.extractLsb' 0 8).toNat
      let die := (vb.extractLsb' 8 2).toNat
      let lawful := va.extractLsb' 12 20 = 0 ∧ vb.extractLsb' 10 22 = 0 ∧ 1 ≤ n ∧ n ≤ 160
      (lawful →
        let cores := s.vacateCores die n (va.extractLsb' 0 12)
        ∃ s', exec (.preempt c d a b) s = .next s' ∧ s'.mem = s.mem ∧
          (s'.die die).saves = (s.die die).saves ++
            [{ id := s.uid
               tag := va.extractLsb' 0 12
               cores := cores
               bids := s.blocksOn die (va.extractLsb' 0 12) cores }] ∧
          OnlyThread s s' e (e.each s f fun _ u =>
            { u with
              st := .waiting
              wait := some (.vacate s.uid d) })) ∧
      (¬lawful →
        Completes (.preempt c d a b) s e .none e.g.icnt (e.each s f (lowest t (fun u _ => fieldTrap e s u) fun _ v => v)))) ∧
    (∀ (a : Opd), Normal s e (Form.sup c [a] []) noHold → e.parts c = [t] →
      let f := Form.sup c [a] []
      let va := e.read0 s t a
      let tag := va.extractLsb' 0 12
      ∀ i keep, (i = Instr.halt c a ∧ keep = false) ∨ (i = Instr.haltKeep c a ∧ keep = true) →
        let gids := (s.grids.filter fun g => g.tag = tag ∧ g.retired = false ∧ g.kind ≠ .service).map fun g => g.gid
        let s1 := stopped s gids { keep := keep, status := 3, report := none, handler := none, trapped := none }
        (va.extractLsb' 12 20 ≠ 0 → Completes i s e .none e.g.icnt (e.each s f fun u _ => fieldTrap e s u)) ∧
        (va.extractLsb' 12 20 = 0 → gids = [] →
          Completes i s e .none e.g.icnt (e.past s f)) ∧
        (va.extractLsb' 12 20 = 0 → gids ≠ [] →
          ∃ s' g, exec i s = .next s' ∧ s1.grid? e.g.gid = some g ∧
            Frame s1 s' { e with g := g } .none e.g.icnt (e.each s f fun _ u =>
              { u with
                st := .waiting
                wait := some (.ending tag) })))) ∧
  ∀ (s : State) (bid : Nat) (b : Block), s.block? bid = some b →
    (s.saveDue b = none → exec (.bivouacSaveEnd bid) s = .next s) ∧
    (∀ x k, s.saveDue b = some (x, k) →
      let l := s.saveGroup x k
      let bytes := fun (y : Block) => s.coreBytes y + s.engineBytes y
      let fits := s.bivouacFits b.die (128 * (l.map fun y => linesFor (bytes y)).sum)
      (fits = true →
        ∃ s', exec (.bivouacSaveEnd bid) s = .next s' ∧
          (∀ y ∈ l, (∃ y', s'.block? y.bid = some y' ∧ y'.saveId ≠ none) ∧
            ∀ w, w.bid = y.bid → s.warp? w.wid = some w → ∃ w', s'.warp? w.wid = some w' ∧ w'.saved = true ∧
              w'.active = false ∧ w'.threads = w.threads ∧ w'.s = w.s ∧ w'.k = w.k ∧ w'.flags = w.flags ∧
              w'.spill = w.spill ∧ w'.pend = w.pend) ∧
          (l = [b] → ∃ b', s'.block? bid = some b' ∧
            b' =
              { b with
                saveId := some s.uid
                saveBytes := bytes b
                saveLines := b'.saveLines
                lanternAgain := b'.lanternAgain } ∧
            ((s.die b.die).bivSize ≤ 64 → b'.saveLines.length = linesFor (bytes b)) ∧
            (∀ a ∈ b'.saveLines, s'.lineTag (128 * a) = s.tagOf b) ∧
            (∀ a, a / 128 ∉ b'.saveLines → s'.byte a = s.byte a) ∧
            ∀ z ∈ (s'.die b.die).saves, ∃ y ∈ (s.die b.die).saves, z = { y with bids := y.bids.erase bid })) ∧
      (fits = false →
        ∃ s', exec (.bivouacSaveEnd bid) s = .next s' ∧ s'.blocks = s.blocks ∧ s'.warps = s.warps ∧ s'.mem = s.mem ∧
          ∃ z ∈ (s'.die b.die).saves, z.id = x.id ∧ k ∈ z.refused)) ∧
    (∀ cores, s.mayResume b = some cores →
      ∃ s' b', exec (.blockResume bid) s = .next s' ∧ s'.mem = s.mem ∧ s'.block? bid = some b' ∧
        b' =
          { b with
            cores := cores
            handles := b'.handles
            saveId := none
            saveBytes := 0
            saveLines := [] } ∧
        ∀ w, w.bid = bid → s.warp? w.wid = some w → ∃ w', s'.warp? w.wid = some w' ∧
          w' =
            { w with
              core := cores.getD (w.index % cores.length) 0
              rank := w.index % cores.length
              slot := w'.slot
              placed := w'.placed
              saved := false
              active := false
              utag := w.utag.map fun _ => false
              pend := w.pend.map fun p => { p with epoch := p.epoch.map fun _ => (s.die b.die).qepoch }
              idleSince := none }) ∧
    ∀ d core x, (s.core d core).slice = some x →
      let k := s.core d core
      let cycles := 4096 * (k.tsctl.extractLsb' 24 8).toNat
      (x.phase = .running → x.expiry ≤ s.now →
        (cycles = 0 → exec (.timeSliceExpiry d core) s = .next (s.setCore { k with slice := none })) ∧
        (cycles ≠ 0 →
          s.sliceSaved k (k.otherTag x.tag) = [] ∨ s.bivouacFits d (s.sliceRoom (s.sliceBlocks k x.tag)) = false →
          exec (.timeSliceExpiry d core) s = .next (s.setCore
            { k with slice := some { tag := x.tag, expiry := s.now + cycles, phase := .running } })) ∧
        (cycles ≠ 0 → s.sliceSaved k (k.otherTag x.tag) ≠ [] →
          s.bivouacFits d (s.sliceRoom (s.sliceBlocks k x.tag)) = true →
          ∃ s', exec (.timeSliceExpiry d core) s = .next s' ∧ s'.warps = s.warps ∧
            s'.core d core = { k with slice := some { x with phase := .saving } })) ∧
      (x.phase = .saving → (∀ y ∈ s.sliceBlocks k x.tag, s.quiet y = true) →
        (s.bivouacFits d (s.sliceRoom (s.sliceBlocks k x.tag)) = true →
          ∃ s', exec (.sliceTransferEnd d core) s = .next s' ∧
            (s'.core d core).slice = some { tag := k.otherTag x.tag, expiry := 0, phase := .restoring }) ∧
        (s.bivouacFits d (s.sliceRoom (s.sliceBlocks k x.tag)) = false →
          ∃ s', exec (.sliceTransferEnd d core) s = .next s' ∧ s'.blocks = s.blocks ∧ s'.warps = s.warps ∧ s'.mem = s.mem ∧
            (s'.core d core).slice = some { tag := x.tag, expiry := s.now + cycles, phase := .running })) ∧
      (x.phase = .saving → (∃ y ∈ s.sliceBlocks k x.tag, s.quiet y = false) →
        exec (.sliceTransferEnd d core) s = .next s) ∧
      (x.phase = .restoring →
        exec (.sliceTransferEnd d core) s = .next (s.setCore
          { k with slice := some { tag := x.tag, expiry := s.now + cycles, phase := .running } }))

/-- R428 to R433: `ckmark` marks the pages of its descriptor and gives a true predicate, or a false one while a drain goes
on; the drain copies the next marked page to its destination and ends with the last; `enrd` delivers the counter of the
thread's context, low word and high word, and `enrd.clr` then clears it; a tick apportions a core's static energy by the
warp slots of each context, the remainder to the lowest tag. -/
def Obligations.checkpoints_and_energy : Prop :=
  (∀ (c : Ctl) (s : State) (e : Env) (t : Thread), (e.parts c).head? = some t →
    (∀ a p, Normal s e (Form.sup c [a, a.plus 1] []) (holdRelease c) →
      let f := Form.sup c [a, a.plus 1] []
      (∀ l, s.ckMoves e t (e.farAddr s t a).toNat = .ok l →
        (s.pkg.ckBusy = none →
          ∃ s', exec (.ckmark c a p) s = .next s' ∧
            Frame
              { s with pkg :=
                  { s.pkg with
                    ckBusy := some { moves := l, tag := t.owner }
                    ckDone := 0 } } s' e .none e.g.icnt (e.each s f fun _ u => u.setPred p 7)) ∧
        (s.pkg.ckBusy ≠ none →
          Completes (.ckmark c a p) s e .none e.g.icnt (e.each s f fun _ u => u.setPred p 0))) ∧
      (∀ k, s.ckMoves e t (e.farAddr s t a).toNat = .error k → k.hits = [] →
        Completes (.ckmark c a p) s e .none e.g.icnt (e.each s f (lowest t (fun u _ =>
          trapped e s u { e.record u k.code k.sub with addr := BitVec.ofNat 48 k.addr }) fun _ v => v)))) ∧
    (∀ (d : Dst), d.wf = true → (d.plus 1).wf = true → ∀ i priv clr,
      (i = Instr.enrd c d ∧ priv = false ∧ clr = false) ∨ (i = Instr.enrdClr c d ∧ priv = true ∧ clr = true) →
      let f := { Form.short c [] (d.opds ++ (d.plus 1).opds) with priv := priv }
      Normal s e f noHold →
      let tag := if t.super then t.owner else e.g.tag
      let x := (s.issued e f).ctx tag
      ∃ s', exec i s = .next s' ∧ s'.mem = s.mem ∧
        Delivered s' e (e.parts c) d (fun _ => .all (x.energy.extractLsb' 0 32)) ∧
        Delivered s' e (e.parts c) (d.plus 1) (fun _ =>
          .all (BitVec.ofBool x.sat ++ (0 : BitVec 15) ++ x.energy.extractLsb' 32 16)) ∧
        (clr = true → (s'.ctx tag).energy = 0 ∧ (s'.ctx tag).sat = false))) ∧
  (∀ (s : State) (x : Drain) (m : Nat × Nat) (rest : List (Nat × Nat)), s.pkg.ckBusy = some x → x.moves = m :: rest →
    (∀ y ∈ rest, y.1 ≠ m.2) → s.pkg.keys = [] → s.pkg.written = [] → s.pkg.poison = [] →
    m.1 + 65536 ≤ 2 ^ 42 → m.2 + 65536 ≤ 2 ^ 42 →
    ∃ s', exec (.checkpointDrainPage m.1) s = .next s' ∧
      s'.mem = s.mem.writeAll ((upFrom m.2 65536).zip ((upFrom m.1 65536).map s.byte)) ∧
      s'.pkg =
        { s.pkg with
          ckBusy := if rest = [] then none else some { x with moves := rest }
          ckDone := s.pkg.ckDone + 1 }) ∧
  ∀ (s : State) (d core : Nat),
    (s.tickDue d core = false → exec (.energyTick d core) s = .next s) ∧
    (∀ first others, s.tickDue d core = true → s.tickShares d core = first :: others →
      let perus := (s.core d core).perus.toNat
      let w := ((first :: others).map fun x => x.2).sum
      ∃ s', exec (.energyTick d core) s = .next s' ∧
        s'.core d core = { s.core d core with lastTick := (s.core d core).lastTick + 1 } ∧
        (∀ x ∈ others, s'.ctx x.1 = (s.ctx x.1).addEnergy (perus * x.2 / w)) ∧
        s'.ctx first.1 = (s.ctx first.1).addEnergy (perus - (others.map fun x => perus * x.2 / w).sum))

/-- R444 to R452: `trace` writes one record of its thread while TRCTL.SW is 1, or counts it as dropped; a record goes from
its cluster's buffer to the die's ring in memory; a core whose warps all wait may be gated, with its cluster when all four
are, and wakes again; `wpset` sets a watchpoint of its die, FIELD for a nonzero reserved field. -/
def Obligations.trace_gating_watchpoints : Prop :=
  (∀ (c : Ctl) (s : State) (e : Env) (t : Thread), (e.parts c).head? = some t →
    let k := s.cluster e.w.die (e.w.core / 4)
    (∀ a id, Normal s e (Form.short c [a] []) noHold →
      let f := Form.short c [a] []
      ((s.die e.w.die).trctl.getLsbD 0 = false → Completes (.trace c a id) s e .none e.g.icnt (e.past s f)) ∧
      ((s.die e.w.die).trctl.getLsbD 0 = true → e.parts c = [t] → k.dropped = 0 → k.trace.length < traceRoom →
        let x := e.read s t a
        ∃ s', exec (.trace c a id) s = .next s' ∧
          Frame
            (s.setCluster
              { k with trace := k.trace ++
                  [[BitVec.ofNat 32 (256 * e.w.die + 65536 * (if e.w.service then 255 else e.w.core)),
                    BitVec.ofNat 32 (e.g.tag.toNat + 65536 * id.toNat), e.tnum t, e.iss.pc.extractLsb' 0 32,
                    BitVec.ofNat 32 s.now] ++ (if e.triple then [x.s0, x.s1, x.s2] else [x.s0, 0, 0])] })
            s' e .none e.g.icnt (e.past s f)) ∧
      ((s.die e.w.die).trctl.getLsbD 0 = true → e.parts c = [t] → k.dropped ≠ 0 ∨ traceRoom ≤ k.trace.length →
        ∃ s', exec (.trace c a id) s = .next s' ∧
          Frame (s.setCluster { k with dropped := k.dropped + 1 }) s' e .none e.g.icnt (e.past s f))) ∧
    (∀ n a, Normal s e (Form.sup c (vrun a 4) []) noHold →
      let f := Form.sup c (vrun a 4) []
      let w := fun (i : Nat) => e.read0 s t (.v (a + i))
      let lawful := (w 0).extractLsb' 0 6 = 0 ∧ (w 1).extractLsb' 19 13 = 0
      (lawful →
        ∃ s', exec (.wpset c n a) s = .next s' ∧
          Frame
            (s.setDie
              { s.die e.w.die with watches := setAt (s.die e.w.die).watchList n.toNat (Watch.mk
                  ((w 0).toNat + ((w 1).extractLsb' 0 16).toNat * 2 ^ 32) ((w 1).getLsbD 16) ((w 1).getLsbD 17)
                  ((w 1).getLsbD 18) (w 3 ++ w 2)) })
            s' e .none e.g.icnt (e.past s f)) ∧
      (¬lawful →
        Completes (.wpset c n a) s e .none e.g.icnt (e.each s f (lowest t (fun u _ => fieldTrap e s u) fun _ v => v))))) ∧
  ∀ (s : State) (d : Nat),
    (∀ cl r rest, (s.cluster d cl).trace = r :: rest → PlainMemory s →
      let di := s.die d
      let at' := di.trbase.toNat * 2 ^ 16 + 32 * (di.trhead.toNat % 2 ^ ((di.trctl.extractLsb' 8 4).toNat + 15))
      let bytes := (r.map fun x => leBytes 4 x.toNat).flatten
      ∃ s' c', exec (.traceDrain d cl) s = .next s' ∧
        s'.mem = s.mem.writeAll ((upFrom at' bytes.length).zip bytes) ∧ (s'.die d).trhead = di.trhead + 1 ∧
        s'.cluster d cl = c' ∧ c'.dropped = 0 ∧
        ((s.cluster d cl).dropped = 0 → c'.trace = rest) ∧
        ((s.cluster d cl).dropped ≠ 0 → ∃ x, c'.trace = rest ++ [x] ∧ (x.getD 0 0).extractLsb' 0 8 = 3 ∧
          x.getD 5 0 = BitVec.ofNat 32 (s.cluster d cl).dropped)) ∧
    (∀ core,
      let k := s.cluster d (core / 4)
      (s.mayGate d core = true →
        ∃ s', exec (.powerGate d core) s = .next s' ∧ s'.core d core = { s.core d core with gated := true } ∧
          s'.warps = s.warps ∧ s'.mem = s.mem ∧
          s'.cluster d (core / 4) =
            if k.idle = true ∧ ∀ i ∈ List.range 4, 4 * (core / 4) + i ≠ core →
                (s.core d (4 * (core / 4) + i)).gated = true then
              { k with
                gated := true
                trace := []
                dropped := k.dropped + k.trace.length }
            else k) ∧
      ((s.core d core).gated = true →
        ∃ s' x, exec (.powerWake d core) s = .next s' ∧ s'.core d core = { s.core d core with gated := false } ∧
          s'.warps = s.warps ∧ s'.mem = s.mem ∧
          s'.cluster d (core / 4) =
            if k.gated then
              { k with
                gated := false
                trace := x :: k.trace
                dropped := 0 }
            else k))

/-- R436, R437, R440 to R443, R453, R454, R462: the `keyset` words set the key of a context of their function, FIELD
otherwise; boot loads the images that verify, measures them in load order, and starts the functions whose service-warp code
verified, with their chains and their service warps (R280), and a first stage that does not verify leaves the package without
an answer; an error fences the functions it reaches and stops their clusters, and a fenced function starts anew; a flit whose
check fails is retried up to eight times; loss of power ends the state, and the leaf counter never falls. -/
def Obligations.keys_functions_power : Prop :=
  (∀ (c : Ctl) (a : Opd) (s : State) (e : Env) (t : Thread), (e.parts c).head? = some t →
    let va := e.read0 s t a
    let tag := va.extractLsb' 0 12
    let lawful := va.extractLsb' 12 20 = 0 ∧ tag ≠ 0 ∧ s.tagInFunc e tag = true
    ∀ i f k next,
      (i = Instr.keysetPlain c a ∧ f = Form.sup c [a] [] ∧ k = .plain ∧ next = s.pkg.nextKey) ∨
        (i = Instr.keysetGen c a ∧ f = Form.sup c [a] [] ∧ k = .keyed (2 * s.pkg.nextKey + 1) ∧
          next = s.pkg.nextKey + 1) ∨
        (∃ b, i = Instr.keysetLoad c a b ∧ f = Form.sup c (a :: vrun b 16) [] ∧
          k = .keyed (2 * e.keyPair s t b + 2) ∧ next = s.pkg.nextKey) →
      Normal s e f noHold →
      (lawful →
        ∃ s', exec i s = .next s' ∧
          Frame
            { s with pkg :=
                { s.pkg with
                  keys := (tag, k) :: s.pkg.keys.filter fun x => x.1 ≠ tag
                  nextKey := next } } s' e .none e.g.icnt (e.past s f)) ∧
      (¬lawful →
        Completes i s e .none e.g.icnt (e.each s f (lowest t (fun u _ => fieldTrap e s u) fun _ v => v)))) ∧
  ∀ (s : State),
    (∀ c : BootConfig, s.pkg.booted = true ∨ c.ok = false ∨ s.clustersExist c = false → exec (.boot c) s = .next s) ∧
    (∀ c : BootConfig, s.pkg.booted = false → c.ok = true → s.clustersExist c = true →
      let verified := fun (x : Image) => hssVerify s.pkg.imageKey x.signature x.bytes
      let loaded := c.stage :: (c.images ++ c.funcs.map fun f => f.1.service).filter verified
      (verified c.stage = false → exec (.boot c) s = .next { s with pkg := { s.pkg with powered := true } }) ∧
      (verified c.stage = true →
        ∃ s', exec (.boot c) s = .next s' ∧ s'.pkg.powered = true ∧ s'.pkg.booted = true ∧
          s'.mem = (loaded.foldl State.loadImage s).mem ∧ s'.pkg.entab = c.entab ∧ s'.pkg.leaf = s.pkg.leaf ∧
          (s'.ctx 0).mptroot = c.root ∧ s'.pkg.chain = loaded.foldl (fun m x => extendChain m x.bytes) 0 ∧
          s'.pkg.funcs.length = c.funcs.length ∧ (∀ w ∈ s.warps, w ∈ s'.warps) ∧
          ∀ f ∈ s'.pkg.funcs,
            (f.fenced = false ∧ ∃ x ∈ c.funcs, f.cfg = x.1 ∧ f.started = verified x.1.service ∧
              f.chain = extendChain s'.pkg.chain x.2) ∧
            ∀ x, f.started = true → f.cfg.entry = some x → ∀ y ∈ f.cfg.clusters,
              ∃ w ∈ s'.warps, w.service = true ∧ w.die = y.1 ∧ w.core = 4 * y.2 ∧
                ∀ t ∈ w.threads, t.super = true ∧ t.pc = x.pc)) ∧
    ((s.pkg.funcs.map fun f => f.num).Nodup →
      (∀ x, ∃ s', exec (.functionFence x) s = .next s' ∧ s'.mem = s.mem ∧
        (∀ f ∈ s'.pkg.funcs, f.num ∈ s.fencedBy x → f.fenced = true) ∧
        (∀ f, f.num ∉ s.fencedBy x → (f ∈ s'.pkg.funcs ↔ f ∈ s.pkg.funcs)) ∧
        ∀ f ∈ s.pkg.funcs, f.fenced = false → f.num ∈ s.fencedBy x →
          ∀ y ∈ f.cfg.clusters, (s'.cluster y.1 y.2).stopped = true) ∧
      (∀ stall, ∃ s', exec (.thermalLimit stall true) s = .next s' ∧ s'.pkg.thermalStall = stall ∧ s'.mem = s.mem ∧
        ∀ f ∈ s'.pkg.funcs, f.fenced = true) ∧
      (∀ n p, (s.pkg.ports.find? fun p => p.port = n) = some p → 8 ≤ p.retries →
        ∃ s', exec (.priroFlitReceive n false) s = .next s' ∧ s'.mem = s.mem ∧
          ∀ f ∈ s'.pkg.funcs, f.num = p.fn → f.fenced = true) ∧
      (∀ f ∈ s.pkg.funcs, f.fenced = true →
        ∃ s', exec (.firmwareReinitialisation f.num) s = .next s' ∧ s'.mem = s.mem ∧ s'.warps = s.warps ∧
          { f with fenced := false } ∈ s'.pkg.funcs ∧
          ∀ y ∈ f.cfg.clusters, (s'.cluster y.1 y.2).handles = [] ∧ (s'.cluster y.1 y.2).table = [] ∧
            (s'.cluster y.1 y.2).pass = none ∧ (s'.cluster y.1 y.2).lantern = none ∧
            (s'.cluster y.1 y.2).stopped = false)) ∧
    (∀ stall, exec (.thermalLimit stall false) s = .next { s with pkg := { s.pkg with thermalStall := stall } }) ∧
    (∀ n p ok, (s.pkg.ports.find? fun p => p.port = n) = some p → ok = true ∨ p.retries < 8 →
      ∃ s', exec (.priroFlitReceive n ok) s = .next s' ∧ s' = { s with pkg := { s.pkg with ports := s'.pkg.ports } } ∧
        (s'.pkg.ports.find? fun p => p.port = n) = some { p with retries := if ok then 0 else p.retries + 1 }) ∧
    (∃ s', exec .powerLoss s = .next s' ∧ s'.warps = [] ∧ s'.blocks = [] ∧ s'.grids = [] ∧ s'.mem = [] ∧
      s'.pkg.powered = false ∧ s'.pkg.booted = false ∧ s'.pkg.imageKey = s.pkg.imageKey ∧ s'.inputs = s.inputs ∧
      (s'.pkg.leaf = s.pkg.leaf ∨ s'.pkg.leaf = s.pkg.leaf + 1))

/-! ## Every word and every step -/

namespace Sys2Proof.Claims

/-- What a step makes of the execution of an instruction: the state that the instruction answers, with what follows at once
and the time that passes. -/
def stepOf (s : State) (o : Host.Outcome State Fault Refusal) : Host.Outcome State Fault Refusal :=
  match o with
  | .next t => .next (s.after t)
  | .fault f => .fault f
  | .refused r => .refused r

/-- The state in which the threads of a group have passed a header (R24, R74). -/
def pastHeader (s : State) (g : Issue) (h : Header) : State :=
  g.thrs.foldl (fun s k => s.updThread g.wid k (Header.enter h g.pc)) s

/-- The machine moves by itself: it has power, no step's time is up, and the outside does nothing, or a launch whose tables
lie on lines that must be waited for (R320). -/
structure Free (s : State) : Prop where
  power : s.pkg.powered = true
  urgent : s.urgent = []
  quiet : ∀ x, s.inputs.head? = some x → s.inputLines x ≠ []

/-- A group stands chosen by the scheduler. -/
structure Chosen (s : State) (g : Issue) (t : Thread) (e : Env) : Prop where
  free : Free s
  choice : s.choose = .group g
  head : s.thread? g.wid (g.thrs.headD 0) = some t
  env : s.envAt g = some e

end Sys2Proof.Claims

/-- R70 to R72, R74, R75, R77, R86: one step. Inside a span, the step of a chosen group is exec of the instruction that the
word at its PC decodes to. At a legal header whose WAIT is satisfied, its threads pass the header and the step is exec of the
first word of the span, for them and the threads that already stand there; where a flag of WAIT is not zero, they stall there
and nothing issues. A step of another agent, or of the outside, is exec of that step; a step whose time is up (R219, R431)
comes before all others. Then what follows at once, and time, passes. Without power the machine stops, but for boot. -/
def Obligations.a_step_runs_the_decoded_instruction : Prop :=
  (∀ (s : State) (g : Issue) (t : Thread) (e : Env) (w : DWord) (i : Instr), Chosen s g t e → t.cl.pos ≠ 0 →
    s.fetchWord e.g.tag g.pc = some w → decode w = .ok i →
    i.wf = true ∧ step s = stepOf s (exec i { s with cur := some g })) ∧
  (∀ (s : State) (g : Issue) (t : Thread) (e : Env) (x w : DWord) (h : Header) (i : Instr), Chosen s g t e → t.cl.pos = 0 →
    s.fetchWord e.g.tag g.pc = some x → isHeader x = true → headerOf x = some h →
    (∀ n < 12, h.wait.getLsbD n = true → e.w.flags.getD n 0 = 0) →
    (pastHeader s g h).fetchWord e.g.tag (nextPc g.pc) = some w → decode w = .ok i →
    step s = stepOf s (exec i
      { pastHeader s g h with cur := some ((pastHeader s g h).groupAt g.wid (nextPc g.pc)) })) ∧
  (∀ (s : State) (g : Issue) (t : Thread) (e : Env) (x : DWord) (h : Header), Chosen s g t e → t.cl.pos = 0 →
    s.fetchWord e.g.tag g.pc = some x → isHeader x = true → headerOf x = some h →
    (∃ n < 12, h.wait.getLsbD n = true ∧ e.w.flags.getD n 0 ≠ 0) →
    ∃ s1 : State, s1 = { s with warps := s1.warps } ∧ step s = .next (s.after s1) ∧
      ∀ u ∈ e.group, e.w.Sound → s1.thread? g.wid u.idx = some
        { u with
          st := .stalled
          wait := some (.header h.wait) }) ∧
  (∀ (s : State) (i : Instr), Free s → s.choose = .event i → step s = stepOf s (exec i s)) ∧
  (∀ (s : State), Free s → s.choose = .idle → step s = .next (s.after s)) ∧
  (∀ (s : State) (i : Instr) (rest : List Instr), s.pkg.powered = true → s.urgent = i :: rest →
    step s = stepOf s (exec i s)) ∧
  (∀ (s : State) (x : Input) (rest : List Input), s.inputs = x :: rest → s.urgent = [] ∨ s.pkg.powered = false →
    s.pkg.powered = true ∨ (∃ c, x = .act (.boot c)) → s.inputLines x = [] →
    let s1 := { s with inputs := rest }
    step s = match x with
      | .act i => stepOf s1 (exec i s1)
      | .allocate tag lines => .next (s1.after (s1.allocate tag lines))
      | .softError site correctable => .next (s1.after (s1.strike site correctable))
      | .freeKept bids => .next (s1.after (s1.freeKept bids))) ∧
  (∀ (s : State), s.pkg.powered = false → (∀ c, s.inputs.head? ≠ some (.act (.boot c))) → step s = .fault .poweredOff)

/-- Table 4.4, Table 4.7, Table 10.1: words of the spec's own examples, and what they decode to. -/
def Obligations.words_of_the_spec_decode : Prop :=
  let c : Ctl := { pred := 0, neg := false, rnd := .dflt, fsel := false, reuse := false }
  decode 0x00001C02FFFFB001 = .ok (.iadd c (.v 7) (.v 2) (.imm 0xFFFFB) false) ∧
  decode 0x0430040200C04600 = .ok (.fma { c with pred := 3 } (.v 1) (.v 2) (.v 3) (.v 4) false false) ∧
  decode 0x04E0080501800002 = .ok (.fcmp c 2 .lt (.v 5) (.reg (.v 6))) ∧
  decode 0x10600000_00005000 = .ok (.trap c 5) ∧
  decode 0x18000002_00000000 = .ok (.join c 2) ∧
  decode 0x20001404_16010000 = .ok (.ld c { data := .v 5, base := .v 4, win := .sp, width := .f32, off := 0x010 }) ∧
  decode 0x21201000_00001001 = .ok (.ctlset c .imask (.imm 1)) ∧
  decode 0x28202809_00003000 = .ok (.accrd c 10 9 3 0) ∧
  decode 0x3C000000_00000001 = .ok (.eretRegion c)

/-- Every instruction has one word: the word that `encode` gives a well-formed instruction decodes to that instruction, with
every operand at every value that its encoding admits (Tables 4.4 to 4.9, 10.1, and each entry). -/
def Obligations.decode_of_encode : Prop :=
  ∀ i w, i.wf = true → encode i = some w → decode w = .ok i

/-- Every word has one meaning: a word that decodes to an instruction is the word of that instruction, which is well formed;
no two words name one instruction, and no bit of a word goes unread (R70, R84, R85). -/
def Obligations.encode_of_decode : Prop :=
  ∀ i w, decode w = .ok i → i.wf = true ∧ encode i = some w

/-- The invariant of the machine, kept by every step from every state that has it: system memory, the spill windows and block
shared memory stand in their canonical form; a warp's threads are distinct, with as many registers as its launch gave it,
eight predicates and at most four entries on the return stack; a warp has twelve flags and twelve mask registers, a block 64
block registers at its home and in every replica; an outstanding instruction has a number already given. -/
def Obligations.every_step_keeps_the_invariant : Prop :=
  ∀ s s', s.Inv → step s = .next s' → s'.Inv

/-- The machine after reset has the invariant, and stands as the spec says: every core with a register region of 1,536 KiB
and a shared region of 512 KiB (R208), TSCTL 0; every die with a bivouac area of 64 MiB, epoch 0, nothing held, queued or
quarantined; every sign register FREE and every table empty; every context's registers 0; the device chain 256 zero bits
(R442). A thread starts with its registers and C 0, CANCELTH 8, nothing on its stacks, no trap recorded, in forward mode,
CPYLAST FFFF_FFFFh, and what its launch record gives. Memory reads 0 and the cycle counter stands at 0: these two are the
model's choice (log 1, log 3), the spec gives no value. -/
def Obligations.reset_values : Prop :=
  State.reset.Inv ∧
  (∀ d k, 1024 + 512 * (State.reset.core d k).regStep = 1536 ∧ 256 * (State.reset.core d k).shStep = 512 ∧
    (State.reset.core d k).tsctl = 0 ∧ (State.reset.core d k).slice = none) ∧
  (∀ d, (State.reset.die d).bivSize = 64 ∧ (State.reset.die d).qepoch = 0 ∧ (State.reset.die d).quarantine = [] ∧
    (State.reset.die d).copies = [] ∧ (State.reset.die d).nodes = []) ∧
  (∀ d cl q, (State.reset.sign d cl q).st = .free ∧ (State.reset.cluster d cl).table = [] ∧
    (State.reset.cluster d cl).lantern = none ∧ (State.reset.cluster d cl).queue = []) ∧
  (∀ tag, (State.reset.ctx tag).sptroot = 0 ∧ (State.reset.ctx tag).energy = 0 ∧ (State.reset.ctx tag).sat = false ∧
    (State.reset.ctx tag).ltbase = 0) ∧
  State.reset.pkg.chain = 0 ∧ State.reset.grids = [] ∧ State.reset.warps = [] ∧ State.reset.blocks = [] ∧
  (∀ i pc n lr tag,
    let t := Thread.start i pc n lr tag
    (∀ k < n, t.v[k]? = some (.all 0)) ∧ t.c = 0 ∧ t.istat = 0 ∧ t.fpstat = 0 ∧ t.fpmask = 0 ∧ t.cancelth = 8 ∧
      t.imask = lr.imask ∧ t.handler = lr.handler ∧ t.tapecap = lr.tapeCap ∧ t.rs = [] ∧ t.rsp = 0 ∧ t.dsp = 0 ∧
      t.rev = false ∧ t.tapepos = 0 ∧ t.cpylast = 0xFFFFFFFF ∧ t.trap = TrapRegs.zero ∧ t.epc = 0 ∧ t.super = false) ∧
  (∀ a, State.reset.byte a = 0) ∧ State.reset.now = 0

/-- Every instruction and every step of another agent answers a next state, from every state: none is refused and none
faults. What a machine without power does is said of the step. -/
def Obligations.every_instruction_answers_a_next_state : Prop :=
  ∀ i s, ∃ s', exec i s = .next s'
end

