-- ==== Sys2Proof/Laws/Lists.lean ====
section
/-! SUPPORT. Lists with keys: what `mapIf`, `dropIf`, `putBy`, `setAt`, `setKey` and `lookupD` give. -/

namespace Sys2Proof.Machine

variable {α β : Type}

@[simp] theorem mapIf_nil (p : α → Bool) (f : α → α) : mapIf p f [] = [] := rfl

@[simp] theorem mapIf_cons (p : α → Bool) (f : α → α) (x : α) (l : List α) :
    mapIf p f (x :: l) = (if p x then f x else x) :: mapIf p f l := rfl

@[simp] theorem length_mapIf (p : α → Bool) (f : α → α) (l : List α) : (mapIf p f l).length = l.length := by
  simp [mapIf]

theorem map_mapIf (g : α → β) (p : α → Bool) (f : α → α) (h : ∀ x, p x = true → g (f x) = g x) (l : List α) :
    (mapIf p f l).map g = l.map g := by
  induction l with
  | nil => rfl
  | cons x l ih => by_cases hp : p x <;> simp_all [mapIf]

theorem mem_mapIf {p : α → Bool} {f : α → α} {l : List α} {y : α} :
    y ∈ mapIf p f l ↔ ∃ x ∈ l, (if p x then f x else x) = y := by
  simp [mapIf]

theorem find_mapIf_same (p q : α → Bool) (f : α → α) (l : List α) (hp : ∀ x ∈ l, q x = true → p x = true)
    (hf : ∀ x ∈ l, p x = true → q (f x) = q x) : (mapIf p f l).find? q = (l.find? q).map f := by
  induction l with
  | nil => rfl
  | cons x l ih =>
    have ih := ih (fun y hy => hp y (List.mem_cons_of_mem _ hy)) (fun y hy => hf y (List.mem_cons_of_mem _ hy))
    have h1 := hp x (List.mem_cons_self ..)
    have h2 := hf x (List.mem_cons_self ..)
    by_cases hq : q x = true
    · simp [h1 hq, h2 (h1 hq), hq]
    · by_cases hpx : p x = true
      · simp [hpx, h2 hpx, hq, ih]
      · simp [hpx, hq, ih]

theorem find_mapIf_other (p q : α → Bool) (f : α → α) (l : List α) (hp : ∀ x ∈ l, p x = true → q x = false)
    (hf : ∀ x ∈ l, p x = true → q (f x) = q x) : (mapIf p f l).find? q = l.find? q := by
  induction l with
  | nil => rfl
  | cons x l ih =>
    have ih := ih (fun y hy => hp y (List.mem_cons_of_mem _ hy)) (fun y hy => hf y (List.mem_cons_of_mem _ hy))
    have h1 := hp x (List.mem_cons_self ..)
    have h2 := hf x (List.mem_cons_self ..)
    by_cases hpx : p x = true
    · have := h1 hpx
      simp [hpx, h2 hpx, this, ih]
    · simp [hpx, List.find?_cons, ih]

theorem find_mapIf_any (p q : α → Bool) (f : α → α) (l : List α) (hf : ∀ x, q (f x) = q x) :
    (mapIf p f l).find? q = (l.find? q).map fun x => if p x then f x else x := by
  induction l with
  | nil => rfl
  | cons x l ih => by_cases hp : p x = true <;> by_cases hq : q x = true <;> simp [hp, hf, hq, ih]

@[simp] theorem length_setAt (l : List α) (n : Nat) (x : α) : (setAt l n x).length = l.length := by
  induction l generalizing n with
  | nil => rfl
  | cons y l ih => cases n <;> simp [setAt, ih]

theorem getElem?_setAt (l : List α) (n m : Nat) (x : α) :
    (setAt l n x)[m]? = if m = n ∧ n < l.length then some x else l[m]? := by
  induction l generalizing n m with
  | nil => simp [setAt]
  | cons y l ih =>
    cases n with
    | zero => cases m <;> simp [setAt]
    | succ n => cases m <;> simp [setAt, ih]

theorem getElem?_setAt_same {l : List α} {n : Nat} (x : α) (h : n < l.length) : (setAt l n x)[n]? = some x := by
  rw [getElem?_setAt, if_pos ⟨rfl, h⟩]

theorem getElem?_setAt_other (l : List α) {n m : Nat} (x : α) (h : m ≠ n) : (setAt l n x)[m]? = l[m]? := by
  simp [getElem?_setAt, h]

theorem find_putBy_same (p : α → Bool) (x : α) (hx : p x = true) (l : List α) : (putBy p x l).find? p = some x := by
  induction l with
  | nil => simp [putBy, hx]
  | cons y l ih => by_cases h : p y = true <;> simp [putBy, h, hx, ih]

theorem find_putBy_other (p q : α → Bool) (x : α) (hx : q x = false) (hpq : ∀ y, p y = true → q y = false)
    (l : List α) : (putBy p x l).find? q = l.find? q := by
  induction l with
  | nil => simp [putBy, hx]
  | cons y l ih =>
    by_cases h : p y = true
    · simp [putBy, h, hx, hpq y h]
    · simp [putBy, h, List.find?_cons, ih]

theorem mem_putBy {p : α → Bool} {x y : α} {l : List α} (h : y ∈ putBy p x l) : y = x ∨ y ∈ l := by
  induction l with
  | nil => exact Or.inl (List.mem_singleton.mp h)
  | cons z l ih =>
    unfold putBy at h
    split at h
    · exact (List.mem_cons.mp h).imp_right (List.mem_cons_of_mem _)
    · rcases List.mem_cons.mp h with h | h
      · exact Or.inr (h ▸ List.mem_cons_self ..)
      · exact (ih h).imp_right (List.mem_cons_of_mem _)

theorem lookupD_setKey_same (k : Nat) (d v : α) (l : List (Nat × α)) : lookupD k d (setKey k v l) = v := by
  have := find_putBy_same (fun x : Nat × α => decide (x.1 = k)) (k, v) (by simp) l
  simp only [lookupD, setKey]
  rw [this]

theorem lookupD_setKey_other {k j : Nat} (h : j ≠ k) (d v : α) (l : List (Nat × α)) :
    lookupD j d (setKey k v l) = lookupD j d l := by
  have := find_putBy_other (fun x : Nat × α => decide (x.1 = k)) (fun x => decide (x.1 = j)) (k, v)
    (by simpa using fun e => h e.symm) (by intro y hy; simp at hy ⊢; omega) l
  simp only [lookupD, setKey]
  rw [this]

/-- A property of the state that every step of a fold keeps. -/
theorem foldl_keeps {σ : Type} (P : σ → Prop) (f : σ → α → σ) (hf : ∀ s x, P s → P (f s x)) (l : List α) (s : σ)
    (h : P s) : P (l.foldl f s) := by
  induction l generalizing s with
  | nil => exact h
  | cons x l ih => exact ih _ (hf _ _ h)

/-- A value that no step of a fold changes. -/
theorem foldl_same {σ γ : Type} (g : σ → γ) (f : σ → α → σ) (hf : ∀ s x, g (f s x) = g s) (l : List α) (s : σ) :
    g (l.foldl f s) = g s := by
  induction l generalizing s with
  | nil => rfl
  | cons x l ih => rw [List.foldl_cons, ih, hf]

/-- A fold that changes only one part of a state. -/
theorem foldl_part {σ τ : Type} (put : σ → τ → σ) (get : σ → τ) (hpg : ∀ s, put s (get s) = s)
    (hgp : ∀ s a, get (put s a) = a) (hpp : ∀ s a b, put (put s a) b = put s b) (f : σ → α → σ) (hf : ∀ s x, f s x = put s (get (f s x)))
    (l : List α) (s : σ) : l.foldl f s = put s (get (l.foldl f s)) := by
  induction l generalizing s with
  | nil => exact (hpg s).symm
  | cons x l ih => rw [List.foldl_cons, ih, hf s x, hpp, hgp]

end Sys2Proof.Machine
end

