-- ==== Sys2Proof/Laws/State.lean ====
section
/-! SUPPORT. What each update of the state does to each field: one lemma per field per update. -/

namespace Sys2Proof.Machine

/-! ## Fields that an update leaves -/

@[simp] theorem State.setWarp_grids (s : State) (w : Warp) : (s.setWarp w).grids = s.grids := rfl
@[simp] theorem State.setWarp_blocks (s : State) (w : Warp) : (s.setWarp w).blocks = s.blocks := rfl
@[simp] theorem State.setWarp_cores (s : State) (w : Warp) : (s.setWarp w).cores = s.cores := rfl
@[simp] theorem State.setWarp_clusters (s : State) (w : Warp) : (s.setWarp w).clusters = s.clusters := rfl
@[simp] theorem State.setWarp_dies (s : State) (w : Warp) : (s.setWarp w).dies = s.dies := rfl
@[simp] theorem State.setWarp_ctxs (s : State) (w : Warp) : (s.setWarp w).ctxs = s.ctxs := rfl
@[simp] theorem State.setWarp_mem (s : State) (w : Warp) : (s.setWarp w).mem = s.mem := rfl
@[simp] theorem State.setWarp_tags (s : State) (w : Warp) : (s.setWarp w).tags = s.tags := rfl
@[simp] theorem State.setWarp_pkg (s : State) (w : Warp) : (s.setWarp w).pkg = s.pkg := rfl
@[simp] theorem State.setWarp_out (s : State) (w : Warp) : (s.setWarp w).out = s.out := rfl
@[simp] theorem State.setWarp_now (s : State) (w : Warp) : (s.setWarp w).now = s.now := rfl
@[simp] theorem State.setWarp_fresh (s : State) (w : Warp) : (s.setWarp w).fresh = s.fresh := rfl
@[simp] theorem State.setWarp_uid (s : State) (w : Warp) : (s.setWarp w).uid = s.uid := rfl
@[simp] theorem State.setWarp_cur (s : State) (w : Warp) : (s.setWarp w).cur = s.cur := rfl
@[simp] theorem State.setWarp_inputs (s : State) (w : Warp) : (s.setWarp w).inputs = s.inputs := rfl

@[simp] theorem State.updWarp_grids (s : State) (wid : Nat) (f : Warp → Warp) : (s.updWarp wid f).grids = s.grids := rfl
@[simp] theorem State.updWarp_blocks (s : State) (wid : Nat) (f : Warp → Warp) : (s.updWarp wid f).blocks = s.blocks := rfl
@[simp] theorem State.updWarp_cores (s : State) (wid : Nat) (f : Warp → Warp) : (s.updWarp wid f).cores = s.cores := rfl
@[simp] theorem State.updWarp_clusters (s : State) (wid : Nat) (f : Warp → Warp) : (s.updWarp wid f).clusters = s.clusters := rfl
@[simp] theorem State.updWarp_dies (s : State) (wid : Nat) (f : Warp → Warp) : (s.updWarp wid f).dies = s.dies := rfl
@[simp] theorem State.updWarp_ctxs (s : State) (wid : Nat) (f : Warp → Warp) : (s.updWarp wid f).ctxs = s.ctxs := rfl
@[simp] theorem State.updWarp_mem (s : State) (wid : Nat) (f : Warp → Warp) : (s.updWarp wid f).mem = s.mem := rfl
@[simp] theorem State.updWarp_tags (s : State) (wid : Nat) (f : Warp → Warp) : (s.updWarp wid f).tags = s.tags := rfl
@[simp] theorem State.updWarp_pkg (s : State) (wid : Nat) (f : Warp → Warp) : (s.updWarp wid f).pkg = s.pkg := rfl
@[simp] theorem State.updWarp_out (s : State) (wid : Nat) (f : Warp → Warp) : (s.updWarp wid f).out = s.out := rfl
@[simp] theorem State.updWarp_now (s : State) (wid : Nat) (f : Warp → Warp) : (s.updWarp wid f).now = s.now := rfl
@[simp] theorem State.updWarp_fresh (s : State) (wid : Nat) (f : Warp → Warp) : (s.updWarp wid f).fresh = s.fresh := rfl
@[simp] theorem State.updWarp_uid (s : State) (wid : Nat) (f : Warp → Warp) : (s.updWarp wid f).uid = s.uid := rfl
@[simp] theorem State.updWarp_cur (s : State) (wid : Nat) (f : Warp → Warp) : (s.updWarp wid f).cur = s.cur := rfl
@[simp] theorem State.updWarp_inputs (s : State) (wid : Nat) (f : Warp → Warp) : (s.updWarp wid f).inputs = s.inputs := rfl

@[simp] theorem State.updThread_grids (s : State) (wid i : Nat) (f : Thread → Thread) : (s.updThread wid i f).grids = s.grids := rfl
@[simp] theorem State.updThread_blocks (s : State) (wid i : Nat) (f : Thread → Thread) : (s.updThread wid i f).blocks = s.blocks := rfl
@[simp] theorem State.updThread_cores (s : State) (wid i : Nat) (f : Thread → Thread) : (s.updThread wid i f).cores = s.cores := rfl
@[simp] theorem State.updThread_clusters (s : State) (wid i : Nat) (f : Thread → Thread) : (s.updThread wid i f).clusters = s.clusters := rfl
@[simp] theorem State.updThread_dies (s : State) (wid i : Nat) (f : Thread → Thread) : (s.updThread wid i f).dies = s.dies := rfl
@[simp] theorem State.updThread_ctxs (s : State) (wid i : Nat) (f : Thread → Thread) : (s.updThread wid i f).ctxs = s.ctxs := rfl
@[simp] theorem State.updThread_mem (s : State) (wid i : Nat) (f : Thread → Thread) : (s.updThread wid i f).mem = s.mem := rfl
@[simp] theorem State.updThread_tags (s : State) (wid i : Nat) (f : Thread → Thread) : (s.updThread wid i f).tags = s.tags := rfl
@[simp] theorem State.updThread_pkg (s : State) (wid i : Nat) (f : Thread → Thread) : (s.updThread wid i f).pkg = s.pkg := rfl
@[simp] theorem State.updThread_out (s : State) (wid i : Nat) (f : Thread → Thread) : (s.updThread wid i f).out = s.out := rfl
@[simp] theorem State.updThread_now (s : State) (wid i : Nat) (f : Thread → Thread) : (s.updThread wid i f).now = s.now := rfl
@[simp] theorem State.updThread_fresh (s : State) (wid i : Nat) (f : Thread → Thread) : (s.updThread wid i f).fresh = s.fresh := rfl
@[simp] theorem State.updThread_uid (s : State) (wid i : Nat) (f : Thread → Thread) : (s.updThread wid i f).uid = s.uid := rfl
@[simp] theorem State.updThread_cur (s : State) (wid i : Nat) (f : Thread → Thread) : (s.updThread wid i f).cur = s.cur := rfl
@[simp] theorem State.updThread_inputs (s : State) (wid i : Nat) (f : Thread → Thread) : (s.updThread wid i f).inputs = s.inputs := rfl

@[simp] theorem State.updBlock_grids (s : State) (bid : Nat) (f : Block → Block) : (s.updBlock bid f).grids = s.grids := rfl
@[simp] theorem State.updBlock_warps (s : State) (bid : Nat) (f : Block → Block) : (s.updBlock bid f).warps = s.warps := rfl
@[simp] theorem State.updBlock_cores (s : State) (bid : Nat) (f : Block → Block) : (s.updBlock bid f).cores = s.cores := rfl
@[simp] theorem State.updBlock_clusters (s : State) (bid : Nat) (f : Block → Block) : (s.updBlock bid f).clusters = s.clusters := rfl
@[simp] theorem State.updBlock_dies (s : State) (bid : Nat) (f : Block → Block) : (s.updBlock bid f).dies = s.dies := rfl
@[simp] theorem State.updBlock_ctxs (s : State) (bid : Nat) (f : Block → Block) : (s.updBlock bid f).ctxs = s.ctxs := rfl
@[simp] theorem State.updBlock_mem (s : State) (bid : Nat) (f : Block → Block) : (s.updBlock bid f).mem = s.mem := rfl
@[simp] theorem State.updBlock_tags (s : State) (bid : Nat) (f : Block → Block) : (s.updBlock bid f).tags = s.tags := rfl
@[simp] theorem State.updBlock_pkg (s : State) (bid : Nat) (f : Block → Block) : (s.updBlock bid f).pkg = s.pkg := rfl
@[simp] theorem State.updBlock_out (s : State) (bid : Nat) (f : Block → Block) : (s.updBlock bid f).out = s.out := rfl
@[simp] theorem State.updBlock_now (s : State) (bid : Nat) (f : Block → Block) : (s.updBlock bid f).now = s.now := rfl
@[simp] theorem State.updBlock_fresh (s : State) (bid : Nat) (f : Block → Block) : (s.updBlock bid f).fresh = s.fresh := rfl
@[simp] theorem State.updBlock_uid (s : State) (bid : Nat) (f : Block → Block) : (s.updBlock bid f).uid = s.uid := rfl
@[simp] theorem State.updBlock_cur (s : State) (bid : Nat) (f : Block → Block) : (s.updBlock bid f).cur = s.cur := rfl
@[simp] theorem State.updBlock_inputs (s : State) (bid : Nat) (f : Block → Block) : (s.updBlock bid f).inputs = s.inputs := rfl

@[simp] theorem State.updGrid_blocks (s : State) (gid : Nat) (f : Grid → Grid) : (s.updGrid gid f).blocks = s.blocks := rfl
@[simp] theorem State.updGrid_warps (s : State) (gid : Nat) (f : Grid → Grid) : (s.updGrid gid f).warps = s.warps := rfl
@[simp] theorem State.updGrid_cores (s : State) (gid : Nat) (f : Grid → Grid) : (s.updGrid gid f).cores = s.cores := rfl
@[simp] theorem State.updGrid_clusters (s : State) (gid : Nat) (f : Grid → Grid) : (s.updGrid gid f).clusters = s.clusters := rfl
@[simp] theorem State.updGrid_dies (s : State) (gid : Nat) (f : Grid → Grid) : (s.updGrid gid f).dies = s.dies := rfl
@[simp] theorem State.updGrid_ctxs (s : State) (gid : Nat) (f : Grid → Grid) : (s.updGrid gid f).ctxs = s.ctxs := rfl
@[simp] theorem State.updGrid_mem (s : State) (gid : Nat) (f : Grid → Grid) : (s.updGrid gid f).mem = s.mem := rfl
@[simp] theorem State.updGrid_tags (s : State) (gid : Nat) (f : Grid → Grid) : (s.updGrid gid f).tags = s.tags := rfl
@[simp] theorem State.updGrid_pkg (s : State) (gid : Nat) (f : Grid → Grid) : (s.updGrid gid f).pkg = s.pkg := rfl
@[simp] theorem State.updGrid_out (s : State) (gid : Nat) (f : Grid → Grid) : (s.updGrid gid f).out = s.out := rfl
@[simp] theorem State.updGrid_now (s : State) (gid : Nat) (f : Grid → Grid) : (s.updGrid gid f).now = s.now := rfl
@[simp] theorem State.updGrid_fresh (s : State) (gid : Nat) (f : Grid → Grid) : (s.updGrid gid f).fresh = s.fresh := rfl
@[simp] theorem State.updGrid_uid (s : State) (gid : Nat) (f : Grid → Grid) : (s.updGrid gid f).uid = s.uid := rfl
@[simp] theorem State.updGrid_cur (s : State) (gid : Nat) (f : Grid → Grid) : (s.updGrid gid f).cur = s.cur := rfl
@[simp] theorem State.updGrid_inputs (s : State) (gid : Nat) (f : Grid → Grid) : (s.updGrid gid f).inputs = s.inputs := rfl

@[simp] theorem State.setCore_grids (s : State) (c : Core) : (s.setCore c).grids = s.grids := rfl
@[simp] theorem State.setCore_blocks (s : State) (c : Core) : (s.setCore c).blocks = s.blocks := rfl
@[simp] theorem State.setCore_warps (s : State) (c : Core) : (s.setCore c).warps = s.warps := rfl
@[simp] theorem State.setCore_clusters (s : State) (c : Core) : (s.setCore c).clusters = s.clusters := rfl
@[simp] theorem State.setCore_dies (s : State) (c : Core) : (s.setCore c).dies = s.dies := rfl
@[simp] theorem State.setCore_ctxs (s : State) (c : Core) : (s.setCore c).ctxs = s.ctxs := rfl
@[simp] theorem State.setCore_mem (s : State) (c : Core) : (s.setCore c).mem = s.mem := rfl
@[simp] theorem State.setCore_tags (s : State) (c : Core) : (s.setCore c).tags = s.tags := rfl
@[simp] theorem State.setCore_pkg (s : State) (c : Core) : (s.setCore c).pkg = s.pkg := rfl
@[simp] theorem State.setCore_out (s : State) (c : Core) : (s.setCore c).out = s.out := rfl
@[simp] theorem State.setCore_now (s : State) (c : Core) : (s.setCore c).now = s.now := rfl
@[simp] theorem State.setCore_fresh (s : State) (c : Core) : (s.setCore c).fresh = s.fresh := rfl
@[simp] theorem State.setCore_uid (s : State) (c : Core) : (s.setCore c).uid = s.uid := rfl
@[simp] theorem State.setCore_cur (s : State) (c : Core) : (s.setCore c).cur = s.cur := rfl
@[simp] theorem State.setCore_inputs (s : State) (c : Core) : (s.setCore c).inputs = s.inputs := rfl

@[simp] theorem State.setCluster_grids (s : State) (c : Cluster) : (s.setCluster c).grids = s.grids := rfl
@[simp] theorem State.setCluster_blocks (s : State) (c : Cluster) : (s.setCluster c).blocks = s.blocks := rfl
@[simp] theorem State.setCluster_warps (s : State) (c : Cluster) : (s.setCluster c).warps = s.warps := rfl
@[simp] theorem State.setCluster_cores (s : State) (c : Cluster) : (s.setCluster c).cores = s.cores := rfl
@[simp] theorem State.setCluster_dies (s : State) (c : Cluster) : (s.setCluster c).dies = s.dies := rfl
@[simp] theorem State.setCluster_ctxs (s : State) (c : Cluster) : (s.setCluster c).ctxs = s.ctxs := rfl
@[simp] theorem State.setCluster_mem (s : State) (c : Cluster) : (s.setCluster c).mem = s.mem := rfl
@[simp] theorem State.setCluster_tags (s : State) (c : Cluster) : (s.setCluster c).tags = s.tags := rfl
@[simp] theorem State.setCluster_pkg (s : State) (c : Cluster) : (s.setCluster c).pkg = s.pkg := rfl
@[simp] theorem State.setCluster_out (s : State) (c : Cluster) : (s.setCluster c).out = s.out := rfl
@[simp] theorem State.setCluster_now (s : State) (c : Cluster) : (s.setCluster c).now = s.now := rfl
@[simp] theorem State.setCluster_fresh (s : State) (c : Cluster) : (s.setCluster c).fresh = s.fresh := rfl
@[simp] theorem State.setCluster_uid (s : State) (c : Cluster) : (s.setCluster c).uid = s.uid := rfl
@[simp] theorem State.setCluster_cur (s : State) (c : Cluster) : (s.setCluster c).cur = s.cur := rfl
@[simp] theorem State.setCluster_inputs (s : State) (c : Cluster) : (s.setCluster c).inputs = s.inputs := rfl

@[simp] theorem State.setDie_grids (s : State) (d : Die) : (s.setDie d).grids = s.grids := rfl
@[simp] theorem State.setDie_blocks (s : State) (d : Die) : (s.setDie d).blocks = s.blocks := rfl
@[simp] theorem State.setDie_warps (s : State) (d : Die) : (s.setDie d).warps = s.warps := rfl
@[simp] theorem State.setDie_cores (s : State) (d : Die) : (s.setDie d).cores = s.cores := rfl
@[simp] theorem State.setDie_clusters (s : State) (d : Die) : (s.setDie d).clusters = s.clusters := rfl
@[simp] theorem State.setDie_ctxs (s : State) (d : Die) : (s.setDie d).ctxs = s.ctxs := rfl
@[simp] theorem State.setDie_mem (s : State) (d : Die) : (s.setDie d).mem = s.mem := rfl
@[simp] theorem State.setDie_tags (s : State) (d : Die) : (s.setDie d).tags = s.tags := rfl
@[simp] theorem State.setDie_pkg (s : State) (d : Die) : (s.setDie d).pkg = s.pkg := rfl
@[simp] theorem State.setDie_out (s : State) (d : Die) : (s.setDie d).out = s.out := rfl
@[simp] theorem State.setDie_now (s : State) (d : Die) : (s.setDie d).now = s.now := rfl
@[simp] theorem State.setDie_fresh (s : State) (d : Die) : (s.setDie d).fresh = s.fresh := rfl
@[simp] theorem State.setDie_uid (s : State) (d : Die) : (s.setDie d).uid = s.uid := rfl
@[simp] theorem State.setDie_cur (s : State) (d : Die) : (s.setDie d).cur = s.cur := rfl
@[simp] theorem State.setDie_inputs (s : State) (d : Die) : (s.setDie d).inputs = s.inputs := rfl

@[simp] theorem State.setCtx_grids (s : State) (c : Ctx) : (s.setCtx c).grids = s.grids := rfl
@[simp] theorem State.setCtx_blocks (s : State) (c : Ctx) : (s.setCtx c).blocks = s.blocks := rfl
@[simp] theorem State.setCtx_warps (s : State) (c : Ctx) : (s.setCtx c).warps = s.warps := rfl
@[simp] theorem State.setCtx_cores (s : State) (c : Ctx) : (s.setCtx c).cores = s.cores := rfl
@[simp] theorem State.setCtx_clusters (s : State) (c : Ctx) : (s.setCtx c).clusters = s.clusters := rfl
@[simp] theorem State.setCtx_dies (s : State) (c : Ctx) : (s.setCtx c).dies = s.dies := rfl
@[simp] theorem State.setCtx_mem (s : State) (c : Ctx) : (s.setCtx c).mem = s.mem := rfl
@[simp] theorem State.setCtx_tags (s : State) (c : Ctx) : (s.setCtx c).tags = s.tags := rfl
@[simp] theorem State.setCtx_pkg (s : State) (c : Ctx) : (s.setCtx c).pkg = s.pkg := rfl
@[simp] theorem State.setCtx_out (s : State) (c : Ctx) : (s.setCtx c).out = s.out := rfl
@[simp] theorem State.setCtx_now (s : State) (c : Ctx) : (s.setCtx c).now = s.now := rfl
@[simp] theorem State.setCtx_fresh (s : State) (c : Ctx) : (s.setCtx c).fresh = s.fresh := rfl
@[simp] theorem State.setCtx_uid (s : State) (c : Ctx) : (s.setCtx c).uid = s.uid := rfl
@[simp] theorem State.setCtx_cur (s : State) (c : Ctx) : (s.setCtx c).cur = s.cur := rfl
@[simp] theorem State.setCtx_inputs (s : State) (c : Ctx) : (s.setCtx c).inputs = s.inputs := rfl

@[simp] theorem State.send_grids (s : State) (m : Msg) : (s.send m).grids = s.grids := rfl
@[simp] theorem State.send_blocks (s : State) (m : Msg) : (s.send m).blocks = s.blocks := rfl
@[simp] theorem State.send_warps (s : State) (m : Msg) : (s.send m).warps = s.warps := rfl
@[simp] theorem State.send_cores (s : State) (m : Msg) : (s.send m).cores = s.cores := rfl
@[simp] theorem State.send_clusters (s : State) (m : Msg) : (s.send m).clusters = s.clusters := rfl
@[simp] theorem State.send_dies (s : State) (m : Msg) : (s.send m).dies = s.dies := rfl
@[simp] theorem State.send_ctxs (s : State) (m : Msg) : (s.send m).ctxs = s.ctxs := rfl
@[simp] theorem State.send_mem (s : State) (m : Msg) : (s.send m).mem = s.mem := rfl
@[simp] theorem State.send_tags (s : State) (m : Msg) : (s.send m).tags = s.tags := rfl
@[simp] theorem State.send_pkg (s : State) (m : Msg) : (s.send m).pkg = s.pkg := rfl
@[simp] theorem State.send_now (s : State) (m : Msg) : (s.send m).now = s.now := rfl
@[simp] theorem State.send_fresh (s : State) (m : Msg) : (s.send m).fresh = s.fresh := rfl
@[simp] theorem State.send_uid (s : State) (m : Msg) : (s.send m).uid = s.uid := rfl
@[simp] theorem State.send_cur (s : State) (m : Msg) : (s.send m).cur = s.cur := rfl
@[simp] theorem State.send_inputs (s : State) (m : Msg) : (s.send m).inputs = s.inputs := rfl

@[simp] theorem State.writeV_grids (s : State) (wid thr n : Nat) (x : Triple) : (s.writeV wid thr n x).grids = s.grids := rfl
@[simp] theorem State.writeV_blocks (s : State) (wid thr n : Nat) (x : Triple) : (s.writeV wid thr n x).blocks = s.blocks := rfl
@[simp] theorem State.writeV_cores (s : State) (wid thr n : Nat) (x : Triple) : (s.writeV wid thr n x).cores = s.cores := rfl
@[simp] theorem State.writeV_clusters (s : State) (wid thr n : Nat) (x : Triple) : (s.writeV wid thr n x).clusters = s.clusters := rfl
@[simp] theorem State.writeV_dies (s : State) (wid thr n : Nat) (x : Triple) : (s.writeV wid thr n x).dies = s.dies := rfl
@[simp] theorem State.writeV_ctxs (s : State) (wid thr n : Nat) (x : Triple) : (s.writeV wid thr n x).ctxs = s.ctxs := rfl
@[simp] theorem State.writeV_mem (s : State) (wid thr n : Nat) (x : Triple) : (s.writeV wid thr n x).mem = s.mem := rfl
@[simp] theorem State.writeV_tags (s : State) (wid thr n : Nat) (x : Triple) : (s.writeV wid thr n x).tags = s.tags := rfl
@[simp] theorem State.writeV_pkg (s : State) (wid thr n : Nat) (x : Triple) : (s.writeV wid thr n x).pkg = s.pkg := rfl
@[simp] theorem State.writeV_out (s : State) (wid thr n : Nat) (x : Triple) : (s.writeV wid thr n x).out = s.out := rfl
@[simp] theorem State.writeV_now (s : State) (wid thr n : Nat) (x : Triple) : (s.writeV wid thr n x).now = s.now := rfl
@[simp] theorem State.writeV_fresh (s : State) (wid thr n : Nat) (x : Triple) : (s.writeV wid thr n x).fresh = s.fresh := rfl
@[simp] theorem State.writeV_uid (s : State) (wid thr n : Nat) (x : Triple) : (s.writeV wid thr n x).uid = s.uid := rfl
@[simp] theorem State.writeV_cur (s : State) (wid thr n : Nat) (x : Triple) : (s.writeV wid thr n x).cur = s.cur := rfl
@[simp] theorem State.writeV_inputs (s : State) (wid thr n : Nat) (x : Triple) : (s.writeV wid thr n x).inputs = s.inputs := rfl

@[simp] theorem State.writeS_grids (s : State) (wid n : Nat) (x : Word) : (s.writeS wid n x).grids = s.grids := rfl
@[simp] theorem State.writeS_blocks (s : State) (wid n : Nat) (x : Word) : (s.writeS wid n x).blocks = s.blocks := rfl
@[simp] theorem State.writeS_cores (s : State) (wid n : Nat) (x : Word) : (s.writeS wid n x).cores = s.cores := rfl
@[simp] theorem State.writeS_clusters (s : State) (wid n : Nat) (x : Word) : (s.writeS wid n x).clusters = s.clusters := rfl
@[simp] theorem State.writeS_dies (s : State) (wid n : Nat) (x : Word) : (s.writeS wid n x).dies = s.dies := rfl
@[simp] theorem State.writeS_ctxs (s : State) (wid n : Nat) (x : Word) : (s.writeS wid n x).ctxs = s.ctxs := rfl
@[simp] theorem State.writeS_mem (s : State) (wid n : Nat) (x : Word) : (s.writeS wid n x).mem = s.mem := rfl
@[simp] theorem State.writeS_tags (s : State) (wid n : Nat) (x : Word) : (s.writeS wid n x).tags = s.tags := rfl
@[simp] theorem State.writeS_pkg (s : State) (wid n : Nat) (x : Word) : (s.writeS wid n x).pkg = s.pkg := rfl
@[simp] theorem State.writeS_out (s : State) (wid n : Nat) (x : Word) : (s.writeS wid n x).out = s.out := rfl
@[simp] theorem State.writeS_now (s : State) (wid n : Nat) (x : Word) : (s.writeS wid n x).now = s.now := rfl
@[simp] theorem State.writeS_fresh (s : State) (wid n : Nat) (x : Word) : (s.writeS wid n x).fresh = s.fresh := rfl
@[simp] theorem State.writeS_uid (s : State) (wid n : Nat) (x : Word) : (s.writeS wid n x).uid = s.uid := rfl
@[simp] theorem State.writeS_cur (s : State) (wid n : Nat) (x : Word) : (s.writeS wid n x).cur = s.cur := rfl
@[simp] theorem State.writeS_inputs (s : State) (wid n : Nat) (x : Word) : (s.writeS wid n x).inputs = s.inputs := rfl

@[simp] theorem State.writeG_grids (s : State) (bid rank slot n : Nat) (x : Word) : (s.writeG bid rank slot n x).grids = s.grids := rfl
@[simp] theorem State.writeG_cores (s : State) (bid rank slot n : Nat) (x : Word) : (s.writeG bid rank slot n x).cores = s.cores := rfl
@[simp] theorem State.writeG_clusters (s : State) (bid rank slot n : Nat) (x : Word) : (s.writeG bid rank slot n x).clusters = s.clusters := rfl
@[simp] theorem State.writeG_dies (s : State) (bid rank slot n : Nat) (x : Word) : (s.writeG bid rank slot n x).dies = s.dies := rfl
@[simp] theorem State.writeG_ctxs (s : State) (bid rank slot n : Nat) (x : Word) : (s.writeG bid rank slot n x).ctxs = s.ctxs := rfl
@[simp] theorem State.writeG_mem (s : State) (bid rank slot n : Nat) (x : Word) : (s.writeG bid rank slot n x).mem = s.mem := rfl
@[simp] theorem State.writeG_tags (s : State) (bid rank slot n : Nat) (x : Word) : (s.writeG bid rank slot n x).tags = s.tags := rfl
@[simp] theorem State.writeG_pkg (s : State) (bid rank slot n : Nat) (x : Word) : (s.writeG bid rank slot n x).pkg = s.pkg := rfl
@[simp] theorem State.writeG_out (s : State) (bid rank slot n : Nat) (x : Word) : (s.writeG bid rank slot n x).out = s.out := rfl
@[simp] theorem State.writeG_now (s : State) (bid rank slot n : Nat) (x : Word) : (s.writeG bid rank slot n x).now = s.now := rfl
@[simp] theorem State.writeG_fresh (s : State) (bid rank slot n : Nat) (x : Word) : (s.writeG bid rank slot n x).fresh = s.fresh := rfl
@[simp] theorem State.writeG_uid (s : State) (bid rank slot n : Nat) (x : Word) : (s.writeG bid rank slot n x).uid = s.uid := rfl
@[simp] theorem State.writeG_cur (s : State) (bid rank slot n : Nat) (x : Word) : (s.writeG bid rank slot n x).cur = s.cur := rfl
@[simp] theorem State.writeG_inputs (s : State) (bid rank slot n : Nat) (x : Word) : (s.writeG bid rank slot n x).inputs = s.inputs := rfl

@[simp] theorem State.setPred_grids (s : State) (wid thr : Nat) (p bits : BitVec 3) : (s.setPred wid thr p bits).grids = s.grids := rfl
@[simp] theorem State.setPred_blocks (s : State) (wid thr : Nat) (p bits : BitVec 3) : (s.setPred wid thr p bits).blocks = s.blocks := rfl
@[simp] theorem State.setPred_cores (s : State) (wid thr : Nat) (p bits : BitVec 3) : (s.setPred wid thr p bits).cores = s.cores := rfl
@[simp] theorem State.setPred_clusters (s : State) (wid thr : Nat) (p bits : BitVec 3) : (s.setPred wid thr p bits).clusters = s.clusters := rfl
@[simp] theorem State.setPred_dies (s : State) (wid thr : Nat) (p bits : BitVec 3) : (s.setPred wid thr p bits).dies = s.dies := rfl
@[simp] theorem State.setPred_ctxs (s : State) (wid thr : Nat) (p bits : BitVec 3) : (s.setPred wid thr p bits).ctxs = s.ctxs := rfl
@[simp] theorem State.setPred_mem (s : State) (wid thr : Nat) (p bits : BitVec 3) : (s.setPred wid thr p bits).mem = s.mem := rfl
@[simp] theorem State.setPred_tags (s : State) (wid thr : Nat) (p bits : BitVec 3) : (s.setPred wid thr p bits).tags = s.tags := rfl
@[simp] theorem State.setPred_pkg (s : State) (wid thr : Nat) (p bits : BitVec 3) : (s.setPred wid thr p bits).pkg = s.pkg := rfl
@[simp] theorem State.setPred_out (s : State) (wid thr : Nat) (p bits : BitVec 3) : (s.setPred wid thr p bits).out = s.out := rfl
@[simp] theorem State.setPred_now (s : State) (wid thr : Nat) (p bits : BitVec 3) : (s.setPred wid thr p bits).now = s.now := rfl
@[simp] theorem State.setPred_fresh (s : State) (wid thr : Nat) (p bits : BitVec 3) : (s.setPred wid thr p bits).fresh = s.fresh := rfl
@[simp] theorem State.setPred_uid (s : State) (wid thr : Nat) (p bits : BitVec 3) : (s.setPred wid thr p bits).uid = s.uid := rfl
@[simp] theorem State.setPred_cur (s : State) (wid thr : Nat) (p bits : BitVec 3) : (s.setPred wid thr p bits).cur = s.cur := rfl
@[simp] theorem State.setPred_inputs (s : State) (wid thr : Nat) (p bits : BitVec 3) : (s.setPred wid thr p bits).inputs = s.inputs := rfl

@[simp] theorem State.retag_grids (s : State) (wid n : Nat) : (s.retag wid n).grids = s.grids := rfl
@[simp] theorem State.retag_blocks (s : State) (wid n : Nat) : (s.retag wid n).blocks = s.blocks := rfl
@[simp] theorem State.retag_cores (s : State) (wid n : Nat) : (s.retag wid n).cores = s.cores := rfl
@[simp] theorem State.retag_clusters (s : State) (wid n : Nat) : (s.retag wid n).clusters = s.clusters := rfl
@[simp] theorem State.retag_dies (s : State) (wid n : Nat) : (s.retag wid n).dies = s.dies := rfl
@[simp] theorem State.retag_ctxs (s : State) (wid n : Nat) : (s.retag wid n).ctxs = s.ctxs := rfl
@[simp] theorem State.retag_mem (s : State) (wid n : Nat) : (s.retag wid n).mem = s.mem := rfl
@[simp] theorem State.retag_tags (s : State) (wid n : Nat) : (s.retag wid n).tags = s.tags := rfl
@[simp] theorem State.retag_pkg (s : State) (wid n : Nat) : (s.retag wid n).pkg = s.pkg := rfl
@[simp] theorem State.retag_out (s : State) (wid n : Nat) : (s.retag wid n).out = s.out := rfl
@[simp] theorem State.retag_now (s : State) (wid n : Nat) : (s.retag wid n).now = s.now := rfl
@[simp] theorem State.retag_fresh (s : State) (wid n : Nat) : (s.retag wid n).fresh = s.fresh := rfl
@[simp] theorem State.retag_uid (s : State) (wid n : Nat) : (s.retag wid n).uid = s.uid := rfl
@[simp] theorem State.retag_cur (s : State) (wid n : Nat) : (s.retag wid n).cur = s.cur := rfl
@[simp] theorem State.retag_inputs (s : State) (wid n : Nat) : (s.retag wid n).inputs = s.inputs := rfl

@[simp] theorem State.addPend_grids (s : State) (wid : Nat) (p : Pend) : (s.addPend wid p).grids = s.grids := rfl
@[simp] theorem State.addPend_blocks (s : State) (wid : Nat) (p : Pend) : (s.addPend wid p).blocks = s.blocks := rfl
@[simp] theorem State.addPend_cores (s : State) (wid : Nat) (p : Pend) : (s.addPend wid p).cores = s.cores := rfl
@[simp] theorem State.addPend_clusters (s : State) (wid : Nat) (p : Pend) : (s.addPend wid p).clusters = s.clusters := rfl
@[simp] theorem State.addPend_dies (s : State) (wid : Nat) (p : Pend) : (s.addPend wid p).dies = s.dies := rfl
@[simp] theorem State.addPend_ctxs (s : State) (wid : Nat) (p : Pend) : (s.addPend wid p).ctxs = s.ctxs := rfl
@[simp] theorem State.addPend_mem (s : State) (wid : Nat) (p : Pend) : (s.addPend wid p).mem = s.mem := rfl
@[simp] theorem State.addPend_tags (s : State) (wid : Nat) (p : Pend) : (s.addPend wid p).tags = s.tags := rfl
@[simp] theorem State.addPend_pkg (s : State) (wid : Nat) (p : Pend) : (s.addPend wid p).pkg = s.pkg := rfl
@[simp] theorem State.addPend_out (s : State) (wid : Nat) (p : Pend) : (s.addPend wid p).out = s.out := rfl
@[simp] theorem State.addPend_now (s : State) (wid : Nat) (p : Pend) : (s.addPend wid p).now = s.now := rfl
@[simp] theorem State.addPend_fresh (s : State) (wid : Nat) (p : Pend) : (s.addPend wid p).fresh = s.fresh := rfl
@[simp] theorem State.addPend_uid (s : State) (wid : Nat) (p : Pend) : (s.addPend wid p).uid = s.uid := rfl
@[simp] theorem State.addPend_cur (s : State) (wid : Nat) (p : Pend) : (s.addPend wid p).cur = s.cur := rfl
@[simp] theorem State.addPend_inputs (s : State) (wid : Nat) (p : Pend) : (s.addPend wid p).inputs = s.inputs := rfl

@[simp] theorem State.charge_grids (s : State) (tag : BitVec 12) (k n : Nat) : (s.charge tag k n).grids = s.grids := by
  unfold State.charge; dsimp only; split <;> rfl
@[simp] theorem State.charge_blocks (s : State) (tag : BitVec 12) (k n : Nat) : (s.charge tag k n).blocks = s.blocks := by
  unfold State.charge; dsimp only; split <;> rfl
@[simp] theorem State.charge_warps (s : State) (tag : BitVec 12) (k n : Nat) : (s.charge tag k n).warps = s.warps := by
  unfold State.charge; dsimp only; split <;> rfl
@[simp] theorem State.charge_cores (s : State) (tag : BitVec 12) (k n : Nat) : (s.charge tag k n).cores = s.cores := by
  unfold State.charge; dsimp only; split <;> rfl
@[simp] theorem State.charge_clusters (s : State) (tag : BitVec 12) (k n : Nat) : (s.charge tag k n).clusters = s.clusters := by
  unfold State.charge; dsimp only; split <;> rfl
@[simp] theorem State.charge_dies (s : State) (tag : BitVec 12) (k n : Nat) : (s.charge tag k n).dies = s.dies := by
  unfold State.charge; dsimp only; split <;> rfl
@[simp] theorem State.charge_mem (s : State) (tag : BitVec 12) (k n : Nat) : (s.charge tag k n).mem = s.mem := by
  unfold State.charge; dsimp only; split <;> rfl
@[simp] theorem State.charge_tags (s : State) (tag : BitVec 12) (k n : Nat) : (s.charge tag k n).tags = s.tags := by
  unfold State.charge; dsimp only; split <;> rfl
@[simp] theorem State.charge_pkg (s : State) (tag : BitVec 12) (k n : Nat) : (s.charge tag k n).pkg = s.pkg := by
  unfold State.charge; dsimp only; split <;> rfl
@[simp] theorem State.charge_out (s : State) (tag : BitVec 12) (k n : Nat) : (s.charge tag k n).out = s.out := by
  unfold State.charge; dsimp only; split <;> rfl
@[simp] theorem State.charge_now (s : State) (tag : BitVec 12) (k n : Nat) : (s.charge tag k n).now = s.now := by
  unfold State.charge; dsimp only; split <;> rfl
@[simp] theorem State.charge_fresh (s : State) (tag : BitVec 12) (k n : Nat) : (s.charge tag k n).fresh = s.fresh := by
  unfold State.charge; dsimp only; split <;> rfl
@[simp] theorem State.charge_uid (s : State) (tag : BitVec 12) (k n : Nat) : (s.charge tag k n).uid = s.uid := by
  unfold State.charge; dsimp only; split <;> rfl
@[simp] theorem State.charge_cur (s : State) (tag : BitVec 12) (k n : Nat) : (s.charge tag k n).cur = s.cur := by
  unfold State.charge; dsimp only; split <;> rfl
@[simp] theorem State.charge_inputs (s : State) (tag : BitVec 12) (k n : Nat) : (s.charge tag k n).inputs = s.inputs := by
  unfold State.charge; dsimp only; split <;> rfl

@[simp] theorem State.newId_grids (s : State) : s.newId.2.grids = s.grids := rfl
@[simp] theorem State.newId_blocks (s : State) : s.newId.2.blocks = s.blocks := rfl
@[simp] theorem State.newId_warps (s : State) : s.newId.2.warps = s.warps := rfl
@[simp] theorem State.newId_cores (s : State) : s.newId.2.cores = s.cores := rfl
@[simp] theorem State.newId_clusters (s : State) : s.newId.2.clusters = s.clusters := rfl
@[simp] theorem State.newId_dies (s : State) : s.newId.2.dies = s.dies := rfl
@[simp] theorem State.newId_ctxs (s : State) : s.newId.2.ctxs = s.ctxs := rfl
@[simp] theorem State.newId_mem (s : State) : s.newId.2.mem = s.mem := rfl
@[simp] theorem State.newId_tags (s : State) : s.newId.2.tags = s.tags := rfl
@[simp] theorem State.newId_pkg (s : State) : s.newId.2.pkg = s.pkg := rfl
@[simp] theorem State.newId_out (s : State) : s.newId.2.out = s.out := rfl
@[simp] theorem State.newId_now (s : State) : s.newId.2.now = s.now := rfl
@[simp] theorem State.newId_fresh (s : State) : s.newId.2.fresh = s.fresh := rfl
@[simp] theorem State.newId_cur (s : State) : s.newId.2.cur = s.cur := rfl
@[simp] theorem State.newId_inputs (s : State) : s.newId.2.inputs = s.inputs := rfl

/-! ## Fields that an update sets -/

@[simp] theorem State.updWarp_warps (s : State) (wid : Nat) (f : Warp → Warp) :
    (s.updWarp wid f).warps = mapIf (fun w => w.wid = wid) f s.warps := rfl
@[simp] theorem State.updThread_warps (s : State) (wid i : Nat) (f : Thread → Thread) :
    (s.updThread wid i f).warps = mapIf (fun w => w.wid = wid) (fun w => w.updThread i f) s.warps := rfl
@[simp] theorem State.updBlock_blocks (s : State) (bid : Nat) (f : Block → Block) :
    (s.updBlock bid f).blocks = mapIf (fun b => b.bid = bid) f s.blocks := rfl
@[simp] theorem State.updGrid_grids (s : State) (gid : Nat) (f : Grid → Grid) :
    (s.updGrid gid f).grids = mapIf (fun g => g.gid = gid) f s.grids := rfl
@[simp] theorem State.send_out (s : State) (m : Msg) : (s.send m).out = s.out ++ [m] := rfl
@[simp] theorem State.newId_uid (s : State) : s.newId.2.uid = s.uid + 1 := rfl
@[simp] theorem State.newId_fst (s : State) : s.newId.1 = s.uid := rfl

/-! ## Records by key -/

/-- The warp under a number after a warp was changed. -/
theorem State.warp_updWarp_same (s : State) (wid : Nat) (f : Warp → Warp) (hf : ∀ w, (f w).wid = w.wid) :
    (s.updWarp wid f).warp? wid = (s.warp? wid).map f :=
  find_mapIf_same _ _ f s.warps (fun _ _ h => h) (fun w _ _ => by simp [hf])

theorem State.warp_updWarp_other (s : State) {wid j : Nat} (h : j ≠ wid) (f : Warp → Warp)
    (hf : ∀ w, (f w).wid = w.wid) : (s.updWarp wid f).warp? j = s.warp? j :=
  find_mapIf_other _ _ f s.warps (fun w _ hw => by simp at hw ⊢; omega) (fun w _ _ => by simp [hf])

theorem State.block_updBlock_same (s : State) (bid : Nat) (f : Block → Block) (hf : ∀ b, (f b).bid = b.bid) :
    (s.updBlock bid f).block? bid = (s.block? bid).map f :=
  find_mapIf_same _ _ f s.blocks (fun _ _ h => h) (fun w _ _ => by simp [hf])

theorem State.block_updBlock_other (s : State) {bid j : Nat} (h : j ≠ bid) (f : Block → Block)
    (hf : ∀ b, (f b).bid = b.bid) : (s.updBlock bid f).block? j = s.block? j :=
  find_mapIf_other _ _ f s.blocks (fun w _ hw => by simp at hw ⊢; omega) (fun w _ _ => by simp [hf])

theorem State.grid_updGrid_same (s : State) (gid : Nat) (f : Grid → Grid) (hf : ∀ g, (f g).gid = g.gid) :
    (s.updGrid gid f).grid? gid = (s.grid? gid).map f :=
  find_mapIf_same _ _ f s.grids (fun _ _ h => h) (fun w _ _ => by simp [hf])

theorem State.grid_updGrid_other (s : State) {gid j : Nat} (h : j ≠ gid) (f : Grid → Grid)
    (hf : ∀ g, (f g).gid = g.gid) : (s.updGrid gid f).grid? j = s.grid? j :=
  find_mapIf_other _ _ f s.grids (fun w _ hw => by simp at hw ⊢; omega) (fun w _ _ => by simp [hf])

@[simp] theorem State.core_setCore_same (s : State) (c : Core) : (s.setCore c).core c.die c.core = c := by
  have := find_putBy_same (fun x : Core => x.die = c.die && x.core = c.core) c (by simp) s.cores
  simp [State.core, State.setCore, this]

theorem State.core_setCore_other (s : State) (c : Core) {d k : Nat} (h : ¬ (d = c.die ∧ k = c.core)) :
    (s.setCore c).core d k = s.core d k := by
  have := find_putBy_other (fun x : Core => x.die = c.die && x.core = c.core) (fun x => x.die = d && x.core = k) c
    (by simp; omega) (by intro y hy; simp at hy ⊢; omega) s.cores
  simp [State.core, State.setCore, this]

theorem State.core_key (s : State) (d k : Nat) : (s.core d k).die = d ∧ (s.core d k).core = k := by
  unfold State.core
  cases h : s.cores.find? fun c => c.die = d && c.core = k with
  | none => exact ⟨rfl, rfl⟩
  | some c => simpa using List.find?_some h

theorem State.die_key (s : State) (d : Nat) : (s.die d).die = d := by
  unfold State.die
  cases h : s.dies.find? fun x => x.die = d with
  | none => rfl
  | some c => simpa using List.find?_some h

@[simp] theorem State.cluster_setCluster_same (s : State) (c : Cluster) : (s.setCluster c).cluster c.die c.cl = c := by
  have := find_putBy_same (fun x : Cluster => x.die = c.die && x.cl = c.cl) c (by simp) s.clusters
  simp [State.cluster, State.setCluster, this]

@[simp] theorem State.die_setDie_same (s : State) (d : Die) : (s.setDie d).die d.die = d := by
  have := find_putBy_same (fun x : Die => decide (x.die = d.die)) d (by simp) s.dies
  simp [State.die, State.setDie, this]

theorem State.die_setDie_other (s : State) (d : Die) {k : Nat} (h : k ≠ d.die) : (s.setDie d).die k = s.die k := by
  have := find_putBy_other (fun x : Die => decide (x.die = d.die)) (fun x => decide (x.die = k)) d (by simp; omega)
    (by intro y hy; simp at hy ⊢; omega) s.dies
  simp [State.die, State.setDie, this]

@[simp] theorem State.ctx_setCtx_same (s : State) (c : Ctx) : (s.setCtx c).ctx c.tag = c := by
  have := find_putBy_same (fun x : Ctx => decide (x.tag = c.tag)) c (by simp) s.ctxs
  simp [State.ctx, State.setCtx, this]

theorem State.ctx_setCtx_other (s : State) (c : Ctx) {t : BitVec 12} (h : t ≠ c.tag) :
    (s.setCtx c).ctx t = s.ctx t := by
  have := find_putBy_other (fun x : Ctx => decide (x.tag = c.tag)) (fun x => decide (x.tag = t)) c
    (by simpa using fun e => h e.symm)
    (by intro y hy; simp at hy ⊢; rw [hy]; exact fun e => h e.symm) s.ctxs
  simp [State.ctx, State.setCtx, this]

/-- The context under a tag carries the tag. -/
theorem State.ctx_tag (s : State) (t : BitVec 12) : (s.ctx t).tag = t := by
  unfold State.ctx
  cases h : s.ctxs.find? fun x => decide (x.tag = t) with
  | none => rfl
  | some c => simpa using List.find?_some h

/-- The record under a number carries the number. -/
theorem State.warp_wid {s : State} {wid : Nat} {w : Warp} (h : s.warp? wid = some w) : w.wid = wid := by
  simpa using List.find?_some h

theorem State.block_bid {s : State} {bid : Nat} {b : Block} (h : s.block? bid = some b) : b.bid = bid := by
  simpa using List.find?_some h

theorem State.grid_gid {s : State} {gid : Nat} {g : Grid} (h : s.grid? gid = some g) : g.gid = gid := by
  simpa using List.find?_some h

theorem Warp.thread_idx {w : Warp} {i : Nat} {t : Thread} (h : w.thread? i = some t) : t.idx = i := by
  simpa using List.find?_some h

/-- What a group sees are its warp, its block and its grid, under their numbers. -/
theorem State.env_some {s : State} {e : Env} (h : s.env = some e) :
    s.cur = some e.iss ∧ s.warp? e.iss.wid = some e.w ∧ s.block? e.w.bid = some e.b ∧ s.grid? e.b.gid = some e.g := by
  unfold State.env State.envAt at h
  split at h
  · cases h
  · rename_i i hi
    split at h
    · cases h
    · rename_i w hw
      split at h
      · cases h
      · rename_i b hb
        split at h
        · cases h
        · rename_i g hg
          cases h
          exact ⟨hi, hw, hb, hg⟩

theorem State.env_wid {s : State} {e : Env} (h : s.env = some e) : e.w.wid = e.iss.wid :=
  State.warp_wid (State.env_some h).2.1

theorem State.env_warp {s : State} {e : Env} (h : s.env = some e) : s.warp? e.w.wid = some e.w := by
  rw [State.env_wid h]; exact (State.env_some h).2.1

theorem State.env_bid {s : State} {e : Env} (h : s.env = some e) : e.b.bid = e.w.bid :=
  State.block_bid (State.env_some h).2.2.1

theorem State.env_block {s : State} {e : Env} (h : s.env = some e) : s.block? e.b.bid = some e.b := by
  rw [State.env_bid h]; exact (State.env_some h).2.2.1

/-! ## Threads of a warp -/

theorem Warp.thread_updThread_same (w : Warp) (i : Nat) (f : Thread → Thread) (hf : ∀ t, t.idx = i → (f t).idx = t.idx) :
    (w.updThread i f).thread? i = (w.thread? i).map f :=
  find_mapIf_same _ _ f w.threads (fun _ _ h => h) (fun t _ ht => by rw [hf t (by simpa using ht)])

theorem Warp.thread_updThread_other (w : Warp) {i j : Nat} (h : j ≠ i) (f : Thread → Thread)
    (hf : ∀ t, t.idx = i → (f t).idx = t.idx) : (w.updThread i f).thread? j = w.thread? j :=
  find_mapIf_other _ _ f w.threads (fun t _ ht => by simp at ht ⊢; omega) (fun t _ ht => by rw [hf t (by simpa using ht)])

@[simp] theorem Warp.updThread_wid (w : Warp) (i : Nat) (f : Thread → Thread) : (w.updThread i f).wid = w.wid := rfl

theorem State.thread_updThread_same (s : State) (wid i : Nat) (f : Thread → Thread) (hf : ∀ t, t.idx = i → (f t).idx = t.idx) :
    (s.updThread wid i f).thread? wid i = (s.thread? wid i).map f := by
  unfold State.thread? State.updThread
  rw [State.warp_updWarp_same _ _ _ (by simp)]
  cases s.warp? wid with
  | none => rfl
  | some w => exact Warp.thread_updThread_same w i f hf

theorem State.thread_updThread_other (s : State) (wid : Nat) {i j : Nat} (h : j ≠ i) (f : Thread → Thread)
    (hf : ∀ t, t.idx = i → (f t).idx = t.idx) : (s.updThread wid i f).thread? wid j = s.thread? wid j := by
  unfold State.thread? State.updThread
  rw [State.warp_updWarp_same _ _ _ (by simp)]
  cases s.warp? wid with
  | none => rfl
  | some w => exact Warp.thread_updThread_other w h f hf

/-- A thread of a warp whose numbers differ is the one under its number. -/
theorem Warp.thread_of_mem {w : Warp} (h : (w.threads.map fun t => t.idx).Nodup) {t : Thread} (ht : t ∈ w.threads) :
    w.thread? t.idx = some t := by
  unfold Warp.thread?
  revert h ht
  induction w.threads with
  | nil => intro _ ht; cases ht
  | cons x l ih =>
    intro h ht
    rw [List.map_cons, List.nodup_cons] at h
    rcases List.mem_cons.mp ht with rfl | ht'
    · simp
    · have hne : x.idx ≠ t.idx := fun e => h.1 (e ▸ List.mem_map_of_mem ht')
      simp [hne, ih h.2 ht']

end Sys2Proof.Machine
end

