-- ==== Sys2Proof/Laws/Memory.lean ====
section
/-! SUPPORT. Memory: every operation keeps the canonical form; a read after a write; equal reads are equal memories. -/

namespace Sys2Proof.Machine

theorem Mem.nil_wf : Mem.wf [] := ⟨List.Pairwise.nil, fun _ h => by cases h⟩

theorem Mem.wf_tail {c : Host.Cell} {m : Mem} (h : Mem.wf (c :: m)) : Mem.wf m :=
  ⟨(List.pairwise_cons.mp h.1).2, fun x hx => h.2 x (List.mem_cons_of_mem _ hx)⟩

/-- An address in a memory after a write is one that stood there, or the address written. -/
theorem Mem.mem_write {m : Mem} {a : Nat} {b : Byte} {c : Host.Cell} (h : c ∈ m.write a b) :
    (c = (a, b) ∧ b ≠ Mem.blank) ∨ c ∈ m := by
  induction m with
  | nil =>
    unfold Mem.write at h
    split at h
    · cases h
    · rename_i hb
      exact Or.inl ⟨List.mem_singleton.mp h, hb⟩
  | cons x m ih =>
    unfold Mem.write at h
    split at h
    · split at h
      · exact Or.inr h
      · rename_i hb
        rcases List.mem_cons.mp h with h | h
        · exact Or.inl ⟨h, hb⟩
        · exact Or.inr h
    · split at h
      · split at h
        · exact Or.inr (List.mem_cons_of_mem _ h)
        · rename_i hb
          rcases List.mem_cons.mp h with h | h
          · exact Or.inl ⟨h, hb⟩
          · exact Or.inr (List.mem_cons_of_mem _ h)
      · rcases List.mem_cons.mp h with h | h
        · exact Or.inr (h ▸ List.mem_cons_self ..)
        · exact (ih h).imp_right (List.mem_cons_of_mem _)

theorem Mem.write_wf {m : Mem} (h : m.wf) (a : Nat) (b : Byte) : (m.write a b).wf := by
  refine ⟨?_, fun c hc => ?_⟩
  · induction m with
    | nil => unfold Mem.write; split <;> simp
    | cons x m ih =>
      have hx := (List.pairwise_cons.mp h.1).1
      have hm := (List.pairwise_cons.mp h.1).2
      unfold Mem.write
      split
      · rename_i hlt
        split
        · exact h.1
        · refine List.pairwise_cons.mpr ⟨fun y hy => ?_, h.1⟩
          rcases List.mem_cons.mp hy with hy | hy
          · exact hy ▸ hlt
          · exact Nat.lt_trans hlt (hx y hy)
      · rename_i hlt
        split
        · rename_i heq
          split
          · exact hm
          · exact List.pairwise_cons.mpr ⟨fun y hy => heq ▸ hx y hy, hm⟩
        · rename_i hne
          refine List.pairwise_cons.mpr ⟨fun y hy => ?_, ih (Mem.wf_tail h)⟩
          rcases Mem.mem_write hy with ⟨rfl, _⟩ | hy
          · exact by simp only; omega
          · exact hx y hy
  · rcases Mem.mem_write hc with ⟨rfl, hb⟩ | hc
    · exact hb
    · exact h.2 c hc

theorem Mem.writeBytes_wf {m : Mem} (h : m.wf) (a : Nat) (bs : List Byte) : (m.writeBytes a bs).wf := by
  induction bs generalizing m a with
  | nil => exact h
  | cons b bs ih => exact ih (Mem.write_wf h a b) (a + 1)

theorem Mem.writeNat_wf {m : Mem} (h : m.wf) (a n x : Nat) : (m.writeNat a n x).wf := Mem.writeBytes_wf h a _

theorem Mem.filter_wf {m : Mem} (h : m.wf) (p : Host.Cell → Bool) : Mem.wf (m.filter p) :=
  ⟨h.1.filter p, fun c hc => h.2 c (List.mem_filter.mp hc).1⟩

theorem Mem.clear_wf {m : Mem} (h : m.wf) (a n : Nat) : (m.clear a n).wf := Mem.filter_wf h _

/-- An address below every listed one reads as blank. -/
theorem Mem.read_below {m : Mem} {a : Nat} (h : ∀ c ∈ m, a < c.1) : m.read a = Mem.blank := by
  induction m with
  | nil => rfl
  | cons x m ih =>
    have hx := h x (List.mem_cons_self ..)
    have : ¬ x.1 = a := by omega
    simp [Mem.read, this, ih fun c hc => h c (List.mem_cons_of_mem _ hc)]

/-- A byte after a write: the byte written at its address, every other as before. -/
theorem Mem.read_write {m : Mem} (h : m.wf) (a j : Nat) (b : Byte) :
    (m.write a b).read j = if j = a then b else m.read j := by
  induction m with
  | nil =>
    by_cases hb : b = Mem.blank
    · simp [Mem.write, Mem.read, hb]
    · by_cases hj : j = a
      · simp [Mem.write, Mem.read, hb, hj]
      · have : ¬ a = j := fun e => hj e.symm
        simp [Mem.write, Mem.read, hb, hj, this]
  | cons x m ih =>
    have hx := (List.pairwise_cons.mp h.1).1
    have ih := ih (Mem.wf_tail h)
    by_cases hlt : a < x.1
    · by_cases hb : b = Mem.blank
      · by_cases hj : j = a
        · have hne : ¬ x.1 = a := by omega
          have hr : Mem.read m a = Mem.blank :=
            Mem.read_below fun c hc => Nat.lt_trans hlt (hx c hc)
          simp [Mem.write, hlt, hb, hj, Mem.read, hne, hr]
        · simp [Mem.write, hlt, hb, hj]
      · by_cases hj : j = a
        · simp [Mem.write, hlt, hb, hj, Mem.read]
        · have hne : ¬ a = j := fun e => hj e.symm
          simp [Mem.write, hlt, hb, hj, Mem.read, hne]
    · by_cases heq : a = x.1
      · by_cases hb : b = Mem.blank
        · by_cases hj : j = a
          · have hr : Mem.read m a = Mem.blank := Mem.read_below fun c hc => heq ▸ hx c hc
            simp [Mem.write, heq, hb, hj]
            rw [← heq]; exact hr
          · have hne : ¬ x.1 = j := fun e => hj (by omega)
            have hj' : ¬ j = x.1 := fun e => hne e.symm
            simp [Mem.write, heq, hb, Mem.read, hne, hj']
        · by_cases hj : j = a
          · simp [Mem.write, heq, hb, hj, Mem.read]
          · have hne : ¬ x.1 = j := fun e => hj (by omega)
            have hj' : ¬ j = x.1 := fun e => hne e.symm
            simp [Mem.write, heq, hb, Mem.read, hne, hj']
      · by_cases hxj : x.1 = j
        · have hj : ¬ j = a := by omega
          rw [Mem.write, if_neg hlt, if_neg heq, if_neg hj, Mem.read, if_pos hxj, Mem.read, if_pos hxj]
        · simp [Mem.write, hlt, heq, Mem.read, hxj, ih]

theorem Mem.read_writeBytes_other {m : Mem} (h : m.wf) (a j : Nat) (bs : List Byte)
    (hj : j < a ∨ a + bs.length ≤ j) : (m.writeBytes a bs).read j = m.read j := by
  induction bs generalizing m a with
  | nil => rfl
  | cons b bs ih =>
    have hl : (b :: bs).length = bs.length + 1 := rfl
    rw [Mem.writeBytes, ih (Mem.write_wf h a b) (a + 1) (by omega), Mem.read_write h, if_neg (by omega)]

theorem Mem.read_writeBytes_same {m : Mem} (h : m.wf) (a k : Nat) (bs : List Byte) (hk : k < bs.length) :
    (m.writeBytes a bs).read (a + k) = bs[k] := by
  induction bs generalizing m a k with
  | nil => cases hk
  | cons b bs ih =>
    cases k with
    | zero =>
      rw [Mem.writeBytes, Mem.read_writeBytes_other (Mem.write_wf h a b) (a + 1) (a + 0) bs (by omega),
        Mem.read_write h]
      simp
    | succ k =>
      have hk' : k < bs.length := by simpa using hk
      have := ih (Mem.write_wf h a b) (a + 1) k hk'
      rw [Mem.writeBytes, show a + (k + 1) = a + 1 + k by omega, this]
      rfl

/-- Equal memories are equal data: two canonical memories with the same reads are the same list. -/
theorem Mem.ext_read {m k : Mem} (hm : m.wf) (hk : k.wf) (h : ∀ a, m.read a = k.read a) : m = k := by
  induction m generalizing k with
  | nil =>
    cases k with
    | nil => rfl
    | cons y k =>
      have h1 := h y.1
      have h2 := hk.2 y (List.mem_cons_self ..)
      simp [Mem.read] at h1
      exact absurd h1.symm h2
  | cons x m ih =>
    have hx := (List.pairwise_cons.mp hm.1).1
    have hxb := hm.2 x (List.mem_cons_self ..)
    cases k with
    | nil =>
      have h1 := h x.1
      simp [Mem.read] at h1
      exact absurd h1 hxb
    | cons y k =>
      have hy := (List.pairwise_cons.mp hk.1).1
      have hyb := hk.2 y (List.mem_cons_self ..)
      have hxy : x.1 = y.1 := by
        rcases Nat.lt_trichotomy x.1 y.1 with hlt | heq | hlt
        · have h1 := h x.1
          have h2 : Mem.read (y :: k) x.1 = Mem.blank := Mem.read_below fun c hc => by
            rcases List.mem_cons.mp hc with hc | hc
            · exact hc ▸ hlt
            · exact Nat.lt_trans hlt (hy c hc)
          rw [h2] at h1
          simp [Mem.read] at h1
          exact absurd h1 hxb
        · exact heq
        · have h1 := h y.1
          have h2 : Mem.read (x :: m) y.1 = Mem.blank := Mem.read_below fun c hc => by
            rcases List.mem_cons.mp hc with hc | hc
            · exact hc ▸ hlt
            · exact Nat.lt_trans hlt (hx c hc)
          rw [h2] at h1
          simp [Mem.read] at h1
          exact absurd h1.symm hyb
      have hv : x.2 = y.2 := by
        have h1 := h x.1
        simpa [Mem.read, hxy] using h1
      have hxeq : x = y := Prod.ext hxy hv
      subst hxeq
      have : m = k := ih (Mem.wf_tail hm) (Mem.wf_tail hk) fun a => by
        have h1 := h a
        by_cases ha : x.1 = a
        · rw [← ha, Mem.read_below (m := m) hx, Mem.read_below (m := k) hy]
        · simpa [Mem.read, ha] using h1
      rw [this]

end Sys2Proof.Machine
end

