-- ==== Sys2Proof/Laws/Issue.lean ====
section
/-! SUPPORT. The issue of a word: when nothing stops it, what the issue itself changes, and what follows the word. -/

namespace Sys2Proof.Machine

/-! ## Changes of one warp -/

theorem State.updWarp_updWarp (s : State) (wid : Nat) (f g : Warp → Warp) (hf : ∀ w, (f w).wid = w.wid) :
    (s.updWarp wid f).updWarp wid g = s.updWarp wid fun w => g (f w) := by
  unfold State.updWarp
  congr 1
  show mapIf _ g (mapIf _ f s.warps) = mapIf _ _ s.warps
  unfold mapIf
  rw [List.map_map]
  refine List.map_congr_left fun w _ => ?_
  by_cases h : w.wid = wid <;> simp [Function.comp, h, hf]

theorem State.updWarp_id (s : State) (wid : Nat) : (s.updWarp wid fun w => w) = s := by
  unfold State.updWarp mapIf
  simp

/-- A fold of changes of one warp is one change. -/
theorem State.foldl_updWarp {α : Type} (l : List α) (wid : Nat) (g : α → Warp → Warp)
    (hg : ∀ x w, (g x w).wid = w.wid) (s : State) :
    l.foldl (fun s x => s.updWarp wid (g x)) s = s.updWarp wid fun w => l.foldl (fun w x => g x w) w := by
  induction l generalizing s with
  | nil => exact (State.updWarp_id s wid).symm
  | cons x l ih => rw [List.foldl_cons, ih, State.updWarp_updWarp _ _ _ _ (hg x)]; rfl

/-- A fold of changes keeps what each change keeps. -/
theorem foldl_wid {α : Type} (l : List α) (g : α → Warp → Warp) (hg : ∀ x w, (g x w).wid = w.wid) (w : Warp) :
    (l.foldl (fun w x => g x w) w).wid = w.wid :=
  foldl_same (fun w : Warp => w.wid) (fun w x => g x w) (fun w x => hg x w) l w

/-- Changes of different threads: the thread of a number after a fold of changes. -/
theorem Warp.foldl_updThread_thread (l : List Thread) (g : Thread → Thread → Thread) (hg : ∀ x t, t.idx = x.idx → (g x t).idx = t.idx)
    (hl : (l.map fun t => t.idx).Nodup) (w : Warp) (i : Nat) :
    (l.foldl (fun w x => w.updThread x.idx (g x)) w).thread? i =
      match l.find? fun x => x.idx = i with
      | some x => (w.thread? i).map (g x)
      | none => w.thread? i := by
  induction l generalizing w with
  | nil => rfl
  | cons x l ih =>
    rw [List.map_cons, List.nodup_cons] at hl
    rw [List.foldl_cons, ih hl.2]
    by_cases hx : x.idx = i
    · have hn : l.find? (fun y => decide (y.idx = i)) = none := by
        rw [List.find?_eq_none]
        intro y hy
        simp only [decide_eq_true_eq]
        exact fun e => hl.1 (by rw [hx, ← e]; exact List.mem_map_of_mem hy)
      simp only [hn, List.find?_cons, hx, decide_true]
      exact Warp.thread_updThread_same w i (g x) (fun t ht => hg x t (ht.trans hx.symm))
    · simp only [List.find?_cons, hx, decide_false]
      rw [Warp.thread_updThread_other w (fun e => hx e.symm) (g x) (hg x)]

/-- A member of a list without repeated numbers is what its number finds. -/
theorem find_of_mem {l : List Thread} (h : (l.map fun t => t.idx).Nodup) {t : Thread} (ht : t ∈ l) :
    l.find? (fun x => x.idx = t.idx) = some t := by
  induction l with
  | nil => cases ht
  | cons x l ih =>
    rw [List.map_cons, List.nodup_cons] at h
    rcases List.mem_cons.mp ht with rfl | ht'
    · simp
    · have hne : ¬ x.idx = t.idx := fun e => h.1 (e ▸ List.mem_map_of_mem ht')
      simp [hne, ih h.2 ht']

theorem find_none_of_not_mem {l : List Thread} {i : Nat} (h : i ∉ l.map fun t => t.idx) :
    l.find? (fun x => x.idx = i) = none := by
  rw [List.find?_eq_none]
  intro y hy
  simp only [decide_eq_true_eq]
  exact fun e => h (e ▸ List.mem_map_of_mem hy)

/-! ## The group -/

theorem Env.group_sub (e : Env) {t : Thread} (h : t ∈ e.group) : t ∈ e.w.threads := (List.mem_filter.mp h).1

theorem Env.group_thrs (e : Env) {t : Thread} (h : t ∈ e.group) : t.idx ∈ e.iss.thrs := by
  simpa using (List.mem_filter.mp h).2

theorem Env.parts_group (e : Env) {c : Ctl} {t : Thread} (h : t ∈ e.parts c) : t ∈ e.group := (List.mem_filter.mp h).1

theorem Env.parts_pred (e : Env) {c : Ctl} {t : Thread} (h : t ∈ e.parts c) : t.predTrue c.pred c.neg = true :=
  (List.mem_filter.mp h).2

theorem Env.mem_parts (e : Env) {c : Ctl} {t : Thread} : t ∈ e.parts c ↔ t ∈ e.group ∧ t.predTrue c.pred c.neg = true :=
  List.mem_filter

theorem nodup_filter_map {l : List Thread} (p : Thread → Bool) (h : (l.map fun t => t.idx).Nodup) :
    ((l.filter p).map fun t => t.idx).Nodup := by
  unfold List.Nodup at *
  rw [List.pairwise_map] at *
  exact h.filter p

theorem Env.group_nodup {e : Env} (h : e.w.Sound) : (e.group.map fun t => t.idx).Nodup := nodup_filter_map _ h.distinct

theorem Env.parts_nodup {e : Env} (h : e.w.Sound) (c : Ctl) : ((e.parts c).map fun t => t.idx).Nodup :=
  nodup_filter_map _ (Env.group_nodup h)

/-- In a sound warp two threads of one number are one thread. -/
theorem Warp.Sound.inj {w : Warp} (h : w.Sound) {t u : Thread} (ht : t ∈ w.threads) (hu : u ∈ w.threads)
    (he : t.idx = u.idx) : t = u := by
  have h1 := Warp.thread_of_mem h.distinct ht
  have h2 := Warp.thread_of_mem h.distinct hu
  rw [he, h2] at h1
  exact (Option.some.inj h1).symm

/-! ## Nothing stops the word -/

theorem Runs.check {s : State} {e : Env} {f : Form} {h : State → Env → Thread → Option Hold} (r : Runs s e f h)
    {t : Thread} (ht : t ∈ e.group) : e.check f t = none := by
  unfold Env.check
  have hb : (f.src ++ f.dst).any e.w.beyond = false := by
    rw [List.any_eq_false]
    intro o ho
    simp [r.bounds o ho]
  have h1 : (f.priv && !t.super) = false := by
    cases hp : f.priv with
    | false => rfl
    | true => simp [r.view hp t ht]
  have h2 : (f.last && decide (t.cl.pos ≠ t.cl.count)) = false := by
    cases hp : f.last with
    | false => rfl
    | true => simp [r.last hp t ht]
  have h3 : (f.long && !t.cl.flagValid f.c.fsel) = false := by
    cases hp : f.long with
    | false => rfl
    | true => simp [r.flag hp t ht]
  rw [if_neg (by simp [h1]), if_neg (by rw [h2]; decide), if_neg (by simp [h3]), r.fields t ht]
  simp only [hb]
  rfl

theorem Runs.gate {s : State} {e : Env} {f : Form} {h : State → Env → Thread → Option Hold} (r : Runs s e f h) :
    s.gate e f h = none := by
  unfold State.gate
  have h1 : (e.group.any fun t => (e.check f t).isSome) = false := by
    rw [List.any_eq_false]; intro t ht; simp [r.check ht]
  have h2 : (e.group.any fun t => (e.hold s f h t).isSome) = false := by
    rw [List.any_eq_false]; intro t ht; simp [r.room t ht]
  have h3 : (e.parts f.c).any f.poisoned = false := by
    rw [List.any_eq_false]; intro t ht; simp [r.clean t ht]
  have h4 : (e.group.any fun t => s.breaks e t) = false := by
    rw [List.any_eq_false]; intro t ht; simp [r.unbroken t ht]
  have h5 : ¬ s.now < s.turn e f := Nat.not_lt.mpr r.cycle
  simp [h1, h2, h3, h4, h5]

/-- The word that nothing stops: its body on the issued state, then what is due. -/
theorem issue_of_runs {s : State} {e : Env} {f : Form} {h : State → Env → Thread → Option Hold} (r : Runs s e f h)
    (body : Env → State → State) : issue f h body s = (body e (s.issued e f)).finish e := by
  simp [issue, r.group, r.gate]

/-- Without a group the state stays. -/
theorem issue_none {s : State} (h : s.env = none) (f : Form) (hd : State → Env → Thread → Option Hold)
    (body : Env → State → State) : issue f hd body s = s := by
  simp [issue, h]

/-- Where the gate stops the word, the gate's state is what follows. -/
theorem issue_stopped {s s' : State} {e : Env} (he : s.env = some e) {f : Form}
    {h : State → Env → Thread → Option Hold} (hg : s.gate e f h = some s') (body : Env → State → State) :
    issue f h body s = s' := by
  simp [issue, he, hg]

/-! ## Energy -/

theorem State.charge_ex (s : State) (tag : BitVec 12) (k n : Nat) : ∃ c, s.charge tag k n = { s with ctxs := c } := by
  unfold State.charge
  dsimp only
  split
  · exact ⟨s.ctxs, rfl⟩
  · exact ⟨_, rfl⟩

/-- A charge changes an energy counter and nothing else of any context (R430). -/
theorem State.charge_ctx (s : State) (tag : BitVec 12) (k n : Nat) (t : BitVec 12) :
    (s.charge tag k n).ctx t =
      { s.ctx t with
        energy := ((s.charge tag k n).ctx t).energy
        sat := ((s.charge tag k n).ctx t).sat } := by
  unfold State.charge
  dsimp only
  split
  · rfl
  · have htag : ∀ n, ((s.ctx tag).addEnergy n).tag = tag := fun n => by
      unfold Ctx.addEnergy; split <;> exact State.ctx_tag s tag
    by_cases ht : t = tag
    · subst ht
      have h := State.ctx_setCtx_same s ((s.ctx t).addEnergy (n * (s.pkg.entab.getD k 0).toNat))
      rw [htag] at h
      rw [h]
      unfold Ctx.addEnergy
      split <;> rfl
    · rw [State.ctx_setCtx_other _ _ (by rw [htag]; exact ht)]

/-! ## What the issue itself changes -/

/-- The issuing warp after the issue. -/
def Env.issuedWarp (e : Env) (s : State) (f : Form) (w : Warp) : Warp :=
  { w with
    wissue := w.wissue + 1
    wbeat := w.wbeat + BitVec.ofNat 32 (f.words * beats e.triple e.iss.thrs.length)
    wunif := w.wunif + BitVec.ofNat 32 ((vregsOf f.src).filter fun k => e.w.utag.getD k false).length
    rcache := (rcWord e.w.rcache f).1
    threads := w.threads.map (e.aged s f) }

/-- The beats of a word's issue (R175). -/
def Env.issueBeats (e : Env) (f : Form) : Nat := f.words * beats e.triple e.iss.thrs.length

/-- The slot taken: cores, blocks and dies apart nothing changes. -/
theorem State.takeSlot_ex (s : State) (e : Env) (f : Form) (n : Nat) :
    ∃ c b d, s.takeSlot e f n = { s with cores := c, blocks := b, dies := d } := by
  unfold State.takeSlot State.heapAt
  dsimp only
  split <;> split <;> split <;> exact ⟨_, _, _, rfl⟩

/-- A core after the slot is taken: its slots' times apart as before. -/
theorem State.takeSlot_core (s : State) (e : Env) (f : Form) (n d k : Nat) :
    (s.takeSlot e f n).core d k =
      { s.core d k with
        busy := ((s.takeSlot e f n).core d k).busy
        lastIssue := ((s.takeSlot e f n).core d k).lastIssue } := by
  have h1 : ∀ c : Core, c.die = e.w.die → c.core = e.w.core →
      (c = { s.core e.w.die e.w.core with busy := c.busy, lastIssue := c.lastIssue }) →
      (s.setCore c).core d k =
        { s.core d k with
          busy := ((s.setCore c).core d k).busy
          lastIssue := ((s.setCore c).core d k).lastIssue } := by
    intro c hd hk hc
    by_cases h : d = e.w.die ∧ k = e.w.core
    · rw [h.1, h.2, ← hd, ← hk, State.core_setCore_same, hd, hk]
      exact hc
    · rw [State.core_setCore_other _ _ (by rw [hd, hk]; exact h)]
  obtain ⟨hd, hk⟩ := s.core_key e.w.die e.w.core
  have h3 : (s.takeSlot e f n).cores = (if e.w.service then s
      else s.setCore
        { s.core e.w.die e.w.core with
          busy := setKey (e.w.slot % 8) (s.now + n) (s.core e.w.die e.w.core).busy
          lastIssue := some (s.now, e.w.slot % 8) }).cores := by
    unfold State.takeSlot State.heapAt
    dsimp only
    split <;> split <;> split <;> rfl
  have h4 : (s.takeSlot e f n).core d k = (if e.w.service then s
      else s.setCore
        { s.core e.w.die e.w.core with
          busy := setKey (e.w.slot % 8) (s.now + n) (s.core e.w.die e.w.core).busy
          lastIssue := some (s.now, e.w.slot % 8) }).core d k := by
    unfold State.core at h3 ⊢
    rw [h3]
  rw [h4]
  split
  · rfl
  · exact h1 _ hd hk rfl

/-- A die after the slot is taken: the heap unit's place in its cycle apart as before. -/
theorem State.takeSlot_die (s : State) (e : Env) (f : Form) (n d : Nat) :
    (s.takeSlot e f n).die d = { s.die d with heapKey := ((s.takeSlot e f n).die d).heapKey } := by
  have h1 : ∀ c : Die, c.die = e.w.die → (c = { s.die e.w.die with heapKey := c.heapKey }) →
      (s.setDie c).die d = { s.die d with heapKey := ((s.setDie c).die d).heapKey } := by
    intro c hd hc
    by_cases h : d = e.w.die
    · rw [h, ← hd, State.die_setDie_same, hd]
      exact hc
    · rw [State.die_setDie_other _ _ (by rw [hd]; exact h)]
  have h3 : (s.takeSlot e f n).dies =
      (if f.heap then s.setDie { s.die e.w.die with heapKey := some (s.now, e.w.key) } else s).dies := by
    unfold State.takeSlot State.heapAt State.die
    dsimp only
    split <;> split <;> split <;> rfl
  have h4 : (s.takeSlot e f n).die d =
      (if f.heap then s.setDie { s.die e.w.die with heapKey := some (s.now, e.w.key) } else s).die d := by
    unfold State.die
    unfold State.die at h3
    rw [h3]
  rw [h4]
  split
  · exact h1 _ (s.die_key _) rfl
  · rfl

/-- A block after the slot is taken: in the order of the cycle's keys (R218). -/
def Env.inOrder (e : Env) (f : Form) (now : Nat) (b : Block) : Block :=
  if f.keyed then { b with lastKey := some (now, e.w.key) } else b

theorem State.takeSlot_block (s : State) (e : Env) (f : Form) (n : Nat) :
    (s.takeSlot e f n).block? e.b.bid = (s.block? e.b.bid).map (e.inOrder f s.now) := by
  have h1 : ∀ t u : State, t.blocks = u.blocks → t.block? e.b.bid = u.block? e.b.bid := fun t u h => by
    unfold State.block?; rw [h]
  have h2 : (s.takeSlot e f n).block? e.b.bid = (s.updBlock e.b.bid (e.inOrder f s.now)).block? e.b.bid := by
    refine h1 _ _ ?_
    unfold State.takeSlot State.heapAt Env.inOrder
    dsimp only
    split <;> split <;> split <;> simp_all [State.updBlock, mapIf]
  rw [h2, State.block_updBlock_same]
  intro b
  unfold Env.inOrder
  split <;> rfl

theorem State.takeSlot_block_other (s : State) (e : Env) (f : Form) (n : Nat) {bid : Nat} (h : bid ≠ e.b.bid) :
    (s.takeSlot e f n).block? bid = s.block? bid := by
  have h1 : ∀ t u : State, t.blocks = u.blocks → t.block? bid = u.block? bid := fun t u h => by
    unfold State.block?; rw [h]
  have h2 : (s.takeSlot e f n).block? bid =
      (if f.keyed then s.updBlock e.b.bid fun b => { b with lastKey := some (s.now, e.w.key) } else s).block? bid := by
    refine h1 _ _ ?_
    unfold State.takeSlot State.heapAt
    dsimp only
    split <;> split <;> split <;> rfl
  rw [h2]
  split
  · exact State.block_updBlock_other s h _ fun _ => rfl
  · rfl

/-- The issue is the change of the warp, the slot taken, and energy. -/
theorem State.issued_ex (s : State) (e : Env) (f : Form) :
    ∃ c, s.issued e f = { (s.updWarp e.w.wid (e.issuedWarp s f)).takeSlot e f (e.issueBeats f) with ctxs := c } := by
  have key : ∀ (t : State) (a b c d g h i j : Nat), ∃ x,
      (if f.lanes = 0 then (((t.charge e.g.tag a b).charge e.g.tag c d).charge e.g.tag g h)
      else (((t.charge e.g.tag a b).charge e.g.tag c d).charge e.g.tag g h).charge e.g.tag i j) = { t with ctxs := x } := by
    intro t a b c d g h i j
    obtain ⟨c1, h1⟩ := State.charge_ex t e.g.tag a b
    obtain ⟨c2, h2⟩ := State.charge_ex { t with ctxs := c1 } e.g.tag c d
    obtain ⟨c3, h3⟩ := State.charge_ex { t with ctxs := c2 } e.g.tag g h
    obtain ⟨c4, h4⟩ := State.charge_ex { t with ctxs := c3 } e.g.tag i j
    rw [h1, h2, h3, h4]
    split
    · exact ⟨c3, rfl⟩
    · exact ⟨c4, rfl⟩
  exact key ((s.updWarp e.w.wid (e.issuedWarp s f)).takeSlot e f (e.issueBeats f)) _ _ _ _ _ _ _ _

/-- The issue, by the parts that it changes. -/
theorem State.issued_parts (s : State) (e : Env) (f : Form) : ∃ x c b d, s.issued e f =
    { s.updWarp e.w.wid (e.issuedWarp s f) with
      ctxs := x
      cores := c
      blocks := b
      dies := d } := by
  obtain ⟨x, h⟩ := s.issued_ex e f
  obtain ⟨c, b, d, h2⟩ := (s.updWarp e.w.wid (e.issuedWarp s f)).takeSlot_ex e f (e.issueBeats f)
  exact ⟨x, c, b, d, by rw [h, h2]⟩

theorem State.issued_warps (s : State) (e : Env) (f : Form) :
    (s.issued e f).warps = (s.updWarp e.w.wid (e.issuedWarp s f)).warps := by
  obtain ⟨_, _, _, _, h⟩ := s.issued_parts e f
  rw [h]

theorem State.warp_congr {s t : State} (h : s.warps = t.warps) (wid : Nat) : s.warp? wid = t.warp? wid := by
  unfold State.warp?; rw [h]

theorem State.issued_warp {s : State} {e : Env} (he : s.env = some e) (f : Form) :
    (s.issued e f).warp? e.w.wid = some (e.issuedWarp s f e.w) := by
  rw [State.warp_congr (s.issued_warps e f), State.warp_updWarp_same s _ (e.issuedWarp s f) (fun _ => rfl), State.env_warp he]
  rfl

theorem State.issued_warp_other (s : State) (e : Env) (f : Form) {wid : Nat} (h : wid ≠ e.w.wid) :
    (s.issued e f).warp? wid = s.warp? wid := by
  rw [State.warp_congr (s.issued_warps e f), State.warp_updWarp_other s h (e.issuedWarp s f) (fun _ => rfl)]

@[simp] theorem State.issued_fresh (s : State) (e : Env) (f : Form) : (s.issued e f).fresh = s.fresh := by
  obtain ⟨_, _, _, _, h⟩ := s.issued_parts e f
  rw [h]; rfl
@[simp] theorem State.issued_now (s : State) (e : Env) (f : Form) : (s.issued e f).now = s.now := by
  obtain ⟨_, _, _, _, h⟩ := s.issued_parts e f
  rw [h]; rfl
@[simp] theorem State.issued_mem (s : State) (e : Env) (f : Form) : (s.issued e f).mem = s.mem := by
  obtain ⟨_, _, _, _, h⟩ := s.issued_parts e f
  rw [h]; rfl
@[simp] theorem State.issued_tags (s : State) (e : Env) (f : Form) : (s.issued e f).tags = s.tags := by
  obtain ⟨_, _, _, _, h⟩ := s.issued_parts e f
  rw [h]; rfl
@[simp] theorem State.issued_grids (s : State) (e : Env) (f : Form) : (s.issued e f).grids = s.grids := by
  obtain ⟨_, _, _, _, h⟩ := s.issued_parts e f
  rw [h]; rfl
@[simp] theorem State.issued_clusters (s : State) (e : Env) (f : Form) : (s.issued e f).clusters = s.clusters := by
  obtain ⟨_, _, _, _, h⟩ := s.issued_parts e f
  rw [h]; rfl
@[simp] theorem State.issued_pkg (s : State) (e : Env) (f : Form) : (s.issued e f).pkg = s.pkg := by
  obtain ⟨_, _, _, _, h⟩ := s.issued_parts e f
  rw [h]; rfl
@[simp] theorem State.issued_uid (s : State) (e : Env) (f : Form) : (s.issued e f).uid = s.uid := by
  obtain ⟨_, _, _, _, h⟩ := s.issued_parts e f
  rw [h]; rfl
@[simp] theorem State.issued_cur (s : State) (e : Env) (f : Form) : (s.issued e f).cur = s.cur := by
  obtain ⟨_, _, _, _, h⟩ := s.issued_parts e f
  rw [h]; rfl
@[simp] theorem State.issued_out (s : State) (e : Env) (f : Form) : (s.issued e f).out = s.out := by
  obtain ⟨_, _, _, _, h⟩ := s.issued_parts e f
  rw [h]; rfl
@[simp] theorem State.issued_inputs (s : State) (e : Env) (f : Form) : (s.issued e f).inputs = s.inputs := by
  obtain ⟨_, _, _, _, h⟩ := s.issued_parts e f
  rw [h]; rfl

theorem State.issued_core (s : State) (e : Env) (f : Form) (d k : Nat) :
    (s.issued e f).core d k =
      { s.core d k with
        busy := ((s.issued e f).core d k).busy
        lastIssue := ((s.issued e f).core d k).lastIssue } := by
  obtain ⟨c, h⟩ := s.issued_ex e f
  have h1 := (s.updWarp e.w.wid (e.issuedWarp s f)).takeSlot_core e f (e.issueBeats f) d k
  rw [h]
  exact h1

theorem State.issued_die (s : State) (e : Env) (f : Form) (d : Nat) :
    (s.issued e f).die d = { s.die d with heapKey := ((s.issued e f).die d).heapKey } := by
  obtain ⟨c, h⟩ := s.issued_ex e f
  have h1 := (s.updWarp e.w.wid (e.issuedWarp s f)).takeSlot_die e f (e.issueBeats f) d
  rw [h]
  exact h1

theorem State.issued_block (s : State) (e : Env) (f : Form) :
    (s.issued e f).block? e.b.bid = (s.block? e.b.bid).map (e.inOrder f s.now) := by
  obtain ⟨c, h⟩ := s.issued_ex e f
  have h1 := (s.updWarp e.w.wid (e.issuedWarp s f)).takeSlot_block e f (e.issueBeats f)
  rw [h]
  exact h1

theorem State.issued_block_other (s : State) (e : Env) (f : Form) {bid : Nat} (hb : bid ≠ e.b.bid) :
    (s.issued e f).block? bid = s.block? bid := by
  obtain ⟨c, h⟩ := s.issued_ex e f
  have h1 := (s.updWarp e.w.wid (e.issuedWarp s f)).takeSlot_block_other e f (e.issueBeats f) hb
  rw [h]
  exact h1

/-- What a state shares with another up to energy counters. -/
def EnergyOnly (s s' : State) : Prop :=
  ∀ tag, s'.ctx tag =
    { s.ctx tag with
      energy := (s'.ctx tag).energy
      sat := (s'.ctx tag).sat }

theorem EnergyOnly.refl (s : State) : EnergyOnly s s := fun _ => rfl

theorem EnergyOnly.trans {s t u : State} (h : EnergyOnly s t) (k : EnergyOnly t u) : EnergyOnly s u := fun tag => by
  rw [k tag, h tag]

theorem EnergyOnly.of_ctxs {s t : State} (h : t.ctxs = s.ctxs) : EnergyOnly s t := fun tag => by
  simp [State.ctx, h]

theorem EnergyOnly.charge (s : State) (tag : BitVec 12) (k n : Nat) : EnergyOnly s (s.charge tag k n) :=
  s.charge_ctx tag k n

theorem State.issued_energy (s : State) (e : Env) (f : Form) : EnergyOnly s (s.issued e f) := by
  unfold State.issued
  dsimp only
  have h0 : EnergyOnly s ((s.updWarp e.w.wid (e.issuedWarp s f)).takeSlot e f (e.issueBeats f)) := by
    obtain ⟨_, _, _, h⟩ := (s.updWarp e.w.wid (e.issuedWarp s f)).takeSlot_ex e f (e.issueBeats f)
    rw [h]
    exact EnergyOnly.of_ctxs rfl
  split
  · exact ((h0.trans (EnergyOnly.charge _ _ _ _)).trans (EnergyOnly.charge _ _ _ _)).trans (EnergyOnly.charge _ _ _ _)
  · exact (((h0.trans (EnergyOnly.charge _ _ _ _)).trans (EnergyOnly.charge _ _ _ _)).trans
      (EnergyOnly.charge _ _ _ _)).trans (EnergyOnly.charge _ _ _ _)

/-- An operand reads the same before and after the issue (R78). -/
theorem Env.read_congr (e : Env) {s t : State} (hf : t.fresh = s.fresh) (hn : t.now = s.now) (u : Thread) (o : Opd) :
    e.read t u o = e.read s u o := by
  cases o <;> simp [Env.read, hf, hn]

@[simp] theorem Env.read_issued (e : Env) (s : State) (f : Form) (u : Thread) (o : Opd) :
    e.read (s.issued e f) u o = e.read s u o := e.read_congr (by simp) (by simp) u o

@[simp] theorem Env.read0_issued (e : Env) (s : State) (f : Form) (u : Thread) (o : Opd) :
    e.read0 (s.issued e f) u o = e.read0 s u o := by simp [Env.read0]

@[simp] theorem Env.src_issued (e : Env) (s : State) (f : Form) (u : Thread) (x : Ext) (b : Src) :
    e.src (s.issued e f) u x b = e.src s u x b := by cases b <;> simp [Env.src]

@[simp] theorem Env.oldDst_issued (e : Env) (s : State) (f : Form) (u : Thread) (d : Dst) :
    e.oldDst (s.issued e f) u d = e.oldDst s u d := by cases d <;> simp [Env.oldDst]

/-! ## The threads after the issue -/

@[simp] theorem latchClock_idx (f : Form) (n : Nat) (t : Thread) : (latchClock f n t).idx = t.idx := by
  unfold latchClock; split <;> rfl

@[simp] theorem Env.aged_idx (e : Env) (s : State) (f : Form) (t : Thread) : (e.aged s f t).idx = t.idx := by
  unfold Env.aged; split
  · split
    · rw [latchClock_idx]; rfl
    · rfl
  · split <;> rfl

theorem Calm.advance {e : Env} (h : Calm e) (t : Thread) :
    e.advance t =
      { t with
        pc := nextPc e.iss.pc
        cl := t.cl.next
        age := 0
        passOnce := false } := by
  simp [Env.advance, h.step]

/-- A thread of a calm group after the issue stands past the word. -/
theorem Env.aged_group {e : Env} (hw : e.w.Sound) (hc : Calm e) (s : State) (f : Form) {t : Thread} (ht : t ∈ e.group) :
    e.aged s f t = e.past s f t := by
  have hi := e.group_thrs ht
  unfold Env.aged Env.past
  rw [if_pos hi]
  dsimp only
  by_cases hp : t.predTrue f.c.pred f.c.neg = true
  · have hm : t.idx ∈ (e.parts f.c).map fun u => u.idx := List.mem_map_of_mem (e.mem_parts.mpr ⟨ht, hp⟩)
    rw [if_pos hm, if_pos hp, hc.advance]
  · have hm : ¬ t.idx ∈ (e.parts f.c).map fun u => u.idx := by
      intro hm
      obtain ⟨u, hu, hiu⟩ := List.mem_map.mp hm
      have : u = t := hw.inj (e.group_sub (e.parts_group hu)) (e.group_sub ht) hiu
      exact hp (this ▸ e.parts_pred hu)
    rw [if_neg hm, if_neg hp, hc.advance]

theorem Env.aged_bystander (e : Env) (s : State) (f : Form) {t : Thread} (ht : t.idx ∉ e.iss.thrs) :
    e.aged s f t = { t with age := (e.aged s f t).age } := by
  unfold Env.aged
  rw [if_neg ht]
  split <;> rfl

theorem find_map_idx (l : List Thread) (g : Thread → Thread) (hg : ∀ t, (g t).idx = t.idx) (i : Nat) :
    (l.map g).find? (fun t => t.idx = i) = (l.find? fun t => t.idx = i).map g := by
  induction l with
  | nil => rfl
  | cons x l ih => by_cases h : x.idx = i <;> simp [hg, h, ih]

theorem Env.issuedWarp_thread {e : Env} (hw : e.w.Sound) (s : State) (f : Form) {t : Thread} (ht : t ∈ e.w.threads) :
    (e.issuedWarp s f e.w).thread? t.idx = some (e.aged s f t) := by
  have h1 := Warp.thread_of_mem hw.distinct ht
  unfold Warp.thread? at h1 ⊢
  show (e.w.threads.map (e.aged s f)).find? _ = _
  rw [find_map_idx _ _ (e.aged_idx s f), h1]
  rfl

/-! ## What follows the word -/

/-- Nothing due: the state stays. -/
theorem State.takeDue_none {s : State} {wid i : Nat} (h : ∀ t, s.thread? wid i = some t → t.due = []) :
    s.takeDue wid i = s := by
  unfold State.takeDue
  cases ht : s.thread? wid i with
  | none => rfl
  | some t => simp [h t ht]

theorem State.finish_calm {s : State} {e : Env}
    (h : ∀ i ∈ e.iss.thrs, ∀ t, s.thread? e.w.wid i = some t → t.due = []) : s.finish e = s := by
  unfold State.finish
  have : ∀ l : List Nat, (∀ i ∈ l, i ∈ e.iss.thrs) → l.foldl (fun s i => s.takeDue e.w.wid i) s = s := by
    intro l
    induction l with
    | nil => intro _; rfl
    | cons i l ih =>
      intro hl
      rw [List.foldl_cons, State.takeDue_none (h i (hl i (List.mem_cons_self ..)))]
      exact ih fun j hj => hl j (List.mem_cons_of_mem _ hj)
  exact this _ fun _ hi => hi

end Sys2Proof.Machine
end

