-- ==== Sys2Proof/Laws/Words.lean ====
section
/-! SUPPORT. Words that write registers: what writing a result does to the warp and the block, and what a plain word, a
predicate word and a computing word leave and deliver. -/

namespace Sys2Proof.Machine

/-! ## Outstanding instructions: only marks -/

theorem Warp.writeV_pend (w : Warp) (i n : Nat) (x : Triple) :
    (w.writeV i n x).pend.map Pend.bare = w.pend.map Pend.bare := by
  unfold Warp.writeV
  simp only [List.map_map]
  exact List.map_congr_left fun p _ => rfl

theorem Warp.touch1_pend (w : Warp) (k : Nat) : (w.touch1 k).pend.map Pend.bare = w.pend.map Pend.bare := by
  unfold Warp.touch1
  simp only [List.map_map]
  exact List.map_congr_left fun p _ => rfl

/-! ## One warp with a result written -/

/-- What writing a result to `d` for the threads of `ps` does to their warp. -/
def Warp.putAll (w : Warp) (ps : List Thread) (d : Dst) (x : Thread → Triple) : Warp :=
  match d with
  | .v n => (ps.foldl (fun w t => w.writeV t.idx n (x t)) w).retag n
  | .s n => (ps.take 1).foldl (fun w t => w.writeS n (x t).s0) w
  | .g _ => w
  | .none => w

theorem Warp.putAll_rest (w : Warp) (ps : List Thread) (d : Dst) (x : Thread → Triple) :
    w.putAll ps d x =
      { w with
        threads := (w.putAll ps d x).threads
        utag := (w.putAll ps d x).utag
        pend := (w.putAll ps d x).pend
        s := (w.putAll ps d x).s } := by
  have key : ∀ (l : List Thread) (n : Nat) (w : Warp), ∃ th pe,
      l.foldl (fun w t => w.writeV t.idx n (x t)) w = { w with threads := th, pend := pe } := by
    intro l n
    induction l with
    | nil => intro w; exact ⟨w.threads, w.pend, rfl⟩
    | cons t l ih =>
      intro w
      obtain ⟨th, pe, h⟩ := ih (w.writeV t.idx n (x t))
      exact ⟨th, pe, by rw [List.foldl_cons, h]; rfl⟩
  cases d with
  | v n =>
    obtain ⟨th, pe, h⟩ := key ps n w
    simp only [Warp.putAll, h]
    rfl
  | s n => cases ps <;> rfl
  | g n => rfl
  | none => rfl

@[simp] theorem Warp.putAll_wid (w : Warp) (ps : List Thread) (d : Dst) (x : Thread → Triple) :
    (w.putAll ps d x).wid = w.wid := by rw [Warp.putAll_rest]

@[simp] theorem Warp.putAll_bid (w : Warp) (ps : List Thread) (d : Dst) (x : Thread → Triple) :
    (w.putAll ps d x).bid = w.bid := by rw [Warp.putAll_rest]

theorem Warp.putAll_pend (w : Warp) (ps : List Thread) (d : Dst) (x : Thread → Triple) :
    (w.putAll ps d x).pend.map Pend.bare = w.pend.map Pend.bare := by
  cases d with
  | v n =>
    exact foldl_same (fun w : Warp => w.pend.map Pend.bare) (fun w t => w.writeV t.idx n (x t))
      (fun w t => Warp.writeV_pend w t.idx n (x t)) ps w
  | s n =>
    exact foldl_same (fun w : Warp => w.pend.map Pend.bare) (fun w t => w.writeS n (x t).s0)
      (fun w _ => Warp.touch1_pend w n) (ps.take 1) w
  | g n => rfl
  | none => rfl

theorem Warp.putAll_sregs (w : Warp) (ps : List Thread) (d : Dst) (x : Thread → Triple) (n : Nat) (h : d ≠ .s n) :
    (w.putAll ps d x).s[n]? = w.s[n]? := by
  cases d with
  | v m => exact foldl_same (fun w : Warp => w.s[n]?) (fun w t => w.writeV t.idx m (x t)) (fun w t => rfl) ps w
  | s m =>
    refine foldl_same (fun w : Warp => w.s[n]?) (fun w t => w.writeS m (x t).s0) (fun w t => ?_) (ps.take 1) w
    exact getElem?_setAt_other _ _ fun e => h (by rw [e])
  | g m => rfl
  | none => rfl

theorem Warp.putAll_sreg (w : Warp) (ps : List Thread) (n : Nat) (x : Thread → Triple) (hn : n < w.s.length)
    {t : Thread} (ht : ps.head? = some t) : (w.putAll ps (.s n) x).s[n]? = some (x t).s0 := by
  cases ps with
  | nil => cases ht
  | cons u l =>
    cases ht
    exact getElem?_setAt_same _ hn

theorem Warp.writeV_thread (w : Warp) (i n : Nat) (x : Triple) :
    (w.writeV i n x).threads = (w.updThread i fun t => t.putV n x).threads := rfl

theorem Warp.thread_threads {w w' : Warp} (h : w.threads = w'.threads) (i : Nat) : w.thread? i = w'.thread? i := by
  unfold Warp.thread?; rw [h]

theorem Warp.foldl_writeV_threads (l : List Thread) (n : Nat) (x : Thread → Triple) (w : Warp) :
    (l.foldl (fun w t => w.writeV t.idx n (x t)) w).threads =
      (l.foldl (fun w t => w.updThread t.idx fun u => u.putV n (x t)) w).threads := by
  have key : ∀ (w v : Warp), w.threads = v.threads →
      (l.foldl (fun w t => w.writeV t.idx n (x t)) w).threads =
        (l.foldl (fun w t => w.updThread t.idx fun u => u.putV n (x t)) v).threads := by
    induction l with
    | nil => intro w v h; exact h
    | cons t l ih =>
      intro w v h
      refine ih _ _ ?_
      show (w.writeV t.idx n (x t)).threads = (v.updThread t.idx fun u => u.putV n (x t)).threads
      rw [Warp.writeV_thread]
      unfold Warp.updThread
      rw [h]
  exact key w w rfl

/-- The thread of a number after a result is written. -/
theorem Warp.putAll_thread (w : Warp) (ps : List Thread) (hps : (ps.map fun t => t.idx).Nodup) (d : Dst)
    (x : Thread → Triple) (i : Nat) :
    (w.putAll ps d x).thread? i =
      match ps.find? fun t => t.idx = i with
      | some t => (w.thread? i).map fun u => u.putDst d (x t)
      | none => w.thread? i := by
  cases d with
  | v n =>
    have h1 : (w.putAll ps (.v n) x).thread? i =
        (ps.foldl (fun w t => w.updThread t.idx fun u => u.putV n (x t)) w).thread? i :=
      Warp.thread_threads (Warp.foldl_writeV_threads ps n x w) i
    rw [h1, Warp.foldl_updThread_thread ps (fun t u => u.putV n (x t)) (fun _ _ _ => rfl) hps]
    rfl
  | s n =>
    have h1 : (w.putAll ps (.s n) x).thread? i = w.thread? i := by cases ps <;> rfl
    rw [h1]
    split <;> simp [Thread.putDst]
  | g n =>
    show w.thread? i = _
    split <;> simp [Thread.putDst]
  | none =>
    show w.thread? i = _
    split <;> simp [Thread.putDst]

/-! ## The state with a result written -/

theorem State.retagDst_eq (s : State) (wid : Nat) (d : Dst) :
    s.retagDst wid d = match d with
      | .v n => s.updWarp wid fun w => w.retag n
      | .s _ => s
      | .g _ => s
      | .none => s := by cases d <;> rfl

/-- Written to a destination that is no block register, a result changes the issuing warp. -/
theorem State.writeAll_eq (s : State) (e : Env) (ps : List Thread) (d : Dst) (x : Thread → Triple) (hd : d.notG) :
    s.writeAll e ps d x = s.updWarp e.w.wid fun w => w.putAll ps d x := by
  cases d with
  | v n =>
    show (ps.foldl (fun s t => s.updWarp e.w.wid fun w => w.writeV t.idx n (x t)) s).updWarp e.w.wid _ = _
    rw [State.foldl_updWarp ps e.w.wid (fun t w => w.writeV t.idx n (x t)) (fun _ _ => rfl),
      State.updWarp_updWarp _ _ _ _ (foldl_wid ps (fun t w => w.writeV t.idx n (x t)) fun _ _ => rfl)]
    rfl
  | s n =>
    show (ps.take 1).foldl (fun s t => s.updWarp e.w.wid fun w => w.writeS n (x t).s0) s = _
    rw [State.foldl_updWarp (ps.take 1) e.w.wid (fun t w => w.writeS n (x t).s0) (fun _ _ => rfl)]
    rfl
  | g n => exact hd.elim
  | none =>
    show ps.foldl (fun s _ => s) s = s.updWarp e.w.wid fun w => w
    rw [State.updWarp_id]
    exact foldl_same (fun s : State => s) _ (fun _ _ => rfl) ps s

/-- Written to a block register: the lowest participant's sibling 0, or nothing where no thread participates. -/
theorem State.writeAll_g (s : State) (e : Env) (ps : List Thread) (n : Nat) (x : Thread → Triple) :
    s.writeAll e ps (.g n) x =
      match ps with
      | [] => s
      | t :: _ => s.writeG e.b.bid e.w.rank e.w.slot n (x t).s0 := by
  cases ps <;> rfl

/-! ## Frames, step by step -/

theorem Env.find_list {e : Env} (hw : e.w.Sound) {l : List Thread} (hs : ∀ t ∈ l, t ∈ e.group)
    (hn : (l.map fun t => t.idx).Nodup) {t : Thread} (ht : t ∈ e.group) :
    l.find? (fun u => u.idx = t.idx) = if t ∈ l then some t else none := by
  split
  · rename_i hp
    exact find_of_mem hn hp
  · rename_i hp
    refine find_none_of_not_mem fun hm => hp ?_
    obtain ⟨u, hu, hiu⟩ := List.mem_map.mp hm
    have : u = t := hw.inj (e.group_sub (hs u hu)) (e.group_sub ht) hiu
    exact this ▸ hu

theorem Env.find_list_bystander (e : Env) {l : List Thread} (hs : ∀ t ∈ l, t ∈ e.group) {t : Thread}
    (ht : t.idx ∉ e.iss.thrs) : l.find? (fun u => u.idx = t.idx) = none := by
  refine find_none_of_not_mem fun hm => ht ?_
  obtain ⟨u, hu, hiu⟩ := List.mem_map.mp hm
  exact hiu ▸ e.group_thrs (hs u hu)

theorem Block.After.refl (b : Block) (rank : Nat) (d : Dst) : b.After b rank d :=
  ⟨rfl, fun _ => rfl, fun _ _ => rfl⟩

/-- The place in the cycle's order is what an issue leaves in its block (R218). -/
theorem Block.After.inOrder (e : Env) (f : Form) (now : Nat) (d : Dst) : e.b.After (e.inOrder f now e.b) e.w.rank d := by
  unfold Env.inOrder
  split
  · exact ⟨rfl, fun _ => rfl, fun _ _ => rfl⟩
  · exact Block.After.refl ..

theorem Env.past_due (e : Env) (s : State) (f : Form) (t : Thread) : (e.past s f t).due = t.due := by
  unfold Env.past latchClock
  dsimp only
  split
  · split <;> rfl
  · rfl

theorem Env.past_v (e : Env) (s : State) (f : Form) (t : Thread) : (e.past s f t).v = t.v := by
  unfold Env.past latchClock
  dsimp only
  split
  · split <;> rfl
  · rfl

theorem Env.past_p (e : Env) (s : State) (f : Form) (t : Thread) : (e.past s f t).p = t.p := by
  unfold Env.past latchClock
  dsimp only
  split
  · split <;> rfl
  · rfl

/-- The issue alone. -/
theorem Normal.frame_issued {s : State} {e : Env} {f : Form} {h : State → Env → Thread → Option Hold}
    (n : Normal s e f h) : Frame s (s.issued e f) e .none e.g.icnt (e.past s f) where
  rest := by
    obtain ⟨x, c, b, d, hc⟩ := s.issued_parts e f
    rw [hc]
    rfl
  cores := s.issued_core e f
  dies := s.issued_die e f
  ctxs := s.issued_energy e f
  grids gid := by
    have h1 : (s.issued e f).grid? gid = s.grid? gid := by simp [State.grid?]
    rw [h1]
    split
    · rename_i hg
      have := (State.env_some n.runs.group).2.2.2
      rw [hg, State.grid_gid this, this]
    · rfl
  warp := by
    refine ⟨_, State.issued_warp n.runs.group f, ⟨rfl, rfl, fun _ _ => rfl⟩, ?_⟩
    show (e.w.threads.map (e.aged s f)).map _ = _
    rw [List.map_map]
    exact List.map_congr_left fun t _ => e.aged_idx s f t
  others wid hne w hw := ⟨w, by rw [s.issued_warp_other e f hne]; exact hw, rfl, rfl⟩
  block := by
    refine ⟨e.inOrder f s.now e.b, ?_, Block.After.inOrder ..⟩
    rw [s.issued_block e f, State.env_block n.runs.group]
    rfl
  blocks bid hb := s.issued_block_other e f hb
  group t ht := by
    unfold State.thread?
    rw [State.issued_warp n.runs.group]
    show (e.issuedWarp s f e.w).thread? t.idx = _
    rw [Env.issuedWarp_thread n.warp s f (e.group_sub ht), Env.aged_group n.warp n.calm s f ht]
  bystanders t ht hi := by
    refine ⟨e.aged s f t, ?_, e.aged_bystander s f hi⟩
    unfold State.thread?
    rw [State.issued_warp n.runs.group]
    exact Env.issuedWarp_thread n.warp s f ht

/-- The warp changed, and nothing else: what the frame needs of the change. -/
theorem Frame.thenWarp {s b : State} {e : Env} {d d' : Dst} {c : Word × Word × Word} {post : Thread → Thread}
    (h : Frame s b e d c post) (hd : (∀ n, d' ≠ .g n) → ∀ n, d ≠ .g n) (hd' : ∀ n, d' ≠ .g n → d ≠ .g n)
    (g : Warp → Warp) (hg : ∀ w, (g w).wid = w.wid)
    (hafter : ∀ w', e.w.After w' d → e.w.After (g w') d')
    (hidx : ∀ w, ((g w).threads.map fun t => t.idx) = w.threads.map fun t => t.idx)
    (post' : Thread → Thread)
    (hgroup : ∀ t ∈ e.group, ∀ w', w'.thread? t.idx = some (post t) → (g w').thread? t.idx = some (post' t))
    (hby : ∀ t ∈ e.w.threads, t.idx ∉ e.iss.thrs → ∀ w', (g w').thread? t.idx = w'.thread? t.idx) :
    Frame s (b.updWarp e.w.wid g) e d' c post' := by
  obtain ⟨w', hw, hafter', hidx'⟩ := h.warp
  have hw' : (b.updWarp e.w.wid g).warp? e.w.wid = some (g w') := by
    rw [State.warp_updWarp_same _ _ _ hg, hw]; rfl
  have hthr : ∀ i u, b.thread? e.w.wid i = some u ↔ w'.thread? i = some u := fun i u => by
    unfold State.thread?; rw [hw]; rfl
  constructor
  · have := h.rest
    rw [this]
    rfl
  · exact h.cores
  · exact h.dies
  · exact h.ctxs
  · exact h.grids
  · exact ⟨_, hw', hafter w' hafter', (hidx w').trans hidx'⟩
  · intro wid hne w hws
    obtain ⟨w1, h1, h2⟩ := h.others wid hne w hws
    exact ⟨w1, by rw [State.warp_updWarp_other _ hne _ hg]; exact h1, h2⟩
  · obtain ⟨b', h1, h2⟩ := h.block
    exact ⟨b', h1, h2.rest, fun hn => h2.other (hd hn), fun n hn => h2.gregs n (hd' n hn)⟩
  · exact h.blocks
  · intro t ht
    unfold State.thread?
    rw [hw']
    exact hgroup t ht w' ((hthr _ _).mp (h.group t ht))
  · intro t ht hi
    obtain ⟨u, hu, he⟩ := h.bystanders t ht hi
    refine ⟨u, ?_, he⟩
    unfold State.thread?
    rw [hw']
    show (g w').thread? t.idx = some u
    rw [hby t ht hi w']
    exact (hthr _ _).mp hu

theorem Warp.foldl_updThread_rest (l : List Thread) (g : Thread → Thread → Thread) (w : Warp) :
    ∃ th, l.foldl (fun w x => w.updThread x.idx (g x)) w = { w with threads := th } := by
  induction l generalizing w with
  | nil => exact ⟨w.threads, rfl⟩
  | cons x l ih =>
    obtain ⟨th, h⟩ := ih (w.updThread x.idx (g x))
    exact ⟨th, by rw [List.foldl_cons, h]; rfl⟩

theorem Warp.foldl_updThread_idx (l : List Thread) (g : Thread → Thread → Thread) (hg : ∀ x t, t.idx = x.idx → (g x t).idx = t.idx)
    (w : Warp) :
    ((l.foldl (fun w x => w.updThread x.idx (g x)) w).threads.map fun t => t.idx) = w.threads.map fun t => t.idx :=
  foldl_same (fun w : Warp => w.threads.map fun t => t.idx) (fun w x => w.updThread x.idx (g x))
    (fun w x => map_mapIf (fun t : Thread => t.idx) _ (g x) (fun t ht => hg x t (by simpa using ht)) w.threads) l w

theorem Warp.After.threads {w w' : Warp} {d : Dst} (h : w.After w' d) (th : List Thread) :
    w.After { w' with threads := th } d := by
  have hr := h.rest
  exact ⟨by rw [hr], h.pend, h.sregs⟩

/-- Then some threads of the group are changed, each in its own way. -/
theorem Frame.thenThreads {s b : State} {e : Env} (hw : e.w.Sound) {d : Dst} {c : Word × Word × Word}
    {post : Thread → Thread} (h : Frame s b e d c post) {l : List Thread} (hs : ∀ t ∈ l, t ∈ e.group)
    (hn : (l.map fun t => t.idx).Nodup) (g : Thread → Thread → Thread) (hg : ∀ x t, t.idx = x.idx → (g x t).idx = t.idx) :
    Frame s (l.foldl (fun s t => s.updThread e.w.wid t.idx (g t)) b) e d c
      fun t => if t ∈ l then g t (post t) else post t := by
  have h1 : l.foldl (fun s t => s.updThread e.w.wid t.idx (g t)) b =
      b.updWarp e.w.wid fun w => l.foldl (fun w t => w.updThread t.idx (g t)) w :=
    State.foldl_updWarp l e.w.wid (fun t w => w.updThread t.idx (g t)) (fun _ _ => rfl) b
  rw [h1]
  refine h.thenWarp (fun k => k) (fun _ k => k) _ (fun w => foldl_wid l (fun t w => w.updThread t.idx (g t)) (fun _ _ => rfl) w)
    (fun w' ha => ?_) (Warp.foldl_updThread_idx l g hg) _ (fun t ht w' hp => ?_) (fun t _ hi w' => ?_)
  · obtain ⟨th, hth⟩ := Warp.foldl_updThread_rest l g w'
    rw [hth]
    exact ha.threads th
  · rw [Warp.foldl_updThread_thread l g hg hn, Env.find_list hw hs hn ht]
    by_cases hm : t ∈ l <;> simp [hm, hp]
  · rw [Warp.foldl_updThread_thread l g hg hn, Env.find_list_bystander e hs hi]

/-- Then the launch's counters change. -/
theorem Frame.thenCount {s b : State} {e : Env} {d : Dst} {c : Word × Word × Word} {post : Thread → Thread}
    (h : Frame s b e d c post) (k : Word × Word × Word → Word × Word × Word) :
    Frame s (b.updGrid e.g.gid fun g => { g with icnt := k g.icnt }) e d (k c) post where
  rest := by have := h.rest; rw [this]; rfl
  cores := h.cores
  dies := h.dies
  ctxs := h.ctxs
  grids gid := by
    split
    · rename_i hg
      subst hg
      rw [State.grid_updGrid_same b _ (fun g => { g with icnt := k g.icnt }) (fun _ => rfl), h.grids, if_pos rfl]
      rfl
    · rename_i hg
      rw [State.grid_updGrid_other b hg (fun g => { g with icnt := k g.icnt }) (fun _ => rfl), h.grids, if_neg hg]
  warp := h.warp
  others := h.others
  block := h.block
  blocks := h.blocks
  group := h.group
  bystanders := h.bystanders

theorem Warp.putAll_idx (w : Warp) (ps : List Thread) (d : Dst) (x : Thread → Triple) :
    ((w.putAll ps d x).threads.map fun t => t.idx) = w.threads.map fun t => t.idx := by
  cases d with
  | v n =>
    show (((ps.foldl (fun w t => w.writeV t.idx n (x t)) w).threads).map fun t => t.idx) = _
    rw [Warp.foldl_writeV_threads]
    exact Warp.foldl_updThread_idx ps (fun t u => u.putV n (x t)) (fun _ _ _ => rfl) w
  | s n => cases ps <;> rfl
  | g n => rfl
  | none => rfl

theorem Warp.After.putAll {w w' : Warp} (h : w.After w' .none) (ps : List Thread) (d : Dst) (x : Thread → Triple) :
    w.After (w'.putAll ps d x) d where
  rest := by
    rw [Warp.putAll_rest]
    have hr := h.rest
    rw [hr]
  pend := by rw [Warp.putAll_pend]; exact h.pend
  sregs n hn := by rw [Warp.putAll_sregs _ _ _ _ _ hn]; exact h.sregs n (by simp)

theorem State.warp_writeG (s : State) (bid rank slot k : Nat) (y : Word) (wid : Nat) :
    (s.writeG bid rank slot k y).warp? wid =
      (s.warp? wid).map fun w => if w.bid = bid then w.touch1 (gKey k) else w := by
  have := find_mapIf_any (fun w : Warp => decide (w.bid = bid)) (fun w => decide (w.wid = wid)) (fun w => w.touch1 (gKey k))
    s.warps (fun _ => rfl)
  simpa [State.warp?, State.writeG] using this

/-- A write at the home changes the registers, the updates on their way and the order within the cycle. -/
theorem Block.homeWrite_rest (b : Block) (now : Nat) (x : GWrite) :
    b.homeWrite now x =
      { b with
        g := (b.homeWrite now x).g
        gupdates := (b.homeWrite now x).gupdates
        gLast := (b.homeWrite now x).gLast } := by
  unfold Block.homeWrite
  dsimp only
  split <;> rfl

theorem Block.homeWrite_bid (b : Block) (now : Nat) (x : GWrite) : (b.homeWrite now x).bid = b.bid := by
  rw [Block.homeWrite_rest]

theorem Block.homeWrite_other (b : Block) (now : Nat) (x : GWrite) {m : Nat} (h : m ≠ x.reg) :
    (b.homeWrite now x).g[m]? = b.g[m]? := by
  unfold Block.homeWrite
  dsimp only
  split
  · rfl
  · exact getElem?_setAt_other _ _ h

/-- The write of the largest key of its cycle is what the register holds (R218). -/
theorem Block.homeWrite_same (b : Block) (now : Nat) (x : GWrite)
    (hn : ∀ y ∈ b.gLast, y.1 = x.reg → y.2.1 = now → y.2.2 ≤ x.key) (hx : x.reg < b.g.length) :
    (b.homeWrite now x).g[x.reg]? = some x.val := by
  unfold Block.homeWrite
  dsimp only
  split
  · rename_i y hy
    have h1 := List.find?_some hy
    simp only [Bool.and_eq_true, decide_eq_true_eq] at h1
    exact absurd (hn y (List.mem_of_find?_eq_some hy) h1.1.1 h1.1.2) (by omega)
  · exact getElem?_setAt_same _ hx

/-- The block after a write of a block register from its own core: only the named register changes, and to the value
written where no write of this cycle is of a larger key (R218). -/
theorem State.block_writeG (s : State) {bid : Nat} {b : Block} (hb : s.block? bid = some b) (rank slot k : Nat)
    (y : Word) : ∃ b', (s.writeG bid rank slot k y).block? bid = some b' ∧ b.After b' rank (.g k) ∧
      ((∀ z ∈ b.gLast, z.1 = k → z.2.1 = s.now → z.2.2 ≤ rank * 512 + slot) →
        (∀ z ∈ b.gflight, z.rank = rank → z.reg = k → z.since = s.now → z.key ≤ rank * 512 + slot) →
        k < (if rank = 0 then b.g else lookupD rank b.g b.greps).length →
        (if rank = 0 then b'.g else lookupD rank b'.g b'.greps)[k]? = some y) := by
  unfold State.writeG
  dsimp only
  rw [State.block_updBlock_same _ _ _ (fun b => by split; exact Block.homeWrite_bid .. ; rfl)]
  have hb' : State.block? { s with warps := mapIf (fun w => decide (w.bid = bid)) (fun w => w.touch1 (gKey k)) s.warps } bid =
      some b := hb
  rw [hb']
  by_cases hr : rank = 0
  · refine ⟨_, by simp only [Option.map_some, hr, if_true]; rfl, ⟨?_, fun hn => absurd rfl (hn k), fun m hm => ?_⟩,
      fun hl _ hk => ?_⟩
    · rw [Block.homeWrite_rest]
    · simp only [hr, if_true]
      exact Block.homeWrite_other _ _ _ fun e => hm (by rw [e])
    · simp only [hr, if_true] at hk ⊢
      exact Block.homeWrite_same _ _ { rank := 0, slot := slot, reg := k, val := y, since := s.now } (by rw [hr] at hl; exact hl) hk
  · refine ⟨_, by simp only [Option.map_some, hr, if_false]; rfl, ⟨rfl, fun hn => absurd rfl (hn k), fun m hm => ?_⟩,
      fun _ hc hk => ?_⟩
    · simp only [hr, if_false]
      split
      · rfl
      · rw [lookupD_setKey_same]
        exact getElem?_setAt_other _ _ fun e => hm (by rw [e])
    · simp only [hr, if_false] at hk ⊢
      rw [if_neg, lookupD_setKey_same]
      · exact getElem?_setAt_same _ hk
      · simp only [List.any_eq_true, Bool.and_eq_true, decide_eq_true_eq, not_exists, not_and]
        intro z hz ⟨⟨h1, h2⟩, h3⟩ h4
        exact absurd (hc z hz h1 h2 h3) (Nat.not_le.mpr h4)

theorem State.block_writeG_other (s : State) {bid j : Nat} (h : j ≠ bid) (rank slot k : Nat) (y : Word) :
    (s.writeG bid rank slot k y).block? j = s.block? j := by
  unfold State.writeG
  dsimp only
  rw [State.block_updBlock_other _ h _ (fun b => by split; exact Block.homeWrite_bid .. ; rfl)]
  rfl

theorem State.thread_writeG (s : State) (bid rank slot k : Nat) (y : Word) (wid i : Nat) :
    (s.writeG bid rank slot k y).thread? wid i = s.thread? wid i := by
  unfold State.thread?
  rw [State.warp_writeG]
  cases s.warp? wid with
  | none => rfl
  | some w =>
    show (if w.bid = bid then w.touch1 (gKey k) else w).thread? i = w.thread? i
    split <;> rfl

theorem Warp.After.mono {w w' : Warp} (h : w.After w' .none) (d : Dst) : w.After w' d :=
  ⟨h.rest, h.pend, fun n _ => h.sregs n (by simp)⟩

theorem Block.After.mono {b b' : Block} {rank : Nat} (h : b.After b' rank .none) (d : Dst) : b.After b' rank d :=
  ⟨h.rest, fun _ => h.other (by simp), fun n _ => h.gregs n (by simp)⟩

/-- A frame that names no destination holds for every one. -/
theorem Frame.mono {s s' : State} {e : Env} {c : Word × Word × Word} {post : Thread → Thread}
    (h : Frame s s' e .none c post) (d : Dst) : Frame s s' e d c post where
  rest := h.rest
  cores := h.cores
  dies := h.dies
  ctxs := h.ctxs
  grids := h.grids
  warp := let ⟨w', h1, h2, h3⟩ := h.warp; ⟨w', h1, h2.mono d, h3⟩
  others := h.others
  block := let ⟨b', h1, h2⟩ := h.block; ⟨b', h1, h2.mono d⟩
  blocks := h.blocks
  group := h.group
  bystanders := h.bystanders

theorem Frame.congr {s s' : State} {e : Env} {d : Dst} {c : Word × Word × Word} {post post' : Thread → Thread}
    (h : Frame s s' e d c post) (hp : ∀ t ∈ e.group, post t = post' t) : Frame s s' e d c post' :=
  { h with group := fun t ht => by rw [h.group t ht, hp t ht] }

/-- Then a block register is written. -/
theorem Frame.thenG {s b : State} {e : Env} {c : Word × Word × Word} {post : Thread → Thread}
    (h : Frame s b e .none c post) (slot k : Nat) (y : Word) :
    Frame s (b.writeG e.b.bid e.w.rank slot k y) e (.g k) c post := by
  obtain ⟨b0, hb0, hafter⟩ := h.block
  have hb := hafter.other (by simp)
  constructor
  · have := h.rest
    rw [this]
    rfl
  · exact h.cores
  · exact h.dies
  · exact h.ctxs
  · exact h.grids
  · obtain ⟨w', h1, h2, h3⟩ := h.warp
    refine ⟨if w'.bid = e.b.bid then w'.touch1 (gKey k) else w', by rw [State.warp_writeG, h1]; rfl, ?_, ?_⟩
    · split
      · have hr := h2.rest
        exact ⟨by rw [hr]; rfl, by rw [Warp.touch1_pend]; exact h2.pend, fun m _ => h2.sregs m (by simp)⟩
      · exact h2.mono _
    · split <;> exact h3
  · intro wid hne w hws
    obtain ⟨w', h1, h2, h3⟩ := h.others wid hne w hws
    refine ⟨if w'.bid = e.b.bid then w'.touch1 (gKey k) else w', by rw [State.warp_writeG, h1]; rfl, ?_, ?_⟩
    · split
      · rw [h2]; rfl
      · exact h2
    · split
      · rw [Warp.touch1_pend]; exact h3
      · exact h3
  · obtain ⟨b', h1, h2, _⟩ := State.block_writeG _ hb0 e.w.rank slot k y
    rw [hb] at h2
    exact ⟨b', h1, ⟨h2.rest, fun hn => absurd rfl (hn k), h2.gregs⟩⟩
  · intro bid hne
    rw [State.block_writeG_other _ hne]
    exact h.blocks bid hne
  · intro u hu
    rw [State.thread_writeG]
    exact h.group u hu
  · intro u hu hi
    rw [State.thread_writeG]
    exact h.bystanders u hu hi

/-- Then every thread of a list writes one result. -/
theorem Frame.thenWrite {s b : State} {e : Env} (hw : e.w.Sound) {c : Word × Word × Word}
    {post : Thread → Thread} (h : Frame s b e .none c post) {ps : List Thread} (hs : ∀ t ∈ ps, t ∈ e.group)
    (hn : (ps.map fun t => t.idx).Nodup) (d : Dst) (x : Thread → Triple) :
    Frame s (b.writeAll e ps d x) e d c fun t => if t ∈ ps then (post t).putDst d (x t) else post t := by
  by_cases hd : d.notG
  · rw [State.writeAll_eq _ _ _ _ _ hd]
    refine h.thenWarp (fun _ n => by simp) (fun n _ => by simp) _ (fun w => Warp.putAll_wid w _ _ _)
      (fun w' ha => ha.putAll ps d x) (fun w => Warp.putAll_idx w ps d x) _ (fun t ht w' hp => ?_) (fun t _ hi w' => ?_)
    · rw [Warp.putAll_thread _ _ hn, Env.find_list hw hs hn ht]
      by_cases hm : t ∈ ps <;> simp [hm, hp]
    · rw [Warp.putAll_thread _ _ hn, Env.find_list_bystander e hs hi]
  · cases d with
    | v n => exact absurd trivial hd
    | s n => exact absurd trivial hd
    | none => exact absurd trivial hd
    | g k =>
      rw [State.writeAll_g]
      have hpost : (fun t => if t ∈ ps then (post t).putDst (.g k) (x t) else post t) = post := by
        funext t; split <;> rfl
      rw [hpost]
      cases ps with
      | nil => exact h.mono _
      | cons t l => exact h.thenG e.w.slot k (x t).s0

theorem Warp.thread_mem {w : Warp} {i : Nat} {t : Thread} (h : w.thread? i = some t) : t ∈ w.threads :=
  List.mem_of_find?_eq_some h

/-- A v destination leaves what no destination would. -/
theorem Frame.ofV {s s' : State} {e : Env} {n : Nat} {c : Word × Word × Word} {post : Thread → Thread}
    (h : Frame s s' e (.v n) c post) : Frame s s' e .none c post where
  rest := h.rest
  cores := h.cores
  dies := h.dies
  ctxs := h.ctxs
  grids := h.grids
  warp := let ⟨w', h1, h2, h3⟩ := h.warp; ⟨w', h1, ⟨h2.rest, h2.pend, fun m _ => h2.sregs m (by simp)⟩, h3⟩
  others := h.others
  block := let ⟨b', h1, h2⟩ := h.block; ⟨b', h1, ⟨h2.rest, fun _ => h2.other (by simp), fun m _ => h2.gregs m (by simp)⟩⟩
  blocks := h.blocks
  group := h.group
  bystanders := h.bystanders

/-- Then something of the warp other than its threads changes, as `g` says: the frame holds of the warp so changed. -/
theorem Frame.thenField {s b : State} {e : Env} {d : Dst} {c : Word × Word × Word} {post : Thread → Thread}
    (h : Frame s b e d c post) (g : Warp → Warp) (hwid : ∀ w, (g w).wid = w.wid)
    (hth : ∀ w, (g w).threads = w.threads) (hafter : ∀ w', e.w.After w' d → (g e.w).After (g w') d)
    (hrank : (g e.w).rank = e.w.rank) :
    Frame s (b.updWarp e.w.wid g) { e with w := g e.w } d c post := by
  obtain ⟨w', hw, hafter', hidx'⟩ := h.warp
  have hgr : Env.group { e with w := g e.w } = e.group := by unfold Env.group; rw [hth]
  have hw' : (b.updWarp e.w.wid g).warp? e.w.wid = some (g w') := by
    rw [State.warp_updWarp_same _ _ _ hwid, hw]; rfl
  have hthr : ∀ i u, b.thread? e.w.wid i = some u → (g w').thread? i = some u := fun i u hu => by
    unfold State.thread? at hu
    rw [hw] at hu
    unfold Warp.thread?
    rw [hth]
    exact hu
  constructor
  · have := h.rest
    rw [this]
    rfl
  · exact h.cores
  · exact h.dies
  · exact h.ctxs
  · exact h.grids
  · exact ⟨g w', by rw [hwid]; exact hw', hafter w' hafter', by rw [hth]; rw [hth]; exact hidx'⟩
  · intro wid hne w hws
    have hne : wid ≠ e.w.wid := by rw [hwid] at hne; exact hne
    obtain ⟨w1, h1, h2⟩ := h.others wid hne w hws
    exact ⟨w1, by rw [State.warp_updWarp_other _ hne _ hwid]; exact h1, h2⟩
  · obtain ⟨b', h1, h2⟩ := h.block
    exact ⟨b', h1, by rw [hrank]; exact h2⟩
  · exact h.blocks
  · intro t ht
    rw [hgr] at ht
    unfold State.thread?
    rw [hwid, hw']
    exact hthr _ _ (h.group t ht)
  · intro t ht hi
    rw [hth] at ht
    obtain ⟨u, hu, he⟩ := h.bystanders t ht hi
    refine ⟨u, ?_, he⟩
    unfold State.thread?
    rw [hwid, hw']
    exact hthr _ _ hu

/-- Then something of the state other than grids, warps, blocks, cores, dies and contexts changes, as `r` says: the frame holds of the
state so changed. -/
theorem Frame.thenRest {s b : State} {e : Env} {d : Dst} {c : Word × Word × Word} {post : Thread → Thread}
    (h : Frame s b e d c post) (r : State → State)
    (hr : ∀ (x : State) gs ws bs cs ks ds,
      r { x with grids := gs, warps := ws, blocks := bs, ctxs := cs, cores := ks, dies := ds } =
        { r x with grids := gs, warps := ws, blocks := bs, ctxs := cs, cores := ks, dies := ds }) :
    Frame (r s) (r b) e d c post := by
  have hx : ∀ x : State, (r x).grids = x.grids ∧ (r x).warps = x.warps ∧ (r x).blocks = x.blocks ∧ (r x).ctxs = x.ctxs ∧
      (r x).cores = x.cores ∧ (r x).dies = x.dies := by
    intro x
    have h1 := hr x x.grids x.warps x.blocks x.ctxs x.cores x.dies
    have h2 : ({ x with
        grids := x.grids, warps := x.warps, blocks := x.blocks, ctxs := x.ctxs, cores := x.cores,
        dies := x.dies } : State) = x := rfl
    rw [h2] at h1
    refine ⟨?_, ?_, ?_, ?_, ?_, ?_⟩ <;> rw [h1]
  have hg : ∀ x gid, (r x).grid? gid = x.grid? gid := fun x gid => by unfold State.grid?; rw [(hx x).1]
  have hw : ∀ x wid, (r x).warp? wid = x.warp? wid := fun x wid => by unfold State.warp?; rw [(hx x).2.1]
  have hb : ∀ x bid, (r x).block? bid = x.block? bid := fun x bid => by unfold State.block?; rw [(hx x).2.2.1]
  have hc : ∀ x tag, (r x).ctx tag = x.ctx tag := fun x tag => by unfold State.ctx; rw [(hx x).2.2.2.1]
  have hk : ∀ x d k, (r x).core d k = x.core d k := fun x d k => by unfold State.core; rw [(hx x).2.2.2.2.1]
  have hd : ∀ x d, (r x).die d = x.die d := fun x d => by unfold State.die; rw [(hx x).2.2.2.2.2]
  have ht : ∀ x wid i, (r x).thread? wid i = x.thread? wid i := fun x wid i => by unfold State.thread?; rw [hw]
  constructor
  · have h1 := h.rest
    have h2 := hr s b.grids b.warps b.blocks b.ctxs b.cores b.dies
    obtain ⟨k1, k2, k3, k4, k5, k6⟩ := hx b
    rw [k1, k2, k3, k4, k5, k6, ← h2, ← h1]
  · intro d k; rw [hk, hk]; exact h.cores d k
  · intro d; rw [hd, hd]; exact h.dies d
  · intro tag; rw [hc, hc]; exact h.ctxs tag
  · intro gid; rw [hg, hg]; exact h.grids gid
  · simpa only [hw] using h.warp
  · simpa only [hw] using h.others
  · simpa only [hb] using h.block
  · simpa only [hb] using h.blocks
  · simpa only [ht] using h.group
  · simpa only [ht] using h.bystanders

/-- Then energy is charged. -/
theorem Frame.thenCharge {s b : State} {e : Env} {d : Dst} {c : Word × Word × Word} {post : Thread → Thread}
    (h : Frame s b e d c post) (tag : BitVec 12) (k n : Nat) : Frame s (b.charge tag k n) e d c post := by
  obtain ⟨cs, hcs⟩ := b.charge_ex tag k n
  have hen : EnergyOnly s (b.charge tag k n) := EnergyOnly.trans h.ctxs (EnergyOnly.charge b tag k n)
  rw [hcs] at hen ⊢
  exact
    { rest := by have := h.rest; rw [this]
      cores := h.cores
      dies := h.dies
      ctxs := hen
      grids := h.grids
      warp := h.warp
      others := h.others
      block := h.block
      blocks := h.blocks
      group := h.group
      bystanders := h.bystanders }

/-- What follows a word whose frame leaves nothing due. -/
theorem Frame.finish {s b : State} {e : Env} {d : Dst} {c : Word × Word × Word} {post : Thread → Thread}
    (h : Frame s b e d c post) (hdue : ∀ t ∈ e.group, (post t).due = []) : b.finish e = b := by
  obtain ⟨w', hw, _, hidx⟩ := h.warp
  refine State.finish_calm fun i hi u hu => ?_
  have hu' := hu
  unfold State.thread? at hu
  rw [hw] at hu
  have hu : w'.thread? i = some u := hu
  have hm : i ∈ e.w.threads.map fun t => t.idx := by
    rw [← hidx, ← Warp.thread_idx hu]
    exact List.mem_map_of_mem (Warp.thread_mem hu)
  obtain ⟨t, ht, rfl⟩ := List.mem_map.mp hm
  have htg : t ∈ e.group := List.mem_filter.mpr ⟨ht, by simp [hi]⟩
  have := h.group t htg
  rw [hu'] at this
  rw [Option.some.inj this]
  exact hdue t htg

/-! ## Delivery -/

/-- A destination of the word lies in what the warp has. -/
theorem Runs.vbound {s : State} {e : Env} {f : Form} {h : State → Env → Thread → Option Hold} (r : Runs s e f h) {n : Nat}
    (hd : .v n ∈ f.dst) : n < e.w.vregs := by
  have := r.bounds _ (List.mem_append_right _ hd)
  simpa [Warp.beyond] using this

theorem Runs.sbound {s : State} {e : Env} {f : Form} {h : State → Env → Thread → Option Hold} (r : Runs s e f h) {n : Nat}
    (hd : .s n ∈ f.dst) : n < e.w.s.length := by
  have := r.bounds _ (List.mem_append_right _ hd)
  simpa [Warp.beyond] using this

theorem lookupD_length {rank : Nat} {b : Block} (hb : b.Sound) : (lookupD rank b.g b.greps).length = 64 := by
  unfold lookupD
  cases h : b.greps.find? fun x => decide (x.1 = rank) with
  | none => exact hb.gregs
  | some y => exact hb.reps y (List.mem_of_find?_eq_some h)

theorem Warp.After.slen {w w' : Warp} (h : w.After w' .none) : w'.s.length = w.s.length := by
  have h1 : ∀ n, w'.s[n]? = w.s[n]? := fun n => h.sregs n (by simp)
  exact congrArg List.length (List.ext_getElem? h1)

theorem Frame.delivered {s b : State} {e : Env} (hw : e.w.Sound) (hb : e.b.Sound) {c : Word × Word × Word}
    {post : Thread → Thread} (h : Frame s b e .none c post) {ps : List Thread} (hs : ∀ t ∈ ps, t ∈ e.group)
    (hn : (ps.map fun t => t.idx).Nodup) (d : Dst) (x : Thread → Triple)
    (hlen : ∀ t ∈ e.group, (post t).v.length = t.v.length) (hv : ∀ n, d = .v n → n < e.w.vregs)
    (hsr : ∀ n, d = .s n → n < e.w.s.length) (hg : ∀ n, d = .g n → n < 64 ∧ e.Newest s n) :
    Delivered (b.writeAll e ps d x) e ps d x := by
  obtain ⟨w', hww, hafter, hidx⟩ := h.warp
  cases d with
  | v m =>
    intro t ht
    unfold State.vreg State.thread?
    rw [State.writeAll_eq _ _ _ (.v m) _ trivial, State.warp_updWarp_same _ _ _ (fun w => Warp.putAll_wid w _ _ _), hww]
    show ((w'.putAll ps (.v m) x).thread? t.idx).bind _ = _
    have hp : w'.thread? t.idx = some (post t) := by
      have := h.group t (hs t ht)
      unfold State.thread? at this
      rwa [hww] at this
    rw [Warp.putAll_thread _ _ hn, find_of_mem hn ht, hp]
    refine getElem?_setAt_same _ ?_
    rw [hlen t (hs t ht), hw.vregs t (e.group_sub (hs t ht))]
    exact hv m rfl
  | s m =>
    intro t ht
    unfold State.sreg
    rw [State.writeAll_eq _ _ _ (.s m) _ trivial, State.warp_updWarp_same _ _ _ (fun w => Warp.putAll_wid w _ _ _), hww]
    refine Warp.putAll_sreg w' _ _ _ ?_ ht
    rw [hafter.slen]
    exact hsr m rfl
  | g m =>
    intro t ht
    rw [State.writeAll_g]
    cases ps with
    | nil => cases ht
    | cons u l =>
      cases ht
      obtain ⟨b0, hb0, hbafter⟩ := h.block
      have hbe := hbafter.other (by simp)
      obtain ⟨b', h1, _, h3⟩ := State.block_writeG _ hb0 e.w.rank e.w.slot m (x t).s0
      show State.greg (b.writeG e.b.bid e.w.rank e.w.slot m (x t).s0) e.b.bid e.w.rank m = _
      unfold State.greg
      rw [h1]
      obtain ⟨hm, hnew⟩ := hg m rfl
      have hnow : b.now = s.now := by rw [h.rest]
      refine h3 (fun z hz h1 h2 => hnew.home z (by rw [hbe] at hz; exact hz) h1 (h2.trans hnow))
        (fun z hz h1 h2 h4 => hnew.core z (by rw [hbe] at hz; exact hz) h1 h2 (h4.trans hnow)) ?_
      rw [hbe]
      split
      · rw [hb.gregs]; exact hm
      · rw [lookupD_length hb]; exact hm
  | none => trivial

/-! ## Plain words -/

theorem Env.parts_sub (e : Env) (c : Ctl) : ∀ t ∈ e.parts c, t ∈ e.group := fun _ h => e.parts_group h

theorem Thread.putDst_due (t : Thread) (d : Dst) (x : Triple) : (t.putDst d x).due = t.due := by cases d <;> rfl

theorem Env.post_due (e : Env) (s : State) (f : Form) (d : Dst) (x : Thread → Triple) (t : Thread) :
    (e.post s f d x t).due = t.due := by
  unfold Env.post
  split
  · rw [Thread.putDst_due, Env.past_due]
  · exact Env.past_due e s f t

/-- A word with one result per participant, that raises nothing: where nothing stops it, it answers with the result
delivered and all else as it was. -/
theorem plainWord_spec {s : State} {e : Env} {f : Form} (n : Normal s e f noHold) (d : Dst) (hd : d.opds ⊆ f.dst)
    (hg : ∀ k, d = .g k → k < 64) (comp : Env → State → Thread → Triple)
    (hc : ∀ t, comp e (s.issued e f) t = comp e s t) :
    Delivered (plainWord f d comp s) e (e.parts f.c) d (comp e s) ∧
      Frame s (plainWord f d comp s) e d e.g.icnt (e.post s f d (comp e s)) := by
  have h0 := n.frame_issued
  have hn := Env.parts_nodup n.warp f.c
  have h1 : plainWord f d comp s = ((s.issued e f).writeAll e (e.parts f.c) d (comp e s)).finish e := by
    unfold plainWord
    rw [issue_of_runs n.runs, show comp e (s.issued e f) = comp e s from funext hc]
  have h2 := h0.thenWrite n.warp (e.parts_sub f.c) hn d (comp e s)
  rw [h1, h2.finish fun t ht => ?_]
  · refine ⟨h0.delivered n.warp n.block (e.parts_sub f.c) hn d _ (fun t _ => by rw [Env.past_v]) (fun m hm => ?_)
      (fun m hm => ?_)
      (fun m hm => ⟨hg m hm, n.newest m (hd (by subst hm; exact List.mem_singleton.mpr rfl))⟩), h2⟩
    · subst hm; exact n.runs.vbound (hd (List.mem_singleton.mpr rfl))
    · subst hm; exact n.runs.sbound (hd (List.mem_singleton.mpr rfl))
  · exact (Env.post_due e s f d (comp e s) t).trans (n.calm.due t ht)

/-! ## Events -/

theorem Res.mask_idx (r : Res) (k : Option EvKind) (t : Thread) : (r.mask k t).idx = t.idx := rfl

theorem Thread.trapTo_idx (t : Thread) (a : Bool) (hi : BitVec 16) (r : TrapRec) (pc : Addr) (cl : Clause) :
    (t.trapTo a hi r pc cl).idx = t.idx := by unfold Thread.trapTo; split <;> rfl

theorem Thread.trapTo_due (t : Thread) (a : Bool) (hi : BitVec 16) (r : TrapRec) (pc : Addr) (cl : Clause) :
    (t.trapTo a hi r pc cl).due = [] := by unfold Thread.trapTo; split <;> rfl

theorem foldMask_idx (rs : List (Bool × Res)) (k : Bool → Option EvKind) (u : Thread) :
    (rs.foldl (fun u x => x.2.mask (k x.1) u) u).idx = u.idx :=
  foldl_same (fun u : Thread => u.idx) (fun u x => x.2.mask (k x.1) u) (fun _ _ => rfl) rs u

theorem foldMask_due (rs : List (Bool × Res)) (k : Bool → Option EvKind) (u : Thread) :
    (rs.foldl (fun u x => x.2.mask (k x.1) u) u).due = u.due :=
  foldl_same (fun u : Thread => u.due) (fun u x => x.2.mask (k x.1) u) (fun _ _ => rfl) rs u

theorem Env.afterEvents_idx (e : Env) (s : State) (t : Thread) (rs : List (Bool × Res)) (u : Thread) :
    (e.afterEvents s t rs u).idx = u.idx := by
  unfold Env.afterEvents
  dsimp only
  split
  · exact foldMask_idx rs _ u
  · rw [Thread.trapTo_idx]; exact foldMask_idx rs _ u

theorem Env.afterEvents_due (e : Env) (s : State) (t : Thread) (rs : List (Bool × Res)) (u : Thread) (h : u.due = []) :
    (e.afterEvents s t rs u).due = [] := by
  unfold Env.afterEvents
  dsimp only
  split
  · rw [foldMask_due rs (fun b => tookOf (chosen t rs) b)]; exact h
  · exact Thread.trapTo_due ..

/-- A debugger stands at the same context of every die (R449). -/
def SameDebug (s b : State) : Prop := ∀ d tag, b.attached d tag = s.attached d tag

theorem Frame.sameDebug {s b : State} {e : Env} {d : Dst} {c : Word × Word × Word} {post : Thread → Thread}
    (h : Frame s b e d c post) : SameDebug s b := fun k _ => by unfold State.attached; rw [h.dies k]

/-- The masked events of a thread are a change of the thread and of the launch's counters. -/
theorem State.maskEvents_eq (b : State) (e : Env) (i : Nat) (ch : Option (EvKind × Bool × Res)) (rs : List (Bool × Res)) :
    b.maskEvents e i ch rs =
      (b.updThread e.w.wid i fun u => rs.foldl (fun u x => x.2.mask (tookOf ch x.1) u) u).updGrid e.g.gid
        fun g => { g with icnt := rs.foldl (fun n x => x.2.count (tookOf ch x.1) n) g.icnt } := by
  induction rs generalizing b with
  | nil =>
    unfold State.maskEvents State.updThread State.updGrid
    simp only [List.foldl_nil]
    have h1 : (b.updWarp e.w.wid fun w => w.updThread i fun u => u) = b := by
      have : (fun w : Warp => w.updThread i fun u => u) = fun w => w := by
        funext w; unfold Warp.updThread mapIf; simp
      rw [this]; exact State.updWarp_id b e.w.wid
    rw [h1]
    have h2 : mapIf (fun g => decide (g.gid = e.g.gid)) (fun g : Grid => { g with icnt := g.icnt }) b.grids = b.grids := by
      unfold mapIf; simp
    rw [h2]
  | cons x rs ih =>
    show State.maskEvents ((b.updThread e.w.wid i (x.2.mask (tookOf ch x.1))).updGrid e.g.gid
      fun g => { g with icnt := x.2.count (tookOf ch x.1) g.icnt }) e i ch rs = _
    rw [ih]
    unfold State.updThread State.updGrid
    have h1 : ∀ (a : List Warp), mapIf (fun w => decide (w.wid = e.w.wid)) (fun w : Warp => w.updThread i fun u =>
        rs.foldl (fun u x => x.2.mask (tookOf ch x.1) u) u) (mapIf (fun w => decide (w.wid = e.w.wid)) (fun w : Warp =>
        w.updThread i (x.2.mask (tookOf ch x.1))) a) = mapIf (fun w => decide (w.wid = e.w.wid)) (fun w : Warp =>
        w.updThread i fun u => (x :: rs).foldl (fun u x => x.2.mask (tookOf ch x.1) u) u) a := by
      intro a
      unfold mapIf
      rw [List.map_map]
      refine List.map_congr_left fun w _ => ?_
      by_cases hw : w.wid = e.w.wid
      · simp only [Function.comp, hw, decide_true, if_true, Warp.updThread, mapIf, List.map_map]
        congr 1
        refine List.map_congr_left fun u _ => ?_
        by_cases hu : u.idx = i <;> simp [Function.comp, hu, Res.mask_idx]
      · simp [Function.comp, hw]
    have h2 : ∀ (a : List Grid), mapIf (fun g => decide (g.gid = e.g.gid)) (fun g : Grid =>
        { g with icnt := rs.foldl (fun n x => x.2.count (tookOf ch x.1) n) g.icnt }) (mapIf
        (fun g => decide (g.gid = e.g.gid)) (fun g : Grid => { g with icnt := x.2.count (tookOf ch x.1) g.icnt }) a) =
        mapIf (fun g => decide (g.gid = e.g.gid)) (fun g : Grid =>
        { g with icnt := (x :: rs).foldl (fun n x => x.2.count (tookOf ch x.1) n) g.icnt }) a := by
      intro a
      unfold mapIf
      rw [List.map_map]
      refine List.map_congr_left fun g _ => ?_
      by_cases hg : g.gid = e.g.gid <;> simp [Function.comp, hg]
    unfold State.updWarp
    simp only [h1, h2]

/-- The events of a thread are a change of the thread and of the launch's counters. -/
theorem State.events_eq {s b : State} (hs : SameDebug s b) (e : Env) (t : Thread) (rs : List (Bool × Res)) :
    b.events e t rs =
      (b.updThread e.w.wid t.idx (e.afterEvents s t rs)).updGrid e.g.gid
        fun g => { g with icnt := countEvents t rs g.icnt } := by
  unfold State.events Env.afterEvents countEvents
  dsimp only
  rw [State.maskEvents_eq]
  split
  · rename_i h
    rw [h]
  · rename_i k half r h
    rw [h]
    unfold Env.trapAfter State.updThread
    have hd : ∀ (u : Thread), State.attached
        ((b.updWarp e.w.wid fun w => w.updThread t.idx fun u =>
          rs.foldl (fun u x => x.2.mask (tookOf (some (k, half, r)) x.1) u) u).updGrid e.g.gid
          fun g => { g with icnt := rs.foldl (fun n x => x.2.count (tookOf (some (k, half, r)) x.1) n) g.icnt })
        e.w.die u.owner = s.attached e.w.die u.owner := fun u => hs _ _
    simp only [hd]
    show State.updGrid (State.updWarp (State.updWarp b e.w.wid _) e.w.wid _) e.g.gid _ = _
    rw [State.updWarp_updWarp]
    case hf => intro w; rfl
    congr 2
    funext w
    unfold Warp.updThread mapIf
    rw [List.map_map]
    congr 1
    refine List.map_congr_left fun u _ => ?_
    by_cases hu : u.idx = t.idx
    · simp [Function.comp, hu, foldMask_idx rs (fun b => tookOf (some (k, half, r)) b)]
    · simp [Function.comp, hu]

/-- Then the events of some threads of the group. -/
theorem Frame.thenEvents {s b : State} {e : Env} (hw : e.w.Sound) {d : Dst} {c : Word × Word × Word}
    {post : Thread → Thread} (h : Frame s b e d c post) {l : List Thread} (hs : ∀ t ∈ l, t ∈ e.group)
    (hn : (l.map fun t => t.idx).Nodup) (rs : Thread → List (Bool × Res)) :
    Frame s (l.foldl (fun s t => s.events e t (rs t)) b) e d (l.foldl (fun n t => countEvents t (rs t) n) c)
      fun t => if t ∈ l then e.afterEvents s t (rs t) (post t) else post t := by
  have key : ∀ (l : List Thread) (b : State), SameDebug s b →
      l.foldl (fun s t => s.events e t (rs t)) b =
        (l.foldl (fun s' t => s'.updThread e.w.wid t.idx (e.afterEvents s t (rs t))) b).updGrid e.g.gid
          fun g => { g with icnt := l.foldl (fun n t => countEvents t (rs t) n) g.icnt } := by
    intro l
    induction l with
    | nil =>
      intro b _
      have : (fun g : Grid => { g with icnt := ([] : List Thread).foldl (fun n t => countEvents t (rs t) n) g.icnt }) =
          fun g => g := rfl
      show b = b.updGrid e.g.gid fun g => { g with icnt := g.icnt }
      unfold State.updGrid mapIf
      simp
    | cons t l ih =>
      intro b hb
      rw [List.foldl_cons, State.events_eq hb,
        ih ((b.updThread e.w.wid t.idx (e.afterEvents s t (rs t))).updGrid e.g.gid
          fun g => { g with icnt := countEvents t (rs t) g.icnt }) hb]
      have hcomm : ∀ (l : List Thread) (b : State) (k : Grid → Grid),
          l.foldl (fun s' t => s'.updThread e.w.wid t.idx (e.afterEvents s t (rs t))) (b.updGrid e.g.gid k) =
            (l.foldl (fun s' t => s'.updThread e.w.wid t.idx (e.afterEvents s t (rs t))) b).updGrid e.g.gid k := by
        intro l
        induction l with
        | nil => intro b k; rfl
        | cons x l ih => intro b k; exact ih (b.updThread e.w.wid x.idx (e.afterEvents s x (rs x))) k
      rw [hcomm]
      unfold State.updGrid
      simp only [List.foldl_cons]
      congr 1
      unfold mapIf
      rw [List.map_map]
      refine List.map_congr_left fun g _ => ?_
      by_cases hg : g.gid = e.g.gid <;> simp [Function.comp, hg]
  rw [key l b h.sameDebug]
  exact (h.thenThreads hw hs hn (fun t => e.afterEvents s t (rs t)) fun x u _ => Env.afterEvents_idx e s x (rs x) u).thenCount
    fun n => l.foldl (fun n t => countEvents t (rs t) n) n

/-! ## Words that compute -/

theorem computing_sub (d : Dst) (ps : List Thread) : ∀ t ∈ computing d ps, t ∈ ps := by
  unfold computing
  split
  · exact fun t ht => List.mem_of_mem_take ht
  · exact fun t ht => ht

theorem computing_nodup (d : Dst) {ps : List Thread} (h : (ps.map fun t => t.idx).Nodup) :
    ((computing d ps).map fun t => t.idx).Nodup := by
  unfold computing
  split
  · rw [List.map_take]
    exact h.sublist (List.take_sublist 1 _)
  · exact h

theorem Thread.ite_c_due (adv : Bool) (u : Thread) : (if adv then { u with c := u.c + 1 } else u).due = u.due := by
  cases adv <;> rfl

theorem Thread.ite_c_v (adv : Bool) (u : Thread) : (if adv then { u with c := u.c + 1 } else u).v = u.v := by
  cases adv <;> rfl

/-- A word that computes: where nothing stops it, it answers with the result delivered, the draw counter advanced where it
draws, the events recorded or trapped, and all else as it was. -/
theorem aluWord_spec {s : State} {e : Env} {f : Form} (n : Normal s e f noHold) (d : Dst) (adv : Bool)
    (hd : d.opds ⊆ f.dst) (hg : ∀ k, d = .g k → k < 64) (comp : Env → State → Thread → Res)
    (hc : ∀ t, comp e (s.issued e f) t = comp e s t) :
    Frame s (aluWord f d adv comp s) e d
        ((computing d (e.parts f.c)).foldl (fun n t => countEvents t [(false, comp e s t)] n) e.g.icnt)
        (e.computed s f d adv (comp e s)) ∧
      ∃ b, Frame s b e d e.g.icnt
          (fun t => if t ∈ e.parts f.c then
            (if adv then { e.past s f t with c := (e.past s f t).c + 1 } else e.past s f t).putDst d (comp e s t).val
            else e.past s f t) ∧
        Delivered b e (e.parts f.c) d (fun t => (comp e s t).val) ∧
        aluWord f d adv comp s =
          (computing d (e.parts f.c)).foldl (fun s' t => s'.events e t [(false, comp e s t)]) b := by
  have hn := Env.parts_nodup n.warp f.c
  have hsub := e.parts_sub f.c
  have hcomp : comp e (s.issued e f) = comp e s := funext hc
  have h0 : Frame s (if adv then (s.issued e f).advanceC e (e.parts f.c) else s.issued e f) e .none e.g.icnt
      (fun t => if t ∈ e.parts f.c then (if adv then { e.past s f t with c := (e.past s f t).c + 1 } else e.past s f t)
        else e.past s f t) := by
    cases adv with
    | false => exact n.frame_issued.congr fun t _ => by split <;> rfl
    | true =>
      exact n.frame_issued.thenThreads n.warp hsub hn (fun _ u => { u with c := u.c + 1 }) (fun _ _ _ => rfl)
  have hdel := h0.delivered n.warp n.block hsub hn d (fun t => (comp e s t).val)
    (fun t _ => by split
                   · rw [Thread.ite_c_v, Env.past_v]
                   · rw [Env.past_v])
    (fun m hm => by subst hm; exact n.runs.vbound (hd (List.mem_singleton.mpr rfl)))
    (fun m hm => by subst hm; exact n.runs.sbound (hd (List.mem_singleton.mpr rfl)))
    (fun m hm => ⟨hg m hm, n.newest m (hd (by subst hm; exact List.mem_singleton.mpr rfl))⟩)
  have h1 := (h0.thenWrite n.warp hsub hn d fun t => (comp e s t).val).congr
    (post' := fun t => if t ∈ e.parts f.c then
      (if adv then { e.past s f t with c := (e.past s f t).c + 1 } else e.past s f t).putDst d (comp e s t).val
      else e.past s f t) fun t _ => by dsimp only; split <;> rfl
  have h2 := (h1.thenEvents n.warp (fun t ht => hsub t (computing_sub d _ t ht)) (computing_nodup d hn)
    fun t => [(false, comp e s t)]).congr (post' := e.computed s f d adv (comp e s)) fun t _ => by
      unfold Env.computed
      dsimp only
      by_cases hp : t ∈ e.parts f.c
      · simp only [hp, if_true]
      · have hq : ¬ t ∈ computing d (e.parts f.c) := fun hq => hp (computing_sub d _ t hq)
        simp only [hp, hq, if_false]
  have hword : aluWord f d adv comp s =
      (computing d (e.parts f.c)).foldl (fun s' t => s'.events e t [(false, comp e s t)])
        ((if adv then (s.issued e f).advanceC e (e.parts f.c) else s.issued e f).writeAll e (e.parts f.c) d
          fun t => (comp e s t).val) := by
    unfold aluWord
    rw [issue_of_runs n.runs, hcomp]
    refine h2.finish fun t ht => ?_
    have hdue := n.calm.due t ht
    unfold Env.computed
    dsimp only
    split
    · have hu : ((if adv then { e.past s f t with c := (e.past s f t).c + 1 } else e.past s f t).putDst d
          (comp e s t).val).due = [] := by rw [Thread.putDst_due, Thread.ite_c_due, Env.past_due, hdue]
      split
      · exact Env.afterEvents_due e s t _ _ hu
      · exact hu
    · rw [Env.past_due, hdue]
  rw [hword]
  exact ⟨h2, _, h1, hdel, rfl⟩

/-- A word that writes a predicate: where nothing stops it, every participant has its bits, the events are recorded or
trapped, and all else is as it was. -/
theorem predWord_spec {s : State} {e : Env} {f : Form} (n : Normal s e f noHold) (p : BitVec 3)
    (comp : Env → State → Thread → BitVec 3 × Res) (hc : ∀ t, comp e (s.issued e f) t = comp e s t) :
    Frame s (predWord f p comp s) e .none
      ((e.parts f.c).foldl (fun n t => countEvents t [(false, (comp e s t).2)] n) e.g.icnt)
      (e.tested s f p (comp e s)) := by
  have hn := Env.parts_nodup n.warp f.c
  have hsub := e.parts_sub f.c
  have hcomp : comp e (s.issued e f) = comp e s := funext hc
  have h1 := n.frame_issued.thenThreads n.warp hsub hn (fun t u => u.setPred p (comp e s t).1)
    (fun x t _ => by unfold Thread.setPred; split <;> rfl)
  have h2 := (h1.thenEvents n.warp hsub hn fun t => [(false, (comp e s t).2)]).congr
    (post' := e.tested s f p (comp e s)) fun t _ => by
      unfold Env.tested
      by_cases hp : t ∈ e.parts f.c <;> simp only [hp, if_true, if_false]
  have hword : predWord f p comp s = (e.parts f.c).foldl (fun s' t => s'.events e t [(false, (comp e s t).2)])
      ((s.issued e f).predAll e (e.parts f.c) p fun t => (comp e s t).1) := by
    unfold predWord
    rw [issue_of_runs n.runs, hcomp]
    refine h2.finish fun t ht => ?_
    have hdue := n.calm.due t ht
    unfold Env.tested
    split
    · refine Env.afterEvents_due e s t _ _ ?_
      have : ((e.past s f t).setPred p (comp e s t).1).due = (e.past s f t).due := by
        unfold Thread.setPred; split <;> rfl
      rw [this, Env.past_due, hdue]
    · rw [Env.past_due, hdue]
  rw [hword]
  exact h2

end Sys2Proof.Machine
end

