-- ==== Sys2Proof/Laws/Control.lean ====
section
/-! SUPPORT. Words that change threads, masks or the spill window: what a trap before or after the word is as a change of a
thread, and how a word ends whose frame is known. -/

namespace Sys2Proof.Machine

/-- A word whose body gives a state with a known frame, with nothing due, answers that state. -/
theorem Normal.done {s s0 b : State} {e e' : Env} {f : Form} {h : State → Env → Thread → Option Hold} {d : Dst}
    {c : Word × Word × Word} {post : Thread → Thread} (n : Normal s e f h) {body : Env → State → State}
    (hb : body e (s.issued e f) = b) (fr : Frame s0 b e' d c post) (hi : e'.iss = e.iss) (hw : e'.w.wid = e.w.wid)
    (hdue : ∀ t ∈ e'.group, (post t).due = []) : issue f h body s = b := by
  rw [issue_of_runs n.runs, hb]
  have h1 := fr.finish hdue
  unfold State.finish at h1 ⊢
  rw [hi, hw] at h1
  exact h1

/-- Two folds of changes that agree where the debuggers stand as in `s`. -/
theorem foldl_debug {α : Type} {s : State} (l : List α) (F G : State → α → State)
    (hF : ∀ b x, SameDebug s b → F b x = G b x) (hG : ∀ b x, SameDebug b (G b x)) {b : State}
    (hb : SameDebug s b) : l.foldl F b = l.foldl G b := by
  induction l generalizing b with
  | nil => rfl
  | cons x l ih =>
    rw [List.foldl_cons, List.foldl_cons, hF b x hb]
    exact ih fun d tag => (hG b x d tag).trans (hb d tag)

/-- A fold whose step is a change of a thread where the debuggers stand as in `s`. -/
theorem foldl_threads {s : State} {wid : Nat} (g : Thread → Thread → Thread) (l : List Thread)
    (F : State → Thread → State) (hF : ∀ b t, SameDebug s b → F b t = b.updThread wid t.idx (g t)) {b : State}
    (hb : SameDebug s b) : l.foldl F b = l.foldl (fun b t => b.updThread wid t.idx (g t)) b :=
  foldl_debug (s := s) l F (fun b t => b.updThread wid t.idx (g t)) hF (fun _ _ _ _ => rfl) hb

/-- A trap before the word is a change of its thread. -/
theorem Env.trapBefore_eq {s b : State} (hb : SameDebug s b) (e : Env) (t : Thread) (r : TrapRec) :
    e.trapBefore b t r =
      b.updThread e.w.wid t.idx fun _ => t.trapTo (s.attached e.w.die t.owner) e.codeHi r t.pc t.cl := by
  unfold Env.trapBefore
  rw [hb]

/-- A trap after the word is a change of its thread. -/
theorem Env.trapAfter_eq {s b : State} (hb : SameDebug s b) (e : Env) (t : Thread) (r : TrapRec) :
    e.trapAfter b t r =
      b.updThread e.w.wid t.idx fun u => u.trapTo (s.attached e.w.die u.owner) e.codeHi r u.pc u.cl := by
  unfold Env.trapAfter
  congr 1
  funext u
  rw [hb]

theorem Env.past_idx (e : Env) (s : State) (f : Form) (t : Thread) : (e.past s f t).idx = t.idx := by
  unfold Env.past latchClock
  dsimp only
  split
  · split <;> rfl
  · rfl

/-- The changes of a warp of two kinds, threads and another part, one after the other. -/
theorem Warp.foldl_split {α : Type} (l : List Thread) (g : Thread → Thread → Thread) (put : Warp → α → Warp)
    (get : Warp → α) (step : Thread → α → α)
    (hget : ∀ w a, get (put w a) = a) (hput : ∀ w a b, put (put w a) b = put w b) (hid : ∀ w, put w (get w) = w)
    (hcomm : ∀ w i f a, put (Warp.updThread w i f) a = Warp.updThread (put w a) i f) (w : Warp) :
    l.foldl (fun w t => put (w.updThread t.idx (g t)) (step t (get w))) w =
      put (l.foldl (fun w t => w.updThread t.idx (g t)) w) (l.foldl (fun a t => step t a) (get w)) := by
  induction l generalizing w with
  | nil => exact (hid w).symm
  | cons t l ih =>
    simp only [List.foldl_cons]
    rw [ih, hget]
    have h1 : ∀ (m : List Thread) (w : Warp) (a : α), m.foldl (fun w t => w.updThread t.idx (g t)) (put w a) =
        put (m.foldl (fun w t => w.updThread t.idx (g t)) w) a := by
      intro m
      induction m with
      | nil => intro w a; rfl
      | cons x m ihm => intro w a; simp only [List.foldl_cons]; rw [← hcomm, ihm]
    rw [h1, hput]

end Sys2Proof.Machine
end

