-- ==== Sys2Proof/Tests/Slice0.lean ====
section
/-! SUPPORT. Tests: ill-formed terms that the check refuses, words written out from the spec's encodings, single steps with
results worked out in the spec or by hand from its rules, and for every statement a state and operands that meet its
hypotheses. -/

namespace Sys2Proof.Tests

open Sys2Proof Sys2Proof.Machine Sys2Proof.Claims

/-- No common field set. -/
def c0 : Ctl := { pred := 0, neg := false, rnd := .dflt, fsel := false, reuse := false }

/-! ## Words (Tables 4.4, 4.7, 4.9, 10.1 and each entry)

A word is written field by field, from bit 63 down: kind, opcode, DEST, OPA, OPB and OPC or IMM20, PRED, NEG, RND, FSEL,
REUSE, MOD; or in hexadecimal as an example of the spec gives it. -/

/-- The word decodes to the instruction. -/
def reads (w : DWord) (i : Instr) : Bool :=
  match decode w with
  | .ok j => decide (j = i)
  | .error _ => false

/-! ## Ill-formed terms

Each term breaks one check of `Instr.wf`; its neighbour in the words above, or the term beside it, is well formed. -/

/-- No term of the list is well formed. -/
def refused (l : List Instr) : Bool := l.all fun i => !i.wf

/-- Every term of the list is well formed. -/
def accepted (l : List Instr) : Bool := l.all fun i => i.wf

theorem smoke_common_fields :
    refused
      [.mov { c0 with rnd := .rn } (.v 1) (.v 2), .mov { c0 with fsel := true } (.v 1) (.v 2),
        .fadd { c0 with fsel := true } (.v 1) (.v 2) (.reg (.v 3)), .acczero { c0 with rnd := .rz } 3,
        .tret { c0 with pred := 1 }, .tret { c0 with neg := true }, .eret { c0 with pred := 1 },
        .eret { c0 with reuse := true }, .eret { c0 with neg := true }, .eretEpc { c0 with rnd := .rd }] = true ∧
    accepted [.fadd { c0 with rnd := .rd } (.v 1) (.v 2) (.reg (.v 3)), .acczero { c0 with fsel := true } 3] = true := by
  decide

theorem smoke_registers :
    refused
      [.mov c0 (.v 640) (.v 2), .mov c0 (.s 256) (.v 2), .mov c0 (.g 64) (.v 2), .mov c0 (.v 1) (.v 640),
        .mov c0 (.v 1) (.s 256), .mov c0 (.v 1) (.g 64), .gret c0 640, .gcall c0 false 0 633, .atom c0 (some 640) (.v 1) (.v 2)
        .add .w32, .lanttake c0 256 0, .unpk c0 639 (.v 1) .f32 .f16 false, .wpset c0 0 640] = true ∧
    accepted [.mov c0 (.v 639) (.s 255), .mov c0 (.g 63) (.v 639), .gcall c0 false 0 632,
      .unpk c0 638 (.v 1) .f32 .f16 false] = true := by
  decide

theorem smoke_operand_kinds :
    refused
      [.mget c0 (.g 0) 2, .ballot c0 .none 0 false false, .mset c0 2 (.v 1), .redux c0 .add .i32 false .none 8,
        .ctlget c0 (.g 0) .mode, .cpyst c0 (.v 1) (.sp .zero), .launch c0 (.g 0) (.v 1) 0, .gwait c0 (.g 1),
        .gainadd c0 (.sp .tid) (.imm 0) false, .gainget c0 .none (.v 1) .gain false, .residget c0 (.g 0) false,
        .tapemark c0 .none, .qpush c0 (.v 1) (.g 0), .qwait c0 (.g 0), .lpush c0 (.g 0) 0, .preempt c0 (.g 0) (.v 1) (.v 2),
        .halt c0 (.g 0), .ckmark c0 (.sp .zero) 0, .enrd c0 (.g 0), .keysetLoad c0 (.g 0) 1, .keysetGen c0 (.sp .tid),
        .cpy c0 (.v 633), .cpy c0 (.s 249), .gpost c0 .none (.v 625) 0, .gpost c0 .none (.s 241) 0] = true ∧
    accepted [.mset c0 2 (.g 1), .launch c0 .none (.s 1) 0, .cpy c0 (.s 248), .gpost c0 .none (.v 624) 0] = true := by
  decide

theorem smoke_immediates :
    refused
      [.bfx c0 (.v 1) (.v 2) (.imm 0x800) false, .bfi c0 (.v 1) (.v 2) (.imm 0x800), .prmt c0 (.v 1) (.v 2) (.imm 0x10000),
        .lea c0 (.v 1) (.v 2) (.imm 0) 1, .iclr c0 0x10, .iclr c0 0x2000] = true ∧
    accepted [.bfx c0 (.v 1) (.v 2) (.imm 0x7FF) false, .prmt c0 (.v 1) (.v 2) (.imm 0xFFFF)] = true := by
  decide

theorem smoke_types :
    refused
      [.cvt c0 (.v 1) (.v 2) .a26 .f32 0, .cvt c0 (.v 1) (.v 2) .f32 .a26 0, .cvt c0 (.v 1) (.v 2) .f32 .f16 2,
        .cvtpk c0 (.v 1) (.v 2) (.v 3) .f16 .f16 false, .cvtpk c0 (.v 1) (.v 2) (.v 3) .f16 .f32 true,
        .cvtpk c0 (.v 1) (.v 2) (.v 3) .i32 .f32 false, .unpk c0 1 (.v 2) .f32 .i8 false, .unpk c0 1 (.v 2) .f32 .f16 true,
        .unpk c0 1 (.v 2) .i32 .l8 false, .redux c0 .and .f32 false (.v 9) 8, .redux c0 .add .i32 true (.v 9) 8,
        .redux { c0 with rnd := .rn } .min .f32 false (.v 9) 8, .redux c0 .add .f16 false (.v 9) 8,
        .sibget c0 (.v 1) (.v 2) 3] = true ∧
    accepted [.cvt c0 (.v 1) (.v 2) .f32 .f8 3, .cvtpk c0 (.v 1) (.v 2) (.v 3) .l6 .i32 true,
      .redux { c0 with rnd := .rn } .add .f32 false (.v 9) 8] = true := by
  decide

theorem smoke_warp_words :
    refused
      [.join c0 12, .wait c0 12, .mget c0 (.v 1) 12, .cflag c0 .inc 12 0, .bfly c0 0 0 0 0 0, .bfly c0 0 3 3 0 1,
        .bfly c0 0 3 0 3 0, .bfly c0 0 3 1 1 0, .bfly c0 0 3 1 1 2, .bfly c0 0 3 1 0 6, .gcallReply 0 (List.replicate 25 0)] =
      true ∧
    accepted [.join c0 11, .bfly c0 0 7 6 5 0, .bfly c0 0 3 2 0 5] = true := by
  decide

/-- A memory word of one register, `.w32` in the scratchpad window. -/
def m0 : MemWord := { data := .v 5, base := .v 4, win := .sp, width := .w32, off := 0 }

theorem smoke_memory_words :
    refused
      [.ld c0 { m0 with data := .g 0 }, .ld c0 { m0 with data := .s 1, width := .w64 }, .ld c0 { m0 with base := .g 0, win := .far },
        .st c0 { m0 with data := .s 1, width := .w64 }, .ldx c0 { m0 with width := .f32 }, .stx c0 { m0 with width := .i32 },
        .ldacq c0 { m0 with width := .w128 } .die, .strel c0 { m0 with width := .w128 } .die, .acqrem c0 m0 .block,
        .acqrem c0 { m0 with win := .sh } .die, .acqrem c0 { m0 with width := .w16 } .die,
        .acqrem c0 { m0 with width := .w128 } .die, .pref c0 m0 false, .pref c0 { m0 with data := .v 1, width := .w8 } false,
        .pref c0 { m0 with data := .v 0, width := .w8, win := .sh } false, .adjld c0 m0, .adjld c0 { m0 with width := .f32, win := .adj },
        .adjclr c0 { m0 with width := .f32 }, .adjclr c0 { m0 with width := .f32, data := .v 0, win := .sh }] = true ∧
    accepted [.ld c0 { m0 with data := .sp .zero }, .ld c0 { m0 with data := .s 1 }, .st c0 { m0 with data := .sp .tid },
      .acqrem c0 { m0 with width := .w64 } .device, .adjld c0 { m0 with width := .f32 }] = true := by
  decide

theorem smoke_atomics :
    refused
      [.atom { c0 with rnd := .rz } none (.v 1) (.v 2) .add .f32x, .atom c0 none (.v 1) (.v 2) .cas .w32, .atom c0 (some 0) (.v 1) (.v 2) .and .f32, .atom c0 (some 0) (.v 1) (.v 2) .cas .f32x,
        .atom c0 (some 0) (.v 1) (.g 2) .add .w64, .atom c0 (some 0) (.v 1) (.v 2) .inc .w64,
        .atom { c0 with rnd := .rn } (some 0) (.v 1) (.v 2) .add .w32, .ratom c0 (some 0) (.v 1) (.v 2) .cas .w32 false false,
        .ratom c0 (some 0) (.v 1) (.v 2) .add .f32x false false, .ratom c0 (some 0) (.g 1) (.v 2) .add .w32 false true,
        .ratom c0 (some 0) (.v 1) (.v 2) .add .w32 true true, .rred c0 (.v 1) (.v 2) .cas .w32 false false,
        .rcas c0 0 (.v 1) (.v 2) .f32x false false, .rcas c0 640 (.v 1) (.v 2) .w32 false false] = true ∧
    accepted [.atom { c0 with rnd := .rn } (some 0) (.v 1) (.v 2) .add .f32, .ratom c0 none (.v 1) (.s 2) .xor .w64 true false,
      .rcas c0 0 (.v 1) (.v 2) .f32 false false] = true := by
  decide

theorem smoke_numbers :
    refused
      [.ctlget c0 (.v 1) (.entab 32), .ctlget c0 (.v 1) (.bp 8), .ctlget c0 (.v 1) .qtake, .ctlget c0 (.v 1) .resid0,
        .ctlset c0 .drawctr (.imm 0), .ctlset c0 (.entab 32) (.imm 0), .qdecl c0 32 (.imm 1), .mma c0 32 0 0 0 0 0 0,
        .mma c0 0 0 32 0 0 0 0, .accrd c0 1 0 32 0, .accrd c0 1 2 0 1, .acczero c0 32, .accst c0 1 2 32 0,
        .enrd c0 (.s 1), .matrixKstep 4 0, .matrixKstep 0 40, .powerGate 0 160, .copyChunk 4 0, .signsetPendingEntry 0 0 32,
        .hostLaunch 1 [], .firmwareReinitialisation 16, .unassignedOpcodeWord 0, .unassignedOpcodeWord 0x8000000000000000] =
      true ∧
    accepted [.ctlget c0 (.v 1) (.entab 31), .accrd c0 1 3 31 1, .enrd c0 (.s 2), .matrixKstep 3 39, .powerGate 3 159] =
      true := by
  decide

/-- A configuration of the given functions: no image, and every weight 0. -/
def bootFuncs (l : List FuncConfig) : BootConfig :=
  { stage := { bytes := [], signature := [], load := 0 }
    images := []
    funcs := l.map fun f => (f, [])
    entab := List.replicate 32 0
    perus := 0
    boardCount := 0
    pkg := 0
    ringBase := 0
    root := 0 }

/-- A function of one cluster of die 0, its tags from one to the other. -/
def funcOn (cl : Nat) (lo hi : BitVec 12) : FuncConfig :=
  { clusters := [(0, cl)]
    tagLo := lo
    tagHi := hi
    ports := []
    service := { bytes := [], signature := [], load := 0 }
    entry := none }

theorem smoke_boot :
    refused
      [.boot { bootFuncs [] with entab := [] }, .boot (bootFuncs [funcOn 40 1 2]), .boot (bootFuncs [funcOn 0 0 2]),
        .boot (bootFuncs [funcOn 0 3 2]), .boot (bootFuncs [funcOn 0 1 2, funcOn 0 3 4]), .boot (bootFuncs [funcOn 0 1 2, funcOn 1 2 4]),
        .boot (bootFuncs [{ funcOn 0 1 2 with entry := some { pc := 4, vregs := 8, uregs := 8 } }])] = true ∧
    accepted [.boot (bootFuncs [funcOn 0 1 2, funcOn 1 3 4])] = true := by
  decide

/-! The integer words. -/

theorem test_words_integer_1 :
    reads (0x00001C02FFFFB001#64)
      (.iadd c0 (.v 7) (.v 2) (.imm 0xFFFFB) false) = true ∧
    reads (0#2 ++ 0x000#10 ++ 5#10 ++ 640#10 ++ 896#10 ++ 0#10 ++ 0#3 ++ 0#1 ++ 0#3 ++ 0#1 ++ 0#1 ++ 2#3)
      (.iadd c0 (.v 5) (.s 0) (.reg (.g 0)) true) = true ∧
    reads (0x0010140500001001#64)
      (.isub c0 (.v 5) (.v 5) (.imm 1) false) = true ∧
    reads (0x002003C500004001#64)
      (.imul c0 (.v 0) (.sp .tnum) (.imm 4)) = true ∧
    reads (0#2 ++ 0x003#10 ++ 1#10 ++ 2#10 ++ 3#10 ++ 0#10 ++ 0#3 ++ 0#1 ++ 0#3 ++ 0#1 ++ 0#1 ++ 2#3)
      (.imulh c0 (.v 1) (.v 2) (.reg (.v 3)) true) = true ∧
    reads (0#2 ++ 0x004#10 ++ 1#10 ++ 2#10 ++ 3#10 ++ 4#10 ++ 0#3 ++ 0#1 ++ 0#3 ++ 0#1 ++ 0#1 ++ 4#3)
      (.imad c0 (.v 1) (.v 2) (.v 3) (.v 4) false true) = true ∧
    reads (0#2 ++ 0x004#10 ++ 1#10 ++ 2#10 ++ 3#10 ++ 4#10 ++ 0#3 ++ 0#1 ++ 0#3 ++ 0#1 ++ 0#1 ++ 2#3)
      (.imad c0 (.v 1) (.v 2) (.v 3) (.v 4) true false) = true ∧
    reads (0#2 ++ 0x005#10 ++ 1#10 ++ 2#10 ++ 3#10 ++ 0#10 ++ 0#3 ++ 0#1 ++ 0#3 ++ 0#1 ++ 0#1 ++ 0#3)
      (.imin c0 (.v 1) (.v 2) (.reg (.v 3)) false) = true ∧
    reads (0#2 ++ 0x006#10 ++ 1#10 ++ 2#10 ++ 7#20 ++ 0#3 ++ 0#1 ++ 0#3 ++ 0#1 ++ 0#1 ++ 3#3)
      (.imax c0 (.v 1) (.v 2) (.imm 7) true) = true ∧
    reads (0#2 ++ 0x007#10 ++ 1#10 ++ 2#10 ++ 0#10 ++ 0#10 ++ 0#3 ++ 0#1 ++ 0#3 ++ 0#1 ++ 0#1 ++ 2#3)
      (.iabs c0 (.v 1) (.v 2) true) = true ∧
    reads (0#2 ++ 0x008#10 ++ 1#10 ++ 2#10 ++ 0#10 ++ 0#10 ++ 0#3 ++ 0#1 ++ 0#3 ++ 0#1 ++ 0#1 ++ 0#3)
      (.ineg c0 (.v 1) (.v 2) false) = true ∧
    reads (0#2 ++ 0x009#10 ++ 1#10 ++ 2#10 ++ 3#10 ++ 0#10 ++ 0#3 ++ 0#1 ++ 0#3 ++ 0#1 ++ 0#1 ++ 2#3)
      (.idiv c0 (.v 1) (.v 2) (.reg (.v 3)) true) = true ∧
    reads (0x00A007C500003003#64)
      (.irem c0 (.v 1) (.sp .tnum) (.imm 3) true) = true ∧
    reads (0#2 ++ 0x00B#10 ++ 1#10 ++ 2#10 ++ 3#10 ++ 0#10 ++ 0#3 ++ 0#1 ++ 0#3 ++ 0#1 ++ 0#1 ++ 0#3)
      (.and c0 (.v 1) (.v 2) (.reg (.v 3))) = true := by decide

theorem test_words_integer_2 :
    reads (0#2 ++ 0x00C#10 ++ 1#10 ++ 2#10 ++ 3#10 ++ 0#10 ++ 0#3 ++ 0#1 ++ 0#3 ++ 0#1 ++ 0#1 ++ 0#3)
      (.or c0 (.v 1) (.v 2) (.reg (.v 3))) = true ∧
    reads (0#2 ++ 0x00D#10 ++ 1#10 ++ 2#10 ++ 3#10 ++ 0#10 ++ 0#3 ++ 0#1 ++ 0#3 ++ 0#1 ++ 0#1 ++ 0#3)
      (.xor c0 (.v 1) (.v 2) (.reg (.v 3))) = true ∧
    reads (0#2 ++ 0x00E#10 ++ 1#10 ++ 2#10 ++ 3#10 ++ 0#10 ++ 0#3 ++ 0#1 ++ 0#3 ++ 0#1 ++ 0#1 ++ 0#3)
      (.andn c0 (.v 1) (.v 2) (.reg (.v 3))) = true ∧
    reads (0#2 ++ 0x010#10 ++ 1#10 ++ 2#10 ++ 3#10 ++ 0#10 ++ 0#3 ++ 0#1 ++ 0#3 ++ 0#1 ++ 0#1 ++ 0#3)
      (.shl c0 (.v 1) (.v 2) (.reg (.v 3))) = true ∧
    reads (0#2 ++ 0x012#10 ++ 1#10 ++ 2#10 ++ 3#10 ++ 0#10 ++ 0#3 ++ 0#1 ++ 0#3 ++ 0#1 ++ 0#1 ++ 0#3)
      (.sar c0 (.v 1) (.v 2) (.reg (.v 3))) = true ∧
    reads (0#2 ++ 0x013#10 ++ 1#10 ++ 2#10 ++ 3#10 ++ 0#10 ++ 0#3 ++ 0#1 ++ 0#3 ++ 0#1 ++ 0#1 ++ 0#3)
      (.rot c0 (.v 1) (.v 2) (.reg (.v 3))) = true ∧
    reads (0x0110380E00005001#64)
      (.shr c0 (.v 14) (.v 14) (.imm 5)) = true ∧
    reads (0#2 ++ 0x00F#10 ++ 1#10 ++ 2#10 ++ 0#10 ++ 0#10 ++ 0#3 ++ 0#1 ++ 0#3 ++ 0#1 ++ 0#1 ++ 0#3)
      (.not c0 (.v 1) (.v 2)) = true ∧
    reads (0#2 ++ 0x014#10 ++ 1#10 ++ 2#10 ++ 0#10 ++ 0#10 ++ 0#3 ++ 0#1 ++ 0#3 ++ 0#1 ++ 0#1 ++ 0#3)
      (.popc c0 (.v 1) (.v 2)) = true ∧
    reads (0#2 ++ 0x015#10 ++ 1#10 ++ 2#10 ++ 0#10 ++ 0#10 ++ 0#3 ++ 0#1 ++ 0#3 ++ 0#1 ++ 0#1 ++ 0#3)
      (.clz c0 (.v 1) (.v 2)) = true ∧
    reads (0#2 ++ 0x016#10 ++ 1#10 ++ 2#10 ++ 0#10 ++ 0#10 ++ 0#3 ++ 0#1 ++ 0#3 ++ 0#1 ++ 0#1 ++ 0#3)
      (.brev c0 (.v 1) (.v 2)) = true ∧
    reads (0#2 ++ 0x01B#10 ++ 1#10 ++ 2#10 ++ 0#10 ++ 0#10 ++ 0#3 ++ 0#1 ++ 0#3 ++ 0#1 ++ 0#1 ++ 0#3)
      (.mov c0 (.v 1) (.v 2)) = true ∧
    reads (0#2 ++ 0x017#10 ++ 1#10 ++ 2#10 ++ 3#10 ++ 0#10 ++ 0#3 ++ 0#1 ++ 0#3 ++ 0#1 ++ 0#1 ++ 2#3)
      (.bfx c0 (.v 1) (.v 2) (.reg (.v 3)) true) = true ∧
    reads (0#2 ++ 0x017#10 ++ 1#10 ++ 2#10 ++ 260#20 ++ 0#3 ++ 0#1 ++ 0#3 ++ 0#1 ++ 0#1 ++ 1#3)
      (.bfx c0 (.v 1) (.v 2) (.imm 260) false) = true := by decide

theorem test_words_integer_3 :
    reads (0#2 ++ 0x018#10 ++ 1#10 ++ 2#10 ++ 3#10 ++ 4#10 ++ 0#3 ++ 0#1 ++ 0#3 ++ 0#1 ++ 0#1 ++ 0#3)
      (.bfi c0 (.v 1) (.v 2) (.regs (.v 3) (.v 4))) = true ∧
    reads (0#2 ++ 0x018#10 ++ 1#10 ++ 2#10 ++ 260#20 ++ 0#3 ++ 0#1 ++ 0#3 ++ 0#1 ++ 0#1 ++ 1#3)
      (.bfi c0 (.v 1) (.v 2) (.imm 260)) = true ∧
    reads (0x0190280500004000#64)
      (.icmp c0 2 .eq (.v 5) (.imm 4)) = true ∧
    reads (0#2 ++ 0x019#10 ++ 2#10 ++ 5#10 ++ 6#10 ++ 0#10 ++ 0#3 ++ 0#1 ++ 0#3 ++ 0#1 ++ 0#1 ++ 7#3)
      (.icmp c0 2 .hs (.v 5) (.reg (.v 6))) = true ∧
    reads (0#2 ++ 0x01A#10 ++ 1#10 ++ 2#10 ++ 3#10 ++ 13#10 ++ 0#3 ++ 0#1 ++ 0#3 ++ 0#1 ++ 0#1 ++ 0#3)
      (.sel c0 (.v 1) (.v 2) (.v 3) 5 true) = true ∧
    reads (0x01C0140000000000#64)
      (.movi c0 (.v 5) 0 false) = true ∧
    reads (0x01D0140003F80000#64)
      (.movh c0 (.v 5) 0x3F80) = true ∧
    reads (0x01E0040100012001#64)
      (.ldlit c0 (.v 1) 0x12 (some (.v 1))) = true ∧
    reads (0#2 ++ 0x01E#10 ++ 1#10 ++ 0#10 ++ 9#20 ++ 0#3 ++ 0#1 ++ 0#3 ++ 0#1 ++ 0#1 ++ 0#3)
      (.ldlit c0 (.v 1) 9 none) = true ∧
    reads (0#2 ++ 0x01F#10 ++ 1#10 ++ 2#10 ++ 3#10 ++ 0#10 ++ 0#3 ++ 0#1 ++ 0#3 ++ 0#1 ++ 0#1 ++ 6#3)
      (.lea c0 (.v 1) (.v 2) (.reg (.v 3)) 3) = true ∧
    reads (0#2 ++ 0x01F#10 ++ 1#10 ++ 2#10 ++ 5#20 ++ 0#3 ++ 0#1 ++ 0#3 ++ 0#1 ++ 0#1 ++ 1#3)
      (.lea c0 (.v 1) (.v 2) (.imm 5) 0) = true ∧
    reads (0#2 ++ 0x020#10 ++ 1#10 ++ 2#10 ++ 3#10 ++ 33#10 ++ 0#3 ++ 0#1 ++ 0#3 ++ 0#1 ++ 0#1 ++ 6#3)
      (.iaddc c0 (.v 1) (.v 2) (.v 3) 1 2 true true) = true ∧
    reads (0#2 ++ 0x021#10 ++ 1#10 ++ 2#10 ++ 3#10 ++ 4#10 ++ 0#3 ++ 0#1 ++ 0#3 ++ 0#1 ++ 0#1 ++ 0#3)
      (.prmt c0 (.v 1) (.v 2) (.regs (.v 3) (.v 4))) = true ∧
    reads (0#2 ++ 0x021#10 ++ 1#10 ++ 2#10 ++ 12816#20 ++ 0#3 ++ 0#1 ++ 0#3 ++ 0#1 ++ 0#1 ++ 1#3)
      (.prmt c0 (.v 1) (.v 2) (.imm 0x3210)) = true := by decide

/-! The float words. -/

theorem test_words_float_1 :
    reads (0#2 ++ 0x030#10 ++ 1#10 ++ 2#10 ++ 1#10 ++ 0#10 ++ 0#3 ++ 0#1 ++ 1#3 ++ 0#1 ++ 0#1 ++ 0#3)
      (.cvt { c0 with rnd := .rn } (.v 1) (.v 2) .f16 .f32 0) = true ∧
    reads (0x0310503C0F401600#64)
      (.cvtpk { c0 with pred := 3 } (.v 20) (.v 60) (.v 61) .f16 .f32 false) = true ∧
    reads (0#2 ++ 0x032#10 ++ 2#10 ++ 1#10 ++ 16#10 ++ 0#10 ++ 0#3 ++ 0#1 ++ 0#3 ++ 0#1 ++ 0#1 ++ 0#3)
      (.unpk c0 2 (.v 1) .f32 .f16 false) = true ∧
    reads (0x0400080201400000#64)
      (.fadd c0 (.v 2) (.v 2) (.reg (.v 5))) = true ∧
    reads (0x0410180401400000#64)
      (.fsub c0 (.v 6) (.v 4) (.reg (.v 5))) = true ∧
    reads (0x0420140240800001#64)
      (.fmul c0 (.v 5) (.v 2) (.imm 0x40800)) = true ∧
    reads (0x0430040200C04620#64)
      (.fma { c0 with pred := 3, rnd := .rn } (.v 1) (.v 2) (.v 3) (.v 4) false false) = true ∧
    reads (0#2 ++ 0x043#10 ++ 1#10 ++ 2#10 ++ 3#10 ++ 4#10 ++ 0#3 ++ 0#1 ++ 0#3 ++ 0#1 ++ 0#1 ++ 2#3)
      (.fma c0 (.v 1) (.v 2) (.v 3) (.v 4) true false) = true ∧
    reads (0#2 ++ 0x043#10 ++ 1#10 ++ 2#10 ++ 3#10 ++ 4#10 ++ 0#3 ++ 0#1 ++ 0#3 ++ 0#1 ++ 0#1 ++ 4#3)
      (.fma c0 (.v 1) (.v 2) (.v 3) (.v 4) false true) = true ∧
    reads (0x044010043F800001#64)
      (.fmin c0 (.v 4) (.v 4) (.imm 0x3F800)) = true ∧
    reads (0x04501002BF800001#64)
      (.fmax c0 (.v 4) (.v 2) (.imm 0xBF800)) = true ∧
    reads (0x04600C0100800000#64)
      (.fdiv c0 (.v 3) (.v 1) (.v 2)) = true ∧
    reads (0x04701C0600000000#64)
      (.fsqrt c0 (.v 7) (.v 6)) = true ∧
    reads (0#2 ++ 0x048#10 ++ 3#10 ++ 1#10 ++ 0#10 ++ 0#10 ++ 0#3 ++ 0#1 ++ 2#3 ++ 1#1 ++ 0#1 ++ 0#3)
      (.frcp { c0 with rnd := .rz, fsel := true } (.v 3) (.v 1)) = true := by decide

theorem test_words_float_2 :
    reads (0#2 ++ 0x049#10 ++ 3#10 ++ 1#10 ++ 0#10 ++ 0#10 ++ 0#3 ++ 0#1 ++ 2#3 ++ 1#1 ++ 0#1 ++ 0#3)
      (.frsq { c0 with rnd := .rz, fsel := true } (.v 3) (.v 1)) = true ∧
    reads (0#2 ++ 0x04A#10 ++ 3#10 ++ 1#10 ++ 0#10 ++ 0#10 ++ 0#3 ++ 0#1 ++ 2#3 ++ 1#1 ++ 0#1 ++ 0#3)
      (.fexp2 { c0 with rnd := .rz, fsel := true } (.v 3) (.v 1)) = true ∧
    reads (0#2 ++ 0x04B#10 ++ 3#10 ++ 1#10 ++ 0#10 ++ 0#10 ++ 0#3 ++ 0#1 ++ 2#3 ++ 1#1 ++ 0#1 ++ 0#3)
      (.flog2 { c0 with rnd := .rz, fsel := true } (.v 3) (.v 1)) = true ∧
    reads (0#2 ++ 0x04C#10 ++ 3#10 ++ 1#10 ++ 0#10 ++ 0#10 ++ 0#3 ++ 0#1 ++ 2#3 ++ 1#1 ++ 0#1 ++ 0#3)
      (.fsin { c0 with rnd := .rz, fsel := true } (.v 3) (.v 1)) = true ∧
    reads (0#2 ++ 0x04D#10 ++ 3#10 ++ 1#10 ++ 0#10 ++ 0#10 ++ 0#3 ++ 0#1 ++ 2#3 ++ 1#1 ++ 0#1 ++ 0#3)
      (.fcos { c0 with rnd := .rz, fsel := true } (.v 3) (.v 1)) = true ∧
    reads (0x04E0080501800002#64)
      (.fcmp c0 2 .lt (.v 5) (.reg (.v 6))) = true ∧
    reads (0#2 ++ 0x04F#10 ++ 1#10 ++ 2#10 ++ 0#10 ++ 0#10 ++ 0#3 ++ 0#1 ++ 0#3 ++ 0#1 ++ 0#1 ++ 0#3)
      (.fclass c0 (.word (.v 1)) (.v 2)) = true ∧
    reads (0#2 ++ 0x04F#10 ++ 2#10 ++ 5#10 ++ 0#10 ++ 768#10 ++ 0#3 ++ 0#1 ++ 0#3 ++ 0#1 ++ 0#1 ++ 1#3)
      (.fclass c0 (.pred 2 0x300) (.v 5)) = true ∧
    reads (0#2 ++ 0x050#10 ++ 1#10 ++ 2#10 ++ 0#10 ++ 0#10 ++ 0#3 ++ 0#1 ++ 4#3 ++ 0#1 ++ 0#1 ++ 0#3)
      (.fint { c0 with rnd := .rd } (.v 1) (.v 2)) = true ∧
    reads (0#2 ++ 0x051#10 ++ 1#10 ++ 2#10 ++ 3#20 ++ 0#3 ++ 0#1 ++ 0#3 ++ 0#1 ++ 0#1 ++ 1#3)
      (.fscale c0 (.v 1) (.v 2) (.imm 3)) = true ∧
    reads (0#2 ++ 0x052#10 ++ 1#10 ++ 2#10 ++ 3#10 ++ 0#10 ++ 0#3 ++ 0#1 ++ 0#3 ++ 0#1 ++ 0#1 ++ 1#3)
      (.hadd2 c0 (.v 1) (.v 2) (.v 3) true) = true ∧
    reads (0#2 ++ 0x053#10 ++ 1#10 ++ 2#10 ++ 3#10 ++ 0#10 ++ 0#3 ++ 0#1 ++ 0#3 ++ 0#1 ++ 0#1 ++ 0#3)
      (.hmul2 c0 (.v 1) (.v 2) (.v 3) false) = true ∧
    reads (0#2 ++ 0x054#10 ++ 1#10 ++ 2#10 ++ 3#10 ++ 4#10 ++ 0#3 ++ 0#1 ++ 0#3 ++ 0#1 ++ 0#1 ++ 0#3)
      (.hfma2 c0 (.v 1) (.v 2) (.v 3) (.v 4) false) = true := by decide

/-! The stochastic words. -/

theorem test_words_stochastic :
    reads (0#2 ++ 0x060#10 ++ 1#10 ++ 2#10 ++ 0#10 ++ 0#10 ++ 0#3 ++ 0#1 ++ 0#3 ++ 0#1 ++ 0#1 ++ 0#3)
      (.digits c0 (.v 1) (.v 2)) = true ∧
    reads (0#2 ++ 0x061#10 ++ 1#10 ++ 2#10 ++ 0#10 ++ 0#10 ++ 0#3 ++ 0#1 ++ 0#3 ++ 0#1 ++ 0#1 ++ 0#3)
      (.spread c0 (.v 1) (.v 2)) = true ∧
    reads (0#2 ++ 0x062#10 ++ 1#10 ++ 2#10 ++ 0#10 ++ 0#10 ++ 0#3 ++ 0#1 ++ 0#3 ++ 0#1 ++ 0#1 ++ 0#3)
      (.mean c0 (.v 1) (.v 2)) = true ∧
    reads (0#2 ++ 0x063#10 ++ 1#10 ++ 2#10 ++ 0#10 ++ 0#10 ++ 0#3 ++ 0#1 ++ 0#3 ++ 0#1 ++ 0#1 ++ 2#3)
      (.sibget c0 (.v 1) (.v 2) 2) = true ∧
    reads (0#2 ++ 0x064#10 ++ 1#10 ++ 2#10 ++ 3#10 ++ 4#10 ++ 0#3 ++ 0#1 ++ 0#3 ++ 0#1 ++ 0#1 ++ 0#3)
      (.sibset c0 (.v 1) (.v 2) (.v 3) (.v 4)) = true ∧
    reads (0#2 ++ 0x065#10 ++ 1#10 ++ 0#10 ++ 0#10 ++ 0#10 ++ 0#3 ++ 0#1 ++ 0#3 ++ 0#1 ++ 0#1 ++ 1#3)
      (.draw c0 (.v 1) true) = true ∧
    reads (0#2 ++ 0x066#10 ++ 1#10 ++ 0#10 ++ 0#10 ++ 0#10 ++ 0#3 ++ 0#1 ++ 0#3 ++ 0#1 ++ 0#1 ++ 1#3)
      (.rnd c0 (.v 1) true) = true ∧
    reads (0#2 ++ 0x067#10 ++ 1#10 ++ 2#10 ++ 3#10 ++ 4#10 ++ 0#3 ++ 0#1 ++ 0#3 ++ 0#1 ++ 0#1 ++ 0#3)
      (.maskgen c0 (.v 1) (.v 2) (.v 3) (.v 4)) = true ∧
    reads (0#2 ++ 0x068#10 ++ 1#10 ++ 0#10 ++ 0#10 ++ 0#10 ++ 0#3 ++ 0#1 ++ 0#3 ++ 0#1 ++ 0#1 ++ 1#3)
      (.istat c0 (.v 1) true) = true ∧
    reads (0#2 ++ 0x069#10 ++ 0#10 ++ 0#10 ++ 7951#20 ++ 0#3 ++ 0#1 ++ 0#3 ++ 0#1 ++ 0#1 ++ 0#3)
      (.iclr c0 0x1F0F) = true ∧
    reads (0#2 ++ 0x06A#10 ++ 1#10 ++ 2#10 ++ 3#10 ++ 0#10 ++ 0#3 ++ 0#1 ++ 0#3 ++ 0#1 ++ 0#1 ++ 1#3)
      (.exact c0 (.v 1) (.v 2) (.v 3) true) = true ∧
    reads (0x400100480D042830#64)
      (.pairedWord { op := .iadd, d := 8, a := 9, pred := 0, neg := false } { op := .fmul, d := 16, a := 643, pred := 0, neg := false }) = true := by decide

/-! The control words. -/

theorem test_words_control :
    reads (0x1000000000008400#64)
      (.bra { c0 with pred := 2 } 8) = true ∧
    reads (0x10000000FFFFA000#64)
      (.bra c0 0xFFFFA) = true ∧
    reads (0#2 ++ 0x101#10 ++ 0#10 ++ 12#10 ++ 0#10 ++ 0#10 ++ 0#3 ++ 0#1 ++ 0#3 ++ 0#1 ++ 0#1 ++ 0#3)
      (.jmp c0 (.v 12)) = true ∧
    reads (0x10200000FFFFB000#64)
      (.call c0 0xFFFFB) = true ∧
    reads (0x1030000C00000000#64)
      (.callr c0 (.v 12)) = true ∧
    reads (0x1040000000000000#64)
      (.ret c0) = true ∧
    reads (0x1050000000000000#64)
      (.exit c0) = true ∧
    reads (0x1060000000005000#64)
      (.trap c0 5) = true ∧
    reads (0#2 ++ 0x107#10 ++ 0#10 ++ 0#10 ++ 0#10 ++ 0#10 ++ 0#3 ++ 0#1 ++ 0#3 ++ 0#1 ++ 0#1 ++ 0#3)
      (.brk c0) = true ∧
    reads (0#2 ++ 0x108#10 ++ 0#10 ++ 0#10 ++ 0#10 ++ 0#10 ++ 0#3 ++ 0#1 ++ 0#3 ++ 0#1 ++ 0#1 ++ 0#3)
      (.nop c0) = true ∧
    reads (0#2 ++ 0x109#10 ++ 0#10 ++ 0#10 ++ 0#10 ++ 0#10 ++ 0#3 ++ 0#1 ++ 0#3 ++ 0#1 ++ 0#1 ++ 0#3)
      (.yield c0) = true ∧
    reads (0x10A0000000000000#64)
      (.tret c0) = true := by decide

/-! The warp words. -/

theorem test_words_warp_1 :
    reads (0x1800000200000000#64)
      (.join c0 2) = true ∧
    reads (0#2 ++ 0x181#10 ++ 0#10 ++ 11#10 ++ 0#10 ++ 0#10 ++ 0#3 ++ 0#1 ++ 0#3 ++ 0#1 ++ 0#1 ++ 0#3)
      (.leave c0 11) = true ∧
    reads (0x1820000200000000#64)
      (.wait c0 2) = true ∧
    reads (0#2 ++ 0x183#10 ++ 2#10 ++ 643#10 ++ 0#10 ++ 0#10 ++ 0#3 ++ 0#1 ++ 0#3 ++ 0#1 ++ 0#1 ++ 0#3)
      (.mset c0 2 (.s 3)) = true ∧
    reads (0#2 ++ 0x184#10 ++ 1#10 ++ 2#10 ++ 0#10 ++ 0#10 ++ 0#3 ++ 0#1 ++ 0#3 ++ 0#1 ++ 0#1 ++ 0#3)
      (.mget c0 (.v 1) 2) = true ∧
    reads (0#2 ++ 0x185#10 ++ 1#10 ++ 10#10 ++ 0#10 ++ 0#10 ++ 0#3 ++ 0#1 ++ 0#3 ++ 0#1 ++ 0#1 ++ 2#3)
      (.vote c0 .uni 1 2 true) = true ∧
    reads (0#2 ++ 0x186#10 ++ 640#10 ++ 3#10 ++ 0#10 ++ 0#10 ++ 0#3 ++ 0#1 ++ 0#3 ++ 0#1 ++ 0#1 ++ 1#3)
      (.ballot c0 (.s 0) 3 false true) = true ∧
    reads (0#2 ++ 0x187#10 ++ 1#10 ++ 2#10 ++ 3#10 ++ 0#10 ++ 0#3 ++ 0#1 ++ 0#3 ++ 0#1 ++ 0#1 ++ 6#3)
      (.shfl c0 .xor 1 2 (.reg (.v 3))) = true ∧
    reads (0#2 ++ 0x187#10 ++ 1#10 ++ 2#10 ++ 1#20 ++ 0#3 ++ 0#1 ++ 0#3 ++ 0#1 ++ 0#1 ++ 3#3)
      (.shfl c0 .up 1 2 (.imm 1)) = true ∧
    reads (0x188001C400000003#64)
      (.bfly c0 0 7 4 0 3) = true ∧
    reads (0x188001CE00000000#64)
      (.bfly c0 0 7 6 1 0) = true ∧
    reads (0x1890240800000000#64)
      (.redux c0 .add .f32 false (.v 9) 8) = true ∧
    reads (0#2 ++ 0x189#10 ++ 9#10 ++ 8#10 ++ 24#10 ++ 0#10 ++ 0#3 ++ 0#1 ++ 0#3 ++ 0#1 ++ 0#1 ++ 1#3)
      (.redux c0 .min .i32 true (.v 9) 8) = true ∧
    reads (0#2 ++ 0x18A#10 ++ 3#10 ++ 0#10 ++ 0#10 ++ 0#10 ++ 0#3 ++ 0#1 ++ 0#3 ++ 0#1 ++ 0#1 ++ 0#3)
      (.elect c0 3) = true := by decide

theorem test_words_warp_2 :
    reads (0#2 ++ 0x18B#10 ++ 0#10 ++ 8#10 ++ 65578#20 ++ 0#3 ++ 0#1 ++ 0#3 ++ 0#1 ++ 0#1 ++ 0#3)
      (.gcall c0 true 0x2A 8) = true ∧
    reads (0#2 ++ 0x18C#10 ++ 4#10 ++ 0#10 ++ 0#10 ++ 0#10 ++ 0#3 ++ 0#1 ++ 0#3 ++ 0#1 ++ 0#1 ++ 0#3)
      (.gret c0 4) = true ∧
    reads (0#2 ++ 0x18D#10 ++ 0#10 ++ 3#10 ++ 5#20 ++ 0#3 ++ 0#1 ++ 0#3 ++ 0#1 ++ 0#1 ++ 1#3)
      (.cflag c0 .dec 3 5) = true := by decide

/-! The core memory words. -/

theorem test_words_core_memory_1 :
    reads (0x2000140416010000#64)
      (.ld c0 { data := .v 5, base := .v 4, win := .sp, width := .f32, off := 0x010 }) = true ∧
    reads (0x20101C0636FF8000#64)
      (.st c0 { data := .v 7, base := .v 6, win := .sh, width := .f32, off := 0xFF8 }) = true ∧
    reads (0x20000E8217000010#64)
      (.ld { c0 with fsel := true } { data := .v 3, base := .s 2, win := .sp, width := .w64, off := 0 }) = true ∧
    reads (0#2 ++ 0x202#10 ++ 5#10 ++ 4#10 ++ 1#4 ++ 4#4 ++ 8#12 ++ 0#3 ++ 0#1 ++ 0#3 ++ 0#1 ++ 0#1 ++ 0#3)
      (.ldx c0 { data := .v 5, base := .v 4, win := .sp, width := .w32, off := 8 }) = true ∧
    reads (0#2 ++ 0x203#10 ++ 5#10 ++ 4#10 ++ 3#4 ++ 4#4 ++ 8#12 ++ 0#3 ++ 0#1 ++ 0#3 ++ 0#1 ++ 0#1 ++ 0#3)
      (.stx c0 { data := .v 5, base := .v 4, win := .sh, width := .w32, off := 8 }) = true ∧
    reads (0x2040000800000003#64)
      (.push c0 8 3) = true ∧
    reads (0#2 ++ 0x205#10 ++ 8#10 ++ 0#10 ++ 0#10 ++ 0#10 ++ 0#3 ++ 0#1 ++ 0#3 ++ 0#1 ++ 0#1 ++ 3#3)
      (.pop c0 8 3) = true ∧
    reads (0x20600C0201000000#64)
      (.atom c0 (some 3) (.v 2) (.v 4) .add .w32) = true ∧
    reads (0x2070000000001003#64)
      (.fence c0 .rel .die) = true ∧
    reads (0#2 ++ 0x208#10 ++ 5#10 ++ 4#10 ++ 0#4 ++ 4#4 ++ 0#12 ++ 0#3 ++ 0#1 ++ 0#3 ++ 0#1 ++ 0#1 ++ 4#3)
      (.ldacq c0 { data := .v 5, base := .v 4, win := .mm, width := .w32, off := 0 } .device) = true ∧
    reads (0#2 ++ 0x209#10 ++ 5#10 ++ 4#10 ++ 1#4 ++ 4#4 ++ 0#12 ++ 0#3 ++ 0#1 ++ 0#3 ++ 0#1 ++ 0#1 ++ 1#3)
      (.strel c0 { data := .v 5, base := .v 4, win := .sp, width := .w32, off := 0 } .block) = true ∧
    reads (0#2 ++ 0x20A#10 ++ 5#10 ++ 4#10 ++ 2#4 ++ 4#4 ++ 0#12 ++ 0#3 ++ 0#1 ++ 0#3 ++ 0#1 ++ 0#1 ++ 3#3)
      (.acqrem c0 { data := .v 5, base := .v 4, win := .adj, width := .w32, off := 0 } .die) = true ∧
    reads (0x20B0000A00010601#64)
      (.barinit { c0 with pred := 3 } (.v 10) (.imm 16)) = true ∧
    reads (0x20B0000AF3400600#64)
      (.barinit { c0 with pred := 3 } (.v 10) (.reg (.sp .bdimx))) = true := by decide

theorem test_words_core_memory_2 :
    reads (0#2 ++ 0x20C#10 ++ 4#10 ++ 10#10 ++ 0#10 ++ 0#10 ++ 0#3 ++ 0#1 ++ 0#3 ++ 0#1 ++ 0#1 ++ 0#3)
      (.bararr c0 4 (.v 10)) = true ∧
    reads (0#2 ++ 0x20D#10 ++ 0#10 ++ 10#10 ++ 4#10 ++ 0#10 ++ 0#3 ++ 0#1 ++ 0#3 ++ 0#1 ++ 0#1 ++ 2#3)
      (.barwait c0 (.v 10) (.reg (.v 4)) true) = true ∧
    reads (0x20E0000A00000000#64)
      (.barsync c0 (.v 10)) = true ∧
    reads (0#2 ++ 0x20F#10 ++ 0#10 ++ 10#10 ++ 1#20 ++ 0#3 ++ 0#1 ++ 0#3 ++ 0#1 ++ 0#1 ++ 1#3)
      (.bardrop c0 (.v 10) (.imm 1)) = true ∧
    reads (0#2 ++ 0x210#10 ++ 0#10 ++ 4#10 ++ 1#4 ++ 0#4 ++ 64#12 ++ 0#3 ++ 0#1 ++ 0#3 ++ 0#1 ++ 0#1 ++ 1#3)
      (.pref c0 { data := .v 0, base := .v 4, win := .sp, width := .w8, off := 0x40 } true) = true := by decide

/-! The control registers words. -/

theorem test_words_control_registers_1 :
    reads (0x2110080200000000#64)
      (.ctlget c0 (.v 2) .drawctr) = true ∧
    reads (0x2110384100000000#64)
      (.ctlget c0 (.v 14) .tapestride) = true ∧
    reads (0x2120100000001001#64)
      (.ctlset c0 .imask (.imm 1)) = true ∧
    reads (0#2 ++ 0x212#10 ++ 2#10 ++ 6#10 ++ 0#10 ++ 0#10 ++ 0#3 ++ 0#1 ++ 0#3 ++ 0#1 ++ 0#1 ++ 0#3)
      (.drawctrWrite c0 (.reg (.v 6))) = true ∧
    reads (0#2 ++ 0x212#10 ++ 10#10 ++ 6#10 ++ 0#10 ++ 0#10 ++ 0#3 ++ 0#1 ++ 0#3 ++ 0#1 ++ 0#1 ++ 0#3)
      (.trappcWrite c0 (.reg (.v 6))) = true ∧
    reads (0#2 ++ 0x212#10 ++ 8#10 ++ 6#10 ++ 0#10 ++ 0#10 ++ 0#3 ++ 0#1 ++ 0#3 ++ 0#1 ++ 0#1 ++ 0#3)
      (.handlerWrite c0 (.reg (.v 6))) = true ∧
    reads (0#2 ++ 0x212#10 ++ 20#10 ++ 6#10 ++ 0#10 ++ 0#10 ++ 0#3 ++ 0#1 ++ 0#3 ++ 0#1 ++ 0#1 ++ 0#3)
      (.dstackWrite c0 (.reg (.v 6))) = true ∧
    reads (0#2 ++ 0x212#10 ++ 14#10 ++ 6#10 ++ 0#10 ++ 0#10 ++ 0#3 ++ 0#1 ++ 0#3 ++ 0#1 ++ 0#1 ++ 0#3)
      (.tapeposWrite c0 (.reg (.v 6))) = true ∧
    reads (0#2 ++ 0x212#10 ++ 514#10 ++ 6#10 ++ 0#10 ++ 0#10 ++ 0#3 ++ 0#1 ++ 0#3 ++ 0#1 ++ 0#1 ++ 0#3)
      (.carveWrite c0 (.reg (.v 6))) = true ∧
    reads (0#2 ++ 0x212#10 ++ 531#10 ++ 6#10 ++ 0#10 ++ 0#10 ++ 0#3 ++ 0#1 ++ 0#3 ++ 0#1 ++ 0#1 ++ 0#3)
      (.sptrootWrite c0 (.reg (.v 6))) = true ∧
    reads (0#2 ++ 0x212#10 ++ 534#10 ++ 6#10 ++ 0#10 ++ 0#10 ++ 0#3 ++ 0#1 ++ 0#3 ++ 0#1 ++ 0#1 ++ 0#3)
      (.qfreeWrite c0 (.reg (.v 6))) = true ∧
    reads (0#2 ++ 0x212#10 ++ 545#10 ++ 6#10 ++ 0#10 ++ 0#10 ++ 0#3 ++ 0#1 ++ 0#3 ++ 0#1 ++ 0#1 ++ 0#3)
      (.bivsizeWrite c0 (.reg (.v 6))) = true ∧
    reads (0#2 ++ 0x212#10 ++ 546#10 ++ 6#10 ++ 0#10 ++ 0#10 ++ 0#3 ++ 0#1 ++ 0#3 ++ 0#1 ++ 0#1 ++ 0#3)
      (.tsctlWrite c0 (.reg (.v 6))) = true ∧
    reads (0#2 ++ 0x212#10 ++ 256#10 ++ 6#10 ++ 0#10 ++ 0#10 ++ 0#3 ++ 0#1 ++ 0#3 ++ 0#1 ++ 0#1 ++ 0#3)
      (.energyloWrite c0 (.reg (.v 6))) = true := by decide

theorem test_words_control_registers_2 :
    reads (0#2 ++ 0x212#10 ++ 257#10 ++ 6#10 ++ 0#10 ++ 0#10 ++ 0#3 ++ 0#1 ++ 0#3 ++ 0#1 ++ 0#1 ++ 0#3)
      (.energyhiWrite c0 (.reg (.v 6))) = true ∧
    reads (0#2 ++ 0x212#10 ++ 617#10 ++ 6#10 ++ 0#10 ++ 0#10 ++ 0#3 ++ 0#1 ++ 0#3 ++ 0#1 ++ 0#1 ++ 0#3)
      (.dbgctlWrite c0 (.reg (.v 6))) = true ∧
    reads (0x21203C0E00000000#64)
      (.tapecapWrite c0 (.reg (.v 14))) = true ∧
    reads (0#2 ++ 0x211#10 ++ 1#10 ++ 535#10 ++ 0#10 ++ 0#10 ++ 0#3 ++ 0#1 ++ 0#3 ++ 0#1 ++ 0#1 ++ 0#3)
      (.qtakeRead c0 (.v 1)) = true ∧
    reads (0#2 ++ 0x211#10 ++ 1#10 ++ 192#10 ++ 0#10 ++ 0#10 ++ 0#3 ++ 0#1 ++ 0#3 ++ 0#1 ++ 0#1 ++ 0#3)
      (.resid0Read c0 (.v 1)) = true ∧
    reads (0x3C00000000000000#64)
      (.eret c0) = true ∧
    reads (0x3C00000000000001#64)
      (.eretRegion c0) = true ∧
    reads (0#2 ++ 0x3C0#10 ++ 0#10 ++ 0#10 ++ 0#10 ++ 0#10 ++ 0#3 ++ 0#1 ++ 0#3 ++ 0#1 ++ 0#1 ++ 2#3)
      (.eretEpc c0) = true := by decide

/-! The cluster words. -/

theorem test_words_cluster_1 :
    reads (0x2810080000040001#64)
      (.qdecl c0 2 (.imm 0x40)) = true ∧
    reads (0x2801080855600000#64)
      (.mma c0 2 8 2 5 5 6 0) = true ∧
    reads (0x2801080855600008#64)
      (.mma { c0 with reuse := true } 2 8 2 5 5 6 0) = true ∧
    reads (0x2820280900003000#64)
      (.accrd c0 10 9 3 0) = true ∧
    reads (0x2830000000003000#64)
      (.acczero c0 3) = true ∧
    reads (0x2840D03800000004#64)
      (.accst c0 52 56 0 2) = true ∧
    reads (0#2 ++ 0x284#10 ++ 0#10 ++ 4#10 ++ 5#10 ++ 3#10 ++ 0#3 ++ 0#1 ++ 0#3 ++ 0#1 ++ 0#1 ++ 3#3)
      (.accstSh c0 (.v 4) (.v 5) 3 true) = true ∧
    reads (0#2 ++ 0x285#10 ++ 0#10 ++ 0#10 ++ 0#10 ++ 3#10 ++ 0#3 ++ 0#1 ++ 0#3 ++ 0#1 ++ 0#1 ++ 0#3)
      (.accwait c0 3) = true ∧
    reads (0x2860028400000002#64)
      (.lanttake c0 4 2) = true ∧
    reads (0x2870000000000000#64)
      (.lantpass c0) = true ∧
    reads (0x2870000000000001#64)
      (.lantpassRel c0) = true ∧
    reads (0x2880140201810000#64)
      (.ratom c0 (some 5) (.v 2) (.v 6) .add .f32 false false) = true ∧
    reads (0#2 ++ 0x289#10 ++ 0#10 ++ 640#10 ++ 6#10 ++ 16#10 ++ 0#3 ++ 0#1 ++ 0#3 ++ 0#1 ++ 0#1 ++ 1#3)
      (.rred c0 (.s 0) (.v 6) .add .f32 false true) = true ∧
    reads (0#2 ++ 0x28A#10 ++ 5#10 ++ 2#10 ++ 6#10 ++ 0#10 ++ 0#3 ++ 0#1 ++ 0#3 ++ 0#1 ++ 0#1 ++ 0#3)
      (.rcas c0 5 (.v 2) (.v 6) .w32 false false) = true := by decide

theorem test_words_cluster_2 :
    reads (0x3C10000000001001#64)
      (.svrecv c0 0 1 true) = true ∧
    reads (0#2 ++ 0x3C2#10 ++ 0#10 ++ 4#10 ++ 8#10 ++ 0#10 ++ 0#3 ++ 0#1 ++ 0#3 ++ 0#1 ++ 0#1 ++ 0#3)
      (.svreply c0 4 8) = true := by decide

/-! The die words. -/

theorem test_words_die_1 :
    reads (0#2 ++ 0x300#10 ++ 0#10 ++ 8#10 ++ 0#10 ++ 0#10 ++ 0#3 ++ 0#1 ++ 0#3 ++ 0#1 ++ 0#1 ++ 0#3)
      (.cpy c0 (.v 8)) = true ∧
    reads (0#2 ++ 0x301#10 ++ 1#10 ++ 2#10 ++ 0#10 ++ 0#10 ++ 0#3 ++ 0#1 ++ 0#3 ++ 0#1 ++ 0#1 ++ 0#3)
      (.cpyst c0 (.v 1) (.v 2)) = true ∧
    reads (0#2 ++ 0x302#10 ++ 0#10 ++ 2#10 ++ 0#10 ++ 0#10 ++ 0#3 ++ 0#1 ++ 0#3 ++ 0#1 ++ 0#1 ++ 0#3)
      (.cpysus c0 (.v 2)) = true ∧
    reads (0#2 ++ 0x303#10 ++ 0#10 ++ 2#10 ++ 0#10 ++ 0#10 ++ 0#3 ++ 0#1 ++ 0#3 ++ 0#1 ++ 0#1 ++ 0#3)
      (.cpyres c0 (.v 2)) = true ∧
    reads (0#2 ++ 0x304#10 ++ 1#10 ++ 16#10 ++ 0#10 ++ 3#10 ++ 0#3 ++ 0#1 ++ 0#3 ++ 0#1 ++ 0#1 ++ 0#3)
      (.gpost c0 (.v 1) (.v 16) 3) = true ∧
    reads (0#2 ++ 0x305#10 ++ 0#10 ++ 2#10 ++ 0#10 ++ 0#10 ++ 0#3 ++ 0#1 ++ 0#3 ++ 0#1 ++ 0#1 ++ 0#3)
      (.gwait c0 (.v 2)) = true ∧
    reads (0#2 ++ 0x306#10 ++ 1#10 ++ 640#10 ++ 0#10 ++ 3#10 ++ 0#3 ++ 0#1 ++ 0#3 ++ 0#1 ++ 0#1 ++ 0#3)
      (.launch c0 (.v 1) (.s 0) 3) = true ∧
    reads (0#2 ++ 0x307#10 ++ 0#10 ++ 2#10 ++ 0#10 ++ 0#10 ++ 0#3 ++ 0#1 ++ 0#3 ++ 0#1 ++ 0#1 ++ 0#3)
      (.lwait c0 (.v 2)) = true ∧
    reads (0#2 ++ 0x308#10 ++ 960#10 ++ 2#10 ++ 0#10 ++ 0#10 ++ 0#3 ++ 0#1 ++ 0#3 ++ 0#1 ++ 0#1 ++ 0#3)
      (.spawn c0 .none (.v 2) 0) = true ∧
    reads (0x3090000301800600#64)
      (.gainadd { c0 with pred := 3 } (.v 3) (.reg (.v 6)) false) = true ∧
    reads (0#2 ++ 0x30A#10 ++ 0#10 ++ 3#10 ++ 260096#20 ++ 0#3 ++ 0#1 ++ 0#3 ++ 0#1 ++ 0#1 ++ 3#3)
      (.gainset c0 (.v 3) (.imm 0x3F800) true) = true ∧
    reads (0x30B0068000000000#64)
      (.gainget c0 (.v 1) (.s 0) .gain false) = true ∧
    reads (0#2 ++ 0x30B#10 ++ 1#10 ++ 2#10 ++ 0#10 ++ 0#10 ++ 0#3 ++ 0#1 ++ 0#3 ++ 0#1 ++ 0#1 ++ 5#3)
      (.gainget c0 (.v 1) (.v 2) .state true) = true ∧
    reads (0x30C0000100000000#64)
      (.taskdone c0 (.reg (.v 1))) = true := by decide

theorem test_words_die_2 :
    reads (0#2 ++ 0x30D#10 ++ 0#10 ++ 0#10 ++ 0#10 ++ 0#10 ++ 0#3 ++ 0#1 ++ 0#3 ++ 0#1 ++ 0#1 ++ 0#3)
      (.dmodeFwd c0) = true ∧
    reads (0x30D0000000000001#64)
      (.dmodeRev c0) = true ∧
    reads (0#2 ++ 0x30E#10 ++ 1#10 ++ 0#10 ++ 0#10 ++ 0#10 ++ 0#3 ++ 0#1 ++ 0#3 ++ 0#1 ++ 0#1 ++ 0#3)
      (.tapemark c0 (.v 1)) = true ∧
    reads (0#2 ++ 0x30F#10 ++ 0#10 ++ 1#10 ++ 0#10 ++ 0#10 ++ 0#3 ++ 0#1 ++ 0#3 ++ 0#1 ++ 0#1 ++ 0#3)
      (.tapedrop c0 (.v 1)) = true ∧
    reads (0#2 ++ 0x310#10 ++ 5#10 ++ 4#10 ++ 1#4 ++ 6#4 ++ 0#12 ++ 0#3 ++ 0#1 ++ 0#3 ++ 0#1 ++ 0#1 ++ 0#3)
      (.adjld c0 { data := .v 5, base := .v 4, win := .sp, width := .f32, off := 0 }) = true ∧
    reads (0#2 ++ 0x311#10 ++ 0#10 ++ 4#10 ++ 1#4 ++ 6#4 ++ 0#12 ++ 0#3 ++ 0#1 ++ 0#3 ++ 0#1 ++ 0#1 ++ 0#3)
      (.adjclr c0 { data := .v 0, base := .v 4, win := .sp, width := .f32, off := 0 }) = true ∧
    reads (0#2 ++ 0x312#10 ++ 0#10 ++ 2#10 ++ 4#10 ++ 0#10 ++ 0#3 ++ 0#1 ++ 0#3 ++ 0#1 ++ 0#1 ++ 0#3)
      (.qpush c0 (.v 2) (.v 4)) = true ∧
    reads (0#2 ++ 0x313#10 ++ 4#10 ++ 2#10 ++ 0#10 ++ 1#10 ++ 0#3 ++ 0#1 ++ 0#3 ++ 0#1 ++ 0#1 ++ 0#3)
      (.qpop c0 4 (.v 2) 1) = true ∧
    reads (0#2 ++ 0x314#10 ++ 0#10 ++ 2#10 ++ 0#10 ++ 0#10 ++ 0#3 ++ 0#1 ++ 0#3 ++ 0#1 ++ 0#1 ++ 0#3)
      (.qclose c0 (.v 2)) = true ∧
    reads (0#2 ++ 0x315#10 ++ 1#10 ++ 0#10 ++ 0#10 ++ 0#10 ++ 0#3 ++ 0#1 ++ 0#3 ++ 0#1 ++ 0#1 ++ 1#3)
      (.residget c0 (.v 1) true) = true ∧
    reads (0#2 ++ 0x3C3#10 ++ 0#10 ++ 2#10 ++ 0#10 ++ 0#10 ++ 0#3 ++ 0#1 ++ 0#3 ++ 0#1 ++ 0#1 ++ 0#3)
      (.tlbinv c0 (.v 2)) = true ∧
    reads (0#2 ++ 0x3C3#10 ++ 0#10 ++ 0#10 ++ 0#10 ++ 0#10 ++ 0#3 ++ 0#1 ++ 0#3 ++ 0#1 ++ 0#1 ++ 1#3)
      (.tlbinvCtx c0) = true ∧
    reads (0#2 ++ 0x3C3#10 ++ 0#10 ++ 0#10 ++ 0#10 ++ 0#10 ++ 0#3 ++ 0#1 ++ 0#3 ++ 0#1 ++ 0#1 ++ 2#3)
      (.tlbinvAll c0) = true ∧
    reads (0#2 ++ 0x3C9#10 ++ 0#10 ++ 2#10 ++ 0#10 ++ 0#10 ++ 0#3 ++ 0#1 ++ 0#3 ++ 0#1 ++ 0#1 ++ 0#3)
      (.qwait c0 (.v 2)) = true := by decide

/-! The package words. -/

theorem test_words_package_1 :
    reads (0#2 ++ 0x380#10 ++ 0#10 ++ 640#10 ++ 0#10 ++ 1#10 ++ 0#3 ++ 0#1 ++ 0#3 ++ 0#1 ++ 0#1 ++ 0#3)
      (.lpush c0 (.s 0) 1) = true ∧
    reads (0#2 ++ 0x381#10 ++ 1#10 ++ 640#10 ++ 0#10 ++ 1#10 ++ 0#3 ++ 0#1 ++ 0#3 ++ 0#1 ++ 0#1 ++ 0#3)
      (.lsweep c0 (.v 1) (.s 0) 1) = true ∧
    reads (0#2 ++ 0x382#10 ++ 0#10 ++ 1#10 ++ 4660#20 ++ 0#3 ++ 0#1 ++ 0#3 ++ 0#1 ++ 0#1 ++ 0#3)
      (.trace c0 (.v 1) 0x1234) = true ∧
    reads (0#2 ++ 0x383#10 ++ 2#10 ++ 0#10 ++ 0#10 ++ 0#10 ++ 0#3 ++ 0#1 ++ 0#3 ++ 0#1 ++ 0#1 ++ 0#3)
      (.enrd c0 (.v 2)) = true ∧
    reads (0#2 ++ 0x383#10 ++ 642#10 ++ 0#10 ++ 0#10 ++ 0#10 ++ 0#3 ++ 0#1 ++ 0#3 ++ 0#1 ++ 0#1 ++ 1#3)
      (.enrdClr c0 (.s 2)) = true ∧
    reads (0#2 ++ 0x3C4#10 ++ 0#10 ++ 2#10 ++ 0#10 ++ 1#10 ++ 0#3 ++ 0#1 ++ 0#3 ++ 0#1 ++ 0#1 ++ 0#3)
      (.ckmark c0 (.v 2) 1) = true ∧
    reads (0#2 ++ 0x3C5#10 ++ 1#10 ++ 2#10 ++ 3#10 ++ 0#10 ++ 0#3 ++ 0#1 ++ 0#3 ++ 0#1 ++ 0#1 ++ 0#3)
      (.preempt c0 (.v 1) (.v 2) (.v 3)) = true ∧
    reads (0#2 ++ 0x3C6#10 ++ 0#10 ++ 2#10 ++ 0#10 ++ 0#10 ++ 0#3 ++ 0#1 ++ 0#3 ++ 0#1 ++ 0#1 ++ 0#3)
      (.halt c0 (.v 2)) = true ∧
    reads (0#2 ++ 0x3C6#10 ++ 0#10 ++ 2#10 ++ 0#10 ++ 0#10 ++ 0#3 ++ 0#1 ++ 0#3 ++ 0#1 ++ 0#1 ++ 1#3)
      (.haltKeep c0 (.v 2)) = true ∧
    reads (0#2 ++ 0x3C7#10 ++ 3#10 ++ 8#10 ++ 0#10 ++ 0#10 ++ 0#3 ++ 0#1 ++ 0#3 ++ 0#1 ++ 0#1 ++ 0#3)
      (.wpset c0 3 8) = true ∧
    reads (0#2 ++ 0x3C8#10 ++ 0#10 ++ 2#10 ++ 0#10 ++ 0#10 ++ 0#3 ++ 0#1 ++ 0#3 ++ 0#1 ++ 0#1 ++ 0#3)
      (.keysetPlain c0 (.v 2)) = true ∧
    reads (0#2 ++ 0x3C8#10 ++ 0#10 ++ 2#10 ++ 8#10 ++ 0#10 ++ 0#3 ++ 0#1 ++ 0#3 ++ 0#1 ++ 0#1 ++ 1#3)
      (.keysetLoad c0 (.v 2) 8) = true ∧
    reads (0#2 ++ 0x3C8#10 ++ 0#10 ++ 2#10 ++ 0#10 ++ 0#10 ++ 0#3 ++ 0#1 ++ 0#3 ++ 0#1 ++ 0#1 ++ 2#3)
      (.keysetGen c0 (.v 2)) = true ∧
    reads (0#2 ++ 0x022#10 ++ 0#10 ++ 0#10 ++ 0#10 ++ 0#10 ++ 0#3 ++ 0#1 ++ 0#3 ++ 0#1 ++ 0#1 ++ 0#3)
      (.unassignedOpcodeWord (0x022#12 ++ 0#52)) = true := by decide

theorem test_words_package_2 :
    reads (0xC000000000000002#64)
      (.unassignedOpcodeWord 0xC000000000000002#64) = true := by decide

/-! ## States for the tests

`base` is the machine of a placed word (log 22): one thread of one block, in triple mode, on core 0 of die 0, past the header
of a clause of one word whose flags A and B are c0 and c1. -/

/-- The machine with the changes given, its one group about to issue. -/
def st (ft : Thread → Thread) (fw : Warp → Warp) (fb : Block → Block) (fg : Grid → Grid) : State :=
  let s := State.reset.loadWord 0
  { s with
    warps := s.warps.map fun w => fw { w with threads := w.threads.map ft }
    blocks := s.blocks.map fb
    grids := s.grids.map fg
    cur := some { wid := 3, thrs := [0], pc := nextPc loadPc } }

def base : State := st id id id id

/-- The machine with changes of its thread alone. -/
def stT (ft : Thread → Thread) : State := st ft id id id

/-- The thread with values in some vector registers. -/
def vs (l : List (Nat × Triple)) (t : Thread) : Thread := { t with v := l.foldl (fun v x => setAt v x.1 x.2) t.v }

/-- The machine with words in vector registers, the same in every sibling. -/
def stV (l : List (Nat × Word)) : State := stT (vs (l.map fun x => (x.1, .all x.2)))

/-- In the supervisor view. -/
def sup (t : Thread) : Thread := { t with super := true }

/-- Four threads at the word, all in the group. -/
def four (s : State) : State :=
  { s with
    warps := s.warps.map fun w => { w with threads := (w.threads.map fun t =>
      (List.range 4).map fun i => { t with idx := i }).flatten }
    cur := some { wid := 3, thrs := [0, 1, 2, 3], pc := nextPc loadPc } }

/-- What the group that issues sees. -/
def env (s : State) (h : s.env.isSome = true) : Env := s.env.get h

/-- The conditions of `Env.Newest`, tested. -/
def newestB (s : State) (e : Env) (o : Opd) : Bool :=
  match o with
  | .g n =>
    (e.b.gLast.all fun y => decide (y.1 = n → y.2.1 = s.now → y.2.2 ≤ e.w.key)) &&
      e.b.gflight.all fun y => decide (y.rank = e.w.rank → y.reg = n → y.since = s.now → y.key ≤ e.w.key)
  | _ => true

/-- Every condition of `Normal`, tested. -/
def normalB (s : State) (e : Env) (f : Form) (h : State → Env → Thread → Option Hold) : Bool :=
  decide (s.env = some e) && (!f.priv || e.group.all fun t => t.super) &&
    (!f.last || e.group.all fun t => decide (t.cl.pos = t.cl.count)) &&
    (!f.long || e.group.all fun t => t.cl.flagValid f.c.fsel) && (e.group.all fun t => (f.bad e t).isNone) &&
    ((f.src ++ f.dst).all fun o => !e.w.beyond o) && (e.group.all fun t => (e.hold s f h t).isNone) &&
    ((e.parts f.c).all fun t => !f.poisoned t) && (e.group.all fun t => !s.breaks e t) &&
    !e.w.step && (e.group.all fun t => t.due.isEmpty) && decide (e.w.threads.map fun t => t.idx).Nodup &&
    (e.w.threads.all fun t => decide (t.v.length = e.w.vregs)) && (e.w.threads.all fun t => decide (t.p.length = 8)) &&
    decide (e.w.flags.length = 12) && decide (e.w.k.length = 12) && (e.w.threads.all fun t => decide (t.rs.length ≤ 4)) &&
    decide e.w.spill.wf && decide (e.b.g.length = 64) && (e.b.greps.all fun x => decide (x.2.length = 64)) &&
    decide e.b.shared.wf && (e.w.pend.all fun p => decide (p.id < s.uid)) && decide (s.turn e f ≤ s.now) &&
    f.dst.all (newestB s e)

theorem normal_of {s : State} {e : Env} {f : Form} {h : State → Env → Thread → Option Hold}
    (t : normalB s e f h = true) : Normal s e f h := by
  simp only [normalB, Bool.and_eq_true, List.all_eq_true, decide_eq_true_eq, Bool.or_eq_true, Bool.not_eq_true',
    Option.isNone_iff_eq_none, List.isEmpty_iff] at t
  obtain ⟨⟨⟨⟨⟨⟨⟨⟨⟨⟨⟨⟨⟨⟨⟨⟨⟨⟨⟨⟨⟨⟨⟨hs, hv⟩, hl⟩, hf⟩, hb⟩, hr⟩, hh⟩, hp⟩, hk⟩, h1⟩, h2⟩, h3⟩, h4⟩, h5⟩, h6⟩, h7⟩, h8⟩, h9⟩, h10⟩, h11⟩,
    h12⟩, h13⟩, hc⟩, hn⟩ := t
  exact
    { runs :=
        { group := hs
          view := fun p => hv.resolve_left (by simp [p])
          last := fun p => hl.resolve_left (by simp [p])
          flag := fun p => hf.resolve_left (by simp [p])
          fields := hb
          bounds := hr
          room := hh
          clean := hp
          unbroken := hk
          cycle := hc }
      calm := { step := h1, due := h2 }
      warp := { distinct := h3, vregs := h4, preds := h5, flags := h6, masks := h7, stack := h8, spill := h9 }
      block := { gregs := h10, reps := h11, shared := h12 }
      ids := h13
      newest := fun n hn1 => by
        have h := hn _ hn1
        simp only [newestB, Bool.and_eq_true, List.all_eq_true, decide_eq_true_eq] at h
        exact ⟨h.1, h.2⟩ }

/-! ## What the hypotheses of the statements ask can be had

One theorem for each statement, or for each of its clauses: a state and operands that meet all its hypotheses together. -/

theorem issues {s : State} {f : Form} {h : State → Env → Thread → Option Hold} (hs : s.env.isSome = true)
    (t : normalB s (env s hs) f h = true) : ∃ e, Normal s e f h := ⟨_, normal_of t⟩

theorem issues_with {s : State} {f : Form} {h : State → Env → Thread → Option Hold} {P : Env → Prop}
    (hs : s.env.isSome = true) (t : normalB s (env s hs) f h = true) (p : P (env s hs)) : ∃ e, Normal s e f h ∧ P e :=
  ⟨_, normal_of t, p⟩

theorem meets_plain_words_compute : IntRule (.iadd c0 (.v 7) (.v 2) (.reg (.v 3)) false) c0 (.v 7) [.v 2, .v 3]
      (once (.v 2) .sign (.reg (.v 3)) fun x y => if false then nearestI32 (x.toInt + y.toInt) else x + y) ∧
    ∃ e, Normal (four base) e (Form.short c0 [.v 2, .v 3] [.v 7]) noHold :=
  ⟨.iadd .., issues (by decide) (by decide)⟩

theorem meets_add_with_carry : ∃ e, Normal (four base) e (Form.short c0 [.v 2, .v 3] [.v 7]) noHold :=
  issues (by decide) (by decide)

theorem meets_float_words_compute : ∃ e, Normal (four base) e (floatForm c0 (.v 7) [.v 2, .v 3] true) noHold :=
  issues (by decide) (by decide)

theorem meets_tests_write_predicates : (∃ x, TestRule (.fcmp c0 2 .lt (.v 5) (.reg (.v 6))) (Form.fp c0 [.v 5, .v 6] []) 2 x) ∧
    ∃ e, Normal (four base) e (Form.fp c0 [.v 5, .v 6] []) noHold := ⟨⟨_, .fcmp ..⟩, issues (by decide) (by decide)⟩

theorem meets_status_words : (∃ e, Normal (four base) e (Form.short c0 [] [.v 7]) noHold) ∧
    ∃ e, Normal (four base) e (Form.short c0 [] []) noHold := ⟨issues (by decide) (by decide), issues (by decide) (by decide)⟩

theorem meets_unpack_two_elements : ∃ e, Normal base e (Form.short c0 [.v 2] [.v 8, .v (8 + 1)]) noHold :=
  issues (by decide) (by decide)

theorem meets_load_literal : (∃ e, Normal (four base) e (Form.short c0 [] [.v 7]) noHold) ∧
    ∃ e, Normal (four base) e (Form.short c0 [.v 2] [.v 7]) noHold :=
  ⟨issues (by decide) (by decide), issues (by decide) (by decide)⟩

/-- Half 1 adds v2 to v1 and half 2 multiplies v4 by v3. -/
theorem meets_paired_word : ∃ e, Normal (four base) e
    (pairForm { op := .iadd, d := 1, a := 2, pred := 0, neg := false }
      { op := .fmul, d := 4, a := 3, pred := 0, neg := false }) noHold := issues (by decide) (by decide)

theorem meets_long_latency_floats_issue :
    LongRule (.fdiv c0 (.v 7) (.v 2) (.v 3)) c0 (.v 7) .div (.v 2) (some (.v 3)) ∧
    ∃ e, Normal (four base) e { Form.longLat c0 (.v 2 :: (some (Opd.v 3)).toList) [.v 7] with lanes := 3 } noHold ∧
      e.parts c0 ≠ [] := ⟨.fdiv .., issues_with (by decide) (by decide) (by decide)⟩

theorem meets_jumps_reach_their_targets :
    (∃ e, Normal (four base) e { Form.short c0 [] [] with last := true } noHold) ∧
    ∃ e, Normal (four base) e { Form.short c0 [.v 2] [] with last := true } holdTransfer :=
  ⟨issues (by decide) (by decide), issues (by decide) (by decide)⟩

theorem meets_calls_and_returns :
    (∃ e, Normal (four base) e { Form.short c0 [] [] with last := true } holdTransfer) ∧
    ∃ e, Normal (four base) e { Form.short c0 [.v 2] [] with last := true } holdTransfer :=
  ⟨issues (by decide) (by decide), issues (by decide) (by decide)⟩

theorem meets_exit_nop_yield :
    (∃ e, Normal (four base) e { Form.short c0 [] [] with last := true } (holdExit c0)) ∧
    ∃ e, Normal (four base) e (Form.short c0 [] []) noHold ∧ e.parts c0 ≠ [] :=
  ⟨issues (by decide) (by decide), issues_with (by decide) (by decide) (by decide)⟩

theorem meets_software_traps_are_taken : ∃ e, Normal (four base) e (Form.short c0 [] []) noHold :=
  issues (by decide) (by decide)

/-- What a handler returns to. -/
def saved : HandlerSave :=
  { pc := 0x100010
    cl := Clause.none
    c := 9
    regionPc := 0x100000
    shC := 9
    shIstat := 1
    due := [] }

/-- A thread in its user handler. -/
def handling : State := stT fun t => { t with inHandler := some saved }

theorem meets_tret_leaves_the_handler : ∃ e, Normal handling e
      { Form.short c0 [] [] with
        last := true
        bad := fun _ t => if t.inHandler.isSome then none else some (0, 1, false) } holdTransfer ∧
    ∀ t ∈ e.group, ∀ h ∈ t.inHandler, h.due = [] := issues_with (by decide) (by decide) (by decide)

/-- A thread in the runtime, entered at a trap of the word. -/
def inRuntime : State := stT fun t =>
  { t with
    super := true
    runtime := some
      { pc := 0x100010
        cl := Clause.none
        due := [] } }

theorem meets_eret_returns : ∃ e, Normal inRuntime e (eretForm c0) noHold ∧ ∀ t ∈ e.group, ∀ r ∈ t.runtime, r.due = [] :=
  issues_with (by decide) (by decide) (by decide)

theorem meets_vote_words : (∃ e, Normal (four base) e (Form.short c0 [] []) noHold) ∧
    ∃ e, Normal (four base) e (Form.short c0 [] [.s 3]) noHold := ⟨issues (by decide) (by decide), issues (by decide) (by decide)⟩

theorem meets_masks_and_flags : (∃ e, Normal (four base) e (Form.short c0 [] []) noHold ∧
      e.w.flags.getD 4 0 + (63 : BitVec 6).toNat ≤ 63 ∧ e.parts c0 ≠ []) ∧
    ∃ e, Normal (four base) e (Form.short c0 [.s 3] []) noHold ∧ ∃ t, (e.parts c0).head? = some t :=
  ⟨issues_with (by decide) (by decide) (by decide), issues_with (by decide) (by decide) ⟨_, rfl⟩⟩

/-- An outstanding instruction of the thread whose results stand for v7 and v8. -/
def standing : Pend :=
  { id := 0
    flag := 1
    wait := .ready
    parts := [{ thr := 0, reg := 7, val := .all 5 }, { thr := 0, reg := 8, val := .all 6 }]
    written := [(0, 8)]
    sparts := []
    preds := []
    thrs := [0]
    epoch := none
    sample := none }

def outstanding : State := st id (fun w => { w with pend := [standing], flags := setAt w.flags 1 1 }) id id

theorem meets_long_latency_completes : ∃ w b, outstanding.warp? 3 = some w ∧ w.saved = false ∧
    (w.pend.find? fun q => q.id = 0) = some standing ∧ standing.wait = .ready ∧ outstanding.block? w.bid = some b ∧
    standing.sample = none ∧ standing.poisoned = false := ⟨_, _, rfl, rfl, rfl, rfl, rfl, rfl, rfl⟩

theorem meets_exchanges_and_reductions :
    (∃ e, Normal (four base) e (Form.short c0 [.v 2, .v 3] [.v 7]) noHold) ∧
    (∃ e, Normal (four base) e (bflyForm c0 8 3 2) noHold) ∧
    ∃ e, Normal (four base) e (floatForm c0 (.v 7) [.v 2] true) noHold ∧ ∃ t, (e.parts c0).head? = some t :=
  ⟨issues (by decide) (by decide), issues (by decide) (by decide), issues_with (by decide) (by decide) ⟨_, rfl⟩⟩

theorem meets_gcall_sends_its_record : ∃ e, Normal (four base) e (Form.longLat c0 (vrun 8 8) []) (holdGcall c0) ∧
    e.parts c0 ≠ [] := issues_with (by decide) (by decide) (by decide)

/-- The package has signed its last report. -/
theorem meets_gcall_after_the_last_report :
    let s := { four base with pkg := { (four base).pkg with leaf := 2 ^ 20 } }
    ∃ e, Normal s e (Form.longLat c0 (vrun 8 8) []) (holdGcall c0) ∧
      (e.parts c0 ≠ [] ∧ 2 ^ 20 ≤ s.pkg.leaf ∧ e.w.saved = false ∧ ∀ p ∈ e.w.pend, p.wait ≠ .gcall) :=
  issues_with (by decide) (by decide) (by decide)

/-- A function that has cluster 0 of die 0 and the contexts 1 to 15, and its port to the companion. -/
def func : Func :=
  { num := 0
    cfg :=
      { clusters := [(0, 0)]
        tagLo := 1
        tagHi := 15
        ports := [(2, 0)]
        service := { bytes := [], signature := [], load := 0 }
        entry := none }
    started := true
    fenced := false
    chain := 0 }

def port : Port := { port := 2, fn := 0, neighbour := 0, fenced := false, retries := 0 }

/-- The warp has a call outstanding to the host, its record waiting for the ring. -/
def calling (route : Option DWord) : State :=
  let s := st id (fun w =>
    { w with
      gcall := some { thrs := [0], consumed := [], words := none, route := route }
      pend := [{ standing with parts := [], wait := .gcall }] }) id id
  { s with pkg :=
      { s.pkg with
        ringWait := if route = none then [(3, [1, 2, 3])] else []
        funcs := [func]
        ports := [port] } }

theorem meets_gret : ∃ e, Normal (calling (some 7)) e (Form.short c0 [] [.v 7]) noHold := issues (by decide) (by decide)

theorem meets_gcall_reply : ∃ w, ((calling (some 7)).warps.find? fun w => w.awaits 7) = some w ∧
    (calling (some 7)).warp? w.wid = some w ∧ w.saved = false ∧ (w.pend.filter fun p => p.wait = .gcall).length = 1 :=
  ⟨_, rfl, rfl, rfl, rfl⟩

theorem meets_gcall_reply_discarded : ∀ w ∈ (calling (some 7)).warps, w.awaits 8 = false := by decide

theorem meets_ring_entry : (calling none).nextCall = some (3, [1, 2, 3]) ∧ ([1, 2, 3] : List Byte).length ≤ 1016 ∧
    base.nextCall = none := by decide

/-- What placing leaves true of a warp. -/
theorem sound_four : (env (four base) (by decide)).w.Sound :=
  (normal_of (s := four base) (f := Form.short c0 [] []) (h := noHold) (by decide)).warp

/-- A transfer to an address in a register beyond the allocation. -/
theorem meets_checks_before_issue :
    let f : Form := { Form.short c0 [.v 500] [] with last := true }
    ∃ body e, (∀ s, exec (.jmp c0 (.v 500)) s = .next (issue f holdTransfer body s)) ∧ (four base).env = some e ∧
      e.w.Sound ∧ ∃ t ∈ e.group, firstBreach f e t ≠ none :=
  ⟨_, env (four base) (by decide), fun _ => rfl, by decide, sound_four, by decide⟩

theorem meets_unassigned_opcode : ∃ e, (four base).env = some e ∧ e.w.Sound ∧ e.group ≠ [] ∧
    ((0x3FF0000000000000 : DWord) >>> 62).toNat ≠ 1 ∧ ((0xC000000000000001 : DWord) >>> 62).toNat ≠ 1 :=
  ⟨env (four base) (by decide), by decide, sound_four, by decide⟩

/-- Codes at the ends of the user's ranges, with a handler and without. -/
theorem meets_taking_a_trap : (userCode 7 false ∧ userCode 13 true ∧ userCode 18 true ∧ userCode 15 false ∧
      ¬userCode 15 true ∧ ¬userCode 6 false ∧ ¬userCode 14 false) ∧
    (∃ t : Thread, t.inHandler = none ∧ t.handler ≠ 0) ∧ ∃ t : Thread, ¬(t.inHandler = none ∧ t.handler ≠ 0) :=
  ⟨by simp [userCode], ⟨{ loadThread with handler := 0x100020 }, by decide⟩, loadThread, by decide⟩

theorem meets_an_issue_counts_and_advances : ∃ e, Normal (four base) e (Form.fp c0 [.v 2] [.v 7]) noHold :=
  issues (by decide) (by decide)

/-! The issue logic. -/

/-- The warp as the scheduler finds it, beside `n` copies of it as members of its issue slot's active set, in a launch of
class 0; its own launch is of class `prio`. -/
def crowd (n prio : Nat) (active : Bool) : State :=
  let s := st id (fun w => { w with active := active, slot := 64 }) id fun g => { g with lr := { g.lr with prio := prio } }
  { s with
    warps := s.warps ++ (s.warps.map fun w => (List.range n).map fun i =>
      { w with
        wid := 10 + i
        bid := 9
        slot := 8 * i
        placed := i
        active := true }).flatten
    grids := s.grids ++ s.grids.map fun g => { g with gid := 8, lr := { g.lr with prio := 0 } }
    blocks := s.blocks ++ s.blocks.map fun b => { b with bid := 9, gid := 8 } }

/-- A thread parked for a sector that nothing holds back. -/
def parked : State := stT fun t => { t with st := .parked, wait := some (.fetch [4]) }

/-- A member that waits since cycle 0, beside a ready warp outside the set, at cycle 16. -/
def idle : State :=
  let s := crowd 1 0 false
  { s with
    now := 16
    warps := s.warps.map fun w => if w.wid = 10 then
        { w with
          threads := w.threads.map fun t => { t with st := .waiting, wait := some (.mask 0) }
          idleSince := some 0 }
      else w }

theorem meets_line_arrival : ∃ w t, parked.warp? 3 = some w ∧ parked.thread? 3 0 = some t ∧ t.st = .parked ∧
    t.wait = some (.fetch [4]) ∧ w.saved = false ∧
    parked.blockedLines w.die w.ownHeld ([4].map fun x => x * 32) = [] := ⟨_, _, rfl, rfl, rfl, rfl, rfl, by decide⟩

/-- Seven members leave room for one more, eight do not. -/
theorem meets_active_set_entry : ∃ w, (crowd 7 0 false).warp? 3 = some w ∧ w.inSlot = true ∧
    ((crowd 7 0 false).members w).length < 8 ∧ ((crowd 7 0 false).nextIn w).map (fun x => x.wid) = some 3 :=
  ⟨_, rfl, by decide, by decide, by decide⟩

theorem meets_active_set_idle_leave : ∃ w, idle.warp? 10 = some w ∧ idle.mayLeave w = true := ⟨_, rfl, by decide⟩

theorem meets_active_set_displace : ∃ w v, (crowd 8 3 false).warp? 3 = some w ∧ (crowd 8 3 false).displaces w = some v ∧
    v.wid ≠ 3 ∧ (crowd 8 3 false).warp? v.wid = some v := ⟨_, _, rfl, rfl, by decide, by decide⟩

/-! Memory. -/

/-- A thread of context 000h with 2 KiB of block shared memory on `cores`, and scratchpad pages of 2 MiB as given: index of
the level-1 entry and entry. -/
def scr (cores : List Nat) (pages : List (Nat × Nat)) (ft : Thread → Thread) : State :=
  let s := st (fun t => ft { t with owner := 0, tapecap := 2 }) id
    (fun b => { b with shBytes := 2048, cores := cores }) fun g =>
      { g with tag := 0, lr := { g.lr with tapeBase := 0x200000, tapeStride := 64, spillK := 1 } }
  { s with mem := pages.foldl (fun m x => m.writeNat (2 ^ 42 + 8 * x.1) 8 x.2) s.mem }

/-- A leaf of 2 MiB: storage mode, D, WR, physical address. -/
def leaf (mode : Nat) (d wr : Bool) (pa : Nat) : Nat :=
  2 ^ 63 + 2 ^ 62 + mode * 2 ^ 60 + (if d then 2 ^ 59 else 0) + (if wr then 2 ^ 58 else 0) + pa

/-- A page of elements, its adjoint shadow, and a page of tapes. -/
def pages (mode : Nat) (d : Bool) : List (Nat × Nat) :=
  [(0, leaf mode d true 0x200000), (1, leaf 0 false true 0x600000), (2048, leaf mode false true 0x400000)]

/-- An F32 at the address in v2 of a window, to or from v5. -/
def word (w : Win) : MemWord := { data := .v 5, base := .v 2, win := w, width := .f32, off := 0 }

def okB {ε α : Type} (q : α → Bool) (r : Except ε α) : Bool :=
  match r with
  | .ok p => q p
  | .error _ => false

def oneB (q : Thread → Bool) (l : List Thread) : Bool :=
  match l with
  | [t] => q t
  | _ => false

theorem ok_of {α : Type} {q : α → Bool} {r : Except Fail α} (h : okB q r = true) : ∃ p, r = .ok p ∧ q p = true := by
  cases r with
  | error f => simp [okB] at h
  | ok p => exact ⟨p, rfl, h⟩

theorem one_of {q : Thread → Bool} {l : List Thread} (h : oneB q l = true) : ∃ t, l = [t] ∧ q t = true := by
  match l with
  | [] => simp [oneB] at h
  | [t] => exact ⟨t, rfl, h⟩
  | _ :: _ :: _ => simp [oneB] at h

theorem issues_one {s : State} {f : Form} {h : State → Env → Thread → Option Hold} {c : Ctl} {q : Env → Thread → Bool}
    (hs : s.env.isSome = true) (n : normalB s (env s hs) f h = true)
    (k : oneB (q (env s hs)) ((env s hs).parts c) = true) :
    ∃ e t, Normal s e f h ∧ e.parts c = [t] ∧ q e t = true := by
  obtain ⟨t, ht, hq⟩ := one_of k
  exact ⟨_, t, normal_of n, ht, hq⟩

theorem loads_of {s : State} {x : LoadSpec} {q : Env → Thread → Plan → Bool} (hs : s.env.isSome = true)
    (n : normalB s (env s hs) x.form x.hold = true)
    (k : oneB (fun t => okB (fun p => q (env s hs) t p && t.split.isNone && decide (s.pkg.latent = []))
      (x.plan (env s hs) s t)) ((env s hs).parts x.c) = true) :
    ∃ e t p, Normal s e x.form x.hold ∧ LoadsOne s e x t p ∧ q e t p = true := by
  obtain ⟨t, ht, k⟩ := one_of k
  obtain ⟨p, hp, k⟩ := ok_of k
  simp only [Bool.and_eq_true, Option.isNone_iff_eq_none, decide_eq_true_eq] at k
  exact ⟨_, t, p, normal_of n, { parts := ht, plan := hp, first := k.1.2, latent := k.2 }, k.1.1⟩

/-- The condition of `Unawaited`, tested. -/
def unawaitedB (s : State) (bid : Nat) : Bool :=
  s.warps.all fun w => decide (w.bid ≠ bid) || w.threads.all fun t =>
    match t.wait with
    | some (.barrier _ _ _ _) => false
    | _ => true

theorem unawaited_of {s : State} {bid : Nat} (h : unawaitedB s bid = true) : Unawaited s bid := by
  intro w hw hb t ht off target since seen he
  simp only [unawaitedB, List.all_eq_true, Bool.or_eq_true, decide_eq_true_eq] at h
  have h1 := (h w hw).resolve_left (fun hn => hn hb) t ht
  simp [he] at h1

theorem stores_of {s : State} {x : StoreSpec} {h : State → Env → Thread → Option Hold} {q : Env → Plan → Bool}
    (hs : s.env.isSome = true) (n : normalB s (env s hs) x.form h = true)
    (k : oneB (fun t => okB (fun p => q (env s hs) p && decide (s.pkg.latent = []) &&
      decide ((s.die (env s hs).w.die).trctl.extractLsb' 4 4 = 0) && unawaitedB s (env s hs).b.bid) (s.plan (env s hs) t (x.acc (env s hs) s t)))
      ((env s hs).parts x.c) = true) :
    ∃ e t p, Normal s e x.form h ∧ StoresOne s e x t p ∧ q e p = true := by
  obtain ⟨t, ht, k⟩ := one_of k
  obtain ⟨p, hp, k⟩ := ok_of k
  simp only [Bool.and_eq_true, decide_eq_true_eq] at k
  exact ⟨_, t, p, normal_of n,
    { parts := ht, plan := hp, latent := k.1.1.2, still := k.1.2, unawaited := fun _ => unawaited_of k.2 }, k.1.1.1⟩

def ldF32 (w : Win) : LoadSpec := { c := c0, m := word w, kind := .elem .f32, split := true }

def stF32 (w : Win) : StoreSpec := { c := c0, m := word w, kind := .elem .f32 }

/-- The access is one of block shared memory that another core holds. -/
def away (e : Env) (l : Loc) : Bool := decide (l.store = .shared) && decide (e.b.rankOf (l.bytes.headD 0) ≠ e.w.rank)

/-- The last element of the own portion, and the first of the other core's. -/
theorem meets_load_at_home : ∃ e t p, Normal (scr [0, 1] [] (vs [(2, .all 1020)])) e (ldF32 .sh).form (ldF32 .sh).hold ∧
    LoadsOne (scr [0, 1] [] (vs [(2, .all 1020)])) e (ldF32 .sh) t p ∧
    (!p.accumulates (ldF32 .sh).kind && !away e (p.target (ldF32 .sh).kind)) = true :=
  loads_of (q := fun e _ p => !p.accumulates (ldF32 .sh).kind && !away e (p.target (ldF32 .sh).kind)) (by decide) (by decide)
    (by decide)

theorem meets_load_carried_away : ∃ e t p, Normal (scr [0, 1] [] (vs [(2, .all 1024)])) e (ldF32 .sh).form (ldF32 .sh).hold ∧
    LoadsOne (scr [0, 1] [] (vs [(2, .all 1024)])) e (ldF32 .sh) t p ∧
    (!p.accumulates (ldF32 .sh).kind && (away e (p.target (ldF32 .sh).kind) && decide (t.owner = e.g.tag))) = true :=
  loads_of (q := fun e t p => !p.accumulates (ldF32 .sh).kind &&
    (away e (p.target (ldF32 .sh).kind) && decide (t.owner = e.g.tag))) (by decide) (by decide) (by decide)

theorem meets_load_from_scratchpad : ∃ e t p,
    Normal (scr [0] (pages 1 false) (vs [(2, .all 0xFFFC)])) e (ldF32 .sp).form (ldF32 .sp).hold ∧
    LoadsOne (scr [0] (pages 1 false) (vs [(2, .all 0xFFFC)])) e (ldF32 .sp) t p ∧
    (!p.accumulates (ldF32 .sp).kind && decide ((p.target (ldF32 .sp).kind).store = .phys)) = true :=
  loads_of (q := fun _ _ p => !p.accumulates (ldF32 .sp).kind && decide ((p.target (ldF32 .sp).kind).store = .phys))
    (by decide) (by decide) (by decide)

/-- A thread in reverse mode with one record on its tape, of the element at 40h. -/
def reversing : State :=
  let s := scr [0] (pages 0 true) fun t => vs [(2, .all 0x40), (5, .all 0x3F800000)] { t with rev := true, tapepos := 1 }
  { s with mem := (s.mem.writeNat (2 ^ 42 + 0x600000) 8 (0x40 + 2 ^ 32)).writeNat (2 ^ 42 + 0x600008) 4 0x40000000 }

theorem meets_load_in_reverse : ∃ e t p, Normal reversing e (ldF32 .sp).form (ldF32 .sp).hold ∧
    LoadsOne reversing e (ldF32 .sp) t p ∧ (p.accumulates (ldF32 .sp).kind && p.adj.isSome) = true :=
  loads_of (q := fun _ _ p => p.accumulates (ldF32 .sp).kind && p.adj.isSome) (by decide) (by decide) (by decide)

/-- Stores to a page, to the two portions, to a D page forward and in reverse, and `adjclr`. -/
theorem meets_store_plain : ∃ e t p,
    Normal (scr [0] (pages 2 false) (vs [(2, .all 0x40)])) e (stF32 .sp).form (stF32 .sp).hold ∧
    StoresOne (scr [0] (pages 2 false) (vs [(2, .all 0x40)])) e (stF32 .sp) t p ∧
    (!(stF32 .sp).badDest p && p.tape.isNone && !away e p.loc) = true :=
  stores_of (q := fun e p => !(stF32 .sp).badDest p && p.tape.isNone && !away e p.loc) (by decide) (by decide) (by decide)

theorem meets_store_at_home : ∃ e t p,
    Normal (scr [0, 1] [] (vs [(2, .all 1020)])) e (stF32 .sh).form (stF32 .sh).hold ∧
    StoresOne (scr [0, 1] [] (vs [(2, .all 1020)])) e (stF32 .sh) t p ∧
    (!(stF32 .sh).badDest p && p.tape.isNone && !away e p.loc) = true :=
  stores_of (q := fun e p => !(stF32 .sh).badDest p && p.tape.isNone && !away e p.loc) (by decide) (by decide) (by decide)

theorem meets_store_carried_away : ∃ e t p,
    Normal (scr [0, 1] [] (vs [(2, .all 1024)])) e (stF32 .sh).form (stF32 .sh).hold ∧
    StoresOne (scr [0, 1] [] (vs [(2, .all 1024)])) e (stF32 .sh) t p ∧
    (!(stF32 .sh).badDest p && p.tape.isNone && away e p.loc) = true :=
  stores_of (q := fun e p => !(stF32 .sh).badDest p && p.tape.isNone && away e p.loc) (by decide) (by decide) (by decide)

theorem meets_store_forward : ∃ e t p,
    Normal (scr [0] (pages 0 true) (vs [(2, .all 0x40)])) e (stF32 .sp).form (stF32 .sp).hold ∧
    StoresOne (scr [0] (pages 0 true) (vs [(2, .all 0x40)])) e (stF32 .sp) t p ∧
    (!(stF32 .sp).badDest p && p.tape.isSome && p.adj.isNone) = true :=
  stores_of (q := fun _ p => !(stF32 .sp).badDest p && p.tape.isSome && p.adj.isNone) (by decide) (by decide) (by decide)

theorem meets_store_in_reverse : ∃ e t p, Normal reversing e (stF32 .sp).form (stF32 .sp).hold ∧
    StoresOne reversing e (stF32 .sp) t p ∧ (!(stF32 .sp).badDest p && p.tape.isSome && p.adj.isSome) = true :=
  stores_of (q := fun _ p => !(stF32 .sp).badDest p && p.tape.isSome && p.adj.isSome) (by decide) (by decide) (by decide)

def clear : StoreSpec := { c := c0, m := { word .sp with data := .sp .zero }, kind := .cell }

theorem meets_adjoint_clear : ∃ e t p, Normal (scr [0] (pages 1 true) (vs [(2, .all 0x40)])) e clear.form clear.hold ∧
    StoresOne (scr [0] (pages 1 true) (vs [(2, .all 0x40)])) e clear t p ∧ (!clear.badDest p && p.adj.isSome) = true :=
  stores_of (q := fun _ p => !clear.badDest p && p.adj.isSome) (by decide) (by decide) (by decide)

theorem meets_what_memory_words_leave :
    (∃ e, Runs (four (scr [0] (pages 1 true) (vs [(2, .all 0x40)]))) e (stF32 .sp).form (stF32 .sp).hold) ∧
    (∃ e, Normal (four base) e (Form.short c0 (addrOpds (word .sp)) []) noHold) ∧
    (∃ e, Normal (four base) e (Form.short c0 [] []) (fun s e t => if FenceKind.ar = .acq then none else holdRelease c0 s e t)) :=
  ⟨⟨_, (normal_of (s := four (scr [0] (pages 1 true) (vs [(2, .all 0x40)]))) (e := env (four (scr [0] (pages 1 true) (vs [(2, .all 0x40)]))) (by decide)) (by decide)).runs⟩,
    issues (by decide) (by decide), issues (by decide) (by decide)⟩

/-- Threads whose data stacks hold 48 bytes, the fourth 12 bytes below the top of its area of 1 KiB. -/
def stacked : State :=
  let s := four (scr [0] [] id)
  { s with warps := s.warps.map fun w =>
      { w with threads := w.threads.map fun t => { t with dsp := if t.idx = 3 then 1012 else 48 } } }

theorem meets_data_stack :
    (∃ e, Normal stacked e (Form.short c0 (vrun 4 (7 + 1)) []) noHold ∧ ∀ t ∈ e.parts c0, t.owner = e.g.tag) ∧
    ∃ e, Normal stacked e (Form.longLat c0 [] (vrun 4 (3 + 1))) noHold ∧ e.w.spillPoison = [] ∧
      (∀ t ∈ e.parts c0, t.owner = e.g.tag) ∧
      ((e.parts c0).filter fun t => decide (4 * frameBytes e ≤ t.dsp)) ≠ [] :=
  ⟨issues_with (by decide) (by decide) (by decide), issues_with (by decide) (by decide) (by decide)⟩

/-- `atom` at the last word of the own portion and at the first of the other core's. -/
theorem meets_atom_at_home : ∃ e t, Normal (scr [0, 1] [] (vs [(2, .all 1020)])) e
      (atomForm c0 (some 7) (.v 2) (.v 3) .add .f32) noHold ∧ e.parts c0 = [t] ∧
    (unawaitedB (scr [0, 1] [] (vs [(2, .all 1020)])) e.b.bid && (e.sharedCheck t (e.read0 (scr [0, 1] [] (vs [(2, .all 1020)])) t (.v 2)).toNat 4 4).isNone &&
      decide (e.b.rankOf (e.read0 (scr [0, 1] [] (vs [(2, .all 1020)])) t (.v 2)).toNat = e.w.rank)) = true :=
  issues_one (q := fun e t => unawaitedB (scr [0, 1] [] (vs [(2, .all 1020)])) e.b.bid &&
    (e.sharedCheck t (e.read0 (scr [0, 1] [] (vs [(2, .all 1020)])) t (.v 2)).toNat 4 4).isNone &&
    decide (e.b.rankOf (e.read0 (scr [0, 1] [] (vs [(2, .all 1020)])) t (.v 2)).toNat = e.w.rank)) (by decide) (by decide)
    (by decide)

theorem meets_atom_elsewhere : ∃ e t, Normal (scr [0, 1] [] (vs [(2, .all 1024)])) e
      (atomForm c0 (some 7) (.v 2) (.v 3) .cas .w64) noHold ∧ e.parts c0 = [t] ∧
    ((e.sharedCheck t (e.read0 (scr [0, 1] [] (vs [(2, .all 1024)])) t (.v 2)).toNat 8 8).isNone &&
      decide (e.b.rankOf (e.read0 (scr [0, 1] [] (vs [(2, .all 1024)])) t (.v 2)).toNat ≠ e.w.rank)) = true :=
  issues_one (q := fun e t => (e.sharedCheck t (e.read0 (scr [0, 1] [] (vs [(2, .all 1024)])) t (.v 2)).toNat 8 8).isNone &&
    decide (e.b.rankOf (e.read0 (scr [0, 1] [] (vs [(2, .all 1024)])) t (.v 2)).toNat ≠ e.w.rank)) (by decide) (by decide)
    (by decide)

/-! Control registers. -/

/-- A die with one quarantined page, its epoch passed or not. -/
def quarantined (n : Nat) (epoch : Word) : State :=
  let s := stT sup
  s.setDie
    { s.die 0 with
      quarantine := [(n, epoch)]
      qepoch := 1 }

theorem meets_control_register_reads : (∃ e, Normal (four base) e (getForm c0 (.v 7) .energylo) noHold) ∧
    (∃ e, Normal (four base) e (getForm c0 (.v 7) .resid0) noHold) ∧
    (∃ e, Normal (quarantined 2559 1) e (getForm c0 (.v 7) .qtake) noHold ∧
      ∃ t, e.parts c0 = [t] ∧ (quarantined 2559 1).takePage e.w.die = none) ∧
    ∃ e, Normal (quarantined 2559 0) e (getForm c0 (.v 7) .qtake) noHold ∧
      ∃ t, e.parts c0 = [t] ∧ (quarantined 2559 0).takePage e.w.die = some (2559, 0) :=
  ⟨issues (by decide) (by decide), issues (by decide) (by decide),
    issues_with (by decide) (by decide) ⟨_, rfl, by decide⟩, issues_with (by decide) (by decide) ⟨_, rfl, by decide⟩⟩

/-- A user write, a write of the supervisor view, and writes at the ends of what a register takes. -/
theorem meets_own_register_writes :
    (∃ e, Normal (four base) e (setForm c0 (.imm 0x80000) false) noHold) ∧
    (∃ e, Normal (stT sup) e (setForm c0 (.imm 0) true) noHold) ∧
    CtlReg.qdone.writable = false ∧ CtlReg.sptroot.sup = true :=
  ⟨issues (by decide) (by decide), issues (by decide) (by decide), rfl, rfl⟩

/-- A supervisor thread with a word in v2, beside a warp of context 5 on core 119. -/
def beside (x : Word) : State :=
  let s := stT fun t => vs [(2, .all x)] (sup t)
  let ws := s.warps.map fun w =>
    { w with
      wid := 10
      bid := 9
      core := 119
      slot := 64 }
  let t : State :=
    { s with
      warps := s.warps ++ ws
      blocks := s.blocks ++ s.blocks.map fun b => { b with bid := 9, gid := 8 }
      grids := s.grids ++ s.grids.map fun g => { g with gid := 8, tag := 5 } }
  t.setDie { t.die 0 with bpctx := 5 }

/-- What a thread writes to a control register from v2. -/
def written (x : Word) (e : Env) (t : Thread) : Word := (e.src (beside x) t .zero (.reg (.v 2))).s0

/-- ENERGYHI; CARVE of core 118, at the largest REGSTEP and the largest SHSTEP that go together; DBGCTL of the warp. -/
theorem meets_energy_write : ∃ e, Normal (beside 0xFFFFFFFF) e (setForm c0 (.reg (.v 2)) false) noHold ∧
    ∃ t, e.parts c0 = [t] ∧ t.super = true := issues_with (by decide) (by decide) ⟨_, rfl, by decide⟩

theorem meets_carve_write : ∃ e, Normal (beside 0x7613) e (setForm c0 (.reg (.v 2)) true) noHold ∧ ∃ t, e.parts c0 = [t] ∧
    (((written 0x7613 e t).extractLsb' 8 8).toNat < (beside 0x7613).dieCores ∧
      1024 + 512 * ((written 0x7613 e t).extractLsb' 0 4).toNat + 256 * ((written 0x7613 e t).extractLsb' 4 4).toNat + 256 ≤ 3072 ∧
      (beside 0x7613).residents e.w.die ((written 0x7613 e t).extractLsb' 8 8).toNat = []) :=
  issues_with (by decide) (by decide) ⟨_, rfl, by decide⟩

theorem meets_debug_write : ∃ e, Normal (beside 0x44077) e (setForm c0 (.reg (.v 2)) true) noHold ∧ ∃ t, e.parts c0 = [t] ∧
    ∃ w, (beside 0x44077).warpAt e.w.die ((written 0x44077 e t).extractLsb' 0 8).toNat
        ((written 0x44077 e t).extractLsb' 8 9).toNat = some w ∧ (beside 0x44077).warp? w.wid = some w ∧ w.wid ≠ e.w.wid ∧
      (beside 0x44077).tagOfWarp w = some (((beside 0x44077).die e.w.die).bpctx.extractLsb' 0 12) :=
  issues_with (by decide) (by decide) ⟨_, rfl, _, rfl, rfl, by decide, by decide⟩

/-! Tasks, tapes and graphs. -/

def task (n : Nat) (gain : Word) (x : TaskSt) : Task :=
  { n := n, gain := gain, pend := 0, st := x, bin := 0, stamp := 0, overflowed := false }

/-- A gain launch of 6 tasks on dies 0 and 1, with v2 in its thread: task 5 on die 0, task 0 on die 1. -/
def gaining (n : Nat) (k : Task) : State :=
  st (vs [(2, .all (BitVec.ofNat 32 n)), (3, .all 0x40000000)]) id (fun b => { b with task := some 5 }) fun g =>
    { g with
      lr :=
        { g.lr with
          gain := true
          taskCnt := 6 }
      heaps := [{ Heap.empty 0 with tasks := [k] }, { Heap.empty 1 with tasks := [task 0 0x3F800000 .queued] }] }

def running : State := gaining 5 (task 5 0x3F800000 .running)
def queuedTask : State := gaining 0 (task 5 0x3F800000 .queued)

/-- The task that a thread names in v2 exists, on the die given. -/
def names (s : State) (e : Env) (t : Thread) (d : Nat) : Bool :=
  match s.heapTarget e false true (e.read0 s t (.v 2)).toNat with
  | some (g, k) => decide (k = d) && decide (s.grid? g.gid = some g) &&
      ((g.heap? k).bind fun h => (h.enroll g.gid (e.read0 s t (.v 2)).toNat).task? (e.read0 s t (.v 2)).toNat).isSome
  | none => false

theorem meets_gain_change_at_home : ∃ e t, Normal running e (heapForm c0 (.v 2) (.reg (.v 3))) (holdChange c0 (.v 2) false) ∧
    e.parts c0 = [t] ∧ names running e t 0 = true :=
  issues_one (q := fun e t => names running e t 0) (by decide) (by decide) (by decide)

theorem meets_gain_change_elsewhere : ∃ e t, Normal queuedTask e (heapForm c0 (.v 2) (.imm 0x3F8)) (holdChange c0 (.v 2) false) ∧
    e.parts c0 = [t] ∧ names queuedTask e t 1 = true :=
  issues_one (q := fun e t => names queuedTask e t 1) (by decide) (by decide) (by decide)

theorem meets_gain_reads : (∃ e, Normal running e (Form.short c0 [.v 2] (Dst.v 7).opds).accesses (holdOps c0) ∧
      ∀ t ∈ computing (.v 7) (e.parts c0), namedTask e running t (.v 2) false ≠ none) ∧
    ∃ e, Normal running e (Form.short c0 [] (Dst.v 7).opds) noHold ∧ running.heapGrid e false ≠ none :=
  ⟨issues_with (by decide) (by decide) (by decide), issues_with (by decide) (by decide) (by decide)⟩

theorem meets_taskdone : ∃ e, Normal running e { Form.short c0 (Src.reg (.v 3)).opds [] with heap := true } (holdTask c0) ∧
    ∃ t h k, (e.parts c0).head? = some t ∧ e.b.task = some 5 ∧ e.g.heap? e.w.die = some h ∧ h.task? 5 = some k ∧
      k.st = .running := issues_with (by decide) (by decide) ⟨_, _, _, rfl, rfl, rfl, rfl, rfl⟩

/-- A spawn record of 32 bytes at the scratchpad window's start: gain 1.0, FOOT of 40 v, 16 u registers. The launch has a
child task launch. -/
def spawning : State :=
  let s := scr [0] (pages 0 false) (vs [(2, .all 0)])
  { s with
    grids := (s.grids.map fun g => { g with tasksOf := some 8 }) ++ s.grids.map fun g =>
      { g with
        gid := 8
        kind := .tasks
        entry := some (0, 0, 0) }
    mem := ((s.mem.writeNat (2 ^ 42 + 0x200010) 4 0x3F800000).writeNat (2 ^ 42 + 0x20001C) 4 (40 + 16 * 1024)) }

/-- Every condition of a spawn. -/
def spawns (s : State) (e : Env) (t : Thread) : Bool :=
  let i := s.issued e { Form.short c0 [.v 2] (Dst.v 7).opds with heap := true }
  let off := (e.read0 s t (.v 2)).toNat
  (match i.readRecord e t off 8 32 with
    | .ok w => footOk (w.getD 7 0)
    | .error _ => false) && decide (e.g.spawnBase ≤ off) && decide ((off - e.g.spawnBase) / 32 < 2 ^ 24) &&
  decide (e.g.nest < 10) &&
  (match (i.chargeRecord e t off 8).openTasks e with
    | some (g, s1) => !g.busyTask ((off - e.g.spawnBase) / 32) && decide (s1.grid? g.gid = some g)
    | none => false)

theorem meets_spawn : ∃ e t, Normal spawning e { Form.short c0 [.v 2] (Dst.v 7).opds with heap := true } (holdRecord c0 (.v 2) (.v 7) 8) ∧
    e.parts c0 = [t] ∧ spawns spawning e t = true :=
  issues_one (q := fun e t => spawns spawning e t) (by decide) (by decide) (by decide)

/-- A gain launch with one queued task on an idle die, its descriptor in the scratchpad. -/
def dispatching : State :=
  let s := scr [0] (pages 0 false) id
  let t : State :=
    { s with
      mem := s.mem.writeNat (2 ^ 42 + 0x20001C) 4 (40 + 16 * 1024)
      pkg := { s.pkg with funcs := [{ func with cfg := { func.cfg with tagLo := 0 } }] }
      warps := []
      blocks := []
      grids := s.grids.map fun g =>
        { g with
          lr :=
            { g.lr with
              gain := true
              taskCnt := 1 }
          heaps := [{ Heap.empty 0 with tasks := [task 0 0x3F800000 .queued] }] } }
  t

/-- Every condition of a dispatch on die 0. -/
def dispatches (s : State) (g : Grid) : Bool :=
  match g.heap? 0 with
  | some h => !g.done && !g.retired && g.ending.isNone && h.mayDispatch g && !s.savedWaiting 0 g.tag && (match h.pickTask with
    | some (k, _) => (s.taskLines g 0 k.n).isEmpty && footOk (s.taskWord g 0 k.n 7) && s.taskFits 0 g.tag (g.lr.taskNeed (s.taskWord g 0 k.n 7)) &&
        (s.taskSite g 0 k).isSome
    | none => false)
  | none => false

theorem meets_task_dispatch : ∃ g, dispatching.grid? 1 = some g ∧ dispatches dispatching g = true :=
  ⟨_, rfl, by decide⟩

/-- A heap of die 0 with an operation on its way and a task that waits for room. -/
def heaped : State :=
  let s := gaining 5 (task 5 0x3F800000 .running)
  { s with
    now := 512
    grids := s.grids.map fun g => { g with heaps := g.heaps.map fun h =>
      { h with
        ops := [{ n := 5, set := true, val := 0, wid := 3, thr := 0 }]
        tasks := h.tasks ++ [{ task 7 0x3F800000 .queued with overflowed := true }] } } }

theorem meets_heap_arrivals : ∃ g h, heaped.grid? 1 = some g ∧ g.heap? 0 = some h ∧
    (∃ x rest k, h.ops = x :: rest ∧ h.task? x.n = some k ∧ heaped.taskLines g 0 x.n = []) ∧ (∃ t, h.firstOver = some t) ∧ h.queued < 65536 ∧
    1 < g.heaps.length ∧ g.retired = false ∧ h.lastExchange + 512 ≤ heaped.now :=
  ⟨_, _, rfl, rfl, ⟨_, _, _, rfl, rfl, by decide⟩, ⟨_, rfl⟩, by decide⟩

/-- TAPEPOS 1: at the position that `tapedrop` names, and above and below it. -/
theorem meets_direction_and_tape_position : (∃ e, Normal (four base) e (Form.short c0 [] []) noHold) ∧
    ∃ e, Normal reversing e (Form.short c0 [.v 2] []) noHold ∧ e.parts c0 ≠ [] ∧
      ∀ t ∈ e.parts c0, (e.read0 reversing t (.v 2)).toNat = 0x40 ∧ t.tapepos = 1 :=
  ⟨issues (by decide) (by decide), issues_with (by decide) (by decide) (by decide)⟩

/-- A copy node on slot `slot`, its copy done. -/
def node (slot : Nat) : Node :=
  { slot := slot, gen := 15, st := .running, kernel := false, pred := 0, succ := [], desc := none, recAddr := 0, gid := 1,
    bid := some 2, ready := none, tag := 0, child := none, entry := none, t := 0, failed := false }

/-- A thread that holds in v8 to v23 a copy node of one row of 4 bytes within the scratchpad, on a die with the
nodes given. -/
def posting (l : List Node) : State :=
  let s := scr [0] (pages 0 false) (vs [(2, .all 0xFFFF), (16, .all 0x0), (17, .all 0xC000), (18, .all 0x40),
    (19, .all 0xC000), (20, .all 4), (21, .all 1), (22, .all 0), (23, .all 0)])
  s.setDie { s.die 0 with nodes := l }

theorem chooseSlot_some {n : Nat} {l : List Nat} (h : l ≠ []) : ∃ k, chooseSlot n l = some k :=
  ⟨_, List.getElem?_eq_getElem (Nat.mod_lt _ (List.length_pos_iff.2 h))⟩

/-- A free slot, all being free; and none, all being occupied. -/
theorem meets_graph_post : ∃ e, Normal (posting []) e (Form.short c0 ((Opd.v 8).run 16) (Dst.v 7).opds) (holdRelease c0) ∧
    ∃ t, e.parts c0 = [t] ∧ e.nodeFail (e.nodeWords (posting []) t (.v 8)) = none :=
  issues_with (by decide) (by decide) ⟨_, rfl, by decide⟩

theorem slot_free {s : State} {d : Nat} (h : (s.die d).nodes = []) : s.freeNodes d ≠ [] := by
  have : 0 ∈ s.freeNodes d := by
    unfold State.freeNodes
    rw [List.mem_filter]
    exact ⟨List.mem_range.2 (by simp [nodeRoom]), by rw [h]; rfl⟩
  exact List.ne_nil_of_mem this

/-- Nodes in every slot. -/
def crammed : List Node := (List.range nodeRoom).map node

theorem slots_full {s : State} {d : Nat} (h : (s.die d).nodes = crammed) : s.freeNodes d = [] := by
  unfold State.freeNodes
  rw [h, List.filter_eq_nil_iff]
  intro k hk
  have : crammed.any (fun n => decide (n.slot = k)) = true :=
    List.any_eq_true.2 ⟨node k, List.mem_map.2 ⟨k, hk, rfl⟩, by simp [node]⟩
  simp [this]

/-- A node enters where a slot is free, and none where no slot is. -/
theorem meets_graph_slots {s : State} {e : Env} {t : Word} {w : List Word} (hw : byteField (nodeBytes w) 0 1 = 0) :
    ((s.die e.w.die).nodes = [] → ∃ x, s.enterNode e t w = some x) ∧
    ((s.die e.w.die).nodes = crammed → s.enterNode e t w = none) := by
  refine ⟨fun h => ?_, fun h => ?_⟩
  · have hf : s.draw.2.draw.2.freeNodes e.w.die ≠ [] := slot_free h
    obtain ⟨k, hk⟩ := chooseSlot_some (n := s.draw.1) hf
    unfold State.enterNode
    dsimp only
    rw [hk]
    simp [hw]
  · have hf : s.draw.2.draw.2.freeNodes e.w.die = [] := slots_full h
    unfold State.enterNode
    dsimp only
    rw [hf]
    simp [chooseSlot]

/-- The issue leaves the die's nodes. -/
theorem meets_graph_nodes (l : List Node) : ((posting l).die 0).nodes = l ∧
    ((posting []).issued (env (posting []) (by decide)) (Form.short c0 ((Opd.v 8).run 16) [.v 7])).die 0 = (posting []).die 0 :=
  ⟨rfl, rfl⟩

theorem meets_graph_wait : (∃ e, Normal (posting [node 4095]) e (Form.short c0 [.v 2] []) noHold ∧
      ∀ t ∈ e.parts c0, (posting [node 4095]).nodeLive e.w.die (e.read0 (posting [node 4095]) t (.v 2)) = true) ∧
    ∃ e, Normal (posting []) e (Form.short c0 [.v 2] []) noHold ∧
      ∀ t ∈ e.parts c0, (posting []).nodeLive e.w.die (e.read0 (posting []) t (.v 2)) = false :=
  ⟨issues_with (by decide) (by decide) (by decide), issues_with (by decide) (by decide) (by decide)⟩

theorem meets_graph_finish : ∃ n, (posting [node 4095]).node? 0 4095 = some n ∧ (posting [node 4095]).nodeDone 0 n = true := ⟨_, rfl, by decide⟩

/-! The matrix engine. -/

/-- A block with the handles given on cluster 0 and 2 KiB of shared memory, a descriptor of one handle in u0 to u3 (K 16, I8
times I8, B in block shared memory or, at the offset given, in the scratchpad), and 3,000 in v2. -/
def matrix (hs : List (Nat × Nat)) (w0 : Word) (fc : Cluster → Cluster) : State :=
  let s := st (vs [(2, .all 3000), (3, .all 0)]) (fun w => { w with s := [w0, 0x00400010, 0, 0] ++ w.s.drop 4 })
    (fun b =>
      { b with
        shBytes := 2048
        handles := hs }) id
  { s with clusters := [fc (Cluster.blank 0 0)] }

/-- M 1 handle, N 1 handle, from handle 0, B in block shared memory. -/
def tile1 : Word := 0x00080009

/-- A sign register held by a block, with signers. -/
def held (q bid expect : Nat) (l : List Signer) : SignReg :=
  { SignReg.blank q with
    st := .openSet
    bid := bid
    expect := expect
    signers := l }

def open' (r : SignReg) (c : Cluster) : Cluster := { c with signs := [r] }

theorem meets_qdecl_free : ∃ e, Normal (matrix [(0, 0)] tile1 id) e (qdeclForm c0 (.imm 1024)) noHold ∧
    e.parts c0 ≠ [] ∧ e.b.handles ≠ [] ∧ (signReg (matrix [(0, 0)] tile1 id) e 7).st = .free :=
  issues_with (by decide) (by decide) (by decide)

theorem meets_qdecl_waits : ∃ e, Normal (matrix [(0, 0)] tile1 (open' (held 7 9 1 []))) e (qdeclForm c0 (.imm 1))
      noHold ∧ e.parts c0 ≠ [] ∧ e.b.handles ≠ [] ∧
    (signReg (matrix [(0, 0)] tile1 (open' (held 7 9 1 []))) e 7).st ≠ .free ∧
    (signReg (matrix [(0, 0)] tile1 (open' (held 7 9 1 []))) e 7).bid ≠ e.b.bid := issues_with (by decide) (by decide) (by decide)

theorem meets_qdecl_field : (∃ e, Normal (matrix [] tile1 id) e (qdeclForm c0 (.imm 1025)) noHold ∧
      e.parts c0 ≠ [] ∧ e.b.handles = []) ∧
    ∃ e, Normal (matrix [(0, 0)] tile1 (open' (held 7 2 1 []))) e (qdeclForm c0 (.imm 1)) noHold ∧
      e.parts c0 ≠ [] ∧ (signReg (matrix [(0, 0)] tile1 (open' (held 7 2 1 []))) e 7).bid = e.b.bid :=
  ⟨issues_with (by decide) (by decide) (by decide), issues_with (by decide) (by decide) (by decide)⟩

def i8 : BitVec 4 := 7
def i32 : BitVec 4 := 8

/-- A signer of another warp, with the descriptor of the set. -/
def desc1 : MDesc := { tA := i8, tB := i8, tAcc := i32, tRes := i32, w0 := tile1, w1 := 0x00400010, w2 := 0, w3 := 0 }

def other (i : Nat) : Signer := { wid := 10, thr := i, t := 0, pid := 0, reuse := true, frag := [] }

/-- A set of 8 for handle 0 with `n` signers; with 63 or 64 operations in the engine's table. -/
def entry (i : Nat) : REntry :=
  { id := i, opId := i, kind := .op, bid := 9, desc := none, opcount := 0, frag := [], handles := [], rr := 0, prio := 0,
    entered := 0, triple := true, blocked := false, tag := 0, poisoned := false }

def signing (n k : Nat) : State :=
  matrix [(0, 0)] tile1 fun c =>
    { c with
      signs := [{ held 7 2 8 ((List.range n).map other) with desc := if n = 0 then none else some desc1 }]
      table := (List.range k).map entry }

/-- The word's conditions on its one participant, and how many have signed. -/
def signsB (s : State) (n : Nat) (e : Env) (t : Thread) : Bool :=
  let x := e.mdesc s t 0 i8 i8 i32 i32
  (s.signFail e t 7 x).isNone && !s.fragPoisoned e t 7 8 x && decide ((signReg s e 7).signers.length = n) &&
    decide ((signReg s e 7).expect = 8) && decide (e.w.die = e.b.die)

theorem meets_mma_first : ∃ e t, Normal (signing 0 0) e ((signing 0 0).mmaForm c0 7 8 0 i8 i8 i32 i32) (holdRelease c0) ∧
    e.parts c0 = [t] ∧ signsB (signing 0 0) 0 e t = true :=
  issues_one (q := signsB (signing 0 0) 0) (by decide) (by decide) (by decide)

theorem meets_mma_last : ∃ e t, Normal (signing 7 63) e ((signing 7 63).mmaForm c0 7 8 0 i8 i8 i32 i32) (holdRelease c0) ∧
    e.parts c0 = [t] ∧ signsB (signing 7 63) 7 e t = true :=
  issues_one (q := signsB (signing 7 63) 7) (by decide) (by decide) (by decide)

theorem meets_mma_last_full : ∃ e t, Normal (signing 7 64) e ((signing 7 64).mmaForm c0 7 8 0 i8 i8 i32 i32) (holdRelease c0) ∧
    e.parts c0 = [t] ∧ signsB (signing 7 64) 7 e t = true :=
  issues_one (q := signsB (signing 7 64) 7) (by decide) (by decide) (by decide)

/-- An operation that waits for the engine's table. -/
def waitingOp : State :=
  matrix [(0, 0)] tile1 (open'
    { held 7 2 8 [] with
      st := .pending
      desc := some desc1
      opId := 5
      toEnter := [0] })

theorem meets_pending_entry : (waitingOp.sign 0 0 7).desc = some desc1 ∧ (waitingOp.sign 0 0 7).st = .pending ∧
    ∃ b g, waitingOp.block? (waitingOp.sign 0 0 7).bid = some b ∧ b.die = 0 ∧ b.firstCl = 0 ∧
      waitingOp.grid? b.gid = some g ∧ (waitingOp.sign 0 0 7).q = 7 ∧ (waitingOp.sign 0 0 7).saved = false :=
  ⟨rfl, rfl, _, _, rfl, rfl, rfl, rfl, rfl, rfl⟩

/-- An engine with one entry of the block, B at a place of the scratchpad that is not mapped or in block shared memory, and
its pass running or not. -/
def engine (w0 : Word) (running : Bool) : State :=
  matrix [(0, 0)] w0 fun c =>
    { c with
      pass := if running then some { entry := 5, h := 0, left := 1 } else none
      table :=
        [{ entry 5 with
           bid := 2
           desc := some { desc1 with w0 := w0 }
           handles := [(0, 0)] }] }

/-- The engine's entry behind one of a lower class and of another handle that entered earlier. -/
def ranked : State :=
  let s := engine tile1 false
  { s with
    blocks := s.blocks.map fun b => { b with handles := [(0, 0), (0, 1)] }
    clusters := s.clusters.map fun c =>
      { c with table := (c.table.map fun x =>
          [{ x with
             id := 4
             opId := 4
             handles := [(1, 0)] },
           { x with
             prio := 1
             entered := 1 }]).flatten } }

theorem meets_pass_start : (ranked.cluster 0 0).pass = none ∧
    ∃ x y b m, (ranked.cluster 0 0).table = [y, x] ∧ Candidate ranked (ranked.cluster 0 0) x b m ∧
      NextHandle ranked x b m 0 ∧ (0, 0) ∈ x.handles ∧ (∀ z ∈ (ranked.cluster 0 0).table,
        ((z.handles.map fun u => u.1).Pairwise fun a a' => a < a') ∧ Ranked z) ∧
      ∀ z b' m' h', Candidate ranked (ranked.cluster 0 0) z b' m' → MayServe ranked z b' m' h' → z ≠ x → ServedBefore x z := by
  refine ⟨rfl, _, _, _, _, rfl, ⟨List.mem_cons_of_mem _ (List.mem_singleton.mpr rfl), rfl, rfl, rfl, rfl, rfl, fun _ _ _ _ h => by cases h⟩,
    ⟨⟨⟨0, by decide, by decide⟩, by decide⟩, ?_⟩, by decide, by unfold Ranked; decide, ?_⟩
  · rintro h' ⟨⟨k, hk, _⟩, _⟩ 
    have : (h', k) = (0, 0) := by simpa using hk
    cases this
    decide
  · intro z b' m' h' hz _ hne
    rcases List.mem_cons.mp hz.present with h | h
    · exact .inl (h ▸ by decide)
    · exact absurd (List.mem_singleton.mp h) hne

theorem meets_kstep : ∃ p x b g m, ((engine tile1 true).cluster 0 0).pass = some p ∧
    (((engine tile1 true).cluster 0 0).table.find? fun x => x.id = p.entry) = some x ∧
    (engine tile1 true).block? x.bid = some b ∧ x.desc = some m ∧ (engine tile1 true).grid? b.gid = some g ∧
    (engine tile1 true).bRows b x m p.h (lookupD p.h 0 x.handles) = .ok [] ∧
    (engine tile1 true).blockedLines 0 none ([] : List (List Nat)).flatten = [] ∧ (engine tile1 true).pkg.latent = [] ∧
    lookupD p.h 0 x.handles < m.steps := ⟨_, _, _, _, _, rfl, rfl, rfl, rfl, rfl, rfl, rfl, rfl, by decide⟩

theorem meets_kstep_unmapped : ∃ p x b g m, ((engine 0x00000009 true).cluster 0 0).pass = some p ∧
    (((engine 0x00000009 true).cluster 0 0).table.find? fun x => x.id = p.entry) = some x ∧
    (engine 0x00000009 true).block? x.bid = some b ∧ x.desc = some m ∧ (engine 0x00000009 true).grid? b.gid = some g ∧
    okB (fun _ => true) ((engine 0x00000009 true).bRows b x m p.h (lookupD p.h 0 x.handles)) = false :=
  ⟨_, _, _, _, _, rfl, rfl, rfl, rfl, rfl, by decide⟩

/-- With nothing before it on the handle, and behind an earlier entry of the same handle. -/
theorem meets_accumulator_words :
    (∃ e, Normal (matrix [(0, 0)] tile1 id) e (accForm c0 0 [.v 2] (vrun 8 (2 ^ (3 : BitVec 2).toNat) ++ [.v 2])) noHold ∧
      e.parts c0 ≠ []) ∧
    (∃ e, Normal (matrix [(0, 0)] tile1 id) e (orderForm c0 0 [] []) noHold ∧ e.parts c0 ≠ [] ∧
      (matrix [(0, 0)] tile1 id).before e.b 0 (matrix [(0, 0)] tile1 id).uid = false) ∧
    (∃ e, Normal { engine tile1 false with uid := 9 } e (orderForm c0 0 [] []) noHold ∧ e.parts c0 ≠ [] ∧
      (engine tile1 false).before e.b 0 9 = true) ∧
    ∃ e, Normal (matrix [(0, 0)] tile1 id) e (orderForm c0 0 [.v 2] (vrun 8 (2 ^ (0 : BitVec 2).toNat))) noHold ∧
      e.parts c0 ≠ [] ∧ (matrix [(0, 0)] tile1 id).before e.b 0 (matrix [(0, 0)] tile1 id).uid = false :=
  ⟨issues_with (by decide) (by decide) (by decide), issues_with (by decide) (by decide) (by decide),
    issues_with (by decide) (by decide) (by decide), issues_with (by decide) (by decide) (by decide)⟩

/-- The memory form at offset 0 with stride 0, inside the window, and at 3,000, beyond it. -/
theorem meets_accumulator_store :
    (∃ e, Normal (matrix [(0, 0)] tile1 id) e (orderForm c0 0 [.v 3, .v 3] []) noHold ∧ ∃ u, (e.parts c0).head? = some u ∧
      (e.accstBad (matrix [(0, 0)] tile1 id) 0 0 0 true = false ∧
        (matrix [(0, 0)] tile1 id).before e.b 0 (matrix [(0, 0)] tile1 id).uid = false ∧
        unawaitedB (matrix [(0, 0)] tile1 id) e.b.bid = true)) ∧
    ∃ e, Normal (matrix [(0, 0)] tile1 id) e (orderForm c0 0 [.v 2, .v 3] []) noHold ∧ ∃ u, (e.parts c0).head? = some u ∧
      e.accstBad (matrix [(0, 0)] tile1 id) 0 3000 0 true = true :=
  ⟨issues_with (by decide) (by decide) ⟨_, rfl, by decide⟩, issues_with (by decide) (by decide) ⟨_, rfl, by decide⟩⟩

/-- The lantern of the block's engine as given; the ring is of warp 0 alone. -/
def lantern (x : Option Nat) : State :=
  matrix [(0, 0)] 0 fun c => { c with lantern := x.map fun wid => (wid, [0], some 0) }

def ringForm : Form := Form.short c0 ((List.range (((0 : BitVec 3).toNat + 1 + 1) / 2)).map fun i => Opd.s (0 + i)) []

theorem meets_lantern_take :
    (∃ e, Normal (lantern none) e ringForm noHold ∧ e.parts c0 ≠ [] ∧ e.b.handles ≠ [] ∧
      ((lantern none).warpNamed e.b.bid 0 = true ∧ (lantern none).lanternBy e.b = none)) ∧
    (∃ e, Normal (lantern (some 10)) e ringForm noHold ∧ e.parts c0 ≠ [] ∧ (lantern (some 10)).lanternBy e.b = some 10 ∧
      10 ≠ e.w.wid) ∧
    ∃ e, Normal (lantern (some 3)) e ringForm noHold ∧ e.parts c0 ≠ [] ∧ (lantern (some 3)).lanternBy e.b = some e.w.wid :=
  ⟨issues_with (by decide) (by decide) (by decide), issues_with (by decide) (by decide) (by decide),
    issues_with (by decide) (by decide) (by decide)⟩

theorem meets_lantern_pass :
    (∃ e, Normal (lantern (some 3)) e (Form.short c0 [] []) noHold ∧ e.parts c0 ≠ [] ∧
      (e.b.engines.findSome? fun cl => ((lantern (some 3)).cluster e.b.die cl).lantern) = some (e.w.wid, [0], some 0)) ∧
    ∃ e, Normal (lantern none) e (Form.short c0 [] []) noHold ∧ e.parts c0 ≠ [] ∧
      (e.b.engines.findSome? fun cl => ((lantern none).cluster e.b.die cl).lantern) = none :=
  ⟨issues_with (by decide) (by decide) (by decide), issues_with (by decide) (by decide) (by decide)⟩

/-! Barriers and block registers. -/

/-- Two cores, each with 1 KiB of block shared memory; the address in v2, a count in v3. -/
def barred (off : Nat) (n : Word) : State := scr [0, 1] [] (vs [(2, .all (BitVec.ofNat 32 off)), (3, .all n)])

/-- The participant names the offset, which the checks accept, at its own core or not. -/
def barsB (s : State) (off : Nat) (home : Bool) (e : Env) (t : Thread) : Bool :=
  decide ((e.read0 s t (.v 2)).toNat = off) && decide (off % 8 = 0) && decide (off + 8 ≤ e.b.shBytes) &&
    decide (t.owner = e.g.tag) && decide (off / 32 * 32 ∉ e.b.shPoison) && unawaitedB s e.b.bid && decide ((e.b.rankOf off = e.w.rank) ↔ home = true)

/-- The last object of each portion, with the counts 32,768 and 32,769. -/
theorem meets_barrier_at_home : ∃ e t, Normal (barred 1016 32768) e (barForm c0 (.v 2 :: (Src.reg (.v 3)).opds)) noHold ∧
    e.parts c0 = [t] ∧ barsB (barred 1016 32768) 1016 true e t = true :=
  issues_one (q := barsB (barred 1016 32768) 1016 true) (by decide) (by decide) (by decide)

theorem meets_barrier_away : ∃ e t, Normal (barred 2040 32769) e (barForm c0 (.v 2 :: (Src.reg (.v 3)).opds)) noHold ∧
    e.parts c0 = [t] ∧ barsB (barred 2040 32769) 2040 false e t = true :=
  issues_one (q := barsB (barred 2040 32769) 2040 false) (by decide) (by decide) (by decide)

/-- One byte beyond a multiple of 8, and one object beyond the window. -/
theorem meets_barrier_refused : (∃ e t, Normal (barred 1017 0) e (barForm c0 (.v 2 :: (Src.reg (.v 3)).opds)) noHold ∧
      e.parts c0 = [t] ∧ decide ((e.read0 (barred 1017 0) t (.v 2)).toNat % 8 ≠ 0) = true) ∧
    ∃ e t, Normal (barred 2048 0) e (barForm c0 (.v 2 :: (Src.reg (.v 3)).opds)) noHold ∧ e.parts c0 = [t] ∧
      decide (e.b.shBytes < (e.read0 (barred 2048 0) t (.v 2)).toNat + 8) = true :=
  ⟨issues_one (q := fun e t => decide ((e.read0 (barred 1017 0) t (.v 2)).toNat % 8 ≠ 0)) (by decide) (by decide) (by decide),
    issues_one (q := fun e t => decide (e.b.shBytes < (e.read0 (barred 2048 0) t (.v 2)).toNat + 8)) (by decide) (by decide)
      (by decide)⟩

/-- Four arrivals at home, one away. -/
theorem meets_barrier_arrivals :
    (∃ e, Normal (four (barred 0 0)) e (bararrForm c0 7 (.v 2)) (holdRelease c0) ∧
      ((∀ t ∈ e.parts c0, barsB (four (barred 0 0)) 0 true e t = true) ∧ e.parts c0 ≠ [])) ∧
    (∃ e, Normal (four (barred 0 0)) e (barsyncForm c0 (.v 2)) (holdRelease c0)) ∧
    (∃ e t, Normal (barred 1024 0) e (bararrForm c0 7 (.v 2)) (holdRelease c0) ∧ e.parts c0 = [t] ∧
      barsB (barred 1024 0) 1024 false e t = true) ∧
    ∃ e t, Normal (barred 1024 0) e (barsyncForm c0 (.v 2)) (holdRelease c0) ∧ e.parts c0 = [t] ∧
      barsB (barred 1024 0) 1024 false e t = true :=
  ⟨issues_with (by decide) (by decide) (by decide), issues (by decide) (by decide),
    issues_one (q := barsB (barred 1024 0) 1024 false) (by decide) (by decide) (by decide),
    issues_one (q := barsB (barred 1024 0) 1024 false) (by decide) (by decide) (by decide)⟩

/-- A block with a write of a block register on its way to the home, and one to its replica of rank 1. -/
def wrote (rank : Nat) : GWrite := { rank := rank, slot := 0, reg := 63, val := 5, since := 0 }

def writing (rank : Nat) : State :=
  let s := scr [0, 1] [] id
  { s with blocks := s.blocks.map fun b =>
      { b with
        gflight := [wrote rank]
        gupdates := [(1, wrote 0)] } }

theorem meets_block_register_arrival : ∃ b, (writing 0).block? 2 = some b ∧ homeNext b (writing 0).now = [wrote 0] ∧
    ¬Overtaken b (writing 0).now (wrote 0) := ⟨_, rfl, by decide, by rintro ⟨y, hy, _⟩; cases hy⟩

/-- A write of a larger key that the home has taken in the same cycle. -/
def overtaken : State := { writing 0 with blocks := (writing 0).blocks.map fun b => { b with gLast := [(63, 0, 1)] } }

theorem meets_block_register_overtaken : ∃ b, overtaken.block? 2 = some b ∧ homeNext b overtaken.now = [wrote 0] ∧
    Overtaken b overtaken.now (wrote 0) :=
  ⟨_, rfl, by decide, ⟨(63, 0, 1), List.mem_singleton.mpr rfl, rfl, rfl, by decide⟩⟩

theorem meets_block_register_update : (∃ b x, (writing 0).block? 2 = some b ∧
      (b.gupdates.find? fun y => y.1 = 1) = some (1, x) ∧
      ¬(x.rank = 1 ∨ (∃ y ∈ b.gflight, y.rank = 1 ∧ y.reg = x.reg) ∨
        ∃ y ∈ b.gupdates.erase (1, x), y.1 = 1 ∧ y.2.rank = 1 ∧ y.2.reg = x.reg)) ∧
    ∃ b x, (writing 1).block? 2 = some b ∧ (b.gupdates.find? fun y => y.1 = 1) = some (1, x) ∧
      ∃ y ∈ b.gflight, y.rank = 1 ∧ y.reg = x.reg := ⟨⟨_, _, rfl, rfl, by decide⟩, ⟨_, _, rfl, rfl, by decide⟩⟩

/-- An access to a portion on its way, and its thread. -/
def carried (op : PortionOp) : PortionAcc :=
  { wid := 3, thr := 0, key := 1, issue := 0, trap := none, pid := none, dest := none, off := 1024, op := op }

def carrying (op : PortionOp) : State :=
  let s := scr [0, 1] [] id
  { s with blocks := s.blocks.map fun b => { b with portions := [carried op] } }

theorem meets_portion_access (op : PortionOp) : ∃ b g, (carrying op).block? 2 = some b ∧ (carrying op).grid? b.gid = some g ∧
    mayArrive b = [carried op] ∧ (∀ k, b.lastKey = some ((carrying op).now, k) → ∀ p ∈ mayArrive b, k ≤ p.key) ∧
    ((carrying op).thread? 3 0).isSome = true ∧ b.Sound :=
  ⟨_, _, rfl, rfl, by simp [mayArrive], (fun k h => by cases h), rfl, ⟨rfl, (by intro x h; cases h), (by show Mem.wf []; decide)⟩⟩

/-- Each of the thread's waits at a barrier is met by a change of its object: an arrival that is the last, and one that is
not. -/
theorem meets_portion_waiter : ∃ b w t g, (carrying (.arrive true)).block? 2 = some b ∧
    (carrying (.arrive true)).warp? 3 = some w ∧ w.bid = 2 ∧ w.saved = false ∧ w.thread? 0 = some t ∧
    (carrying (.arrive true)).grid? b.gid = some g ∧ t.owner = g.tag := ⟨_, _, _, _, rfl, rfl, rfl, rfl, rfl, rfl, rfl⟩

/-- A wait that has counted 2^24 cycles. -/
def hanging : State :=
  let s := scr [0] [] fun t => { t with st := .waiting, wait := some (.barrier 0 1 0 0) }
  { s with now := 2 ^ 24 }

theorem meets_hang : ∃ w t g b, hanging.warp? 3 = some w ∧ hanging.thread? 3 0 = some t ∧ hanging.block? w.bid = some b ∧
    t.wait = some (.barrier 0 1 0 0) ∧ hanging.grid? b.gid = some g ∧ 0 + 2 ^ 24 ≤ hanging.now ∧
    (∀ x ∈ hanging.warps, x.bid = 2 → x.held = false ∧ x.saved = false) ∧ b.hung = false :=
  ⟨_, _, _, _, rfl, rfl, rfl, rfl, rfl, by decide, by decide, rfl⟩

/-- A wait that has counted one cycle less. -/
theorem meets_hang_not_yet : ∃ t, hanging.thread? 3 0 = some t ∧ t.wait = some (.barrier 0 1 0 0) ∧
    ({ hanging with now := 2 ^ 24 - 1 } : State).now < 0 + 2 ^ 24 := ⟨_, rfl, rfl, by decide⟩

/-! Remote atomics and service warps. -/

/-- A remote add at a cell of a page of triples, the last of the page and one beyond. -/
def remote (off : Nat) : State := scr [0] (pages 1 false) (vs [(2, .all (BitVec.ofNat 32 off)), (3, .all 0)])

def addRemote : RemoteSpec :=
  { c := c0, kind := 0, d := some 7, a := .v 2, b := .v 5, op := .add, ty := .f32, adj := false, far := false }

/-- An address by the far form, of a thread with the window's upper bits in v3. -/
def addFar : RemoteSpec := { addRemote with kind := 1, d := none, far := true }

theorem meets_remote_word : ∃ e t, Normal (remote 0x40) e addRemote.form (holdRoom c0) ∧ e.parts c0 = [t] ∧
    okB (fun _ => true) ((remote 0x40).remotePlan e t
      ((if addRemote.adj then 0xC00100000000 else 0xC00000000000) + (e.read0 (remote 0x40) t (.v 2)).setWidth 48) .f32) = true :=
  issues_one (q := fun e t => okB (fun _ => true) ((remote 0x40).remotePlan e t
      ((if addRemote.adj then 0xC00100000000 else 0xC00000000000) + (e.read0 (remote 0x40) t (.v 2)).setWidth 48) .f32))
    (by decide) (by decide) (by decide)

theorem meets_remote_word_refused : ∃ e t, Normal (remote 0x41) e addFar.form (holdRoom c0) ∧ e.parts c0 = [t] ∧
    okB (fun _ => true) ((remote 0x41).remotePlan e t (e.farAddr (remote 0x41) t (.v 2)) .f32) = false :=
  issues_one (q := fun e t => !okB (fun _ => true) ((remote 0x41).remotePlan e t (e.farAddr (remote 0x41) t (.v 2)) .f32))
    (by decide) (by decide) (by decide) |> fun ⟨e, t, a, b, c⟩ => ⟨e, t, a, b, by simpa using c⟩

/-- A request for an add at a mapped or an unmapped cell. -/
def req (va : Nat) : Request :=
  { kind := 0, op := .add, ty := .f32, mode := 0, ret := true, acc := false, triple := true, tag := 0, die := 0, core := 0, slot := 0,
    wid := 3, thr := 0, pid := 0, dest := some 7, destCode := 7, va := BitVec.ofNat 48 (0xC00000000000 + va),
    bytes := upFrom (2 ^ 42 + 0x200000 + va) 4, t := 0, c := 0, dirs := [], operand := .all 0x3F800000, operandHi := 0, cmp := .all 0, cmpHi := 0, pc := 0, pos := 0,
    pass := false }

/-- A machine with requests in the core's store, a slice's queue, its firmware's hands or its replies. -/
def serving (fk : Core → Core) (fc : Cluster → Cluster) : State :=
  let s := scr [0] (pages 0 false) fun t => vs [(2, .all (req 0x40).slotWord), (3, .all 6)] (sup t)
  { s with
    cores := [fk (Core.blank 0 0)]
    clusters := [fc (Cluster.blank 0 (homeOf (req 0x40).pa))] }

theorem meets_request_entry : ∃ r, (serving (fun k => { k with reqs := [req 0x40] }) id).mayEnter 0 0 = [r] := ⟨_, rfl⟩

theorem meets_request_reply : ∃ r status x rest,
    ((serving id fun c => { c with replies := [(req 0x40, 0, .all 1), (req 0x40, 5, .all 1)] }).cluster 0
      (homeOf (req 0x40).pa)).replies = (r, status, x) :: rest := ⟨_, _, _, _, rfl⟩

def queueOf (r : Request) : State := serving id fun c => { c with queue := [r] }

theorem meets_request_slice : (queueOf (req 0x40)).serviceWarp 0 (homeOf (req 0x40).pa) = none ∧
    ((queueOf (req 0x40)).cluster 0 (homeOf (req 0x40).pa)).replies = [] ∧ (queueOf (req 0x40)).pkg.latent = [] :=
  ⟨by decide, rfl, rfl⟩

theorem meets_request_applied : (∃ r, (queueOf (req 0x40)).headReady 0 (homeOf (req 0x40).pa) = some r ∧
      okB (fun _ => true) ((queueOf (req 0x40)).requestBytes r) = true) ∧
    ∃ r, (queueOf { req 0x40 with va := 0xC00000800000 }).headReady 0 (homeOf (req 0x40).pa) = some r ∧
      okB (fun _ => true) ((queueOf { req 0x40 with va := 0xC00000800000 }).requestBytes r) = false :=
  ⟨⟨_, rfl, by decide⟩, ⟨_, rfl, by decide⟩⟩

/-- The slice of the thread's own core, with a queue and a delivered request. -/
def slice (q d : List Request) (n : Word) : State :=
  let s := serving id id
  { s with
    clusters := [{ Cluster.blank 0 0 with queue := q, delivered := d }]
    warps := s.warps.map fun w => { w with threads := w.threads.map (vs [(3, .all n)]) } }

theorem meets_svrecv : (∃ e, Normal (slice [] [] 0) e (svrecvForm c0 8) noHold ∧ e.parts c0 ≠ [] ∧
      ((slice [] [] 0).cluster e.w.die (e.w.core / 4)).queue = []) ∧
    ∃ e, Normal (slice [req 0x40] [] 0) e (svrecvForm c0 8) noHold ∧ e.parts c0 ≠ [] ∧
      ((slice [req 0x40] [] 0).cluster e.w.die (e.w.core / 4)).queue ≠ [] :=
  ⟨issues_with (by decide) (by decide) (by decide), issues_with (by decide) (by decide) (by decide)⟩

theorem meets_svreply : (∃ e t, Normal (slice [] [req 0x40] 6) e (Form.sup c0 (.v 2 :: vrun 3 4) []) noHold ∧ e.parts c0 = [t] ∧
      (decide ((e.read0 (slice [] [req 0x40] 6) t (.v 3)).toNat ∈ [0, 5, 6]) &&
        (((slice [] [req 0x40] 6).cluster e.w.die (e.w.core / 4)).delivered.find? fun r =>
          r.slotWord = e.read0 (slice [] [req 0x40] 6) t (.v 2)).isSome) = true) ∧
    ∃ e t, Normal (slice [] [] 4) e (Form.sup c0 (.v 2 :: vrun 3 4) []) noHold ∧ e.parts c0 = [t] ∧
      decide ((e.read0 (slice [] [] 4) t (.v 3)).toNat ∉ [0, 5, 6]) = true :=
  ⟨issues_one (q := fun e t => decide ((e.read0 (slice [] [req 0x40] 6) t (.v 3)).toNat ∈ [0, 5, 6]) &&
      (((slice [] [req 0x40] 6).cluster e.w.die (e.w.core / 4)).delivered.find? fun r =>
        r.slotWord = e.read0 (slice [] [req 0x40] 6) t (.v 2)).isSome) (by decide) (by decide) (by decide),
    issues_one (q := fun e t => decide ((e.read0 (slice [] [] 4) t (.v 3)).toNat ∉ [0, 5, 6])) (by decide) (by decide)
      (by decide)⟩

/-! Copies. -/

/-- The descriptor words of a copy of one row of 4 bytes within the scratchpad, from offset 0 to offset 40h. -/
def copyRun (dst : Word) : List (Nat × Triple) :=
  [(16, .all 0), (17, .all 0xC000), (18, .all dst), (19, .all 0xC000), (20, .all 4), (21, .all 1), (22, .all 0), (23, .all 0)]

def shortCopy : CopyDesc :=
  { src := 0xC00000000000, dst := 0xC00000000040, trans := false, esize := 0, rowBytes := 4, rows := 1, sstride := 0, dstride := 0 }

/-- A copy in a slot, not yet moved. -/
def copyIn (slot : Nat) (x : CopySt) : Copy :=
  { slot := slot, gen := 15, st := x, cause := 0, hold := false, p := 0, ahead := [], claims := [(2 ^ 42 + 0x200040) / 128],
    pages := [(0xC00000000000 / 65536, 2 ^ 42 + 0x200000)], epoch := 0, row := [], desc := shortCopy, tag := 0, prio := 0,
    order := 0, gid := 1, bid := some 2, node := none, stopAt := none, fault := none, t := 0 }

/-- A thread with a copy to issue from v16, or the handle of slot 1023 in v2, on a die with copies. -/
def copying (dst : Word) (pgs : List (Nat × Nat)) (l : List Copy) : State :=
  let s := scr [0] pgs (vs ((2, .all 0xF3FF) :: copyRun dst))
  s.setDie { s.die 0 with copies := l }

/-- Copies in every slot. -/
def packed : List Copy := (List.range copySlots).map fun k => copyIn k .queued

theorem slots_packed {s : State} {d : Nat} (h : (s.die d).copies = packed) : s.freeCopySlots d = [] := by
  unfold State.freeCopySlots
  rw [h, List.filter_eq_nil_iff]
  intro k hk
  have : packed.any (fun x => decide (x.slot = k) && decide (x.st ≠ .done)) = true :=
    List.any_eq_true.2 ⟨copyIn k .queued, List.mem_map.2 ⟨k, hk, rfl⟩, by simp [copyIn]⟩
  simp only [this, Bool.not_true]
  decide

theorem slots_some {s : State} {d : Nat} (h : (s.die d).copies = []) : s.freeCopySlots d ≠ [] := by
  have : 0 ∈ s.freeCopySlots d := by
    unfold State.freeCopySlots
    rw [List.mem_filter]
    exact ⟨List.mem_range.2 (by simp [copySlots]), by rw [h]; rfl⟩
  exact List.ne_nil_of_mem this

/-- The copy passes its checks, and its destination's pages translate. -/
def copyOkB (s : State) (e : Env) (t : Thread) : Bool :=
  (s.copyCheck e (cpyWords e s t (.v 16))).isNone &&
    okB (fun _ => true) (s.claimPages e.w.die e.g.tag (destPages (copyDesc (cpyWords e s t (.v 16)))))

theorem meets_cpy : ∃ e t, Normal (copying 0x40 (pages 0 false) []) e (Form.longLat c0 ((Opd.v 16).run 8) []).accesses noHold ∧
    e.parts c0 = [t] ∧ (copyOkB (copying 0x40 (pages 0 false) []) e t &&
      decide (((copying 0x40 (pages 0 false) []).die e.w.die).copies = [])) = true :=
  issues_one (q := fun e t => copyOkB (copying 0x40 (pages 0 false) []) e t &&
    decide (((copying 0x40 (pages 0 false) []).die e.w.die).copies = [])) (by decide) (by decide) (by decide)

theorem meets_cpy_full : ∃ e t, Normal (copying 0x40 (pages 0 false) packed) e (Form.longLat c0 ((Opd.v 16).run 8) []).accesses noHold ∧
    e.parts c0 = [t] ∧ ((copying 0x40 (pages 0 false) packed).copyCheck e
      (cpyWords e (copying 0x40 (pages 0 false) packed) t (.v 16))).isNone = true :=
  issues_one (q := fun e t => ((copying 0x40 (pages 0 false) packed).copyCheck e
      (cpyWords e (copying 0x40 (pages 0 false) packed) t (.v 16))).isNone) (by decide) (by decide) (by decide)

theorem copies_given (l : List Copy) : ((copying 0x40 (pages 0 false) l).die 0).copies = l := rfl

/-- A destination in an unmapped page. -/
theorem meets_cpy_refused : ∃ e t, Normal (copying 0x800000 (pages 0 false) []) e (Form.longLat c0 ((Opd.v 16).run 8) []).accesses noHold ∧
    e.parts c0 = [t] ∧ ((copying 0x800000 (pages 0 false) []).copyCheck e
      (cpyWords e (copying 0x800000 (pages 0 false) []) t (.v 16))).isSome = true :=
  issues_one (q := fun e t => ((copying 0x800000 (pages 0 false) []).copyCheck e
    (cpyWords e (copying 0x800000 (pages 0 false) []) t (.v 16))).isSome) (by decide) (by decide) (by decide)

def namesCopy (s : State) (b : Bool) (e : Env) (t : Thread) : Bool :=
  (s.copyNamed t (e.read0 s t (.v 2))).isSome == b

theorem meets_cpyst : (∃ e t, Normal (copying 0 [] []) e (Form.longLat c0 [.v 2] (Dst.v 7).opds) noHold ∧ e.parts c0 = [t] ∧
      namesCopy (copying 0 [] []) false e t = true) ∧
    ∃ e t, Normal (copying 0 [] [copyIn 1023 .failed]) e (Form.longLat c0 [.v 2] (Dst.v 7).opds) noHold ∧ e.parts c0 = [t] ∧
      namesCopy (copying 0 [] [copyIn 1023 .failed]) true e t = true :=
  ⟨issues_one (q := namesCopy (copying 0 [] []) false) (by decide) (by decide) (by decide),
    issues_one (q := namesCopy (copying 0 [] [copyIn 1023 .failed]) true) (by decide) (by decide) (by decide)⟩

theorem meets_cpysus_cpyres : (∃ e t, Normal (copying 0 [] []) e (Form.longLat c0 [.v 2] []) noHold ∧ e.parts c0 = [t] ∧
      namesCopy (copying 0 [] []) false e t = true) ∧
    (∃ e t, Normal (copying 0 [] [copyIn 1023 .running]) e (Form.longLat c0 [.v 2] []) noHold ∧ e.parts c0 = [t] ∧
      namesCopy (copying 0 [] [copyIn 1023 .running]) true e t = true) ∧
    (∃ e t, Normal (copying 0 (pages 0 false) [copyIn 1023 .suspended]) e (Form.longLat c0 [.v 2] []) noHold ∧
      e.parts c0 = [t] ∧ namesCopy (copying 0 (pages 0 false) [copyIn 1023 .suspended]) true e t = true) ∧
    okB (fun _ => true) ((copying 0 (pages 0 false) [copyIn 1023 .suspended]).claimPages 0 0
      (scratchPages ((copyIn 1023 .suspended).remaining.map shortCopy.spans).flatten)) = true :=
  ⟨issues_one (q := namesCopy (copying 0 [] []) false) (by decide) (by decide) (by decide),
    issues_one (q := namesCopy (copying 0 [] [copyIn 1023 .running]) true) (by decide) (by decide) (by decide),
    issues_one (q := namesCopy (copying 0 (pages 0 false) [copyIn 1023 .suspended]) true) (by decide) (by decide) (by decide),
    by decide⟩

/-- A queued copy in slot 0, whose destination line a parked thread waits for. -/
def engineAt (pgs : List (Nat × Nat)) (x : Copy) : State :=
  let s := scr [0] pgs fun t => { t with st := .parked, wait := some (.fetch [(2 ^ 42 + 0x200040) / 32]) }
  s.setDie { s.die 0 with copies := [x] }

def srcBytes : List Nat := [0, 1, 2, 3].map fun i => 2 ^ 42 + 0x200000 + i
def dstBytes : List Nat := [0, 1, 2, 3].map fun i => 2 ^ 42 + 0x200040 + i

theorem chunk_clear {x : Copy} (h : x = copyIn 0 .queued ∨ x = { copyIn 0 .queued with st := .running }) :
    ChunkClear (engineAt (pages 0 false) (copyIn 0 .queued)) 0 x 0 srcBytes dstBytes := by
  rcases h with rfl | rfl <;>
  exact
    { plain := rfl
      chunk := by decide
      reads := rfl
      writes := rfl
      inside := by
        intro a ha
        have : a ∈ srcBytes ++ dstBytes := ha
        revert this
        simp only [srcBytes, dstBytes, List.map_cons, List.map_nil, List.cons_append, List.nil_append, List.mem_cons,
          List.not_mem_nil, or_false]
        rintro (rfl | rfl | rfl | rfl | rfl | rfl | rfl | rfl) <;> exact ⟨0, 0, rfl⟩
      joined := ⟨rfl, rfl⟩
      free := ⟨rfl, rfl, rfl⟩
      owned := rfl
      clean := ⟨rfl, rfl, rfl⟩
      unwatched := ⟨rfl, rfl⟩ }

theorem meets_copy_chunk : ∃ z, (engineAt (pages 0 false) (copyIn 0 .queued)).nextCopy 0 (0 / 64) = some z ∧ z.slot = 0 ∧
    (engineAt (pages 0 false) (copyIn 0 .queued)).copy? 0 0 = some (copyIn 0 .queued) := ⟨_, rfl, rfl, rfl⟩

theorem meets_copy_fault : ∃ z cause va, (engineAt [] (copyIn 0 .queued)).nextCopy 0 (0 / 64) = some z ∧ z.slot = 0 ∧
    (engineAt [] (copyIn 0 .queued)).agentBytes 0 0 (shortCopy.srcSpan false 0).1 (shortCopy.srcSpan false 0).2 false =
      .error (cause, va) := ⟨_, _, _, rfl, rfl, rfl⟩

theorem meets_copy_stop : ∃ x, (engineAt [] { copyIn 0 .running with stopAt := some 4 }).copy? 0 0 = some x ∧
    x.stopAt = some 4 := ⟨_, rfl, rfl⟩

theorem meets_copy_recall : ∃ l x, (engineAt (pages 0 false) (copyIn 0 .queued)).recallTarget 0 (homeOf (2 ^ 42 + 0x200040)) =
      some (l, x) ∧ (x.remaining.find? fun c => decide (l ∈ x.chunkLines c)) = some 0 ∧ x = copyIn 0 .queued :=
  ⟨_, _, rfl, rfl, rfl⟩

/-- A copy FAULTED at an unmapped page, whose page is mapped now, is unmapped still, or another page fails. -/
def faulting (pgs : List (Nat × Nat)) (va : Nat) : State :=
  let x := { copyIn 0 .faulted with fault := some va }
  let s := engineAt pgs x
  { s with warps := s.warps.map fun w => { w with threads := w.threads.map fun t => { t with st := .waiting, wait := none } } }

def resuming (va : Nat) : Copy := continuing { copyIn 0 .faulted with fault := some va }

theorem meets_copy_resume : okB (fun s1 => match s1.copy? 0 0 with
      | some y => (match s1.copyUnit 0 y y.p true with
        | .error (.fault _ _) => false
        | _ => true)
      | none => false) ((faulting (pages 0 false) 0xC00000000000).enterClaims 0 (resuming 0xC00000000000)) = true := rfl

theorem meets_copy_resume_fails : (match (faulting [] 0xC00000000040).enterClaims 0 (resuming 0xC00000000040) with
      | .error f => decide (f.2 / 65536 = 0xC00000000040 / 65536)
      | .ok _ => false) = true ∧
    (match (faulting [] 0xC00000800000).enterClaims 0 (resuming 0xC00000800000) with
      | .error f => decide (f.2 / 65536 ≠ 0xC00000800000 / 65536)
      | .ok _ => false) = true ∧
    (faulting [] 0xC00000800000).copy? 0 0 = some { copyIn 0 .faulted with fault := some 0xC00000800000 } := ⟨by decide, by decide, by decide⟩

/-! Launches, queues, translation. -/

/-- A record of a kernel of one block of one thread, 40 v and 16 u registers, in triple mode. -/
def kernelWords : List Word := [4, 0, 0, 0, 0, 0, 0, 0, 0, 0, 0, 40 + 16 * 1024, 0, 0, 0, 0]

/-- A thread at nesting level `nest` that names, by offset in v2, a record at the scratchpad's start. -/
def launching (nest : Nat) (off w0 : Word) (gs : List Grid) : State :=
  let s := scr [0] (pages 0 false) (vs [(2, .all off)])
  { s with
    mem := (s.mem.writeNat (2 ^ 42 + 0x200000) 4 w0.toNat).writeNat (2 ^ 42 + 0x20002C) 4 (40 + 16 * 1024)
    grids := (s.grids.map fun g => { g with nest := nest }) ++ gs
    pkg :=
      { s.pkg with
        booted := true
        funcs := [{ func with cfg := { func.cfg with tagLo := 0 } }] } }

/-- The record reads, and passes its checks or not. -/
def recordB (s : State) (ok : Bool) (e : Env) (t : Thread) : Bool :=
  okB (fun w => (s.checkRecord e.w.die e.g.tag w).isSome == ok) (s.readRecord e t (e.read0 s t (.v 2)).toNat 16 64)

def launchForm : Form := Form.short c0 [.v 2] (Dst.v 7).opds

theorem meets_launch : ∃ e t, Normal (launching 9 0 4 []) e launchForm (holdRecord c0 (.v 2) (.v 7) 16) ∧ e.parts c0 = [t] ∧
    (recordB (launching 9 0 4 []) true e t && decide (e.g.nest < 10)) = true :=
  issues_one (q := fun e t => recordB (launching 9 0 4 []) true e t && decide (e.g.nest < 10)) (by decide) (by decide)
    (by decide)

theorem meets_launch_too_deep : ∃ e t, Normal (launching 10 0 4 []) e launchForm (holdRecord c0 (.v 2) (.v 7) 16) ∧ e.parts c0 = [t] ∧
    (recordB (launching 10 0 4 []) true e t && decide (10 ≤ e.g.nest)) = true :=
  issues_one (q := fun e t => recordB (launching 10 0 4 []) true e t && decide (10 ≤ e.g.nest)) (by decide) (by decide)
    (by decide)

/-- A record of kind 2, and one at an offset that is no multiple of 64. -/
theorem meets_launch_refused : (∃ e t, Normal (launching 1 0 6 []) e launchForm (holdRecord c0 (.v 2) (.v 7) 16) ∧ e.parts c0 = [t] ∧
      recordB (launching 1 0 6 []) false e t = true) ∧
    ∃ e t, Normal (launching 1 32 4 []) e launchForm (holdRecord c0 (.v 2) (.v 7) 16) ∧ e.parts c0 = [t] ∧
      okB (fun _ => true) ((launching 1 32 4 []).readRecord e t (e.read0 (launching 1 32 4 []) t (.v 2)).toNat 16 64) = false :=
  ⟨issues_one (q := recordB (launching 1 0 6 []) false) (by decide) (by decide) (by decide),
    issues_one (q := fun e t => !okB (fun _ => true) ((launching 1 32 4 []).readRecord e t
      (e.read0 (launching 1 32 4 []) t (.v 2)).toNat 16 64)) (by decide) (by decide) (by decide) |>
        fun ⟨e, t, a, b, c⟩ => ⟨e, t, a, b, by simpa using c⟩⟩

/-- A child grid in an entry of die 0. -/
def childGrid (k : Nat) : Grid :=
  { loadGrid (100 + k) with
    kind := .child
    parent := some 1
    nest := 2
    entry := some (0, k, 3) }

def children : List Grid := (List.range gridRoom).map childGrid

theorem entries_full {s : State} (h : ∀ g ∈ children, g ∈ s.grids) : s.freeEntries 0 = [] := by
  unfold State.freeEntries
  rw [List.filter_eq_nil_iff]
  intro k hk hx
  simp only [Bool.and_eq_true, Bool.not_eq_true'] at hx
  have := List.any_eq_false.1 hx.1 (childGrid k) (h _ (List.mem_map.2 ⟨k, hk, rfl⟩))
  simp [childGrid, loadGrid] at this

theorem entries_free {s : State} (h : s.grids.all (fun g => g.entry.isNone) = true) (hn : (s.die 0).nodes = []) :
    s.freeEntries 0 ≠ [] := by
  have : 0 ∈ s.freeEntries 0 := by
    unfold State.freeEntries
    rw [List.mem_filter]
    refine ⟨List.mem_range.2 (by simp [gridRoom]), ?_⟩
    simp only [Bool.and_eq_true, Bool.not_eq_true', List.any_eq_false, hn]
    refine ⟨fun g hg => ?_, by simp⟩
    have := List.all_eq_true.1 h g hg
    rw [Option.isNone_iff_eq_none] at this
    simp [this]
  exact List.ne_nil_of_mem this

theorem meets_launch_entries : (launching 9 0 4 []).freeEntries 0 ≠ [] ∧ (launching 9 0 4 children).freeEntries 0 = [] :=
  ⟨entries_free (by decide) rfl, entries_full fun _ h => List.mem_append_right _ h⟩

theorem meets_lwait : ∃ e, Normal (launching 1 0x3000 4 [childGrid 0]) e (Form.short c0 [.v 2] []) noHold ∧
    ∀ t ∈ e.parts c0, (launching 1 0x3000 4 [childGrid 0]).gridLive (e.read0 (launching 1 0x3000 4 [childGrid 0]) t (.v 2)) = true :=
  issues_with (by decide) (by decide) (by decide)

theorem meets_host_launch : (launching 1 0 4 []).pkg.booted = true ∧ State.reset.pkg.booted = false ∧
    (launching 1 0 4 []).serves 0 = true ∧ (launching 1 0 4 []).serves 16 = false ∧
    ((launching 1 0 4 []).checkRecord 0 0 kernelWords).isSome = true ∧
    (launching 1 0 4 []).checkRecord 0 0 (1 :: kernelWords.drop 1) = none :=
  ⟨rfl, rfl, by decide, by decide, by decide +kernel, by decide +kernel⟩

/-- A launch of which die 0 has still to place its one block. -/
def placing : State :=
  let s := launching 1 0 4 []
  { s with
    warps := []
    blocks := []
    grids := s.grids.map fun g =>
      { g with
        lr := recordOf kernelWords 0
        shares := [{ die := 0, next := 0, assigned := [] }] } }

theorem meets_block_place : ∃ g x, placing.grid? 1 = some g ∧ g.lr.gain = false ∧ g.kind ≠ .tasks ∧ g.kind ≠ .sweep ∧
    g.ending = none ∧ (g.shares.find? fun x => x.die = 0) = some x ∧ placing.savedWaiting 0 g.tag = false ∧ x.assigned = [] ∧
    x.next < g.lr.groups ∧ placing.clusterFor 1 0 g.tag g.lr.need = some 0 ∧
    (placing.siteIn 0 g.tag g.lr.need 0).map (fun y => y.deferred) = some false :=
  ⟨_, _, rfl, rfl, by decide, by decide, rfl, rfl, rfl, rfl, by decide, by decide +kernel, by decide +kernel⟩

/-- Launches without blocks, one of the host, and one of tasks in an entry. -/
def retiring : State :=
  let s := launching 1 0 4 [{ childGrid 1023 with kind := .tasks }]
  { s with
    warps := []
    blocks := []
    grids := s.grids.map fun g => { g with ended := 1, done := true } }

theorem meets_grid_retire : (∃ g, retiring.grid? 1123 = some g ∧ retiring.mayRetire g = true ∧ g.kind = .tasks ∧
      g.entry = some (0, 1023, 3)) ∧
    ∃ g, { retiring with grids := retiring.grids.take 1 }.grid? 1 = some g ∧
      { retiring with grids := retiring.grids.take 1 }.mayRetire g = true ∧ g.kind = .host ∧ g.report = none :=
  ⟨⟨_, rfl, rfl, rfl, rfl⟩, ⟨_, rfl, rfl, rfl, rfl⟩⟩

/-- A launch with a thread in the supervisor view, which is awaited, and one of which nothing is left to stop. -/
def awaited : State :=
  let s := launching 1 0 4 []
  { s with warps := s.warps.map fun w => { w with threads := w.threads.map sup } }

def endedOf (s : State) : State := stopped s (s.wholeTree 1) (s.endingOf (s.wholeTree 1) 3)

theorem meets_runtime_end :
    (∃ g, awaited.grid? 1 = some g ∧ g.retired = false ∧ g.parent = none ∧ g.ending = none ∧
      (endedOf awaited).endReady
        ((endedOf awaited).rootOf (endedOf awaited).grids.length 1) = false) ∧
    ∃ g, placing.grid? 1 = some g ∧ g.retired = false ∧ g.parent = none ∧ g.ending = none ∧
      (endedOf placing).endReady 1 = true :=
  ⟨⟨_, rfl, rfl, rfl, rfl, by decide⟩, ⟨_, rfl, rfl, rfl, rfl, by decide⟩⟩

/-- A queue of 16 entries at the scratchpad's start, its data at 100h. -/
def queueing (open' head tail : Nat) : State :=
  let s := scr [0] (pages 0 false) (vs [(2, .all 0)])
  { s with mem := ((((s.mem.writeNat (2 ^ 42 + 0x200000) 4 open').writeNat (2 ^ 42 + 0x200004) 4 head).writeNat
      (2 ^ 42 + 0x200008) 4 tail).writeNat (2 ^ 42 + 0x20000C) 1 4).writeNat (2 ^ 42 + 0x200010) 8 0xC00000000100 }

def pushHold (a : Opd) (s : State) (e : Env) (t : Thread) : Option Hold :=
  match holdRelease c0 s e t with
  | some w => some w
  | none => holdQueue c0 a s e t

/-- The header reads with what is asked, and the entry's page translates. -/
def headB (s : State) (q : QHead → Bool) (e : Env) (t : Thread) : Bool :=
  okB (fun h => q h && (s.queuePa e t (h.data - 0xC00000000000 + 8 * (h.tail % 2 ^ h.logcap)) true).isSome)
    (s.queueHead e t (e.read0 s t (.v 2)).toNat)

def isFull (h : QHead) : Bool := decide (h.isOpen ≠ 0) && decide ((h.tail + 2 ^ 32 - h.head) % 2 ^ 32 = 2 ^ h.logcap)
def hasRoom (h : QHead) : Bool := decide (h.isOpen ≠ 0) && decide ((h.tail + 2 ^ 32 - h.head) % 2 ^ 32 ≠ 2 ^ h.logcap)
def isClosed (h : QHead) : Bool := decide (h.isOpen = 0)

/-- Closed; full; with room for the last entry, the counts past their wrap. -/
theorem meets_qpush : (∃ e t, Normal (queueing 0 0 0) e (Form.short c0 (.v 2 :: (Opd.v 8).run 2) []).accesses (pushHold (.v 2)) ∧
      e.parts c0 = [t] ∧ headB (queueing 0 0 0) isClosed e t = true) ∧
    (∃ e t, Normal (queueing 1 0xFFFFFFF8 8) e (Form.short c0 (.v 2 :: (Opd.v 8).run 2) []).accesses (pushHold (.v 2)) ∧
      e.parts c0 = [t] ∧ headB (queueing 1 0xFFFFFFF8 8) isFull e t = true) ∧
    ∃ e t, Normal (queueing 1 0xFFFFFFF8 7) e (Form.short c0 (.v 2 :: (Opd.v 8).run 2) []).accesses (pushHold (.v 2)) ∧
      e.parts c0 = [t] ∧ headB (queueing 1 0xFFFFFFF8 7) hasRoom e t = true :=
  ⟨issues_one (q := headB (queueing 0 0 0) isClosed) (by decide) (by decide) (by decide),
    issues_one (q := headB (queueing 1 0xFFFFFFF8 8) isFull) (by decide) (by decide) (by decide),
    issues_one (q := headB (queueing 1 0xFFFFFFF8 7) hasRoom) (by decide) (by decide) (by decide)⟩

theorem meets_qpop_and_qclose :
    (∃ e t, Normal (queueing 1 5 5) e (Form.short c0 [.v 2] (vrun 8 2)).accesses (holdQueue c0 (.v 2)) ∧ e.parts c0 = [t] ∧
      headB (queueing 1 5 5) (fun h => decide (h.tail = h.head) && decide (h.isOpen ≠ 0)) e t = true) ∧
    (∃ e t, Normal (queueing 0 5 5) e (Form.short c0 [.v 2] (vrun 8 2)).accesses (holdQueue c0 (.v 2)) ∧ e.parts c0 = [t] ∧
      headB (queueing 0 5 5) (fun h => decide (h.tail = h.head) && decide (h.isOpen = 0)) e t = true) ∧
    (∃ e t, Normal (queueing 0 5 6) e (Form.short c0 [.v 2] (vrun 8 2)).accesses (holdQueue c0 (.v 2)) ∧ e.parts c0 = [t] ∧
      headB (queueing 0 5 6) (fun h => decide (h.tail ≠ h.head)) e t = true) ∧
    (∃ e t, Normal (queueing 1 0 0) e (Form.short c0 [.v 2] []).accesses (holdQueue c0 (.v 2)) ∧ e.parts c0 = [t] ∧
      headB (queueing 1 0 0) hasRoom e t = true) ∧
    ∃ e t, Normal (queueing 0 0 0) e (Form.short c0 [.v 2] []).accesses (holdQueue c0 (.v 2)) ∧ e.parts c0 = [t] ∧
      headB (queueing 0 0 0) isClosed e t = true :=
  ⟨issues_one (q := headB (queueing 1 5 5) (fun h => decide (h.tail = h.head) && decide (h.isOpen ≠ 0))) (by decide)
      (by decide) (by decide),
    issues_one (q := headB (queueing 0 5 5) (fun h => decide (h.tail = h.head) && decide (h.isOpen = 0))) (by decide)
      (by decide) (by decide),
    issues_one (q := headB (queueing 0 5 6) (fun h => decide (h.tail ≠ h.head))) (by decide) (by decide) (by decide),
    issues_one (q := headB (queueing 1 0 0) hasRoom) (by decide) (by decide) (by decide),
    issues_one (q := headB (queueing 0 0 0) isClosed) (by decide) (by decide) (by decide)⟩

/-- A supervisor thread that names an epoch, at QEPOCH 0. -/
def epoch (x : Word) : State := stT fun t => vs [(2, .all x)] (sup t)

/-- A supervisor thread, for each form of `tlbinv` and for `qwait` for the epoch that is done and the next. -/
theorem meets_translation_words : (∃ e, Normal (stT sup) e (Form.sup c0 [.v 2] []) noHold ∧ e.parts c0 ≠ []) ∧
    (∃ e, Normal (stT sup) e (Form.sup c0 [] []) noHold ∧ e.parts c0 ≠ []) ∧
    (∃ e, Normal (epoch 0xFFFFFFFF) e (Form.sup c0 [.v 2] []) noHold ∧ ∀ t ∈ e.parts c0,
      ((epoch 0xFFFFFFFF).qdone e.w.die - e.read0 (epoch 0xFFFFFFFF) t (.v 2)).toNat < 2 ^ 31) ∧
    ∃ e, Normal (epoch 0) e (Form.sup c0 [.v 2] []) noHold ∧ ∀ t ∈ e.parts c0,
      ¬((epoch 0).qdone e.w.die - e.read0 (epoch 0) t (.v 2)).toNat < 2 ^ 31 :=
  ⟨issues_with (by decide) (by decide) (by decide), issues_with (by decide) (by decide) (by decide),
    issues_with (by decide) (by decide) (by decide), issues_with (by decide) (by decide) (by decide)⟩

/-- A walk that has ended, at cycle 256. -/
def walking : State :=
  let s := { base with now := 256 }
  s.setDie { s.die 0 with walks :=
    [{ core := some 0, tag := 0, main := false, page := 0, leaf := 0, big := false, level := 0, path := [5], root := 0 }] }

theorem meets_walk_and_epoch : (∃ x rest, (walking.die 0).walks = x :: rest) ∧ (walking.die 0).lastEpoch + 256 ≤ walking.now ∧
    base.now < (base.die 0).lastEpoch + 256 := ⟨⟨_, _, rfl⟩, by decide⟩

/-! The package. -/

theorem meets_lpush : (∃ e t, Normal (launching 1 0 6 []) e (Form.short c0 [.v 2] []) (holdPush c0 (.v 2)) ∧ e.parts c0 = [t] ∧
      recordB (launching 1 0 6 []) false e t = true) ∧
    ∃ e t, Normal (launching 1 0 4 []) e (Form.short c0 [.v 2] []) (holdPush c0 (.v 2)) ∧ e.parts c0 = [t] ∧
      (recordB (launching 1 0 4 []) true e t && decide (((launching 1 0 4 []).ctx e.g.tag).ltpos < 4096) &&
        decide (((launching 1 0 4 []).ctx e.g.tag).sweep = none)) = true :=
  ⟨issues_one (q := recordB (launching 1 0 6 []) false) (by decide) (by decide) (by decide),
    issues_one (q := fun e t => recordB (launching 1 0 4 []) true e t &&
      decide (((launching 1 0 4 []).ctx e.g.tag).ltpos < 4096) && decide (((launching 1 0 4 []).ctx e.g.tag).sweep = none))
      (by decide) (by decide) (by decide)⟩

theorem plain_launching : PlainMemory (launching 1 0 4 []) := ⟨rfl, rfl, rfl, rfl⟩

/-- A tape with a number of records, swept or not. -/
def taped (nest pos : Nat) (off w0 : Word) (w : Option Sweep) (gs : List Grid) : State :=
  let s := launching nest off w0 gs
  s.setCtx
    { s.ctx 0 with
      ltpos := pos
      sweep := w }

theorem meets_lpush_full : ∃ e t, Normal (taped 1 4096 0 4 none []) e (Form.short c0 [.v 2] []) (holdPush c0 (.v 2)) ∧
    e.parts c0 = [t] ∧ (recordB (taped 1 4096 0 4 none []) true e t &&
      decide (4096 ≤ ((taped 1 4096 0 4 none []).ctx e.g.tag).ltpos)) = true :=
  issues_one (q := fun e t => recordB (taped 1 4096 0 4 none []) true e t &&
    decide (4096 ≤ ((taped 1 4096 0 4 none []).ctx e.g.tag).ltpos)) (by decide) (by decide) (by decide)

/-- The update list's count, and its records where that reads none or one. -/
def updatesB (s : State) (q : Nat → Bool) (e : Env) (t : Thread) : Bool :=
  let off := (e.read0 s t (.v 2)).toNat
  okB (fun head => q ((head.getD 0 0).extractLsb' 0 13).toNat) (s.readRecord e t off 1 64)

def sweepForm : Form := Form.short c0 [.v 2] (Dst.v 7).opds

theorem meets_lsweep_count : ∃ e t, Normal (launching 1 0 4097 []) e sweepForm (holdSweep c0 (.v 2)) ∧ e.parts c0 = [t] ∧
    updatesB (launching 1 0 4097 []) (fun n => decide (4096 < n)) e t = true :=
  issues_one (q := updatesB (launching 1 0 4097 []) fun n => decide (4096 < n)) (by decide) (by decide) (by decide)

/-- No update records, at levels 8 and 9. -/
theorem meets_lsweep : (∃ e t, Normal (launching 8 0 0 []) e sweepForm (holdSweep c0 (.v 2)) ∧ e.parts c0 = [t] ∧
      (updatesB (launching 8 0 0 []) (fun n => decide (n = 0)) e t && decide (e.g.nest < 9) &&
        decide (((launching 8 0 0 []).ctx e.g.tag).sweep = none)) = true) ∧
    (∃ e t, Normal (launching 9 0 0 []) e sweepForm (holdSweep c0 (.v 2)) ∧ e.parts c0 = [t] ∧
      (updatesB (launching 9 0 0 []) (fun n => decide (n = 0)) e t && decide (9 ≤ e.g.nest)) = true) ∧
    (∀ e t, (launching 8 0 0 []).readUpdates e t 0 0 0 = .ok []) ∧ (launching 8 0 0 []).freeEntries 0 ≠ [] :=
  ⟨issues_one (q := fun e t => updatesB (launching 8 0 0 []) (fun n => decide (n = 0)) e t && decide (e.g.nest < 9) &&
      decide (((launching 8 0 0 []).ctx e.g.tag).sweep = none)) (by decide) (by decide) (by decide),
    issues_one (q := fun e t => updatesB (launching 9 0 0 []) (fun n => decide (n = 0)) e t && decide (9 ≤ e.g.nest))
      (by decide) (by decide) (by decide +kernel), fun _ _ => rfl, entries_free (by decide) rfl⟩

/-- A sweep's grid, in no entry, and the tape's newest record at main memory's start. -/
def sweepGrid (nest : Nat) : Grid :=
  { childGrid 0 with
    gid := 100
    kind := .sweep
    nest := nest
    tag := 0
    entry := none }

def sweeping (nest pos : Nat) (w0 : Word) (w : Sweep) : State :=
  let s := taped 1 pos 0 4 (some w) [sweepGrid nest]
  { s with mem := (s.mem.writeNat 0 4 w0.toNat).writeNat 44 4 (40 + 16 * 1024) }

def sweepOf (l : List (List Word)) (b : Bool) : Sweep := { gid := 100, updates := l, started := b }

theorem meets_sweep_tape : (((sweeping 2 1 4 (sweepOf [] false)).ctx 0).sweep = some (sweepOf [] false) ∧
      (sweeping 2 1 4 (sweepOf [] false)).grid? 100 = some (sweepGrid 2) ∧
      (sweeping 2 1 4 (sweepOf [] false)).sweptBy 100 = [] ∧ ((sweeping 2 1 4 (sweepOf [] false)).ctx 0).ltpos = 0 + 1) ∧
    ((sweeping 2 1 4 (sweepOf [] false)).sweepable (sweepGrid 2)
      ((sweeping 2 1 4 (sweepOf [] false)).tapeRecord 0 0)).isSome = true ∧
    (sweeping 2 1 4 (sweepOf [] false)).freeEntries (sweepGrid 2).entryDie ≠ [] ∧
    ((sweeping 2 1 6 (sweepOf [] false)).sweepable (sweepGrid 2)
      ((sweeping 2 1 6 (sweepOf [] false)).tapeRecord 0 0)).isSome = false :=
  ⟨⟨rfl, rfl, by decide, rfl⟩, by decide +kernel, entries_free (by decide) rfl, by decide +kernel⟩

theorem meets_sweep_updates : ((sweepOf [kernelWords] true).started = true ∧ (sweepOf [kernelWords] true).updates = [kernelWords] ∧
      ((sweeping 2 0 4 (sweepOf [kernelWords] true)).sweepable (sweepGrid 2) (some kernelWords)).isSome = true) ∧
    ((sweeping 2 0 4 (sweepOf [] false)).ctx 0).ltpos = 0 ∧ (sweepOf [] false).updates = [] := ⟨⟨rfl, rfl, by decide⟩, rfl, rfl⟩

/-- `preempt` of all 160 cores, and of 161. -/
def preempting (a b : Word) : State := stT fun t => vs [(2, .all a), (3, .all b)] (sup t)

theorem meets_preempt : (∃ e, Normal (preempting 1 160) e (Form.sup c0 [.v 2, .v 3] (Dst.v 7).opds) noHold ∧ e.parts c0 ≠ []) ∧
    (∃ e, Normal (preempting 1 161) e (Form.sup c0 [.v 2, .v 3] (Dst.v 7).opds) noHold ∧ e.parts c0 ≠ []) ∧
    ((1 : Word).extractLsb' 12 20 = 0 ∧ (160 : Word).extractLsb' 10 22 = 0 ∧ ((160 : Word).extractLsb' 0 8).toNat = 160 ∧
      ((161 : Word).extractLsb' 0 8).toNat = 161) :=
  ⟨issues_with (by decide) (by decide) (by decide), issues_with (by decide) (by decide) (by decide), by decide⟩

/-- `halt` of the thread's own context, of one without launches, and with a reserved bit. -/
theorem meets_halt : (∃ e, Normal (preempting 1 0) e (Form.sup c0 [.v 2] []) noHold ∧ e.parts c0 ≠ [] ∧
      ∃ g ∈ (preempting 1 0).grids, g.tag = 1 ∧ g.retired = false ∧ g.kind ≠ .service) ∧
    (∃ e, Normal (preempting 5 0) e (Form.sup c0 [.v 2] []) noHold ∧ e.parts c0 ≠ [] ∧
      ∀ g ∈ (preempting 5 0).grids, g.tag = 5 → g.retired = true ∨ g.kind = .service) ∧
    ∃ e, Normal (preempting 0x1000 0) e (Form.sup c0 [.v 2] []) noHold ∧ e.parts c0 ≠ [] ∧
      (0x1000 : Word).extractLsb' 12 20 ≠ 0 :=
  ⟨issues_with (by decide) (by decide) (by decide), issues_with (by decide) (by decide) (by decide),
    issues_with (by decide) (by decide) (by decide)⟩

/-- A quiet block to be saved, with lines of the bivouac area and without; one that is not quiet. -/
def saving (size : Nat) (ft : Thread → Thread) : State :=
  let s := stT ft
  s.setDie
    { s.die 0 with
      bivSize := size
      saves := [{ id := 9, tag := 1, cores := [0], bids := [2] }] }

/-- What a save needs. -/
def saveB (s : State) (b : Block) : Bool :=
  let l := (s.saveDue b).map fun x => s.saveGroup x.1 x.2
  (l.map fun l => s.bivouacFits b.die (128 * (l.map fun y => linesFor (s.coreBytes y + s.engineBytes y)).sum)).getD false

theorem meets_save : ∃ b b', (saving 64 id).block? 2 = some b ∧ (saving 64 id).saveDue b ≠ none ∧ saveB (saving 64 id) b = true ∧
    (saving 0 id).block? 2 = some b ∧ (saving 0 id).saveDue b ≠ none ∧ saveB (saving 0 id) b = false ∧
    (saving 64 sup).block? 2 = some b' ∧ (saving 64 sup).saveDue b' = none := by
  refine ⟨_, _, rfl, ?_, ?_, rfl, ?_, ?_, rfl, ?_⟩ <;> decide +kernel

/-- A saved block on a die with free cores. -/
def saved' : State :=
  let s := st id (fun w => { w with saved := true }) (fun b => { b with saveId := some 1 }) id
  { s with pkg := { s.pkg with funcs := [func] } }

theorem meets_resume : ∃ b, saved'.block? 2 = some b ∧ (saved'.mayResume b).isSome = true := ⟨_, rfl, by decide +kernel⟩

/-- A core between contexts 1 and 2. -/
def slicing (ts : Word) (x : Slice) : State :=
  let s := base
  s.setCore
    { s.core 0 0 with
      tsctl := ts
      slice := some x }

def sliceIn (tag : BitVec 12) (p : SlicePhase) : Slice := { tag := tag, expiry := 0, phase := p }

/-- A core whose die has an area of a number of pages. -/
def room (n : Nat) (s : State) : State := s.setDie { s.die 0 with bivSize := n }

/-- With the block of context 1 saved while context 2 has its slice; with a thread in the runtime. -/
def sliceWaiting : State :=
  let s := slicing 0x01001002 (sliceIn 2 .running)
  { s with blocks := s.blocks.map fun b => { b with saveId := some 1 } }

def sliceBusy : State :=
  let s := slicing 0x01002001 (sliceIn 1 .saving)
  { s with warps := s.warps.map fun w => { w with threads := w.threads.map sup } }

/-- With slices of no cycles; with no other blocks; with a saved block of the other context that fits. -/
theorem meets_slice_expiry : ((slicing 0x00002001 (sliceIn 1 .running)).core 0 0).slice = some (sliceIn 1 .running) ∧
    4096 * (((slicing 0x00002001 (sliceIn 1 .running)).core 0 0).tsctl.extractLsb' 24 8).toNat = 0 ∧
    4096 * (((slicing 0x01002001 (sliceIn 1 .running)).core 0 0).tsctl.extractLsb' 24 8).toNat ≠ 0 ∧
    (slicing 0x01002001 (sliceIn 1 .running)).sliceSaved ((slicing 0x01002001 (sliceIn 1 .running)).core 0 0)
      (((slicing 0x01002001 (sliceIn 1 .running)).core 0 0).otherTag 1) = [] ∧
    sliceWaiting.sliceSaved (sliceWaiting.core 0 0) ((sliceWaiting.core 0 0).otherTag 2) ≠ [] ∧
    sliceWaiting.bivouacFits 0 (sliceWaiting.sliceRoom (sliceWaiting.sliceBlocks (sliceWaiting.core 0 0) 2)) = true :=
  ⟨rfl, by decide, by decide, by decide, by decide, by decide⟩

theorem meets_slice_transfer :
    (∀ y ∈ (slicing 0x01002001 (sliceIn 1 .saving)).sliceBlocks ((slicing 0x01002001 (sliceIn 1 .saving)).core 0 0) 1,
      (slicing 0x01002001 (sliceIn 1 .saving)).quiet y = true) ∧
    (∃ s, s = slicing 0x01002001 (sliceIn 1 .saving) ∧
      (room 0 s).bivouacFits 0 ((room 0 s).sliceRoom ((room 0 s).sliceBlocks ((room 0 s).core 0 0) 1)) = false ∧
      (room 64 s).bivouacFits 0 ((room 64 s).sliceRoom ((room 64 s).sliceBlocks ((room 64 s).core 0 0) 1)) = true) ∧
    (∃ y ∈ sliceBusy.sliceBlocks (sliceBusy.core 0 0) 1, sliceBusy.quiet y = false) := by
  refine ⟨by decide, ⟨_, rfl, by decide +kernel, by decide +kernel⟩, by decide⟩

/-- A checkpoint descriptor in main memory: one page to the page that follows, or at an unmapped address. -/
def marking (va : Word) : State :=
  let s := stT fun t => vs [(2, .all va), (3, .all 0)] (sup t)
  { s with mem := (((s.mem.writeNat (0x14000 + 8 * 17) 8 (2 ^ 63 + 2 ^ 62 + 2 ^ 61 + 0x200000)).writeNat 0x100100 8 0x110000).writeNat
      0x100108 8 1).writeNat 0x100120 8 0x100000 }

def movesB (s : State) (ok : Bool) (e : Env) (t : Thread) : Bool :=
  okB (fun _ => true) (s.ckMoves e t (e.farAddr s t (.v 2)).toNat) == ok

theorem meets_ckmark : (∃ e t, Normal (marking 0x100100) e (Form.sup c0 [.v 2, (Opd.v 2).plus 1] []) (holdRelease c0) ∧
      e.parts c0 = [t] ∧ (movesB (marking 0x100100) true e t && decide ((marking 0x100100).pkg.ckBusy = none)) = true) ∧
    ∃ e t, Normal (marking 0x180000) e (Form.sup c0 [.v 2, (Opd.v 2).plus 1] []) (holdRelease c0) ∧ e.parts c0 = [t] ∧
      movesB (marking 0x180000) false e t = true :=
  ⟨issues_one (q := fun e t => movesB (marking 0x100100) true e t && decide ((marking 0x100100).pkg.ckBusy = none)) (by decide)
      (by decide) (by decide),
    issues_one (q := movesB (marking 0x180000) false) (by decide) (by decide) (by decide)⟩

theorem meets_enrd : (∃ e, Normal base e { Form.short c0 [] ((Dst.v 7).opds ++ ((Dst.v 7).plus 1).opds) with priv := false } noHold ∧
      e.parts c0 ≠ []) ∧
    ∃ e, Normal (stT sup) e { Form.short c0 [] ((Dst.v 7).opds ++ ((Dst.v 7).plus 1).opds) with priv := true } noHold ∧
      e.parts c0 ≠ [] := ⟨issues_with (by decide) (by decide) (by decide), issues_with (by decide) (by decide) (by decide)⟩

/-- The last page of a drain, in the last unit of stacked memory. -/
theorem meets_drain : ∃ x m rest, ({ moves := [(2 ^ 42 - 65536, 0)], tag := 0 } : Drain) = x ∧ x.moves = m :: rest ∧
    (∀ y ∈ rest, y.1 ≠ m.2) ∧ m.1 + 65536 ≤ 2 ^ 42 ∧ m.2 + 65536 ≤ 2 ^ 42 := ⟨_, _, _, rfl, rfl, by simp, by decide⟩

/-- A tick due to a core with warps of two contexts, and none. -/
theorem meets_tick : base.tickDue 0 0 = false ∧ { crowd 2 0 false with now := 2 ^ 20 }.tickDue 0 0 = true ∧
    ∃ first others, { crowd 2 0 false with now := 2 ^ 20 }.tickShares 0 0 = first :: others := ⟨by decide, by decide, _, _, rfl⟩

/-- TRCTL.SW, and records in the buffer or dropped. -/
def tracing (sw : Word) (dropped : Nat) : State :=
  let s := base.setDie { base.die 0 with trctl := sw }
  { s with clusters := [{ Cluster.blank 0 0 with dropped := dropped }] }

theorem meets_trace : (∃ e, Normal (tracing 0 0) e (Form.short c0 [.v 2] []) noHold ∧ e.parts c0 ≠ [] ∧
      ((tracing 0 0).die e.w.die).trctl.getLsbD 0 = false) ∧
    (∃ e, Normal (tracing 1 0) e (Form.short c0 [.v 2] []) noHold ∧ e.parts c0 ≠ [] ∧
      ((tracing 1 0).die e.w.die).trctl.getLsbD 0 = true ∧ ((tracing 1 0).cluster e.w.die (e.w.core / 4)).dropped = 0 ∧
      ((tracing 1 0).cluster e.w.die (e.w.core / 4)).trace.length < traceRoom) ∧
    ∃ e, Normal (tracing 1 1) e (Form.short c0 [.v 2] []) noHold ∧ e.parts c0 ≠ [] ∧
      ((tracing 1 1).die e.w.die).trctl.getLsbD 0 = true ∧ ((tracing 1 1).cluster e.w.die (e.w.core / 4)).dropped ≠ 0 :=
  ⟨issues_with (by decide) (by decide) (by decide), issues_with (by decide) (by decide) (by decide),
    issues_with (by decide) (by decide) (by decide)⟩

theorem meets_wpset : ∃ e, Normal (preempting 64 0x0007FFFF) e (Form.sup c0 (vrun 2 4) []) noHold ∧ e.parts c0 ≠ [] ∧
    ((64 : Word).extractLsb' 0 6 = 0 ∧ (0x0007FFFF : Word).extractLsb' 19 13 = 0 ∧ (63 : Word).extractLsb' 0 6 ≠ 0) :=
  issues_with (by decide) (by decide) (by decide)

theorem meets_gating : base.mayGate 0 1 = true ∧ base.mayGate 0 0 = false ∧
    ((base.setCore { base.core 0 1 with gated := true }).core 0 1).gated = true ∧
    PlainMemory base ∧ ∃ r rest, ({ Cluster.blank 0 0 with trace := [[0, 0, 0, 0, 0, 0, 0, 0]] } : Cluster).trace = r :: rest :=
  ⟨by decide, by decide, rfl, ⟨rfl, rfl, rfl, rfl⟩, _, _, rfl⟩

/-- Keys of a context of the function, and of context 0. -/
def keying (tag : Word) : State :=
  let s := preempting tag 0
  { s with pkg :=
      { s.pkg with
        funcs := [func]
        ports := [{ port with retries := 8 }] } }

theorem meets_keyset : (∃ e, Normal (keying 15) e (Form.sup c0 [.v 2] []) noHold ∧ e.parts c0 ≠ [] ∧
      (keying 15).tagInFunc e 15 = true) ∧
    (∃ e, Normal (keying 15) e (Form.sup c0 (.v 2 :: vrun 8 16) []) noHold ∧ e.parts c0 ≠ []) ∧
    ∃ e, Normal (keying 0) e (Form.sup c0 [.v 2] []) noHold ∧ e.parts c0 ≠ [] :=
  ⟨issues_with (by decide) (by decide) (by decide), issues_with (by decide) (by decide) (by decide),
    issues_with (by decide) (by decide) (by decide)⟩

/-! Boot: a signature that verifies. The key of a tree ends with the root that a signature of it gives, so the keys are
written after the signatures. -/

/-- A signature of one tree, of zeros but for its types. -/
def lmsZeros : List Byte :=
  List.replicate 4 0 ++ beBytes 4 otsType ++ List.replicate 1120 0 ++ beBytes 4 lmsType ++ List.replicate 320 0

/-- The public key under which that signature verifies for a message. -/
def keyFor (msg : List Byte) : List Byte :=
  beBytes 4 lmsType ++ beBytes 4 otsType ++ List.replicate 16 0 ++ lmsRoot (List.replicate 16 0) lmsZeros msg

/-- The signature of two levels of an image, and the key under which it verifies. -/
def signatureOf (msg : List Byte) : List Byte := beBytes 4 1 ++ lmsZeros ++ keyFor msg ++ lmsZeros
def upperKey (msg : List Byte) : List Byte := keyFor (keyFor msg)

theorem lmsRoot_length (i sig msg : List Byte) : (lmsRoot i sig msg).length = 32 := rfl

theorem beBytes_length (n x : Nat) : (beBytes n x).length = n := by
  have h : ∀ n x, (leBytes n x).length = n := fun n => by
    induction n with
    | zero => intro _; rfl
    | succ n ih => intro x; simp [leBytes, ih]
  simp [beBytes, h]

theorem keyFor_verifies (msg : List Byte) : lmsVerify (keyFor msg) lmsZeros msg = true := by
  have hl := lmsRoot_length (List.replicate 16 0) lmsZeros msg
  have hk : ∀ r : List Byte, r.length = 32 →
      lmsRoot (List.replicate 16 0) lmsZeros msg = r →
      lmsVerify (beBytes 4 lmsType ++ beBytes 4 otsType ++ List.replicate 16 0 ++ r) lmsZeros msg = true := by
    intro r hr hm
    have h8 : Machine.slice (beBytes 4 lmsType ++ beBytes 4 otsType ++ List.replicate 16 0 ++ r) 8 16 = List.replicate 16 0 := by
      rfl
    have h0 : Machine.slice (beBytes 4 lmsType ++ beBytes 4 otsType ++ List.replicate 16 0 ++ r) 0 8 =
      beBytes 4 lmsType ++ beBytes 4 otsType := by rfl
    have h24 : Machine.slice (beBytes 4 lmsType ++ beBytes 4 otsType ++ List.replicate 16 0 ++ r) 24 32 = r.take 32 := by rfl
    simp only [lmsVerify, h8, h0, h24, hm]
    have hz : (decide (lmsZeros.length = lmsLength) && decide (Machine.slice lmsZeros 4 4 = beBytes 4 otsType) &&
      decide (Machine.slice lmsZeros (4 + otsLength) 4 = beBytes 4 lmsType) &&
      decide (beNat (Machine.slice lmsZeros 0 4) < 2 ^ lmsHeight)) = true := by decide +kernel
    simp only [Bool.and_eq_true] at hz
    simp [hz.1.1.1, hz.1.1.2, hz.1.2, hz.2, hr, beBytes_length, lmsKeyLength, List.take_of_length_le (Nat.le_of_eq hr)]
  exact hk _ hl rfl

/-- A boot configuration of one function, with a first stage whose signature is given. -/
def bootOf (signature : List Byte) : BootConfig :=
  { stage := ⟨[1, 2, 3], signature, 0⟩
    images := [⟨[4], [], 65536⟩]
    funcs := [(func.cfg, [4])]
    entab := List.replicate 32 0
    perus := 0
    boardCount := 1
    pkg := 0
    ringBase := 0
    root := 0 }

theorem signature_verifies (msg : List Byte) : hssVerify (upperKey msg) (signatureOf msg) msg = true := by
  have hk : (keyFor msg).length = 56 := by simp [keyFor, lmsRoot_length, beBytes_length]
  have hz : lmsZeros.length = 1452 := by decide +kernel
  have h4 := beBytes_length 4 1
  have h0 : Machine.slice (signatureOf msg) 0 4 = beBytes 4 1 := by simp [Machine.slice, signatureOf, h4]
  have h1 : Machine.slice (signatureOf msg) 4 lmsLength = lmsZeros := by
    simp [Machine.slice, signatureOf, lmsLength, h4, hz]
  have d4 : ∀ n, (beBytes 4 1).drop (4 + n) = [] := fun n => List.drop_eq_nil_of_le (by omega)
  have dz : ∀ n, lmsZeros.drop (1452 + n) = [] := fun n => List.drop_eq_nil_of_le (by omega)
  have h2 : Machine.slice (signatureOf msg) (4 + lmsLength) lmsKeyLength = keyFor msg := by
    simp [Machine.slice, signatureOf, lmsLength, lmsKeyLength, h4, hz, hk, List.drop_append, d4 1452]
  have h3 : Machine.slice (signatureOf msg) (4 + lmsLength + lmsKeyLength) lmsLength = lmsZeros := by
    simp [Machine.slice, signatureOf, lmsLength, lmsKeyLength, h4, hz, hk, List.drop_append, d4 1508, dz 56, List.take_of_length_le (Nat.le_of_eq hz)]
  have hl : (signatureOf msg).length = hssLength := by simp [signatureOf, h4, hz, hk, hssLength]
  simp only [hssVerify, h0, h1, h2, h3, hl, upperKey, keyFor_verifies]
  decide

/-- The package before boot, with the key of a signature, and boots whose first stage verifies or does not. -/
theorem meets_boot : ∃ s : State, s = { State.reset with pkg := { State.reset.pkg with imageKey := upperKey [1, 2, 3] } } ∧
    s.pkg.booted = false ∧ (∀ l, (bootOf l).ok = true ∧ s.clustersExist (bootOf l) = true) ∧
    hssVerify s.pkg.imageKey (bootOf []).stage.signature (bootOf []).stage.bytes = false ∧
    hssVerify s.pkg.imageKey (bootOf (signatureOf [1, 2, 3])).stage.signature
      (bootOf (signatureOf [1, 2, 3])).stage.bytes = true :=
  ⟨_, rfl, rfl, fun _ => ⟨rfl, rfl⟩, rfl, signature_verifies _⟩

/-- One function, fenced or not, and its port after eight retries. -/
theorem meets_fences : ((keying 15).pkg.funcs.map fun f => f.num).Nodup ∧ func ∈ (keying 15).pkg.funcs ∧ func.fenced = false ∧
    func.num ∈ (keying 15).fencedBy (.cluster 0 0) ∧ (∃ f : Func, f = { func with fenced := true } ∧ f.fenced = true) ∧
    (∃ p, ((keying 15).pkg.ports.find? fun p => p.port = 2) = some p ∧ 8 ≤ p.retries) ∧
    ∃ p, ([port].find? fun p => p.port = 2) = some p ∧ p.retries < 8 :=
  ⟨by decide, by decide, rfl, by decide, ⟨_, rfl, rfl⟩, ⟨_, rfl, by decide⟩, ⟨_, rfl, by decide⟩⟩

/-! Steps and words. -/

/-- The machine of a placed word with its one thread changed. -/
def placed (w : DWord) (ft : Thread → Thread) : State :=
  let s := State.reset.loadWord w
  { s with warps := s.warps.map fun w => { w with threads := w.threads.map ft } }

/-- The word `nop`. -/
def nopWord : DWord := 0x1080000000000000

def atWord : Issue := { wid := 3, thrs := [0], pc := nextPc loadPc }
def atHeader : Issue := { wid := 3, thrs := [0], pc := loadPc }

def atStart (t : Thread) : Thread :=
  { t with
    pc := loadPc
    cl := Clause.none }

theorem free_of {s : State} (hp : s.pkg.powered = true) (hu : s.urgent = []) (hi : s.inputs = []) : Free s :=
  { power := hp
    urgent := hu
    quiet := by simp [hi] }

theorem meets_step_in_a_span : ∃ t e i, Chosen (placed nopWord id) atWord t e ∧ t.cl.pos ≠ 0 ∧
    (placed nopWord id).fetchWord e.g.tag atWord.pc = some nopWord ∧ decode nopWord = .ok i :=
  ⟨_, _, _, { free := free_of rfl rfl rfl, choice := rfl, head := rfl, env := rfl }, by decide, rfl, rfl⟩

theorem meets_step_at_a_header : ∃ t e h i, Chosen (placed nopWord atStart) atHeader t e ∧ t.cl.pos = 0 ∧
    (placed nopWord atStart).fetchWord e.g.tag atHeader.pc = some loadHeader.word ∧ isHeader loadHeader.word = true ∧
    headerOf loadHeader.word = some h ∧ (∀ n < 12, h.wait.getLsbD n = true → e.w.flags.getD n 0 = 0) ∧
    (pastHeader (placed nopWord atStart) atHeader h).fetchWord e.g.tag (nextPc atHeader.pc) = some nopWord ∧
    decode nopWord = .ok i :=
  ⟨_, _, loadHeader, _, { free := free_of rfl rfl rfl, choice := rfl, head := rfl, env := rfl }, rfl, rfl, by decide, by decide,
    by decide, rfl, rfl⟩

/-- A header that waits for flag 11, which counts one instruction. -/
def waitHeader : Header := { loadHeader with wait := 0x800 }

def atWait : State :=
  let s := placed nopWord atStart
  { s with
    mem := s.mem.writeBytes 0x100000 (bytesOfWord waitHeader.word)
    warps := s.warps.map fun w => { w with flags := setAt w.flags 11 1 } }

theorem meets_step_waits : ∃ t e h, Chosen atWait atHeader t e ∧ t.cl.pos = 0 ∧
    atWait.fetchWord e.g.tag atHeader.pc = some waitHeader.word ∧ isHeader waitHeader.word = true ∧
    headerOf waitHeader.word = some h ∧ (∃ n < 12, h.wait.getLsbD n = true ∧ e.w.flags.getD n 0 ≠ 0) :=
  ⟨_, _, waitHeader, { free := free_of rfl rfl rfl, choice := rfl, head := rfl, env := rfl }, rfl, rfl, by decide, by decide,
    11, by decide, by decide, by decide⟩

/-- A walk is all that stands on. -/
def oneWalk : State :=
  State.reset.setDie
    { State.reset.die 0 with walks := [{ core := some 0, tag := 0, main := false, page := 0, leaf := 0, big := false }] }

theorem meets_step_of_an_agent : Free oneWalk ∧
    oneWalk.choose = .event (.translationWalkComplete 0) := ⟨free_of rfl rfl rfl, rfl⟩

theorem meets_step_idle : Free State.reset ∧ State.reset.choose = .idle := ⟨free_of rfl rfl rfl, rfl⟩

/-- The outside with something to do. -/
def asked (x : Input) : State := { State.reset with inputs := [x] }

/-- A tick is due to a core with warps. -/
theorem meets_step_whose_time_is_up : base.pkg.powered = true ∧
    ∃ i rest, { crowd 2 0 false with now := 2 ^ 20 }.urgent = i :: rest := ⟨rfl, _, _, rfl⟩

theorem meets_step_of_the_outside : (∀ x ∈ [Input.act .powerLoss, .allocate 1 [0], .softError (.phys 0) true, .freeKept [0]],
      (asked x).inputs = x :: [] ∧ (asked x).urgent = [] ∧ (asked x).pkg.powered = true ∧ (asked x).inputLines x = []) ∧
    ∃ s : State, s.pkg.powered = false ∧ ∀ c, s.inputs.head? ≠ some (.act (.boot c)) :=
  ⟨by decide, { State.reset with pkg := { State.reset.pkg with powered := false } }, rfl, by intro c h; cases h⟩

theorem meets_decode_of_encode : (Instr.nop c0).wf = true ∧ encode (.nop c0) = some nopWord ∧ decode nopWord = .ok (.nop c0) :=
  ⟨by decide, by decide, rfl⟩

theorem reset_invariant : State.reset.Inv where
  mem := by decide
  warps := by intro w h; cases h
  blocks := by intro b h; cases h
  ids := by intro w h; cases h

theorem meets_every_step_keeps_the_invariant : State.reset.Inv ∧ ∃ s', step State.reset = .next s' := ⟨reset_invariant, _, rfl⟩

/-! ## Single steps

Results that the spec works out, or that follow from a rule by hand; none is taken from the model. -/

/-- The state after an instruction. -/
def then' (s : State) (i : Instr) : State :=
  match exec i s with
  | .next t => t
  | .fault _ => s
  | .refused _ => s

def gives (i : Instr) (s : State) (n : Nat) (x : Triple) : Bool := decide ((then' s i).vreg 3 0 n = some x)

/-- The three siblings of a register. -/
def tri (a b c : Word) : Triple := { s0 := a, s1 := b, s2 := c }

/-- A launch with the seed of the spec's examples. -/
def seeded (l : List (Nat × Triple)) : State :=
  st (vs l) id id fun g => { g with lr := { g.lr with seed := 0x0000000123456789 } }

def threads (n : Nat) (s : State) : State :=
  { s with
    warps := s.warps.map fun w => { w with threads := (w.threads.map fun t =>
      (List.range n).map fun i => { t with idx := i }).flatten }
    cur := some { wid := 3, thrs := List.range n, pc := nextPc loadPc } }

/-- The sum of 05's example: 1.0 and 2^-24 with draws (down, up, up); IX is set and C is 1. -/
theorem test_fadd_draws : gives (.fadd c0 (.v 3) (.v 1) (.reg (.v 2))) (seeded [(1, .all 0x3F800000), (2, .all 0x33800000)]) 3
      (tri 0x3F800000 0x3F800001 0x3F800001) = true ∧
    ((then' (seeded [(1, .all 0x3F800000), (2, .all 0x33800000)]) (.fadd c0 (.v 3) (.v 1) (.reg (.v 2)))).thread? 3 0).map
      (fun t => (t.c, t.fpstat)) = some (1, 0x10) := by decide +kernel

/-- What follows it there: 22 digits, a spread of 2^-23. -/
theorem test_digits_and_spread : gives (.digits c0 (.v 4) (.v 3)) (seeded [(3, tri 0x3F800000 0x3F800001 0x3F800001)]) 4 (.all 22) = true ∧
    gives (.spread c0 (.v 5) (.v 3)) (seeded [(3, tri 0x3F800000 0x3F800001 0x3F800001)]) 5 (.all 0x34000000) = true := by decide +kernel

/-- R28's two examples: 18 digits and 0. -/
theorem test_digits_worked : gives (.digits c0 (.v 4) (.v 3)) (seeded [(3, tri 0x3F800000 0x3F800008 0x3F7FFFF0)]) 4 (.all 18) = true ∧
    gives (.digits c0 (.v 4) (.v 3)) (seeded [(3, tri 0 0x35000000 0x35000000)]) 4 (.all 0) = true := by decide +kernel

/-- R26's example: Rand(0, 0). -/
theorem test_rnd : gives (.rnd c0 (.v 4) false) (seeded []) 4 (.all 0xEC44E792) = true := by decide +kernel

/-- Three threads; v8 holds 1.0 in the first and 2^-25 in the others. -/
def reducing : State :=
  let s := threads 3 (seeded [])
  let v := fun (t : Thread) => vs [(8, .all (if t.idx = 0 then 0x3F800000 else 0x33000000))] t
  { s with warps := s.warps.map fun w => { w with threads := w.threads.map v } }

/-- 08's example: `redux` of 1.0, 2^-25 and 2^-25, in every participant; each C becomes 1. -/
theorem test_redux : (List.range 3).all (fun i =>
    decide ((then' reducing (.redux c0 .add .f32 false (.v 9) 8)).vreg 3 i 9 = some (tri 0x3F800000 0x3F800001 0x3F800001)) &&
      decide (((then' reducing (.redux c0 .add .f32 false (.v 9) 8)).thread? 3 i).map (fun t => t.c) = some 1)) = true := by
  decide +kernel

/-- 03's examples: 3.0 to L8 and to L6, nearest. -/
theorem test_cvt_log : gives (.cvt { c0 with rnd := .rn } (.v 4) (.v 3) .l8 .f32 0) (seeded [(3, .all 0x40400000)]) 4 (.all 0x0D) = true ∧
    gives (.cvt { c0 with rnd := .rn } (.v 4) (.v 3) .l6 .f32 0) (seeded [(3, .all 0x40400000)]) 4 (.all 0x06) = true := by decide +kernel

/-- 03's example: 1 + 2^-9 to E16, sibling 0 down and the others up. -/
theorem test_cvt_draws : gives (.cvt c0 (.v 4) (.v 3) .e16 .f32 0) (seeded [(3, .all 0x3F801000)]) 4 (tri 0x3F80 0x3F81 0x3F81) = true := by
  decide +kernel

/-- R112's example: the 64-bit sum 0000_0001_FFFF_FFFFh + 1. -/
theorem test_iaddc :
    let s := seeded [(0, .all 0xFFFFFFFF), (1, .all 1), (2, .all 1), (3, .all 0)]
    let u := then' s (.iaddc c0 (.v 4) (.v 0) (.v 2) 0 1 false false)
    (u.vreg 3 0 4 = some (.all 0) ∧ u.preg 3 0 1 = some 7) ∧
      gives (.iaddc c0 (.v 5) (.v 1) (.v 3) 1 1 true false) (stT fun t => vs [(1, .all 1), (3, .all 0)] (t.setPred 1 7)) 5 (.all 2) = true := by
  decide +kernel

/-- Table 5.2: wrap and saturation. -/
theorem test_iadd_and_isub : gives (.iadd c0 (.v 4) (.v 2) (.imm 1) false) (stV [(2, 0x7FFFFFFF)]) 4 (.all 0x80000000) = true ∧
    gives (.isub c0 (.v 4) (.v 2) (.imm 1) true) (stV [(2, 0x80000000)]) 4 (.all 0x80000000) = true := by decide +kernel

/-- R109: a divisor of 0, and −2^31 by −1. -/
theorem test_idiv : gives (.idiv c0 (.v 4) (.v 2) (.imm 0) false) (stV [(2, 5)]) 4 (.all 0xFFFFFFFF) = true ∧
    gives (.idiv c0 (.v 4) (.v 2) (.imm 0xFFFFF) false) (stV [(2, 0x80000000)]) 4 (.all 0x80000000) = true := by decide +kernel

theorem test_irem : gives (.irem c0 (.v 4) (.v 2) (.imm 0) false) (stV [(2, 5)]) 4 (.all 5) = true ∧
    gives (.irem c0 (.v 4) (.v 2) (.imm 2) false) (stV [(2, 0xFFFFFFFB)]) 4 (.all 0xFFFFFFFF) = true := by decide +kernel

/-- Table 5.2: shifts by 32 and more, and a rotation by 33. -/
theorem test_shifts : gives (.shl c0 (.v 4) (.v 2) (.imm 32)) (stV [(2, 1)]) 4 (.all 0) = true ∧
    gives (.sar c0 (.v 4) (.v 2) (.imm 40)) (stV [(2, 0x80000000)]) 4 (.all 0xFFFFFFFF) = true ∧
    gives (.rot c0 (.v 4) (.v 2) (.imm 33)) (stV [(2, 0x80000001)]) 4 (.all 3) = true := by decide +kernel

/-- R114: the sign extension of a field that runs beyond bit 31, and a length of 0. -/
theorem test_bfx : gives (.bfx c0 (.v 4) (.v 2) (.imm (28 + 8 * 32)) true) (stV [(2, 0x90000000)]) 4 (.all 0xFFFFFFF9) = true ∧
    gives (.bfx c0 (.v 4) (.v 2) (.imm 3) true) (stV [(2, 0xFFFFFFFF)]) 4 (.all 0) = true := by decide +kernel

/-- R121: byte 3 of va, byte 0 of vb, the sign of byte 2 of va, byte 0 of va. -/
theorem test_prmt : gives (.prmt c0 (.v 4) (.v 2) (.regs (.v 3) (.v 5))) (stV [(2, 0x11F23344), (3, 0x55667788), (5, 0x0A43)]) 4
    (.all 0x44FF8811) = true := by decide +kernel

/-- R127: −0 is less than +0, and one NaN gives the other operand. -/
theorem test_fmin_fmax : gives (.fmin c0 (.v 4) (.v 2) (.reg (.v 3))) (stV [(2, 0), (3, 0x80000000)]) 4 (.all 0x80000000) = true ∧
    gives (.fmax c0 (.v 4) (.v 2) (.reg (.v 3))) (stV [(2, 0x7FC00000), (3, 0xC0000000)]) 4 (.all 0xC0000000) = true := by decide +kernel

/-- R221's example: threads 0 to 3 arrive at EXPECTED 5, ARRIVED 3; the last two in the phase that follows. -/
theorem test_bararr :
    let s := four (scr [0] [] id)
    let t : State := { s with blocks := s.blocks.map fun b => { b with shared := b.shared.writeNat 0 8 0x0000000500030007 } }
    let u := then' t (.bararr c0 9 (.v 2))
    ((u.warp? 3).map fun w => (w.pend.map fun p => p.parts.map fun q => (q.thr, q.val.s0)).flatten) =
        some [(0, 7), (1, 7), (2, 8), (3, 8)] ∧
      ((u.block? 2).map fun b => b.shared.readNat 0 8) = some 0x0000000500020008 := by decide +kernel

/-- R36's examples: the mean that a store to a plain page writes. -/
theorem test_store_mean :
    let s := scr [0] (pages 0 false) (vs [(2, .all 0x40), (5, tri 0x3F800000 0x3F800000 0x3F800002)])
    ((upFrom (2 ^ 42 + 0x200040) 4).map (then' s (.st c0 (word .sp))).byte) = [0x01, 0x00, 0x80, 0x3F] := by decide +kernel

/-- R39, R40's example: 1.0 with 18 digits as a compact word, loaded. -/
theorem test_load_compact :
    let s := scr [0] (pages 2 false) (vs [(2, .all 0x40)])
    let t : State := { s with mem := s.mem.writeNat (2 ^ 42 + 0x200040) 4 0x3F800012 }
    (((then' t (.ld c0 (word .sp))).warp? 3).map fun w => (w.pend.map fun p => p.parts.map fun q => (q.reg, q.val)).flatten) =
      some [(5, tri 0x3F7FFFEE 0x3F800000 0x3F800009)] := by decide +kernel

/-- R60's example: the product of 0Bh with offset +8 and EBh, −55109·2^−16. -/
theorem test_log_product : (match logProduct .l8 .l8 8 0 0x0B 0xEB with
    | .fin x => decide (x.neg = true) && decide (x.mag * 2 ^ 16 = 55109 * 2 ^ (-x.exp).toNat)
    | _ => false) = true := by decide +kernel

/-- Table 6.5: a trap word enters the user handler at HANDLER, with the word's address in TRAPPC. -/
theorem test_trap_entry :
    let u := then' (stT fun t => { t with handler := 0x00100020 }) (.trap c0 5)
    (u.thread? 3 0).map (fun t => (t.pc, t.trap.pc, t.inHandler.isSome)) = some (0x100020, 0x00100008, true) := by decide +kernel

/-- FIPS 180-4: the digest of "abc". -/
theorem test_sha256 : sha256 [0x61, 0x62, 0x63] = 0xba7816bf8f01cfea414140de5dae2223b00361a396177a9cb410ff61f20015ad := by
  decide +kernel

/-- FIPS 197, 5.1.1: the substitution of 53h is EDh. -/
theorem test_aes_substitution : aesSub 0x53 = 0xED := by decide +kernel

end Sys2Proof.Tests
end

section
/-! SUPPORT. The integer operations of the model as the operations of R108 to R121: saturation, shifts, counts, bit fields
and byte permutation. -/

namespace Sys2Proof.Machine

open Sys2Proof.Claims

/-! ## Saturation and signs -/

theorem satI32_eq_nearestI32 (n : Int) : satI32 n = nearestI32 n := by
  unfold satI32 nearestI32 clamp
  congr 1
  split
  · simp only; omega
  · split <;> simp only <;> omega

theorem iaddVal_eq (sat : Bool) (x y : Word) :
    iaddVal sat x y = if sat then nearestI32 (x.toInt + y.toInt) else x + y := by
  simp only [iaddVal, satI32_eq_nearestI32]

theorem isubVal_eq (sat : Bool) (x y : Word) :
    isubVal sat x y = if sat then nearestI32 (x.toInt - y.toInt) else x - y := by
  simp only [isubVal, satI32_eq_nearestI32]

theorem inegVal_eq (sat : Bool) (x : Word) : inegVal sat x = if sat then nearestI32 (-x.toInt) else -x := by
  simp only [inegVal, satI32_eq_nearestI32]

theorem iabsVal_eq (sat : Bool) (x : Word) :
    iabsVal sat x = if sat then nearestI32 x.toInt.natAbs else BitVec.ofNat 32 x.toInt.natAbs := by
  have habs : (x.toInt.natAbs : Int) = if x.toInt < 0 then -x.toInt else x.toInt := by split <;> omega
  cases sat with
  | true => simp only [iabsVal, if_true, satI32_eq_nearestI32, habs]
  | false =>
    rw [← BitVec.ofInt_natCast, habs]
    by_cases hx : x.toInt < 0
    · simp [iabsVal, hx, BitVec.ofInt_neg]
    · simp [iabsVal, hx]

/-- `imad` divides by 2^32 for the high word and by 1 for the low one. -/
theorem imadVal_eq (hi u : Bool) (x y z : Word) :
    imadVal hi u x y z = BitVec.ofInt 32 ((intOf u x * intOf u y + intOf u z) / (if hi then 2 ^ 32 else 1)) := by
  cases hi with
  | true => rfl
  | false => exact congrArg (BitVec.ofInt 32) (Int.ediv_one _).symm

/-! ## Shifts and counts -/

/-- A shift by 32 or more leaves nothing, with or without the model's own test. -/
theorem shlVal_eq_shiftLeft (x y : Word) : shlVal x y = x <<< y.toNat := by
  unfold shlVal
  split
  · exact (BitVec.shiftLeft_eq_zero ‹_›).symm
  · rfl

theorem popcVal_eq_countP (x : Word) : popcVal x = BitVec.ofNat 32 ((List.range 32).countP fun i => x.getLsbD i) := by
  rw [popcVal, List.countP_eq_length_filter]

/-! ## Bit fields -/

theorem fieldOfReg_eq (w : Word) : fieldOfReg w = ((w.extractLsb' 0 5).toNat, (w.extractLsb' 8 6).toNat) := by
  simp [fieldOfReg, BitVec.extractLsb'_toNat, Nat.shiftRight_eq_div_pow]

theorem fieldOfImm_eq (w : BitVec 20) : fieldOfImm w = ((w.extractLsb' 0 5).toNat, (w.extractLsb' 5 6).toNat) := by
  simp [fieldOfImm, BitVec.extractLsb'_toNat, Nat.shiftRight_eq_div_pow]

/-- A field of `n` bits brought to the top of a double word and back, zeros before it. -/
theorem field_ushiftRight (y : DWord) (pos : Nat) {n : Nat} (hn : n ≤ 32) :
    ((y >>> pos) <<< (64 - n) >>> (64 - n)).setWidth 32 = (y.extractLsb' pos n).setWidth 32 := by
  ext i hi
  by_cases h : i < n
  · have hin : 64 - n + i < 64 := by omega
    simp [h, hin]
  · have hout : ¬ 64 - n + i < 64 := by omega
    simp [h, hout]

/-- A field of `n` bits brought to the top of a double word and back, its sign before it. -/
theorem field_sshiftRight (y : DWord) (pos : Nat) {n : Nat} (hpos : 0 < n) (hn : n ≤ 32) :
    (((y >>> pos) <<< (64 - n)).sshiftRight (64 - n)).setWidth 32 = (y.extractLsb' pos n).signExtend 32 := by
  ext i hi
  rw [BitVec.getElem_setWidth, BitVec.getLsbD_sshiftRight, BitVec.getElem_signExtend]
  have hi64 : ¬ 64 ≤ i := by omega
  by_cases h : i < n
  · have hin : 64 - n + i < 64 := by omega
    have hge : ¬ 64 - n + i < 64 - n := by omega
    simp only [hi64, decide_false, Bool.not_false, hin, ↓reduceIte, BitVec.getLsbD_eq_getElem,
      BitVec.getElem_shiftLeft, hge, Nat.add_sub_cancel_left, BitVec.getElem_ushiftRight, Bool.true_and, h,
      ↓reduceDIte, BitVec.getElem_extractLsb']
  · have hout : ¬ 64 - n + i < 64 := by omega
    have htop : 63 - (64 - n) = n - 1 := by omega
    have hge : ¬ 63 < 64 - n := by omega
    have hlast : n - 1 < n := by omega
    simp only [hi64, decide_false, Bool.not_false, hout, ↓reduceIte, BitVec.msb_eq_getLsbD_last,
      Nat.add_one_sub_one, Nat.lt_add_one, BitVec.getLsbD_eq_getElem, BitVec.getElem_shiftLeft, hge, htop,
      BitVec.getElem_ushiftRight, Bool.true_and, h, ↓reduceDIte, hlast, BitVec.getElem_extractLsb']

theorem bfxVal_eq_fieldOf (sgn : Bool) (x : Word) (pos len : Nat) : bfxVal sgn x pos len = fieldOf sgn x pos len := by
  unfold bfxVal fieldOf
  have hn : min len 32 ≤ 32 := Nat.min_le_right ..
  generalize min len 32 = n at hn ⊢
  rcases Nat.eq_zero_or_pos n with rfl | hpos
  · cases sgn <;> simp [BitVec.of_length_zero]
  · have hne : n ≠ 0 := Nat.ne_of_gt hpos
    cases sgn with
    | false => simp [hne, field_ushiftRight _ pos hn]
    | true => simp [hne, field_sshiftRight _ pos hpos hn]

theorem setWidth_allOnes (n : Nat) : (BitVec.allOnes n).setWidth 32 = BitVec.ofNat 32 (2 ^ n - 1) := by
  apply BitVec.eq_of_toNat_eq
  simp

theorem bfiVal_eq_fieldInto (x base : Word) (pos len : Nat) : bfiVal x base pos len = fieldInto x base pos len := by
  unfold bfiVal fieldInto
  rw [setWidth_allOnes]
  ext i hi
  simp

/-! ## Bytes and halves -/

theorem prmtByte_eq_permuted (src : BitVec 64) (sel : Word) (i : Nat) :
    prmtByte src (sel.extractLsb' (4 * i) 4) = permuted src sel i := by
  have hnum : (sel.extractLsb' (4 * i) 4).toNat % 8 = (sel.extractLsb' (4 * i) 3).toNat := by simp
  have hsign : (sel.extractLsb' (4 * i) 4).getLsbD 3 = sel.getLsbD (4 * i + 3) := by simp
  unfold prmtByte permuted
  rw [hnum, hsign]

theorem prmtVal_eq_permuted (x y sel : Word) : prmtVal x y sel =
    permuted (y ++ x) sel 3 ++ permuted (y ++ x) sel 2 ++ permuted (y ++ x) sel 1 ++ permuted (y ++ x) sel 0 := by
  simp only [← prmtByte_eq_permuted]
  rfl

theorem setWidth_setWidth_eq_and (w : Word) : (w.setWidth 16).setWidth 32 = w &&& 0xFFFF := by
  apply BitVec.eq_of_toNat_eq
  have hmask : (w &&& 0xFFFF).toNat = w.toNat % 2 ^ 16 := by
    rw [BitVec.toNat_and, ← Nat.and_two_pow_sub_one_eq_mod]
    rfl
  rw [hmask, BitVec.toNat_setWidth, BitVec.toNat_setWidth]
  omega

theorem shiftLeft_eq_mul_two_pow (x : Word) (n : Nat) : x <<< n = x * BitVec.ofNat 32 (2 ^ n) := by
  apply BitVec.eq_of_toNat_eq
  simp [Nat.shiftLeft_eq, BitVec.toNat_mul]

end Sys2Proof.Machine
end

section
/-! SUPPORT. The plain words of R108 to R142: each executes as a plain word with the value of its rule, and the issue changes
no such value. -/

namespace Sys2Proof.Claims

open Sys2Proof.Machine

theorem g_lt_of_wf {d : Dst} (h : d.wf = true) (k : Nat) (hk : d = .g k) : k < 64 := by
  subst hk
  simpa [Dst.wf] using h

/-- An instruction that executes as a plain word, with a value that the issue does not change, does what its form says. -/
theorem plainForm_of_exec {i : Instr} {f : Form} {d : Dst} {val : Env → State → Thread → Triple} (hdst : d.opds ⊆ f.dst)
    (hexec : ∀ s, exec i s = .next (plainWord f d val s))
    (hval : ∀ e s t, val e (s.issued e f) t = val e s t) : PlainForm i f d val := by
  intro s e hd n
  obtain ⟨hdel, hframe⟩ := plainWord_spec n d hdst (g_lt_of_wf hd) val (hval e s)
  exact ⟨_, hexec s, hdel, hframe⟩

/-! ## Words of one shape -/

section
variable {c : Ctl} {d : Dst} {a : Opd} {s : State}

/-- A word computed once from two operands, by an operation that is the rule's. -/
theorem next_intWord {x : Ext} {b : Src} {f g : Word → Word → Word} (h : ∀ u v, f u v = g u v) :
    (.next (intWord c d a x b f s) : Out) = .next (plainWord (Form.short c (a :: b.opds) d.opds) d (once a x b g) s) := by
  rw [show f = g from funext fun u => funext (h u)]
  rfl

/-- A word computed once from one operand, by an operation that is the rule's. -/
theorem next_unaryWord {f g : Word → Word} (h : ∀ u, f u = g u) :
    (.next (unaryWord c d a f s) : Out) = .next (plainWord (Form.short c [a] d.opds) d (once1 a g) s) := by
  rw [show f = g from funext h]
  rfl

/-- A plain word, by a value that is the rule's. -/
theorem next_plainWord {f : Form} {v w : Env → State → Thread → Triple} (h : ∀ e s t, v e s t = w e s t) :
    (.next (plainWord f d v s) : Out) = .next (plainWord f d w s) := by
  rw [show v = w from funext fun e => funext fun s => funext (h e s)]

end

/-! ## The rules -/

section
variable {i : Instr} {c : Ctl} {d : Dst} {src : List Opd} {val : Env → State → Thread → Triple}

theorem IntRule.exec_eq (h : IntRule i c d src val) (s : State) :
    exec i s = .next (plainWord (Form.short c src d.opds) d val s) := by
  cases h with
  | iadd _ _ a b sat => exact next_intWord (iaddVal_eq sat)
  | isub _ _ a b sat => exact next_intWord (isubVal_eq sat)
  | imul => rfl
  | imulh => rfl
  | imad _ _ a b x hi u => exact next_plainWord fun e s t => congrArg Triple.all (imadVal_eq hi u _ _ _)
  | imin => rfl
  | imax => rfl
  | iabs _ _ a sat => exact next_plainWord fun e s t => congrArg Triple.all (iabsVal_eq sat _)
  | ineg _ _ a sat => exact next_plainWord fun e s t => congrArg Triple.all (inegVal_eq sat _)
  | idiv => rfl
  | irem => rfl

theorem BitRule.exec_eq (h : BitRule i c d src val) (s : State) :
    exec i s = .next (plainWord (Form.short c src d.opds) d val s) := by
  cases h with
  | and => rfl
  | or => rfl
  | xor => rfl
  | andn => rfl
  | not => rfl
  | shl => exact next_intWord shlVal_eq_shiftLeft
  | shr => rfl
  | sar => rfl
  | rot => rfl
  | popc => exact next_unaryWord popcVal_eq_countP
  | clz => rfl
  | brev => rfl

theorem MoveRule.exec_eq (h : MoveRule i c d src val) (s : State) :
    exec i s = .next (plainWord (Form.short c src d.opds) d val s) := by
  cases h with
  | leaReg _ _ a o sh =>
    exact next_plainWord fun e s t => congrArg (fun y => Triple.all (e.read0 s t a + y)) (shiftLeft_eq_mul_two_pow _ _)
  | leaImm _ _ a w =>
    exact next_plainWord fun e s t => congrArg (fun y => Triple.all (e.read0 s t a + y)) (BitVec.shiftLeft_zero _)
  | bfxReg _ _ a o sgn =>
    exact next_plainWord fun e s t => by rw [bfxVal_eq_fieldOf, Env.bitField, fieldOfReg_eq]
  | bfxImm _ _ a w sgn =>
    exact next_plainWord fun e s t => by rw [bfxVal_eq_fieldOf, Env.bitField, fieldOfImm_eq]
  | bfiReg _ _ a x y =>
    exact next_plainWord fun e s t => by simp only [bfiVal_eq_fieldInto, fieldOfReg_eq]
  | bfiImm _ _ a w =>
    exact next_plainWord fun e s t => by simp only [bfiVal_eq_fieldInto, fieldOfImm_eq]
  | sel => rfl
  | mov => rfl
  | movi => rfl
  | prmtReg => exact next_plainWord fun e s t => congrArg Triple.all (prmtVal_eq_permuted _ _ _)
  | prmtImm => exact next_plainWord fun e s t => congrArg Triple.all (prmtVal_eq_permuted _ _ _)

/-- An operand's digits, read off its kind (R135). -/
theorem opdDigits_eq (e : Env) (o : Opd) (x : Triple) :
    e.opdDigits o x = match e.triple, o with
      | true, .v _ => digits3 x
      | true, .sp _ => digits3 x
      | _, _ => 24 := by
  unfold Env.opdDigits
  cases e.triple <;> cases o <;> rfl

theorem SiblingRule.exec_eq (h : SiblingRule i c d src val) (s : State) :
    exec i s = .next (plainWord (Form.short c src d.opds) d val s) := by
  cases h with
  | digits => exact next_plainWord fun e s t => congrArg (fun n => Triple.all (BitVec.ofNat 32 n)) (opdDigits_eq _ _ _)
  | spread => exact next_plainWord fun e s t => apply_ite Triple.all _ _ _
  | mean => rfl
  | sibget => rfl
  | sibset => rfl
  | maskgen =>
    exact next_plainWord fun e s t => congrArg (fun n => Triple.all (maskgenVal _ _ n _)) (setWidth_setWidth_eq_and _)

theorem IntRule.val_issued (h : IntRule i c d src val) (e : Env) (s : State) (f : Form) (t : Thread) :
    val e (s.issued e f) t = val e s t := by
  cases h <;> simp [once]

theorem BitRule.val_issued (h : BitRule i c d src val) (e : Env) (s : State) (f : Form) (t : Thread) :
    val e (s.issued e f) t = val e s t := by
  cases h <;> simp [once, once1, perSibling]

theorem MoveRule.val_issued (h : MoveRule i c d src val) (e : Env) (s : State) (f : Form) (t : Thread) :
    val e (s.issued e f) t = val e s t := by
  cases h <;> simp

theorem SiblingRule.val_issued (h : SiblingRule i c d src val) (e : Env) (s : State) (f : Form) (t : Thread) :
    val e (s.issued e f) t = val e s t := by
  cases h <;> simp

end

theorem plainForm_movh (c : Ctl) (d : Dst) (imm : BitVec 16) :
    PlainForm (.movh c d imm) (Form.short c d.opds d.opds).noA d fun e s t =>
      .ofFn fun j => imm ++ ((e.oldDst s t d).get j).extractLsb' 0 16 :=
  plainForm_of_exec (List.Subset.refl _) (fun _ => rfl) fun e s t => by simp

/-- Settles O1: every word of the four tables executes as a plain word whose value is its rule's. -/
theorem plainWordsCompute : Obligations.plain_words_compute := by
  refine ⟨fun i c d src val h => ?_, plainForm_movh⟩
  rcases h with h | h | h | h <;>
    exact plainForm_of_exec (List.Subset.refl _) h.exec_eq fun e s t => h.val_issued e s _ t

end Sys2Proof.Claims
end

section
/-! SUPPORT. `iaddc` (R112): the sum, the carry-out predicate, and what the word leaves. -/

namespace Sys2Proof.Claims

open Sys2Proof.Machine

@[simp] theorem carrySum_issued (e : Env) (s : State) (f : Form) (t : Thread) (a b : Opd) (ci : BitVec 3) (cin sub : Bool) :
    carrySum e (s.issued e f) t a b ci cin sub = carrySum e s t a b ci cin sub := by
  simp [carrySum]

/-- The body of `iaddc` on the state that the issue leaves: every participant's sum, then the carries of the threads that
compute. -/
def carryBody (c : Ctl) (d : Dst) (a b : Opd) (ci co : BitVec 3) (cin sub : Bool) (e : Env) (s : State) : State :=
  (s.writeAll e (e.parts c) d fun t => .all (BitVec.ofNat 32 (carrySum e s t a b ci cin sub))).predAll e
    (computing d (e.parts c)) co fun t => if 2 ^ 32 ≤ carrySum e s t a b ci cin sub then 7 else 0

theorem exec_iaddc (c : Ctl) (d : Dst) (a b : Opd) (ci co : BitVec 3) (cin sub : Bool) (s : State) :
    exec (.iaddc c d a b ci co cin sub) s =
      .next (issue (Form.short c [a, b] d.opds) noHold (carryBody c d a b ci co cin sub) s) := by
  have hbits : ∀ n : Nat, boolBits (decide (2 ^ 32 ≤ n)) = if 2 ^ 32 ≤ n then 7 else 0 := fun n => by
    simp [boolBits]
  show Host.Outcome.next (issue _ _ _ s) = _
  simp only [iaddcVal, hbits]
  rfl

theorem setPred_idx (t : Thread) (p bits : BitVec 3) : (t.setPred p bits).idx = t.idx := by
  unfold Thread.setPred
  split <;> rfl

theorem setPred_due (t : Thread) (p bits : BitVec 3) : (t.setPred p bits).due = t.due := by
  unfold Thread.setPred
  split <;> rfl

/-- Settles O2: the frame of the issue, then of the sums written, then of the carries set for the threads that compute (with
an s or g destination the lowest participant alone, log 36). -/
theorem addWithCarry : Obligations.add_with_carry := by
  intro c d a b ci co cin sub s e hd n
  have hn := Env.parts_nodup n.warp c
  have hsub := e.parts_sub c
  have hframe := (n.frame_issued.thenWrite n.warp hsub hn d
      fun t => .all (BitVec.ofNat 32 (carrySum e s t a b ci cin sub))).thenThreads n.warp
    (fun t ht => hsub t (computing_sub d _ t ht)) (computing_nodup d hn)
    (fun t u => u.setPred co (if 2 ^ 32 ≤ carrySum e s t a b ci cin sub then 7 else 0)) (fun _ _ _ => setPred_idx _ _ _)
  refine ⟨_, exec_iaddc .., ?_⟩
  rw [n.done (by simp only [carryBody, carrySum_issued]; rfl) hframe rfl rfl fun t ht => ?_]
  · exact hframe
  · have hdue := (Env.post_due e s (Form.short c [a, b] d.opds) d
      (fun t => .all (BitVec.ofNat 32 (carrySum e s t a b ci cin sub))) t).trans (n.calm.due t ht)
    split
    · rw [setPred_due]
      exact hdue
    · exact hdue

end Sys2Proof.Claims
end

section
/-! SUPPORT. `ldlit` (R120): the issue changes nothing that the instruction path reads, and the word gives each thread that
computes its item or its trap. -/

namespace Sys2Proof.Claims

open Sys2Proof.Machine

/-! ## The instruction path (R71, R440, R464) -/

section
variable {s t : State} (hmem : t.mem = s.mem) (hpkg : t.pkg = s.pkg)
include hmem hpkg

theorem readPhys_congr (tag : BitVec 12) (a : Nat) : t.readPhys tag a = s.readPhys tag a := by
  have hkey : t.keyNum tag = s.keyNum tag := by unfold State.keyNum; rw [hpkg]
  have hwritten : t.writtenKey a = s.writtenKey a := by unfold State.writtenKey; rw [hpkg]
  simp only [State.readPhys, hkey, hwritten, hmem]

theorem readPhysBytes_congr (tag : BitVec 12) (a n : Nat) : t.readPhysBytes tag a n = s.readPhysBytes tag a n := by
  induction n generalizing a with
  | zero => rfl
  | succ n ih => simp only [State.readPhysBytes, readPhys_congr hmem hpkg, ih]

theorem readPhysNat_congr (tag : BitVec 12) (a n : Nat) : t.readPhysNat tag a n = s.readPhysNat tag a n := by
  simp only [State.readPhysNat, readPhysBytes_congr hmem hpkg]

theorem walkMain_congr {tag : BitVec 12} (hroot : (t.ctx tag).mptroot = (s.ctx tag).mptroot) (va : Nat) :
    t.walkMain tag va = s.walkMain tag va := by
  have hentry : ∀ a, t.mainEntry tag a = s.mainEntry tag a := fun a => by
    simp only [State.mainEntry, readPhysNat_congr hmem hpkg]
  have hsecond : t.mainSecond tag va = s.mainSecond tag va := by
    funext x
    simp only [State.mainSecond, hentry]
  have hleaf : t.mainLeafOk = s.mainLeafOk := by
    funext x
    rw [State.mainLeafOk, State.mainLeafOk, hpkg]
  have hthird : t.mainThird tag va = s.mainThird tag va := by
    funext x
    simp only [State.mainThird, hentry, hleaf]
  simp only [State.walkMain, State.mainFirst, hentry, hroot, hsecond, hthird]

/-- The instruction path reads memory, the package, and two fields of the context that no charge of energy changes. -/
theorem fetchWord_congr (hctx : EnergyOnly s t) (tag : BitVec 12) (pc : Addr) :
    t.fetchWord tag pc = s.fetchWord tag pc := by
  have hroot : (t.ctx tag).mptroot = (s.ctx tag).mptroot := by rw [hctx tag]
  have hexec : (t.ctx tag).noExec = (s.ctx tag).noExec := by rw [hctx tag]
  simp only [State.fetchWord, hexec, walkMain_congr hmem hpkg hroot, readPhysNat_congr hmem hpkg]

end

theorem literal_isSome (s : State) (tag : BitVec 12) (a : Addr) :
    (literal s tag a).isSome = (s.fetchWord tag (a &&& 0xFFFFFFFFFFF8#48)).isSome := by
  rw [literal, Option.isSome_map]

theorem literal_isNone (s : State) (tag : BitVec 12) (a : Addr) :
    (literal s tag a).isNone = (s.fetchWord tag (a &&& 0xFFFFFFFFFFF8#48)).isNone := by
  rw [literal, Option.isNone_map]

theorem literal_some {s : State} {tag : BitVec 12} {a : Addr} {w : DWord}
    (h : s.fetchWord tag (a &&& 0xFFFFFFFFFFF8#48) = some w) :
    literal s tag a = some (if a.getLsbD 2 then w.extractLsb' 32 32 else w.extractLsb' 0 32) := by
  rw [literal, h]
  rfl

theorem literal_none {s : State} {tag : BitVec 12} {a : Addr} (h : s.fetchWord tag (a &&& 0xFFFFFFFFFFF8#48) = none) :
    literal s tag a = none := by
  rw [literal, h]
  rfl

@[simp] theorem literal_issued (s : State) (e : Env) (f : Form) (tag : BitVec 12) (a : Addr) :
    literal (s.issued e f) tag a = literal s tag a := by
  simp only [literal, fetchWord_congr (State.issued_mem ..) (State.issued_pkg ..) (s.issued_energy e f)]

@[simp] theorem literalAt_issued (e : Env) (s : State) (f : Form) (t : Thread) (imm : BitVec 20) (idx : Option Opd) :
    literalAt e (s.issued e f) t imm idx = literalAt e s t imm idx := by
  cases idx <;> simp [literalAt]

/-! ## The word -/

section
variable (c : Ctl) (d : Dst) (imm : BitVec 20) (idx : Option Opd)

/-- The address of `ldlit` as the model forms it. -/
theorem literalAt_eq (e : Env) (s : State) (t : Thread) :
    literalAt e s t imm idx = e.iss.pc + 4 * imm.signExtend 48 +
      4 * (match idx with
        | some o => e.read0 s t o
        | none => 0).signExtend 48 := by
  cases idx <;> rfl

/-- The item that a thread loads, where its address has a translation. -/
def itemOf (e : Env) (s : State) (t : Thread) : Option Word := literal s e.g.tag (literalAt e s t imm idx)

/-- The trap of a thread whose item has no translation. -/
def itemFault (e : Env) (s : State) (t : Thread) : TrapRec := { e.record t 5 0 with addr := literalAt e s t imm idx }

/-- The threads that compute and have their item. -/
def withItem (e : Env) (s : State) : List Thread :=
  (computing d (e.parts c)).filter fun t => (itemOf imm idx e s t).isSome

/-- The threads that compute and have none. -/
def withoutItem (e : Env) (s : State) : List Thread :=
  (computing d (e.parts c)).filter fun t => (itemOf imm idx e s t).isNone

/-- The body of `ldlit`: the items written, then the faults. -/
def literalBody (e : Env) (s : State) : State :=
  (withoutItem c d imm idx e s).foldl (fun b t => e.trapBefore b t (itemFault imm idx e s t))
    (s.writeAll e (withItem c d imm idx e s) d fun t => .all ((itemOf imm idx e s t).getD 0))

theorem exec_ldlit (s : State) :
    exec (.ldlit c d imm idx) s =
      .next (issue (Form.short c idx.toList d.opds) noHold (literalBody c d imm idx) s) := by
  show Host.Outcome.next (issue _ _ _ s) = _
  congr 2
  funext e s
  simp only [literalBody, withItem, withoutItem, itemOf, itemFault, literalAt_eq, literal_isSome, literal_isNone]
  congr 2
  funext t
  split
  · next w hw => exact congrArg (fun o => Triple.all (o.getD 0)) (literal_some hw).symm
  · next hw => exact congrArg (fun o => Triple.all (o.getD 0)) (literal_none hw).symm

variable {c d imm idx} {e : Env} {s : State}

theorem itemOf_issued (f : Form) : itemOf imm idx e (s.issued e f) = itemOf imm idx e s := by
  funext t
  simp [itemOf]

theorem itemFault_issued (f : Form) : itemFault imm idx e (s.issued e f) = itemFault imm idx e s := by
  funext t
  simp [itemFault]

variable (c d imm idx e s) in
theorem withItem_group : ∀ t ∈ withItem c d imm idx e s, t ∈ e.group := fun t ht =>
  e.parts_sub c t (computing_sub d _ t (List.mem_filter.mp ht).1)

variable (c d imm idx e s) in
theorem withoutItem_group : ∀ t ∈ withoutItem c d imm idx e s, t ∈ e.group := fun t ht =>
  e.parts_sub c t (computing_sub d _ t (List.mem_filter.mp ht).1)

/-- What becomes of a thread of the group under `ldlit`, by the list in which it stands. -/
def literalPost (c : Ctl) (d : Dst) (imm : BitVec 20) (idx : Option Opd) (e : Env) (s : State) (f : Form) (t : Thread) :
    Thread :=
  if t ∈ withoutItem c d imm idx e s then trapped e s t (itemFault imm idx e s t)
  else if t ∈ withItem c d imm idx e s then (e.past s f t).putDst d (.all ((itemOf imm idx e s t).getD 0))
  else e.past s f t

theorem literalPost_due {f : Form} {t : Thread} (h : t.due = []) : (literalPost c d imm idx e s f t).due = [] := by
  unfold literalPost
  split
  · exact Thread.trapTo_due ..
  · split
    · rw [Thread.putDst_due, Env.past_due, h]
    · rw [Env.past_due, h]

/-- The body on the state that the issue leaves: the frame of the items written, then that of the faults. -/
theorem frame_literalBody {f : Form} {h : State → Env → Thread → Option Hold} (n : Normal s e f h) :
    Frame s (literalBody c d imm idx e (s.issued e f)) e d e.g.icnt (literalPost c d imm idx e s f) := by
  have hn := computing_nodup d (Env.parts_nodup n.warp c)
  have hitems := n.frame_issued.thenWrite n.warp (withItem_group c d imm idx e s)
    (nodup_filter_map _ hn) d fun t => .all ((itemOf imm idx e s t).getD 0)
  have hfaults := hitems.thenThreads n.warp (withoutItem_group c d imm idx e s)
    (nodup_filter_map _ hn) (fun t _ => trapped e s t (itemFault imm idx e s t))
    fun t u hu => (Thread.trapTo_idx ..).trans hu.symm
  have htraps := foldl_threads (fun t _ => trapped e s t (itemFault imm idx e s t)) (withoutItem c d imm idx e s)
    (fun b t => e.trapBefore b t (itemFault imm idx e s t)) (fun b t hb => Env.trapBefore_eq hb e t _) hitems.sameDebug
  rw [← htraps] at hfaults
  rw [literalBody, withItem, withoutItem, itemOf_issued, itemFault_issued]
  exact hfaults

/-- The two lists told apart by the item of the thread. -/
theorem literalPost_eq (f : Form) (t : Thread) :
    literalPost c d imm idx e s f t =
      if t ∈ computing d (e.parts c) then
        match itemOf imm idx e s t with
        | some w => (e.past s f t).putDst d (.all w)
        | none => trapped e s t (itemFault imm idx e s t)
      else e.past s f t := by
  unfold literalPost withItem withoutItem
  by_cases ht : t ∈ computing d (e.parts c)
  · cases hi : itemOf imm idx e s t <;> simp [ht, hi]
  · simp [ht]

end

/-- Settles O7: where nothing stops the word, it answers the state of its body, in which each thread that computes has its
item or its trap. -/
theorem loadLiteral : Obligations.load_literal := by
  intro c d imm idx s e hd f n
  have hframe := frame_literalBody (c := c) (d := d) (imm := imm) (idx := idx) n
  refine ⟨_, exec_ldlit c d imm idx s, ?_⟩
  rw [n.done rfl hframe rfl rfl fun t ht => literalPost_due (n.calm.due t ht)]
  exact hframe.congr fun t _ => literalPost_eq f t

end Sys2Proof.Claims
end

section
/-! SUPPORT. `trap` and `brk` (R154): a word whose participants take a trap after it, each with a record of its own. -/

namespace Sys2Proof.Claims

open Sys2Proof.Machine

/-- The body of a word that raises a trap for every participant, after the word. -/
def softTrapBody (c : Ctl) (recordOf : Env → Thread → TrapRec) (e : Env) (s : State) : State :=
  (e.parts c).foldl (fun b t => e.trapAfter b t (recordOf e t)) s

section
variable {s : State} {e : Env} {f : Form} {h : State → Env → Thread → Option Hold} (recordOf : Env → Thread → TrapRec)

/-- The traps are changes of the participants on top of the issue, which moves no debugger. -/
theorem frame_softTrapBody (n : Normal s e f h) :
    Frame s (softTrapBody f.c recordOf e (s.issued e f)) e .none e.g.icnt
      (e.each s f fun t u => trappedAfter e s u (recordOf e t)) := by
  have htraps := foldl_threads (fun t u => trappedAfter e s u (recordOf e t)) (e.parts f.c)
    (fun b t => e.trapAfter b t (recordOf e t)) (fun _ t hb => Env.trapAfter_eq hb e t _) n.frame_issued.sameDebug
  rw [softTrapBody, htraps]
  exact n.frame_issued.thenThreads n.warp (e.parts_sub f.c) (Env.parts_nodup n.warp f.c) _
    fun _ _ _ => Thread.trapTo_idx ..

theorem each_trappedAfter_due {t : Thread} (ht : t.due = []) :
    (e.each s f (fun t u => trappedAfter e s u (recordOf e t)) t).due = [] := by
  unfold Env.each
  split
  · exact Thread.trapTo_due ..
  · rw [Env.past_due, ht]

/-- A word with that body, where nothing stops it. -/
theorem completes_softTrap {i : Instr} (n : Normal s e f h)
    (hexec : exec i s = .next (issue f h (softTrapBody f.c recordOf) s)) :
    Completes i s e .none e.g.icnt (e.each s f fun t u => trappedAfter e s u (recordOf e t)) := by
  have hframe := frame_softTrapBody recordOf n
  refine ⟨_, hexec, ?_⟩
  rw [n.done rfl hframe rfl rfl fun t ht => each_trappedAfter_due recordOf (n.calm.due t ht)]
  exact hframe

end

/-- Settles O13: both words execute as a trap after the word for every participant, and differ in the record alone. -/
theorem softwareTrapsAreTaken : Obligations.software_traps_are_taken := fun _ _ _ n =>
  ⟨fun k => completes_softTrap (fun e t => { e.record t 18 0 with arg := k }) n rfl,
    completes_softTrap (fun e t => e.record t 15 0) n rfl⟩

end Sys2Proof.Claims
end

section
/-! SUPPORT. `vote`, `ballot` and `elect` (R194 to R196): a word that gives every participant one predicate and raises
nothing, and the results of a vote as statements about the participants. -/

namespace Sys2Proof.Claims

open Sys2Proof.Machine

/-! ## A word that writes a predicate and raises nothing (R107) -/

section
variable {s : State} {e : Env} {f : Form} {h : State → Env → Thread → Option Hold} (p : BitVec 3)
  (bits : Thread → BitVec 3)

/-- The predicate writes are changes of the participants on top of the issue. -/
theorem frame_predAll (n : Normal s e f h) :
    Frame s ((s.issued e f).predAll e (e.parts f.c) p bits) e .none e.g.icnt
      (e.each s f fun t u => u.setPred p (bits t)) :=
  n.frame_issued.thenThreads n.warp (e.parts_sub f.c) (Env.parts_nodup n.warp f.c) _
    fun _ _ _ => setPred_idx ..

theorem each_setPred_due {t : Thread} (ht : t.due = []) :
    (e.each s f (fun t u => u.setPred p (bits t)) t).due = [] := by
  unfold Env.each
  split
  · rw [setPred_due, Env.past_due, ht]
  · rw [Env.past_due, ht]

/-- A word that only writes those predicates, where nothing stops it. -/
theorem completes_predAll {i : Instr} {body : Env → State → State} (n : Normal s e f h)
    (hexec : exec i s = .next (issue f h body s))
    (hbody : body e (s.issued e f) = (s.issued e f).predAll e (e.parts f.c) p bits) :
    Completes i s e .none e.g.icnt (e.each s f fun t u => u.setPred p (bits t)) := by
  have hframe := frame_predAll p bits n
  refine ⟨_, hexec, ?_⟩
  rw [n.done hbody hframe rfl rfl fun t ht => each_setPred_due p bits (n.calm.due t ht)]
  exact hframe

end

/-! ## What a vote decides (R194) -/

theorem boolBits_eq_ite {b : Bool} {P : Prop} [Decidable P] (h : b = true ↔ P) : boolBits b = if P then 7 else 0 := by
  simp only [boolBits, h]

section
variable (q : Thread → Bool) (l : List Thread)

theorem voteAll_iff : VoteMode.result' .all (l.map q) = true ↔ ∀ x ∈ l, q x = true := by
  simp [VoteMode.result']

theorem voteAny_iff : VoteMode.result' .any (l.map q) = true ↔ ∃ x ∈ l, q x = true := by
  simp [VoteMode.result']

/-- All true or all false is the same as any two equal. -/
theorem voteUni_iff : VoteMode.result' .uni (l.map q) = true ↔ ∀ x ∈ l, ∀ y ∈ l, q x = q y := by
  have hmodel : VoteMode.result' .uni (l.map q) = true ↔ (∀ x ∈ l, q x = true) ∨ ∀ x ∈ l, q x = false := by
    simp [VoteMode.result']
  rw [hmodel]
  constructor
  · rintro (htrue | hfalse) x hx y hy
    · rw [htrue x hx, htrue y hy]
    · rw [hfalse x hx, hfalse y hy]
  · intro hequal
    by_cases hsome : ∃ x ∈ l, q x = true
    · obtain ⟨x, hx, hqx⟩ := hsome
      exact .inl fun y hy => (hequal y hy x hx).trans hqx
    · exact .inr fun x hx => Bool.eq_false_iff.mpr fun hqx => hsome ⟨x, hx, hqx⟩

end

/-! ## The words -/

/-- `vote` gives every participant the bits of one statement about them. -/
theorem completes_vote {c : Ctl} {m : VoteMode} {ps : BitVec 3} {neg : Bool} {s : State} {e : Env} {P : Prop}
    [Decidable P] (n : Normal s e (Form.short c [] []) noHold) (p : BitVec 3)
    (hP : VoteMode.result' m ((e.parts c).map fun t => t.predTrue ps neg) = true ↔ P) :
    Completes (.vote c m p ps neg) s e .none e.g.icnt
      (e.each s (Form.short c [] []) fun _ u => u.setPred p (if P then 7 else 0)) := by
  rw [← boolBits_eq_ite hP]
  exact completes_predAll p (fun _ => _) n rfl rfl

theorem completes_elect {c : Ctl} {s : State} {e : Env} (n : Normal s e (Form.short c [] []) noHold) (p : BitVec 3) :
    Completes (.elect c p) s e .none e.g.icnt
      (e.each s (Form.short c [] []) fun t u => u.setPred p (if (e.parts c).head? = some t then 7 else 0)) :=
  completes_predAll p (fun t => if (e.parts c).head? = some t then 7 else 0) n rfl
    (congrArg ((s.issued e (Form.short c [] [])).predAll e (e.parts c) p)
      (funext fun _ => boolBits_eq_ite decide_eq_true_iff))

/-- Settles O16: `vote` and `elect` only write predicates, `ballot` is a plain word whose value reads no state but the
participants. -/
theorem voteWords : Obligations.vote_words := fun c ps neg =>
  ⟨fun _ e n =>
    ⟨fun p => completes_vote n p (voteAll_iff (fun t => t.predTrue ps neg) (e.parts c)),
      fun p => completes_vote n p (voteAny_iff (fun t => t.predTrue ps neg) (e.parts c)),
      fun p => completes_vote n p (voteUni_iff (fun t => t.predTrue ps neg) (e.parts c)),
      completes_elect n⟩,
    fun _ _ => plainForm_of_exec (List.Subset.refl _) (fun _ => rfl) fun _ _ _ => rfl⟩

end Sys2Proof.Claims
end

section
/-! SUPPORT. Numbers in memory: a number written and read back, a number written twice, and the number that stands there
written again (R44). -/

namespace Sys2Proof.Machine

/-! ## Numbers as bytes -/

@[simp] theorem length_leBytes (n x : Nat) : (leBytes n x).length = n := by
  induction n generalizing x with
  | zero => rfl
  | succ n ih => simp [leBytes, ih]

theorem leNat_leBytes {n x : Nat} (h : x < 256 ^ n) : leNat (leBytes n x) = x := by
  induction n generalizing x with
  | zero => simp only [Nat.pow_zero] at h; simp only [leBytes, leNat]; omega
  | succ n ih =>
    have hx : x / 256 < 256 ^ n := Nat.div_lt_of_lt_mul (by rwa [Nat.pow_succ, Nat.mul_comm] at h)
    simp only [leBytes, leNat, ih hx, BitVec.toNat_ofNat]
    omega

theorem leNat_lt (l : List Byte) : leNat l < 256 ^ l.length := by
  induction l with
  | nil => simp [leNat]
  | cons b l ih =>
    have hb : b.toNat < 256 := b.isLt
    simp only [leNat, List.length_cons, Nat.pow_succ]
    omega

theorem leBytes_leNat (l : List Byte) : leBytes l.length (leNat l) = l := by
  induction l with
  | nil => rfl
  | cons b l ih =>
    have hb : b.toNat < 256 := b.isLt
    have hdiv : (b.toNat + 256 * leNat l) / 256 = leNat l := by omega
    have hmod : BitVec.ofNat 8 (b.toNat + 256 * leNat l) = b := BitVec.eq_of_toNat_eq (by
      rw [BitVec.toNat_ofNat]
      omega)
    simp only [List.length_cons, leNat, leBytes, hdiv, hmod, ih]

/-! ## Runs of bytes -/

theorem Mem.getElem?_readBytes (m : Mem) (a n k : Nat) :
    (m.readBytes a n)[k]? = if k < n then some (m.read (a + k)) else none := by
  induction n generalizing a k with
  | zero => simp [Mem.readBytes]
  | succ n ih =>
    cases k with
    | zero => simp [Mem.readBytes]
    | succ k => simp [Mem.readBytes, ih, Nat.add_assoc, Nat.add_comm 1 k]

@[simp] theorem Mem.length_readBytes (m : Mem) (a n : Nat) : (m.readBytes a n).length = n := by
  induction n generalizing a with
  | zero => rfl
  | succ n ih => simp [Mem.readBytes, ih]

/-- A byte after a run of bytes is written: that of the run where the run has one, else the old one. -/
theorem Mem.read_writeBytes {m : Mem} (h : m.wf) (a j : Nat) (bs : List Byte) :
    (m.writeBytes a bs).read j = if a ≤ j then bs[j - a]?.getD (m.read j) else m.read j := by
  split
  · rename_i haj
    by_cases hj : j - a < bs.length
    · have hsame := Mem.read_writeBytes_same h a (j - a) bs hj
      rw [Nat.add_sub_cancel' haj] at hsame
      rw [hsame, List.getElem?_eq_getElem hj, Option.getD_some]
    · rw [List.getElem?_eq_none (Nat.not_lt.mp hj), Option.getD_none]
      exact Mem.read_writeBytes_other h a j bs (by omega)
  · exact Mem.read_writeBytes_other h a j bs (by omega)

theorem Mem.readBytes_writeBytes {m : Mem} (h : m.wf) (a : Nat) (bs : List Byte) :
    (m.writeBytes a bs).readBytes a bs.length = bs := by
  refine List.ext_getElem? fun k => ?_
  rw [Mem.getElem?_readBytes]
  split
  · next hk => rw [Mem.read_writeBytes_same h a k bs hk, List.getElem?_eq_getElem hk]
  · next hk => rw [List.getElem?_eq_none (Nat.not_lt.mp hk)]

theorem Mem.writeBytes_writeBytes {m : Mem} (h : m.wf) (a : Nat) {bs cs : List Byte} (hl : bs.length = cs.length) :
    (m.writeBytes a bs).writeBytes a cs = m.writeBytes a cs := by
  have hb := Mem.writeBytes_wf h a bs
  refine Mem.ext_read (Mem.writeBytes_wf hb a cs) (Mem.writeBytes_wf h a cs) fun j => ?_
  rw [Mem.read_writeBytes hb, Mem.read_writeBytes h a j bs, Mem.read_writeBytes h a j cs]
  split
  · by_cases hj : j - a < cs.length
    · rw [List.getElem?_eq_getElem hj, Option.getD_some, Option.getD_some]
    · rw [List.getElem?_eq_none (Nat.not_lt.mp hj), List.getElem?_eq_none (l := bs) (by omega)]
      rfl
  · rfl

theorem Mem.writeBytes_readBytes {m : Mem} (h : m.wf) (a n : Nat) : m.writeBytes a (m.readBytes a n) = m := by
  refine Mem.ext_read (Mem.writeBytes_wf h a _) h fun j => ?_
  rw [Mem.read_writeBytes h]
  split
  · next haj =>
    rw [Mem.getElem?_readBytes, Nat.add_sub_cancel' haj]
    split <;> rfl
  · rfl

/-! ## Numbers -/

theorem Mem.readNat_lt (m : Mem) (a n : Nat) : m.readNat a n < 256 ^ n := by
  have h := leNat_lt (m.readBytes a n)
  rwa [Mem.length_readBytes] at h

theorem Mem.readNat_writeNat {m : Mem} (h : m.wf) (a : Nat) {n x : Nat} (hx : x < 256 ^ n) :
    (m.writeNat a n x).readNat a n = x := by
  have hb := Mem.readBytes_writeBytes h a (leBytes n x)
  rw [length_leBytes] at hb
  rw [Mem.readNat, Mem.writeNat, hb, leNat_leBytes hx]

theorem Mem.writeNat_writeNat {m : Mem} (h : m.wf) (a n x y : Nat) :
    (m.writeNat a n x).writeNat a n y = m.writeNat a n y :=
  Mem.writeBytes_writeBytes h a (by simp)

theorem Mem.writeNat_readNat {m : Mem} (h : m.wf) (a n : Nat) : m.writeNat a n (m.readNat a n) = m := by
  have hb := leBytes_leNat (m.readBytes a n)
  rw [Mem.length_readBytes] at hb
  rw [Mem.writeNat, Mem.readNat, hb, Mem.writeBytes_readBytes h]

end Sys2Proof.Machine
end

section
/-! SUPPORT. Barrier objects in block shared memory (R220 to R223): the model's operations on an object as the operations
of the rules, and an object written and read back. -/

namespace Sys2Proof.Claims

open Sys2Proof.Machine

/-! ## An object (R221, R223) -/

theorem barWord_eq_barObject (ex n : Nat) (p : BitVec 16) :
    barWord ex n p = barObject (BitVec.ofNat 16 ex) (BitVec.ofNat 16 n) p := rfl

theorem ofNat_barExpected (x : DWord) : BitVec.ofNat 16 (barExpected x) = expectedOf x := BitVec.ofNat_toNat ..

theorem ofNat_barArrived (x : DWord) : BitVec.ofNat 16 (barArrived x) = arrivedOf x := BitVec.ofNat_toNat ..

theorem barWord_init (n : Word) : barWord n.toNat 0 0 = barObject (n.extractLsb' 0 16) 0 0 := by
  rw [barWord_eq_barObject, show BitVec.ofNat 16 n.toNat = n.extractLsb' 0 16 from BitVec.eq_of_toNat_eq (by simp)]
  rfl

/-- An arrival changes the object as R221 says, and its phase is the object's before. -/
theorem barArrive_eq (x : DWord) : barArrive x = (afterArrival x, phaseOf x) := by
  have harrived : BitVec.ofNat 16 (barArrived x + 1) = arrivedOf x + 1 := by
    rw [BitVec.ofNat_add, ofNat_barArrived]
    rfl
  unfold barArrive afterArrival
  simp only [barWord_eq_barObject, ofNat_barExpected, harrived]
  exact (apply_ite (fun o => (o, phaseOf x)) ..).symm

theorem barDrop_eq (x : DWord) (n : Nat) : barDrop x n = afterDrop x n := by
  have hex : (BitVec.ofNat 16 ((expectedOf x).toNat - n)).toNat = barExpected x - n := by
    have hlt := (expectedOf x).isLt
    rw [BitVec.toNat_ofNat, Nat.mod_eq_of_lt (by omega)]
    rfl
  unfold barDrop afterDrop
  simp only [hex, barWord_eq_barObject, ofNat_barArrived]
  rfl

/-- Of a barrier's phases, those of an arrival and of the one after it are the same or follow each other (R221). -/
theorem phaseOf_afterArrival (x : DWord) :
    phaseOf (afterArrival x) = phaseOf x ∨ phaseOf (afterArrival x) = phaseOf x + 1 := by
  have hphase : ∀ ex ar p, phaseOf (barObject ex ar p) = p := fun _ _ _ => BitVec.extractLsb'_append_eq_right
  unfold afterArrival
  split
  · exact .inl (hphase ..)
  · exact .inr (hphase ..)

/-! ## An object in its block -/

theorem setBar_eq_putBar (b : Block) (off : Nat) (x : DWord) : b.setBar off x = putBar b off x := by
  unfold Block.setBar Block.named putBar
  split <;> rfl

theorem bar_setBar {b : Block} (h : b.shared.wf) (off : Nat) (x : DWord) : (b.setBar off x).bar off = x := by
  unfold Block.bar
  rw [show (b.setBar off x).shared = b.shared.writeNat off 8 x.toNat from rfl,
    Mem.readNat_writeNat h off (n := 8) x.isLt, BitVec.ofNat_toNat, BitVec.setWidth_eq]

theorem setBar_setBar {b : Block} (h : b.shared.wf) (off : Nat) (x y : DWord) :
    (b.setBar off x).setBar off y = b.setBar off y := by
  simp only [setBar_eq_putBar, putBar, Mem.writeNat_writeNat h]
  by_cases hoff : off ∈ b.bars <;> simp [hoff]

/-- An object written as it stands only makes the barrier known. -/
theorem setBar_bar {b : Block} (h : b.shared.wf) (off : Nat) : b.setBar off (b.bar off) = b.named off := by
  have hlt : b.shared.readNat off 8 < 2 ^ 64 := b.shared.readNat_lt off 8
  have hbar : (b.bar off).toNat = b.shared.readNat off 8 := by
    rw [Block.bar, BitVec.toNat_ofNat, Nat.mod_eq_of_lt hlt]
  unfold Block.setBar Block.named
  rw [hbar, Mem.writeNat_readNat h]
  split <;> rfl

end Sys2Proof.Claims
end

section
/-! SUPPORT. Frames of a word that changes its block: the block replaced, an access sent to another core, the marks of an
outstanding instruction, and the threads that see a PHASE (R222, R224, R227). -/

namespace Sys2Proof.Machine

open Sys2Proof.Claims

/-! ## A thread at a PHASE (R222) -/

/-- The thread waits at no barrier. -/
def Thread.Unwaiting (t : Thread) : Prop := ∀ off target since last, t.wait ≠ some (.barrier off target since last)

theorem Thread.seePhase_eq_seen (t : Thread) (b : Block) (tag : BitVec 12) (now : Nat) :
    t.seePhase b tag now = seen b tag now t := by
  unfold Thread.seePhase seen
  cases ht : t.wait with
  | none => rfl
  | some x =>
    cases x with
    | barrier off target since last =>
      simp only [passed, decide_eq_true_eq]
      rfl
    | _ => rfl

theorem seen_of_unwaiting {t : Thread} (h : t.Unwaiting) (b : Block) (tag : BitVec 12) (now : Nat) : seen b tag now t = t := by
  unfold seen
  split
  · next ht => exact absurd ht (h _ _ _ _)
  · rfl

theorem seen_of_barrier {t : Thread} {off since : Nat} {target last : BitVec 16}
    (ht : t.wait = some (.barrier off target since last)) {b : Block} {tag : BitVec 12} {phase : BitVec 16}
    (hphase : (if t.owner = tag then phaseOf (b.bar off) else 0) = phase)
    (now : Nat) :
    seen b tag now t =
      if (phase - target).toNat < 0x8000 then t.release
      else if phase = last then t
      else { t with wait := some (.barrier off target now phase) } := by
  unfold seen
  rw [ht]
  simp only [hphase]
  rfl

/-- A thread at a PHASE stays, waits no more, or waits on. -/
theorem seen_cases (b : Block) (tag : BitVec 12) (now : Nat) (t : Thread) :
    seen b tag now t = t ∨ seen b tag now t = t.release ∨ ∃ x, seen b tag now t = { t with wait := x } := by
  by_cases h : t.Unwaiting
  · exact .inl (seen_of_unwaiting h ..)
  · simp only [Thread.Unwaiting, ne_eq, Classical.not_forall, Classical.not_not] at h
    obtain ⟨off, target, since, last, ht⟩ := h
    obtain ⟨phase, hphase⟩ : ∃ p, (if t.owner = tag then phaseOf (b.bar off) else 0) = p := ⟨_, rfl⟩
    rw [seen_of_barrier ht hphase]
    split
    · exact .inr (.inl rfl)
    · split
      · exact .inl rfl
      · exact .inr (.inr ⟨_, rfl⟩)

@[simp] theorem seen_idx (b : Block) (tag : BitVec 12) (now : Nat) (t : Thread) : (seen b tag now t).idx = t.idx := by
  rcases seen_cases b tag now t with h | h | ⟨_, h⟩ <;> exact (congrArg Thread.idx h).trans rfl

@[simp] theorem seen_due (b : Block) (tag : BitVec 12) (now : Nat) (t : Thread) : (seen b tag now t).due = t.due := by
  rcases seen_cases b tag now t with h | h | ⟨_, h⟩ <;> exact (congrArg Thread.due h).trans rfl

theorem Thread.Unwaiting.of_wait {t u : Thread} (h : t.Unwaiting) (hw : u.wait = t.wait) : u.Unwaiting := by
  intro off target since last
  rw [hw]
  exact h _ _ _ _

/-- A warp of the block whose threads have seen what `b` holds; a saved one sees nothing. -/
def Warp.sees (b : Block) (tag : BitVec 12) (now : Nat) (w : Warp) : Warp :=
  if w.bid = b.bid ∧ w.saved = false then { w with threads := w.threads.map (seen b tag now) } else w

@[simp] theorem Warp.sees_wid (b : Block) (tag : BitVec 12) (now : Nat) (w : Warp) : (w.sees b tag now).wid = w.wid := by
  unfold Warp.sees
  split <;> rfl

theorem Warp.sees_of_unwaiting {w : Warp} {b : Block} (h : w.bid = b.bid → ∀ t ∈ w.threads, t.Unwaiting) (tag : BitVec 12)
    (now : Nat) : w.sees b tag now = w := by
  unfold Warp.sees
  split
  · next hb =>
    have hmap : w.threads.map (seen b tag now) = w.threads :=
      (List.map_congr_left fun t ht => seen_of_unwaiting (h hb.1 t ht) b tag now).trans (List.map_id _)
    rw [hmap]
  · rfl

theorem State.warp?_map (x : State) (g : Warp → Warp) (hg : ∀ w, (g w).wid = w.wid) (wid : Nat) :
    State.warp? { x with warps := x.warps.map g } wid = (x.warp? wid).map g := by
  simp only [State.warp?, List.find?_map, Function.comp_def, hg]

/-! ## Parts of a frame -/

section
variable {s x : State} {e : Env} {c : Word × Word × Word} {post : Thread → Thread}

theorem Frame.now_eq {d : Dst} (h : Frame s x e d c post) : x.now = s.now := by rw [h.rest]

/-- Without a destination, the place in the cycle's order is all that a word changes in its block. -/
theorem Frame.block_eq (h : Frame s x e .none c post) : ∃ k, x.block? e.b.bid = some { e.b with lastKey := k } := by
  obtain ⟨b', hb, hafter⟩ := h.block
  exact ⟨b'.lastKey, hb.trans (congrArg some (hafter.other (by simp)))⟩

/-- Then the block changes, as `g` says: the frame holds of the block so changed. -/
theorem Frame.thenBlock (h : Frame s x e .none c post) (g : Block → Block) (hbid : ∀ b, (g b).bid = b.bid)
    (hkey : ∀ b k, g { b with lastKey := k } = { g b with lastKey := k }) :
    Frame s (x.updBlock e.b.bid g) { e with b := g e.b } .none c post where
  rest := by
    have hr := h.rest
    rw [hr]
    rfl
  cores := h.cores
  dies := h.dies
  ctxs := h.ctxs
  grids := h.grids
  warp := h.warp
  others := h.others
  block := by
    obtain ⟨k, hb⟩ := h.block_eq
    refine ⟨{ g e.b with lastKey := k }, ?_, ⟨rfl, fun _ => rfl, fun _ _ => rfl⟩⟩
    rw [show ({ e with b := g e.b } : Env).b.bid = e.b.bid from hbid e.b, State.block_updBlock_same _ _ _ hbid, hb,
      Option.map_some, hkey]
  blocks bid hne := by
    have hne : bid ≠ e.b.bid := hbid e.b ▸ hne
    rw [State.block_updBlock_other _ hne _ hbid]
    exact h.blocks bid hne
  group := h.group
  bystanders := h.bystanders

/-- Then one thread of the group changes. -/
theorem Frame.thenThread (hw : e.w.Sound) {d : Dst} (h : Frame s x e d c post) {t : Thread} (ht : t ∈ e.group)
    (g : Thread → Thread) (hg : ∀ u, (g u).idx = u.idx) :
    Frame s (x.updThread e.w.wid t.idx g) e d c fun u => if u = t then g (post u) else post u :=
  (h.thenThreads hw (l := [t]) (fun _ hu => List.mem_singleton.mp hu ▸ ht) (by simp) (fun _ => g)
    fun _ u _ => hg u).congr fun u _ => by simp only [List.mem_singleton]

/-! ## Outstanding instructions -/

/-- The warp with the outstanding instruction of a number changed. -/
def Warp.mapPend (pid : Nat) (F : Pend → Pend) (w : Warp) : Warp :=
  { w with pend := mapIf (fun p => p.id = pid) F w.pend }

theorem map_bare_mapIf (pid : Nat) {F : Pend → Pend} (hF : ∀ p, (F p).bare = F p.bare) (l : List Pend) :
    (mapIf (fun p => p.id = pid) F l).map Pend.bare = mapIf (fun p => p.id = pid) F (l.map Pend.bare) := by
  induction l with
  | nil => rfl
  | cons p l ih =>
    have hid : p.bare.id = p.id := rfl
    by_cases hp : p.id = pid <;> simp [hid, hp, hF, ih]

/-- Then an outstanding instruction of the warp changes, its marks of R78 apart. -/
theorem Frame.thenPend {d : Dst} (h : Frame s x e d c post) (pid : Nat) {F : Pend → Pend}
    (hF : ∀ p, (F p).bare = F p.bare) :
    Frame s (x.updWarp e.w.wid (Warp.mapPend pid F)) (withWarp e (Warp.mapPend pid F)) d c post :=
  h.thenField _ (fun _ => rfl) (fun _ => rfl)
    (fun w' ha =>
      { rest := by
          have hr := ha.rest
          rw [hr]
          rfl
        pend := by
          show (mapIf _ F w'.pend).map Pend.bare = (mapIf _ F e.w.pend).map Pend.bare
          rw [map_bare_mapIf pid hF, map_bare_mapIf pid hF, ha.pend]
        sregs := ha.sregs })
    rfl

/-- Then an instruction becomes outstanding (R76). -/
theorem Frame.thenAddPend {d : Dst} (h : Frame s x e d c post) (p : Pend) :
    Frame s (x.addPend e.w.wid p) (withWarp e (addPend p)) d c post :=
  h.thenField (addPend p) (fun _ => rfl) (fun _ => rfl)
    (fun w' ha =>
      { rest := by
          have hr := ha.rest
          rw [hr]
          rfl
        pend := by
          show (w'.pend ++ [p]).map Pend.bare = (e.w.pend ++ [p]).map Pend.bare
          rw [List.map_append, List.map_append, ha.pend]
        sregs := ha.sregs })
    rfl

theorem Frame.thenNewId {d : Dst} (h : Frame s x e d c post) : Frame { s with uid := s.uid + 1 } x.newId.2 e d c post :=
  h.thenRest (fun x => { x with uid := x.uid + 1 }) fun _ _ _ _ _ _ _ => rfl

/-- The newest outstanding instruction is the only one of its number. -/
theorem Warp.mapPend_addPend {w : Warp} {q : Pend} (h : ∀ p ∈ w.pend, p.id ≠ q.id) {F : Pend → Pend}
    (hF : (F q).flag = q.flag) : Warp.mapPend q.id F (addPend q w) = addPend (F q) w := by
  have hold : mapIf (fun p => decide (p.id = q.id)) F w.pend = w.pend :=
    (List.map_congr_left fun p hp => by simp [h p hp]).trans (List.map_id _)
  have hnew : mapIf (fun p => decide (p.id = q.id)) F (w.pend ++ [q]) = w.pend ++ [F q] := by
    rw [show mapIf (fun p => decide (p.id = q.id)) F (w.pend ++ [q]) =
      mapIf (fun p => decide (p.id = q.id)) F w.pend ++ mapIf (fun p => decide (p.id = q.id)) F [q] from List.map_append,
      hold]
    simp
  simp only [Warp.mapPend, addPend, hnew, hF]

/-! ## The threads that see a PHASE -/

theorem Frame.seePhases_eq (h : Frame s x e .none c post) (hg : e.g.gid = e.b.gid) :
    x.seePhases e.b.bid = { x with warps := x.warps.map (Warp.sees e.b e.g.tag s.now) } := by
  obtain ⟨k, hb⟩ := h.block_eq
  have hgrid : x.grid? e.b.gid = some { e.g with icnt := c } := by rw [h.grids, if_pos hg.symm]
  have hsee : ∀ t : Thread, t.seePhase { e.b with lastKey := k } e.g.tag x.now = seen e.b e.g.tag s.now t := fun t => by
    rw [Thread.seePhase_eq_seen, h.now_eq]
    rfl
  unfold State.seePhases
  rw [hb]
  simp only [hgrid, Option.map_some, Option.getD_some, hsee, mapIf, Bool.and_eq_true, decide_eq_true_eq, Bool.not_eq_true']
  rfl

/-- What a warp of the block other than the issuing one has seen. -/
theorem Frame.others_see (h : Frame s x e .none c post) (hg : e.g.gid = e.b.gid) {wid : Nat} {w : Warp} (hne : wid ≠ e.w.wid)
    (hw : s.warp? wid = some w) (hb : w.bid = e.b.bid) (hs : w.saved = false) :
    ∃ w', (x.seePhases e.b.bid).warp? wid = some w' ∧ w'.threads = w.threads.map (seen e.b e.g.tag s.now) := by
  obtain ⟨w1, hw1, heq, -⟩ := h.others wid hne w hw
  have hb1 : w1.bid = e.b.bid := by rw [heq]; exact hb
  have hs1 : w1.saved = false := by rw [heq]; exact hs
  have ht1 : w1.threads = w.threads := by rw [heq]
  refine ⟨w1.sees e.b e.g.tag s.now, ?_, ?_⟩
  · rw [h.seePhases_eq hg, State.warp?_map _ _ (Warp.sees_wid _ _ _), hw1]
    rfl
  · rw [Warp.sees, if_pos ⟨hb1, hs1⟩, ht1]

/-- What a thread of the group has seen, where its warp is not saved. -/
def Env.seenBy (e : Env) (now : Nat) (t : Thread) : Thread := if e.w.saved then t else seen e.b e.g.tag now t

theorem Env.seenBy_of_unwaiting (e : Env) (now : Nat) {t : Thread} (h : t.Unwaiting) : e.seenBy now t = t := by
  unfold Env.seenBy
  rw [seen_of_unwaiting h, ite_self]

/-- Where no thread of the block has waited at a barrier, the threads of the group alone may see something. -/
theorem Frame.thenSeen (h : Frame s x e .none c post) (hg : e.g.gid = e.b.gid) (hb : e.w.bid = e.b.bid)
    (hu : Unawaited s e.b.bid) (hown : ∀ t ∈ e.w.threads, t.Unwaiting) :
    Frame s (x.seePhases e.b.bid) e .none c fun t => e.seenBy s.now (post t) := by
  obtain ⟨w', hw', hafter, hidx⟩ := h.warp
  have hbid : w'.bid = e.b.bid := by rw [hafter.rest]; exact hb
  have hsaved : w'.saved = e.w.saved := by rw [hafter.rest]
  have hwarp : ∀ wid, (x.seePhases e.b.bid).warp? wid = (x.warp? wid).map (Warp.sees e.b e.g.tag s.now) := fun wid => by
    rw [h.seePhases_eq hg]
    exact State.warp?_map _ _ (Warp.sees_wid _ _ _) wid
  have hthreads : (w'.sees e.b e.g.tag s.now).threads = w'.threads.map (e.seenBy s.now) := by
    unfold Warp.sees Env.seenBy
    rw [hsaved]
    cases e.w.saved <;> simp [hbid]
  have hrest : w'.sees e.b e.g.tag s.now = { w' with threads := w'.threads.map (e.seenBy s.now) } := by
    rw [← hthreads]
    unfold Warp.sees
    split <;> rfl
  have hsame : ∀ t, (e.seenBy s.now t).idx = t.idx := fun t => by
    unfold Env.seenBy
    split
    · rfl
    · exact seen_idx ..
  have hthread : ∀ i u, x.thread? e.w.wid i = some u →
      (x.seePhases e.b.bid).thread? e.w.wid i = some (e.seenBy s.now u) := fun i u hi => by
    unfold State.thread? at hi ⊢
    rw [hw'] at hi
    rw [hwarp, hw', Option.map_some, Option.bind_some, Warp.thread?, hthreads, find_map_idx _ _ hsame,
      show w'.threads.find? (fun t => decide (t.idx = i)) = some u from hi, Option.map_some]
  exact
    { rest := by
        have hr := h.rest
        rw [h.seePhases_eq hg, hr]
      cores := by rw [h.seePhases_eq hg]; exact h.cores
      dies := by rw [h.seePhases_eq hg]; exact h.dies
      ctxs := by rw [h.seePhases_eq hg]; exact h.ctxs
      grids := by rw [h.seePhases_eq hg]; exact h.grids
      warp := by
        refine ⟨_, by rw [hwarp, hw']; rfl, by rw [hrest]; exact hafter.threads _, ?_⟩
        rw [hthreads, List.map_map, ← hidx]
        exact List.map_congr_left fun t _ => hsame t
      others := fun wid hne w hw => by
        obtain ⟨w1, hw1, heq, hpend⟩ := h.others wid hne w hw
        refine ⟨w1, ?_, heq, hpend⟩
        rw [hwarp, hw1, Option.map_some, Warp.sees_of_unwaiting]
        intro hbw t ht
        rw [heq] at hbw ht
        exact hu w (List.mem_of_find?_eq_some hw) hbw t ht
      block := by rw [h.seePhases_eq hg]; exact h.block
      blocks := by rw [h.seePhases_eq hg]; exact h.blocks
      group := fun t ht => hthread _ _ (h.group t ht)
      bystanders := fun t ht hi => by
        obtain ⟨u, hu', hage⟩ := h.bystanders t ht hi
        refine ⟨u, ?_, hage⟩
        have hwait : u.Unwaiting := (hown t ht).of_wait (by rw [hage])
        rw [hthread _ _ hu', e.seenBy_of_unwaiting s.now hwait] }

end

end Sys2Proof.Machine
end

section
/-! SUPPORT. What one barrier access does to a frame (R220 to R223, R227): at the thread's own core, on its way to another,
or refused. -/

namespace Sys2Proof.Machine

open Sys2Proof.Claims

/-! ## Accesses to a portion (R227) -/

/-- An access reads nothing of the place that its block has in the cycle's order. -/
theorem State.applyPortion_lastKey (x : State) (b : Block) (k : Option (Nat × Nat)) (acc : PortionAcc) :
    x.applyPortion { b with lastKey := k } acc = x.applyPortion b acc := by
  unfold State.applyPortion
  cases acc.op <;> rfl

section
variable {s x : State} {e : Env} {c : Word × Word × Word} {post : Thread → Thread}

theorem Frame.portionAccess_home (h : Frame s x e .none c post) {rank : Nat} {acc : PortionAcc}
    (hr : e.b.rankOf acc.off = rank) : x.portionAccess e.b.bid rank acc = x.applyPortion e.b acc := by
  obtain ⟨k, hb⟩ := h.block_eq
  unfold State.portionAccess
  rw [hb]
  exact (if_pos hr).trans (x.applyPortion_lastKey e.b k acc)

theorem Frame.portionAccess_away (h : Frame s x e .none c post) {rank : Nat} {acc : PortionAcc}
    (hr : e.b.rankOf acc.off ≠ rank) :
    x.portionAccess e.b.bid rank acc = x.updBlock e.b.bid fun b => { b with portions := b.portions ++ [acc] } := by
  obtain ⟨k, hb⟩ := h.block_eq
  unfold State.portionAccess
  rw [hb]
  exact if_neg hr

theorem Frame.thenCarried (h : Frame s x e .none c post) (acc : PortionAcc) :
    Frame s (x.updBlock e.b.bid fun b => { b with portions := b.portions ++ [acc] }) (withAcc e acc) .none c post :=
  h.thenBlock _ (fun _ => rfl) fun _ _ => rfl

theorem Frame.thenSetBar (h : Frame s x e .none c post) (off : Nat) (v : DWord) :
    Frame s (x.updBlock e.b.bid fun b => b.setBar off v) (withBar e off v) .none c post := by
  simp only [setBar_eq_putBar]
  exact h.thenBlock _ (fun _ => rfl) fun _ _ => rfl

/-- A barrier named and left as it stands. -/
theorem Frame.thenNamed (h : Frame s x e .none c post) (hwf : e.b.shared.wf) (off : Nat) :
    Frame s (x.updBlock e.b.bid fun b => b.named off) (withBar e off (e.b.bar off)) .none c post := by
  have henv : withBar e off (e.b.bar off) = { e with b := e.b.named off } := by
    rw [← setBar_bar hwf, setBar_eq_putBar]
    rfl
  rw [henv]
  refine h.thenBlock _ (fun b => ?_) fun b k => ?_
  · unfold Block.named
    split <;> rfl
  · unfold Block.named
    dsimp only
    split <;> rfl

end

/-! ## The checks of a barrier address (R220, Table 10.4) -/

section
variable {e : Env} {t : Thread} {off : Nat}

theorem Env.barCheck_at (h : BarAt e off) : e.barCheck false t off = none := by
  obtain ⟨halign, hend, hclean⟩ := h
  simp [Env.barCheck, halign, hclean, Nat.not_lt.mpr hend]

theorem Env.barCheck_ok (h : BarOk e t off) (wr : Bool) : e.barCheck wr t off = none := by
  obtain ⟨⟨halign, hend, hclean⟩, howner⟩ := h
  simp [Env.barCheck, halign, hclean, howner, Nat.not_lt.mpr hend]

theorem Env.barCheck_refused {wr : Bool} {code : Nat} (h : BarRefused e t wr off code) :
    e.barCheck wr t off = some (Fail.mk' code 0 (0xE00000000000 + off)) := by
  unfold Env.barCheck
  rcases h with ⟨hbad, rfl⟩ | ⟨halign, hend, hbad, rfl⟩
  · rw [if_pos hbad]
  · have hgood : ¬ (off % 8 ≠ 0 ∨ e.b.shBytes < off + 8) := by omega
    rw [if_neg hgood]
    rcases hbad with ⟨rfl, howner⟩ | hpoison
    · simp [howner]
    · simp [hpoison]

/-- A refused access is a trap before the word. -/
theorem State.fail_barTrap {s x : State} (hx : SameDebug s x) (e : Env) (t : Thread) (off code : Nat) :
    x.fail e t (Fail.mk' code 0 (0xE00000000000 + off)) = x.updThread e.w.wid t.idx fun _ => barTrap e s t off code :=
  Env.trapBefore_eq hx e t _

end

/-! ## The accesses of an issue -/

/-- Two folds whose steps agree on the members of the list. -/
theorem foldl_congr_mem {α σ : Type} {F G : σ → α → σ} {l : List α} (h : ∀ y, ∀ x ∈ l, F y x = G y x) (y : σ) :
    l.foldl F y = l.foldl G y := by
  induction l generalizing y with
  | nil => rfl
  | cons x l ih =>
    rw [List.foldl_cons, List.foldl_cons, h y x (List.mem_cons_self ..)]
    exact ih (fun z u hu => h z u (List.mem_cons_of_mem _ hu)) _

section
variable {x : State} {e : Env} {a : Opd} {wr : Bool} {f : State → Thread → Nat → State} {off : Nat}

theorem State.barEach_passed {ts : List Thread} (h : ∀ t ∈ ts, e.barOff x t a = off ∧ e.barCheck wr t off = none) :
    x.barEach e a wr ts f = ts.foldl (fun y t => f (y.charge e.g.tag 5 1) t off) x := by
  refine foldl_congr_mem (fun y t ht => ?_) x
  obtain ⟨hoff, hcheck⟩ := h t ht
  simp only [hoff, hcheck]

theorem State.barEach_one {t : Thread} (hoff : e.barOff x t a = off) (hcheck : e.barCheck wr t off = none) :
    x.barEach e a wr [t] f = f (x.charge e.g.tag 5 1) t off :=
  State.barEach_passed fun u hu => by
    rw [List.mem_singleton.mp hu]
    exact ⟨hoff, hcheck⟩

theorem State.barEach_refused {t : Thread} {r : Fail} (hoff : e.barOff x t a = off) (hcheck : e.barCheck wr t off = some r) :
    x.barEach e a wr [t] f = x.fail e t r := by
  simp only [State.barEach, List.foldl_cons, List.foldl_nil, hoff, hcheck]

end

/-! ## Threads past the word -/

theorem Env.past_wait (e : Env) (s : State) (f : Form) (t : Thread) : (e.past s f t).wait = t.wait := by
  unfold Env.past latchClock
  dsimp only
  split
  · split <;> rfl
  · rfl

theorem Env.past_owner (e : Env) (s : State) (f : Form) (t : Thread) : (e.past s f t).owner = t.owner := by
  unfold Env.past latchClock
  dsimp only
  split
  · split <;> rfl
  · rfl

/-! ## Words that end with the waiters -/

/-- Traps due are taken in the issuing warp alone. -/
theorem State.finish_warp_other (x : State) (e : Env) {wid : Nat} (hne : wid ≠ e.w.wid) :
    (x.finish e).warp? wid = x.warp? wid := by
  have hthread : ∀ (y : State) i g, (y.updThread e.w.wid i g).warp? wid = y.warp? wid := fun y i g =>
    State.warp_updWarp_other y hne _ fun _ => rfl
  refine foldl_same (fun y : State => y.warp? wid) (fun y i => y.takeDue e.w.wid i) (fun y i => ?_) e.iss.thrs x
  unfold State.takeDue State.trap
  split
  · rfl
  · split
    · rfl
    · split
      · split
        · exact hthread ..
        · rw [hthread, hthread]
      · rfl

section
variable {s s0 x : State} {e e' : Env} {f : Form} {h : State → Env → Thread → Option Hold} {i : Instr}
  {body : Env → State → State} {c : Word × Word × Word} {post : Thread → Thread}

/-- A word whose body gives a state with a known frame, with nothing due, answers a state with that frame. -/
theorem Normal.answers (n : Normal s e f h) (hexec : exec i s = .next (issue f h body s))
    (hbody : body e (s.issued e f) = x) (fr : Frame s0 x e' .none c post) (hi : e'.iss = e.iss) (hw : e'.w.wid = e.w.wid)
    (hdue : ∀ t ∈ e'.group, (post t).due = []) : ∃ s', exec i s = .next s' ∧ Frame s0 s' e' .none c post := by
  refine ⟨_, hexec, ?_⟩
  rw [n.done hbody fr hi hw hdue]
  exact fr

/-- The threads of other warps of the block that wait at barriers have seen what `b` holds (R222, R224). -/
def OthersSee (i : Instr) (s : State) (e : Env) (b : Block) : Prop :=
  ∃ s', exec i s = .next s' ∧ ∀ wid w, wid ≠ e.w.wid → s.warp? wid = some w → w.bid = e.b.bid → w.saved = false →
    ∃ w', s'.warp? wid = some w' ∧ w'.threads = w.threads.map (seen b e.g.tag s.now)

theorem Normal.placed (n : Normal s e f h) : e.g.gid = e.b.gid ∧ e.w.bid = e.b.bid :=
  ⟨State.grid_gid (State.env_some n.runs.group).2.2.2, (State.env_bid n.runs.group).symm⟩

theorem Normal.unwaiting (n : Normal s e f h) (hu : Unawaited s e.b.bid) : ∀ t ∈ e.w.threads, t.Unwaiting :=
  hu e.w (List.mem_of_find?_eq_some (State.env_warp n.runs.group)) n.placed.2

/-- Where no thread of the block has waited at a barrier, the threads of the group alone see what the word has done. -/
theorem Normal.thenSeen (n : Normal s e f h) (hu : Unawaited s e.b.bid) (fr : Frame s0 x e' .none c post)
    (hs : s0.warps = s.warps) (hw : e'.w.threads = e.w.threads ∧ e'.w.bid = e.w.bid) (hg : e'.g = e.g)
    (hb : e'.b.bid = e.b.bid ∧ e'.b.gid = e.b.gid) :
    Frame s0 (x.seePhases e.b.bid) e' .none c fun t => e'.seenBy s0.now (post t) := by
  obtain ⟨hthreads, hwbid⟩ := hw
  obtain ⟨hbid, hgid⟩ := hb
  have hseen := fr.thenSeen (by rw [hg, hgid, n.placed.1]) (by rw [hwbid, hbid, n.placed.2])
    (by rw [hbid, Unawaited, hs]; exact hu) (by rw [hthreads]; exact n.unwaiting hu)
  rwa [hbid] at hseen

/-- A body that ends with the waiters of the block shows them the block that it leaves. -/
theorem Normal.othersSee (n : Normal s e f h) (hexec : exec i s = .next (issue f h body s))
    (hbody : body e (s.issued e f) = x.seePhases e.b.bid) (fr : Frame s0 x e' .none c post)
    (hs : s0.warps = s.warps ∧ s0.now = s.now) (hw : e'.w.wid = e.w.wid) (hg : e'.g = e.g)
    (hb : e'.b.bid = e.b.bid ∧ e'.b.gid = e.b.gid) : OthersSee i s e e'.b := by
  obtain ⟨hwarps, hnow⟩ := hs
  refine ⟨_, hexec, fun wid w hne hwid hbid hsaved => ?_⟩
  have hwid0 : s0.warp? wid = some w := (State.warp_congr hwarps wid).trans hwid
  have hgid : e'.g.gid = e'.b.gid := by rw [hg, hb.2, n.placed.1]
  obtain ⟨w', hw', hseen⟩ := fr.others_see hgid (hw ▸ hne) hwid0 (hbid.trans hb.1.symm) hsaved
  rw [hb.1] at hw'
  refine ⟨w', ?_, ?_⟩
  · rw [issue_of_runs n.runs, hbody, State.finish_warp_other _ _ hne, hw']
  · rw [hseen, hg, hnow]

/-- A single participant that takes a trap before the word. -/
theorem Normal.completes_trapped (n : Normal s e f h) (hexec : exec i s = .next (issue f h body s)) {t : Thread}
    (ht : e.parts f.c = [t]) (fr : Frame s x e .none e.g.icnt (e.past s f)) (g : Thread → Thread)
    (hbody : body e (s.issued e f) = x.updThread e.w.wid t.idx fun _ => g t) (hidx : ∀ u, (g u).idx = u.idx)
    (hdue : ∀ u, (g u).due = []) : Completes i s e .none e.g.icnt (e.each s f fun u _ => g u) := by
  have htg : t ∈ e.group := e.parts_sub f.c t (by rw [ht]; exact List.mem_singleton.mpr rfl)
  have hframe : Frame s (x.updThread e.w.wid t.idx fun _ => g t) e .none e.g.icnt (e.each s f fun u _ => g u) :=
    (fr.thenThreads n.warp (l := [t]) (fun _ hu => List.mem_singleton.mp hu ▸ htg) (by simp) (fun u _ => g u)
      fun u v hv => (hidx u).trans hv.symm).congr fun u _ => by rw [Env.each, ht]
  refine n.answers hexec hbody hframe rfl rfl fun u hu => ?_
  unfold Env.each
  split
  · exact hdue u
  · exact (Env.past_due ..).trans (n.calm.due u hu)

end

end Sys2Proof.Machine
end

section
/-! SUPPORT. `barinit`, `bardrop` and `barwait` (R222, R223, R246, R247): words whose participants each make one barrier
access. -/

namespace Sys2Proof.Claims

open Sys2Proof.Machine

/-! ## One participant -/

/-- The body of a word whose participants make one barrier access each, as `f` says. -/
def accessBody (c : Ctl) (a : Opd) (wr : Bool) (f : Env → State → State → Thread → Nat → State) (e : Env) (s : State) :
    State :=
  s.barEach e a wr (e.parts c) (f e s)

/-- The state in which the only access of a word is made: issued, the access charged (R430). -/
def accessed (s : State) (e : Env) (f : Form) : State := (s.issued e f).charge e.g.tag 5 1

section
variable {s : State} {e : Env} {f : Form} {h : State → Env → Thread → Option Hold} {i : Instr} {t : Thread} {a : Opd}
  {body : Env → State → State} {acc : Env → State → State → Thread → Nat → State} {wr : Bool} {off : Nat}
  (n : Normal s e f h) (ht : e.parts f.c = [t]) (hoff : (e.read0 s t a).toNat = off)
  (hexec : exec i s = .next (issue f h body s))

theorem barOff_issued (e : Env) (s : State) (f : Form) (t : Thread) (a : Opd) :
    e.barOff (s.issued e f) t a = (e.read0 s t a).toNat := by
  rw [Env.barOff, Env.read0_issued]

include n in
theorem frame_accessed : Frame s (accessed s e f) e .none e.g.icnt (e.past s f) := n.frame_issued.thenCharge ..

include ht hoff in
theorem accessBody_one (hcheck : e.barCheck wr t off = none) :
    accessBody f.c a wr acc e (s.issued e f) = acc e (s.issued e f) (accessed s e f) t off := by
  rw [accessBody, ht, State.barEach_one ((barOff_issued ..).trans hoff) hcheck]
  rfl

include n ht hoff hexec in
/-- A single participant whose address the checks refuse traps. -/
theorem completes_refused {code : Nat} (hbad : BarRefused e t wr off code)
    (hbody : body e (s.issued e f) = accessBody f.c a wr acc e (s.issued e f)) :
    Completes i s e .none e.g.icnt (e.each s f fun u _ => barTrap e s u off code) := by
  refine n.completes_trapped hexec ht n.frame_issued (fun u => barTrap e s u off code) ?_ (fun _ => Thread.trapTo_idx ..)
    fun _ => Thread.trapTo_due ..
  rw [hbody, accessBody, ht, State.barEach_refused ((barOff_issued ..).trans hoff) (Env.barCheck_refused hbad),
    State.fail_barTrap n.frame_issued.sameDebug]

include n in
theorem past_due_calm {u : Thread} (hu : u ∈ e.group) : (e.past s f u).due = [] :=
  (Env.past_due ..).trans (n.calm.due u hu)

include n in
theorem each_due_calm {g : Thread → Thread → Thread} (hg : ∀ t u, (g t u).due = u.due) {u : Thread} (hu : u ∈ e.group) :
    (e.each s f g u).due = [] := by
  unfold Env.each
  split
  · rw [hg, past_due_calm n hu]
  · exact past_due_calm n hu

include n in
theorem past_unwaiting (hu : Unawaited s e.b.bid) {u : Thread} (hug : u ∈ e.group) : (e.past s f u).Unwaiting :=
  (n.unwaiting hu u (e.group_sub hug)).of_wait (Env.past_wait ..)

include n hexec in
/-- A word that changes its block: with no thread at a barrier of the block nothing else changes; in any case the waiters of
the other warps see the block so changed. -/
theorem answers_block (g : Block → Block) (hbid : ∀ b, (g b).bid = b.bid ∧ (g b).gid = b.gid)
    (hkey : ∀ b k, g { b with lastKey := k } = { g b with lastKey := k })
    (hbody : body e (s.issued e f) = ((accessed s e f).updBlock e.b.bid g).seePhases e.b.bid) :
    (Unawaited s e.b.bid → ∃ s', exec i s = .next s' ∧ Frame s s' { e with b := g e.b } .none e.g.icnt (e.past s f)) ∧
      OthersSee i s e (g e.b) := by
  have hset := (frame_accessed n).thenBlock g (fun b => (hbid b).1) hkey
  refine ⟨fun hu => ?_, n.othersSee (e' := { e with b := g e.b }) hexec hbody hset ⟨rfl, rfl⟩ rfl rfl (hbid e.b)⟩
  have hseen := (n.thenSeen hu hset rfl ⟨rfl, rfl⟩ rfl (hbid e.b)).congr (post' := e.past s f) fun u hug =>
    Env.seenBy_of_unwaiting _ _ (past_unwaiting n hu hug)
  exact n.answers hexec hbody hseen rfl rfl fun u hug => past_due_calm n hug

include n hexec in
/-- A word that sends one access to another core. -/
theorem answers_carried {x : PortionAcc}
    (hbody : body e (s.issued e f) = (accessed s e f).updBlock e.b.bid fun b => { b with portions := b.portions ++ [x] }) :
    ∃ s', exec i s = .next s' ∧ Frame s s' (withAcc e x) .none e.g.icnt (e.past s f) :=
  n.answers hexec hbody ((frame_accessed n).thenCarried x) rfl rfl fun _ hug => past_due_calm n hug

include n ht hexec in
/-- A word whose only participant waits for the access that it sends to another core. -/
theorem answers_sent {op : PortionOp} (hr : e.b.rankOf off ≠ e.w.rank)
    (hbody : body e (s.issued e f) = (accessed s e f).barMeet e t off op) :
    ∃ s', exec i s = .next s' ∧ Frame s s' (withAcc e (carriedAcc e t off op none none)) .none e.g.icnt
      (e.each s f fun _ u => sentFrom off u) := by
  have htp : t ∈ e.parts f.c := by rw [ht]; exact List.mem_singleton.mpr rfl
  have hsent := (frame_accessed n).thenThread n.warp (e.parts_sub f.c t htp) (sentFrom off) fun _ => rfl
  refine n.answers hexec ?_ ((hsent.thenCarried _).congr fun u _ => ?_) rfl rfl fun u hug =>
    each_due_calm n (g := fun _ u => sentFrom off u) (fun _ _ => rfl) hug
  · rw [hbody, State.barMeet, if_neg hr]
    exact hsent.portionAccess_away hr
  · simp only [Env.each, ht, List.mem_singleton]

end

/-! ## `barinit` and `bardrop` -/

/-- The access of a participant of `barinit`. -/
def initAccess (b : Src) (e : Env) (s x : State) (t : Thread) (off : Nat) : State :=
  if 32768 < (e.src s t .zero b).s0.toNat then e.illegal x t subField
  else x.portionAccess e.b.bid e.w.rank (carriedAcc e t off (.init (e.src s t .zero b).s0.toNat) none none)

/-- The access of a participant of `bardrop`. -/
def dropAccess (b : Src) (e : Env) (s x : State) (t : Thread) (off : Nat) : State :=
  x.portionAccess e.b.bid e.w.rank (carriedAcc e t off (.drop (e.src s t .zero b).s0.toNat) none none)

theorem exec_barinit (c : Ctl) (a : Opd) (b : Src) (s : State) :
    exec (.barinit c a b) s =
      .next (issue (barForm c (a :: b.opds)) noHold (accessBody c a true (initAccess b)) s) := rfl

theorem exec_bardrop (c : Ctl) (a : Opd) (b : Src) (s : State) :
    exec (.bardrop c a b) s =
      .next (issue (barForm c (a :: b.opds)) noHold (accessBody c a true (dropAccess b)) s) := rfl

section
variable {c : Ctl} {a : Opd} {b : Src} {s : State} {e : Env} {t : Thread} {off : Nat}
  (n : Normal s e (barForm c (a :: b.opds)) noHold) (ht : e.parts c = [t]) (hoff : (e.read0 s t a).toNat = off)
  (hok : BarOk e t off)
include n ht hoff hok

omit n in
theorem barinit_body (hn : (e.src s t .zero b).s0.toNat ≤ 32768) :
    accessBody c a true (initAccess b) e (s.issued e (barForm c (a :: b.opds))) =
      (accessed s e (barForm c (a :: b.opds))).portionAccess e.b.bid e.w.rank
        (carriedAcc e t off (.init (e.src s t .zero b).s0.toNat) none none) := by
  refine (accessBody_one (f := barForm c (a :: b.opds)) ht hoff (Env.barCheck_ok hok true)).trans ?_
  rw [initAccess, Env.src_issued, if_neg (Nat.not_lt.mpr hn)]

omit n in
theorem bardrop_body :
    accessBody c a true (dropAccess b) e (s.issued e (barForm c (a :: b.opds))) =
      (accessed s e (barForm c (a :: b.opds))).portionAccess e.b.bid e.w.rank
        (carriedAcc e t off (.drop (e.src s t .zero b).s0.toNat) none none) := by
  refine (accessBody_one (f := barForm c (a :: b.opds)) ht hoff (Env.barCheck_ok hok true)).trans ?_
  rw [dropAccess, Env.src_issued]

theorem barinit_home (hr : e.b.rankOf off = e.w.rank) (hn : (e.src s t .zero b).s0.toNat ≤ 32768) :
    (Unawaited s e.b.bid → ∃ s', exec (.barinit c a b) s = .next s' ∧
      Frame s s' (withBar e off (barObject ((e.src s t .zero b).s0.extractLsb' 0 16) 0 0)) .none e.g.icnt
        (e.past s (barForm c (a :: b.opds)))) ∧
      OthersSee (.barinit c a b) s e (putBar e.b off (barObject ((e.src s t .zero b).s0.extractLsb' 0 16) 0 0)) := by
  refine answers_block n (exec_barinit ..) (fun b' => putBar b' off _) (fun _ => ⟨rfl, rfl⟩) (fun _ _ => rfl) ?_
  rw [barinit_body ht hoff hok hn, (frame_accessed n).portionAccess_home hr]
  simp only [← barWord_init, ← setBar_eq_putBar]
  rfl

theorem bardrop_home (hr : e.b.rankOf off = e.w.rank) :
    (Unawaited s e.b.bid → ∃ s', exec (.bardrop c a b) s = .next s' ∧
      Frame s s' (withBar e off (afterDrop (e.b.bar off) (e.src s t .zero b).s0.toNat)) .none e.g.icnt
        (e.past s (barForm c (a :: b.opds)))) ∧
      OthersSee (.bardrop c a b) s e (putBar e.b off (afterDrop (e.b.bar off) (e.src s t .zero b).s0.toNat)) := by
  refine answers_block n (exec_bardrop ..) (fun b' => putBar b' off (afterDrop (b'.bar off) _)) (fun _ => ⟨rfl, rfl⟩)
    (fun _ _ => rfl) ?_
  rw [bardrop_body ht hoff hok, (frame_accessed n).portionAccess_home hr]
  simp only [← barDrop_eq, ← setBar_eq_putBar]
  rfl

theorem barinit_away (hr : e.b.rankOf off ≠ e.w.rank) (hn : (e.src s t .zero b).s0.toNat ≤ 32768) :
    ∃ s', exec (.barinit c a b) s = .next s' ∧
      Frame s s' (withAcc e (carriedAcc e t off (.init (e.src s t .zero b).s0.toNat) none none)) .none e.g.icnt
        (e.past s (barForm c (a :: b.opds))) := by
  refine answers_carried n (exec_barinit ..) ?_
  rw [barinit_body ht hoff hok hn, (frame_accessed n).portionAccess_away hr]

theorem bardrop_away (hr : e.b.rankOf off ≠ e.w.rank) :
    ∃ s', exec (.bardrop c a b) s = .next s' ∧
      Frame s s' (withAcc e (carriedAcc e t off (.drop (e.src s t .zero b).s0.toNat) none none)) .none e.g.icnt
        (e.past s (barForm c (a :: b.opds))) := by
  refine answers_carried n (exec_bardrop ..) ?_
  rw [bardrop_body ht hoff hok, (frame_accessed n).portionAccess_away hr]

/-- A count above 32,768 is FIELD (R246). -/
theorem barinit_field (hn : 32768 < (e.src s t .zero b).s0.toNat) :
    Completes (.barinit c a b) s e .none e.g.icnt
      (e.each s (barForm c (a :: b.opds)) fun u _ => fieldTrap e s u) := by
  refine n.completes_trapped (exec_barinit ..) ht (frame_accessed n) (fieldTrap e s) ?_ (fun _ => Thread.trapTo_idx ..)
    fun _ => Thread.trapTo_due ..
  refine (accessBody_one (f := barForm c (a :: b.opds)) ht hoff (Env.barCheck_ok hok true)).trans ?_
  rw [initAccess, Env.src_issued, if_pos hn]
  exact Env.trapBefore_eq (frame_accessed n).sameDebug e t _

end

/-! ## `barwait` -/

/-- A thread at a barrier of a PHASE: past it if its target has passed, else waiting there (R222). -/
def awaited (off now : Nat) (target phase : BitVec 16) (u : Thread) : Thread :=
  if (phase - target).toNat < 0x8000 then u.release else u.atBarrier off target phase now

theorem awaited_due (off now : Nat) (target phase : BitVec 16) (u : Thread) :
    (awaited off now target phase u).due = u.due := by
  unfold awaited
  split <;> rfl

/-- A thread that has come to a barrier, or stands at one, in a cycle in which it sees PHASE. -/
theorem seenBy_atBarrier {e : Env} (hs : e.w.saved = false) {u : Thread} {off now : Nat} {phase : BitVec 16}
    (hphase : (if u.owner = e.g.tag then phaseOf (e.b.bar off) else 0) = phase) (target last : BitVec 16) :
    e.seenBy now (u.atBarrier off target last now) = awaited off now target phase u := by
  have hwait : (u.atBarrier off target last now).wait = some (.barrier off target now last) := rfl
  rw [Env.seenBy, hs, if_neg Bool.false_ne_true, seen_of_barrier hwait (show _ = phase from hphase)]
  refine ite_congr rfl (fun _ => rfl) fun _ => ?_
  split
  · next hlast => rw [hlast]
  · rfl

/-- The access of a participant of `barwait`. -/
def awaitAccess (b : Src) (done : Bool) (e : Env) (s x : State) (t : Thread) (off : Nat) : State :=
  x.barMeet e t off (.await (let p := (e.src s t .zero b).s0.extractLsb' 0 16
    if done then p + 1 else p))

theorem exec_barwait (c : Ctl) (a : Opd) (b : Src) (done : Bool) (s : State) :
    exec (.barwait c a b done) s =
      .next (issue (barForm c (a :: b.opds)) noHold (accessBody c a false (awaitAccess b done)) s) := rfl

theorem target_eq (p : BitVec 16) (done : Bool) : (if done then p + 1 else p) = p + if done then 1 else 0 := by
  cases done
  · exact (BitVec.add_zero p).symm
  · rfl

/-- A wait at the thread's own core: the barrier becomes known, the thread stands at it, and its waiters see it. -/
theorem applyPortion_await {s x : State} {e : Env} {n : Word × Word × Word} {post : Thread → Thread}
    (h : Frame s x e .none n post) (hg : e.g.gid = e.b.gid) (t : Thread) (off : Nat) (target : BitVec 16) :
    x.applyPortion e.b (carriedAcc e t off (.await target) none none) =
      ((x.updBlock e.b.bid fun b => b.named off).updThread e.w.wid t.idx fun u =>
        u.atBarrier off target (e.b.phaseFor e.g.tag u off) s.now).seePhases e.b.bid := by
  have hgrid : x.grid? e.b.gid = some { e.g with icnt := n } := by rw [h.grids, if_pos hg.symm]
  show State.seePhases (State.updThread _ _ _ fun u => u.atBarrier off target
    (e.b.phaseFor (((x.grid? e.b.gid).map fun g => g.tag).getD 0) u off) x.now) _ = _
  rw [hgrid, h.now_eq]
  rfl

section
variable {c : Ctl} {a : Opd} {b : Src} {s : State} {e : Env} {t : Thread} {off : Nat} {done : Bool}
  (n : Normal s e (barForm c (a :: b.opds)) noHold) (ht : e.parts c = [t]) (hoff : (e.read0 s t a).toNat = off)
  (hat : BarAt e off)
include n ht hoff hat

omit n in
theorem barwait_body :
    accessBody c a false (awaitAccess b done) e (s.issued e (barForm c (a :: b.opds))) =
      (accessed s e (barForm c (a :: b.opds))).barMeet e t off
        (.await ((e.src s t .zero b).s0.extractLsb' 0 16 + if done then 1 else 0)) := by
  refine (accessBody_one (f := barForm c (a :: b.opds)) ht hoff (Env.barCheck_at hat)).trans ?_
  rw [awaitAccess, Env.src_issued, target_eq]

theorem barwait_home (hr : e.b.rankOf off = e.w.rank) (hu : Unawaited s e.b.bid) (hs : e.w.saved = false) :
    ∃ s', exec (.barwait c a b done) s = .next s' ∧
      Frame s s' (withBar e off (e.b.bar off)) .none e.g.icnt (e.each s (barForm c (a :: b.opds)) fun _ u =>
        awaited off s.now ((e.src s t .zero b).s0.extractLsb' 0 16 + if done then 1 else 0)
          (if t.owner = e.g.tag then phaseOf (e.b.bar off) else 0) u) := by
  have hwf := n.block.shared
  have htp : t ∈ e.parts c := by rw [ht]; exact List.mem_singleton.mpr rfl
  have hbar : (withBar e off (e.b.bar off)).b.bar off = e.b.bar off := by
    show (putBar e.b off (e.b.bar off)).bar off = _
    rw [← setBar_eq_putBar, bar_setBar hwf]
  have hnamed := (frame_accessed n).thenNamed hwf off
  have hstands := hnamed.thenThread (e := withBar e off (e.b.bar off)) n.warp (e.parts_sub c t htp)
    (fun u => u.atBarrier off ((e.src s t .zero b).s0.extractLsb' 0 16 + if done then 1 else 0)
      (e.b.phaseFor e.g.tag u off) s.now) fun _ => rfl
  have hseen := n.thenSeen hu hstands rfl ⟨rfl, rfl⟩ rfl ⟨rfl, rfl⟩
  refine n.answers (exec_barwait ..) ?_ (hseen.congr fun u hug => ?_) rfl rfl fun u hug => ?_
  · rw [barwait_body ht hoff hat, State.barMeet, if_pos hr, (frame_accessed n).portionAccess_home hr]
    exact applyPortion_await (frame_accessed n) n.placed.1 t off _
  · unfold Env.each
    dsimp only
    rw [show e.parts (barForm c (a :: b.opds)).c = [t] from ht]
    simp only [List.mem_singleton]
    split
    · next hut =>
      subst hut
      exact seenBy_atBarrier (e := withBar e off (e.b.bar off)) hs (by rw [Env.past_owner, hbar]; rfl) _ _
    · exact Env.seenBy_of_unwaiting _ _ (past_unwaiting n hu hug)
  · exact each_due_calm n (fun _ _ => awaited_due ..) hug


theorem barwait_away (hr : e.b.rankOf off ≠ e.w.rank) :
    ∃ s', exec (.barwait c a b done) s = .next s' ∧
      Frame s s' (withAcc e (carriedAcc e t off
          (.await ((e.src s t .zero b).s0.extractLsb' 0 16 + if done then 1 else 0)) none none)) .none e.g.icnt
        (e.each s (barForm c (a :: b.opds)) fun _ u => sentFrom off u) := by
  exact answers_sent n ht (exec_barwait ..) hr (barwait_body ht hoff hat)

end

end Sys2Proof.Claims
end

section
/-! SUPPORT. `bararr` and `barsync` (R221, R222, R224): the participants arrive one by one, each with the phase of its own
arrival. -/

namespace Sys2Proof.Claims

open Sys2Proof.Machine

/-! ## Arrivals one by one (R221) -/

/-- The block after the arrivals of the first `k` participants. -/
def blockAfter (b : Block) (off : Nat) : Nat → Block
  | 0 => b
  | k + 1 => putBar b off (afterArrivals (b.bar off) (k + 1))

theorem blockAfter_places (b : Block) (off k : Nat) :
    (blockAfter b off k).bid = b.bid ∧ (blockAfter b off k).gid = b.gid ∧
      (blockAfter b off k).rankOf off = b.rankOf off := by
  cases k <;> exact ⟨rfl, rfl, rfl⟩

theorem bar_blockAfter {b : Block} (h : b.shared.wf) (off k : Nat) :
    (blockAfter b off k).bar off = afterArrivals (b.bar off) k := by
  cases k with
  | zero => rfl
  | succ k => rw [blockAfter, ← setBar_eq_putBar, bar_setBar h]

/-- One more arrival. -/
theorem putBar_blockAfter {b : Block} (h : b.shared.wf) (off k : Nat) :
    putBar (blockAfter b off k) off (afterArrival ((blockAfter b off k).bar off)) = blockAfter b off (k + 1) := by
  rw [bar_blockAfter h]
  cases k with
  | zero => rfl
  | succ k =>
    simp only [blockAfter, ← setBar_eq_putBar]
    exact setBar_setBar h off _ _

/-- The issue after the arrivals of the first `k` participants. -/
def arrivals (e : Env) (off k : Nat) : Env := { e with b := blockAfter e.b off k }

/-- After at least one arrival the object has been written. -/
theorem arrivals_of_ne_nil {α : Type} {l : List α} (h : l ≠ []) (e : Env) (off : Nat) :
    arrivals e off l.length = withBar e off (afterArrivals (e.b.bar off) l.length) := by
  cases l with
  | nil => exact absurd rfl h
  | cons x l => rfl

theorem arrivals_zero (e : Env) (off : Nat) : arrivals e off 0 = e := rfl

/-- The phase that the arrival after the first `k` meets. -/
def phaseAfter (e : Env) (off k : Nat) : BitVec 16 := phaseOf (afterArrivals (e.b.bar off) k)

theorem phaseAfter_succ (e : Env) (off k : Nat) :
    phaseAfter e off (k + 1) = phaseAfter e off k ∨ phaseAfter e off (k + 1) = phaseAfter e off k + 1 :=
  phaseOf_afterArrival _

theorem barArrive_blockAfter {e : Env} (h : e.b.shared.wf) (off k : Nat) :
    barArrive ((blockAfter e.b off k).bar off) = (afterArrival ((blockAfter e.b off k).bar off), phaseAfter e off k) := by
  rw [barArrive_eq]
  exact congrArg (Prod.mk _) (congrArg phaseOf (bar_blockAfter h off k))

/-- A participant's turn is its place among the participants. -/
theorem turnOf_eq {e : Env} {c : Ctl} (hd : ((e.parts c).map fun t => t.idx).Nodup) {l r : List Thread} {t : Thread}
    (hl : e.parts c = l ++ t :: r) : turnOf e c t = l.length := by
  rw [hl, List.map_append, List.nodup_append] at hd
  have hnot : ∀ u ∈ l, u.idx ≠ t.idx := fun u hu =>
    hd.2.2 _ (List.mem_map_of_mem hu) _ (List.mem_map_of_mem (List.mem_cons_self ..))
  have hlen : l.findIdx (fun u => decide (u.idx = t.idx)) = l.length :=
    List.findIdx_eq_length.mpr fun u hu => decide_eq_false (hnot u hu)
  rw [turnOf, hl, List.findIdx_append, hlen, if_neg (Nat.lt_irrefl _), List.findIdx_cons]
  simp

/-- A participant has its turn before as many arrivals as there are up to it. -/
theorem turnOf_lt {e : Env} {c : Ctl} {l r : List Thread} (hl : e.parts c = l ++ r) {u : Thread} (hu : u ∈ l) :
    turnOf e c u < l.length := by
  have hlt : l.findIdx (fun v => decide (v.idx = u.idx)) < l.length :=
    List.findIdx_lt_length_of_exists ⟨u, hu, decide_eq_true rfl⟩
  rw [turnOf, hl, List.findIdx_append, if_pos hlt]
  exact hlt

section
variable {s x : State} {e : Env} {b : Block} {post : Thread → Thread} {n : Word × Word × Word} {off k : Nat}

/-- The object after one more arrival. -/
theorem frame_arrival (h : Frame s x e .none n post) (hb : e.b = blockAfter b off k) (hwf : b.shared.wf) :
    Frame s (x.updBlock b.bid fun b' => b'.setBar off (barArrive ((blockAfter b off k).bar off)).1)
      { e with b := blockAfter b off (k + 1) } .none n post := by
  have hset := h.thenSetBar off (barArrive (e.b.bar off)).1
  rw [withBar, barArrive_eq, hb, (blockAfter_places b off k).1, putBar_blockAfter hwf] at hset
  rw [barArrive_eq]
  exact hset

theorem arrival_access (h : Frame s x e .none n post) (hb : e.b = blockAfter b off k) {rank : Nat}
    (hr : b.rankOf off = rank) {acc : PortionAcc} (hoff : acc.off = off) :
    x.portionAccess b.bid rank acc = x.applyPortion (blockAfter b off k) acc := by
  obtain ⟨hbid, -, hrank⟩ := blockAfter_places b off k
  have haccess := h.portionAccess_home (rank := rank) (acc := acc) (by rw [hb, hoff, hrank, hr])
  rwa [hb, hbid] at haccess

end

/-! ## `bararr` -/

/-- The body of `bararr`: the threads whose addresses pass the checks arrive; with none the word has no result. -/
def bararrBody (c : Ctl) (d : Nat) (a : Opd) (e : Env) (s : State) : State :=
  let ok := (e.parts c).filter fun t => (e.barCheck true t (e.barOff s t a)).isNone
  if ok.isEmpty then accessBody c a true (fun _ _ x _ _ => x) e s
  else
    (s.newId.2.addPend e.w.wid { arrivalPend s e c [] with thrs := ok.map fun t => t.idx }).barEach e a true (e.parts c)
      fun x t off => x.portionAccess e.b.bid e.w.rank (carriedAcc e t off (.arrive false) (some s.uid) (some (.v d)))

theorem exec_bararr (c : Ctl) (d : Nat) (a : Opd) (s : State) :
    exec (.bararr c d a) s = .next (issue (bararrForm c d a) (holdRelease c) (bararrBody c d a) s) := rfl

/-- A participant of a `bararr` makes its access. -/
def arriveStep (e : Env) (d off pid : Nat) (x : State) (t : Thread) : State :=
  (x.charge e.g.tag 5 1).portionAccess e.b.bid e.w.rank (carriedAcc e t off (.arrive false) (some pid) (some (.v d)))

/-- The state in which the participants of a `bararr` arrive: issued, the instruction outstanding (R76). -/
def arrivingStart (s : State) (e : Env) (c : Ctl) (d : Nat) (a : Opd) : State :=
  (s.issued e (bararrForm c d a)).newId.2.addPend e.w.wid (arrivalPend s e c [])

theorem arrivalPend_issued (s : State) (e : Env) (f : Form) (c : Ctl) (l : List Part) :
    arrivalPend (s.issued e f) e c l = arrivalPend s e c l := by
  simp only [arrivalPend, State.issued_uid]

section
variable {c : Ctl} {d : Nat} {a : Opd} {s : State} {e : Env} {off : Nat}

theorem bararrBody_passed (hts : ∀ t ∈ e.parts c, (e.read0 s t a).toNat = off ∧ BarOk e t off) (hne : e.parts c ≠ []) :
    bararrBody c d a e (s.issued e (bararrForm c d a)) =
      (e.parts c).foldl (arriveStep e d off s.uid) (arrivingStart s e c d a) := by
  have hpass : ∀ t ∈ e.parts c, e.barOff (s.issued e (bararrForm c d a)) t a = off ∧ e.barCheck true t off = none :=
    fun t ht => ⟨(barOff_issued ..).trans (hts t ht).1, Env.barCheck_ok (hts t ht).2 true⟩
  have hok : ((e.parts c).filter fun t =>
      (e.barCheck true t (e.barOff (s.issued e (bararrForm c d a)) t a)).isNone) = e.parts c :=
    List.filter_eq_self.mpr fun t ht => by rw [(hpass t ht).1, (hpass t ht).2]; rfl
  unfold bararrBody
  dsimp only
  rw [hok, if_neg (by simpa using hne), arrivalPend_issued, State.issued_uid]
  refine State.barEach_passed fun t ht => ⟨Eq.trans ?_ (hpass t ht).1, (hpass t ht).2⟩
  rw [Env.barOff, Env.barOff, Env.read0, Env.read0, e.read_congr
    ((State.addPend_fresh ..).trans (State.newId_fresh _)) ((State.addPend_now ..).trans (State.newId_now _))]

/-- What an arrival delivers. -/
def arrivalPart (e : Env) (c : Ctl) (off d : Nat) (t : Thread) : Part :=
  { thr := t.idx
    reg := d
    val := .all ((phaseAfter e off (turnOf e c t)).setWidth 32) }

/-- The issue after the arrivals of a list of participants of a `bararr`. -/
def arrivedEnv (s : State) (e : Env) (c : Ctl) (off d : Nat) (l : List Thread) : Env :=
  withWarp (arrivals e off l.length) (addPend (arrivalPend s e c (l.map (arrivalPart e c off d))))

/-- The results of an arrival join those of the instruction. -/
theorem addPart_arrivalPend {w : Warp} (hids : ∀ p ∈ w.pend, p.id < s.uid) (l : List Part) (i : Nat) (v : Triple) :
    Warp.mapPend s.uid (fun p => { p with sample := p.sample.map fun y => { y with thr := i } })
      (Warp.mapPend s.uid (fun p =>
          { p with parts := p.parts ++ (destParts i (.v d) [v]).1, sparts := p.sparts ++ (destParts i (.v d) [v]).2 })
        (addPend (arrivalPend s e c l) w)) = addPend (arrivalPend s e c (l ++ [{ thr := i, reg := d, val := v }])) w := by
  have hne : ∀ p ∈ w.pend, p.id ≠ (arrivalPend s e c l).id := fun p hp => Nat.ne_of_lt (hids p hp)
  have hparts := Warp.mapPend_addPend hne (F := fun p : Pend =>
    { p with parts := p.parts ++ (destParts i (.v d) [v]).1, sparts := p.sparts ++ (destParts i (.v d) [v]).2 }) rfl
  have hsample := Warp.mapPend_addPend (q := arrivalPend s e c (l ++ [{ thr := i, reg := d, val := v }])) hne
    (F := fun p : Pend => { p with sample := p.sample.map fun y => { y with thr := i } }) rfl
  exact (congrArg _ hparts).trans hsample

/-- An arrival with a result, performed: the object, what is delivered, and those that see it. -/
theorem applyPortion_arrive (x : State) (b : Block) (t : Thread) (pid : Nat) :
    x.applyPortion b (carriedAcc e t off (.arrive false) (some pid) (some (.v d))) =
      (((x.updBlock b.bid fun b' => b'.setBar off (barArrive (b.bar off)).1).addParts e.w.wid pid t.idx (.v d)
        [.all ((barArrive (b.bar off)).2.setWidth 32)]).sampleLast e.w.wid pid t.idx).seePhases b.bid := rfl

/-- One more arrival, before the threads that wait see it. -/
theorem arriveStep_frame {x : State} {s0 : State} {n : Word × Word × Word} {post : Thread → Thread} {l r : List Thread}
    {t : Thread} (h : Frame s0 x (arrivedEnv s e c off d l) .none n post) (hwf : e.b.shared.wf)
    (hids : ∀ p ∈ e.w.pend, p.id < s.uid) (hd : ((e.parts c).map fun t => t.idx).Nodup) (hl : e.parts c = l ++ t :: r)
    (hr : e.b.rankOf off = e.w.rank) :
    ∃ y, arriveStep e d off s.uid x t = y.seePhases e.b.bid ∧
      Frame s0 y (arrivedEnv s e c off d (l ++ [t])) .none n post := by
  have hcharged := h.thenCharge e.g.tag 5 1
  have hset := frame_arrival (b := e.b) (k := l.length) hcharged rfl hwf
  have hparts := (hset.thenPend s.uid (F := fun p =>
      { p with
        parts := p.parts ++ (destParts t.idx (.v d) [.all ((phaseAfter e off l.length).setWidth 32)]).1
        sparts := p.sparts ++ (destParts t.idx (.v d) [.all ((phaseAfter e off l.length).setWidth 32)]).2 })
    fun _ => rfl).thenPend s.uid (F := fun p => { p with sample := p.sample.map fun y => { y with thr := t.idx } })
    fun _ => rfl
  have henv : arrivedEnv s e c off d (l ++ [t]) =
      { arrivals e off (l.length + 1) with
        w := addPend (arrivalPend s e c (l.map (arrivalPart e c off d) ++
          [{ thr := t.idx, reg := d, val := .all ((phaseAfter e off l.length).setWidth 32) }])) e.w } := by
    rw [arrivedEnv, List.length_append, List.map_append, ← turnOf_eq hd hl]
    rfl
  refine ⟨_, ?_, by rw [henv, ← addPart_arrivalPend hids]; exact hparts⟩
  rw [arriveStep, arrival_access (b := e.b) (k := l.length) hcharged rfl hr rfl, applyPortion_arrive,
    (blockAfter_places e.b off l.length).1, show (barArrive ((blockAfter e.b off l.length).bar off)).2 = _ from
      congrArg Prod.snd (barArrive_blockAfter hwf off l.length)]
  rfl

/-- The participants of a `bararr` arrive one by one: those of `r` after those of `l`. -/
theorem arrivals_frame (n : Normal s e (bararrForm c d a) (holdRelease c)) (hu : Unawaited s e.b.bid)
    (hr : e.b.rankOf off = e.w.rank) (r : List Thread) {l : List Thread} {x : State} (hl : e.parts c = l ++ r)
    (h : Frame { s with uid := s.uid + 1 } x (arrivedEnv s e c off d l) .none e.g.icnt (e.past s (bararrForm c d a))) :
    Frame { s with uid := s.uid + 1 } (r.foldl (arriveStep e d off s.uid) x) (arrivedEnv s e c off d (e.parts c)) .none
      e.g.icnt (e.past s (bararrForm c d a)) := by
  induction r generalizing l x with
  | nil => rwa [hl, List.append_nil]
  | cons t r ih =>
    obtain ⟨hbid, hgid, -⟩ := blockAfter_places e.b off (l ++ [t]).length
    obtain ⟨y, hstep, hframe⟩ := arriveStep_frame h n.block.shared n.ids (Env.parts_nodup n.warp c) hl hr
    rw [List.foldl_cons, hstep]
    exact ih (l := l ++ [t]) (by rw [hl, List.append_assoc, List.singleton_append])
      ((n.thenSeen hu hframe rfl ⟨rfl, rfl⟩ rfl ⟨hbid, hgid⟩).congr fun u hug =>
        Env.seenBy_of_unwaiting _ _ (past_unwaiting n hu hug))

/-- The instruction is outstanding, and no participant has arrived. -/
theorem arrivingStart_frame (n : Normal s e (bararrForm c d a) (holdRelease c)) :
    Frame { s with uid := s.uid + 1 } (arrivingStart s e c d a) (arrivedEnv s e c off d []) .none e.g.icnt
      (e.past s (bararrForm c d a)) := n.frame_issued.thenNewId.thenAddPend _

theorem bararr_home (n : Normal s e (bararrForm c d a) (holdRelease c))
    (hts : ∀ t ∈ e.parts c, (e.read0 s t a).toNat = off ∧ BarOk e t off) (hne : e.parts c ≠ [])
    (hr : e.b.rankOf off = e.w.rank) (hu : Unawaited s e.b.bid) :
    ∃ s', exec (.bararr c d a) s = .next s' ∧
      Frame { s with uid := s.uid + 1 } s' (arrivedEnv s e c off d (e.parts c)) .none e.g.icnt
        (e.past s (bararrForm c d a)) :=
  n.answers (exec_bararr ..) (bararrBody_passed hts hne)
    (arrivals_frame n hu hr (e.parts c) (List.nil_append _).symm (arrivingStart_frame n)) rfl rfl fun _ hug => past_due_calm n hug

theorem bararr_othersSee {t : Thread} (n : Normal s e (bararrForm c d a) (holdRelease c))
    (hts : ∀ t ∈ e.parts c, (e.read0 s t a).toNat = off ∧ BarOk e t off) (ht : e.parts c = [t])
    (hr : e.b.rankOf off = e.w.rank) :
    OthersSee (.bararr c d a) s e (putBar e.b off (afterArrival (e.b.bar off))) := by
  have hne : e.parts c ≠ [] := by rw [ht]; exact List.cons_ne_nil _ _
  obtain ⟨y, hstep, hframe⟩ := arriveStep_frame (r := []) (arrivingStart_frame n) n.block.shared n.ids
    (Env.parts_nodup n.warp c) ht hr
  refine n.othersSee (e' := arrivedEnv s e c off d [t]) (exec_bararr ..) ?_ hframe ⟨rfl, rfl⟩ rfl rfl ⟨rfl, rfl⟩
  rw [bararrBody_passed hts hne, ht, ← hstep, List.foldl_cons, List.foldl_nil]

theorem bararr_refused {t : Thread} {code : Nat} (n : Normal s e (bararrForm c d a) (holdRelease c)) (ht : e.parts c = [t])
    (hoff : (e.read0 s t a).toNat = off) (hbad : BarRefused e t true off code) :
    Completes (.bararr c d a) s e .none e.g.icnt (e.each s (bararrForm c d a) fun u _ => barTrap e s u off code) := by
  refine completes_refused n ht hoff (exec_bararr ..) (acc := fun _ _ x _ _ => x) hbad ?_
  have hok : ((e.parts c).filter fun t =>
      (e.barCheck true t (e.barOff (s.issued e (bararrForm c d a)) t a)).isNone) = [] := by
    rw [ht, List.filter_cons, barOff_issued, hoff, Env.barCheck_refused hbad]
    rfl
  unfold bararrBody
  dsimp only
  rw [hok]
  rfl

theorem bararr_away {t : Thread} (n : Normal s e (bararrForm c d a) (holdRelease c)) (ht : e.parts c = [t])
    (hoff : (e.read0 s t a).toNat = off) (hok : BarOk e t off) (hr : e.b.rankOf off ≠ e.w.rank) :
    ∃ s', exec (.bararr c d a) s = .next s' ∧
      Frame { s with uid := s.uid + 1 } s'
        (withAcc (withWarp e (addPend (arrivalPend s e c [])))
          (carriedAcc e t off (.arrive false) (some s.uid) (some (.v d)))) .none e.g.icnt (e.past s (bararrForm c d a)) := by
  have hts : ∀ u ∈ e.parts c, (e.read0 s u a).toNat = off ∧ BarOk e u off := fun u hu => by
    rw [ht, List.mem_singleton] at hu
    rw [hu]
    exact ⟨hoff, hok⟩
  have hstart : Frame { s with uid := s.uid + 1 } ((arrivingStart s e c d a).charge e.g.tag 5 1)
      (withWarp e (addPend (arrivalPend s e c []))) .none e.g.icnt (e.past s (bararrForm c d a)) :=
    (n.frame_issued.thenNewId.thenAddPend (arrivalPend s e c [])).thenCharge e.g.tag 5 1
  refine n.answers (exec_bararr ..) ?_ (hstart.thenCarried _) rfl rfl fun _ hug => past_due_calm n hug
  rw [bararrBody_passed hts (by rw [ht]; exact List.cons_ne_nil _ _), ht, List.foldl_cons, List.foldl_nil, arriveStep]
  exact hstart.portionAccess_away hr

end

/-! ## `barsync` -/

/-- A participant of a `barsync` that has arrived with the turn `n`, once `k` arrivals of the issue have been made: past the
barrier if an arrival has completed its phase, else waiting beyond that phase (R221, R222). -/
def syncedBy (phase : Nat → BitVec 16) (off now n k : Nat) (u : Thread) : Thread :=
  if ∃ j, j ≤ k ∧ n < j ∧ phase j ≠ phase n then u.release else u.atBarrier off (phase n + 1) (phase n) now

theorem syncedBy_due (phase : Nat → BitVec 16) (off now n k : Nat) (u : Thread) :
    (syncedBy phase off now n k u).due = u.due := by
  unfold syncedBy
  split <;> rfl

/-- An arrival has passed the phase before it, and nothing has passed the phase that stands. -/
theorem awaited_next (off now : Nat) (p : BitVec 16) (u : Thread) :
    awaited off now (p + 1) (p + 1) u = u.release ∧ awaited off now (p + 1) p u = u.atBarrier off (p + 1) p now := by
  have hstands : (p - (p + 1)).toNat = 0xFFFF := by
    rw [show p - (p + 1) = 0xFFFF#16 by bv_omega]
    rfl
  refine ⟨if_pos ?_, if_neg ?_⟩
  · rw [BitVec.sub_self]
    decide
  · rw [hstands]
    decide

/-- A participant sees one more arrival of its issue. -/
theorem seenBy_syncedBy {e : Env} (hs : e.w.saved = false) {phase : Nat → BitVec 16} {off now n k : Nat} (hnk : n ≤ k)
    (hnext : phase (k + 1) = phase k ∨ phase (k + 1) = phase k + 1) {u : Thread}
    (hphase : (if u.owner = e.g.tag then phaseOf (e.b.bar off) else 0) = phase (k + 1)) :
    e.seenBy now (syncedBy phase off now n k u) = syncedBy phase off now n (k + 1) u := by
  unfold syncedBy
  by_cases hpast : ∃ j, j ≤ k ∧ n < j ∧ phase j ≠ phase n
  · obtain ⟨j, hjk, hj⟩ := hpast
    rw [if_pos ⟨j, hjk, hj⟩, if_pos ⟨j, Nat.le_succ_of_le hjk, hj⟩]
    exact Env.seenBy_of_unwaiting _ _ fun _ _ _ _ hw => nomatch hw
  · have hk : phase k = phase n := by
      refine Decidable.byContradiction fun hne => hpast ⟨k, Nat.le_refl k, Nat.lt_of_le_of_ne hnk fun h => ?_, hne⟩
      exact hne (h ▸ rfl)
    rw [if_neg hpast, seenBy_atBarrier hs hphase]
    rw [hk] at hnext
    rcases hnext with hsame | hpassed
    · rw [if_neg, hsame, (awaited_next ..).2]
      rintro ⟨j, hjk, hnj, hne⟩
      rcases Nat.le_succ_iff.mp hjk with hle | rfl
      · exact hpast ⟨j, hle, hnj, hne⟩
      · exact hne hsame
    · have hne : phase (k + 1) ≠ phase n := by
        rw [hpassed]
        bv_omega
      rw [if_pos ⟨k + 1, Nat.le_refl _, Nat.lt_succ_of_le hnk, hne⟩, hpassed, (awaited_next ..).1]

/-- The access of a participant of `barsync`. -/
def syncAccess (e : Env) (_ x : State) (t : Thread) (off : Nat) : State := x.barMeet e t off (.arrive true)

theorem exec_barsync (c : Ctl) (a : Opd) (s : State) :
    exec (.barsync c a) s =
      .next (issue (barsyncForm c a) (holdRelease c) (accessBody c a true syncAccess) s) := rfl

/-- A participant of a `barsync` makes its access. -/
def syncStep (e : Env) (off : Nat) (x : State) (t : Thread) : State := (x.charge e.g.tag 5 1).barMeet e t off (.arrive true)

/-- What becomes of a thread of the group when the participants of a list have arrived, and have seen the first `k`
arrivals. -/
def syncPost (s : State) (e : Env) (c : Ctl) (a : Opd) (off : Nat) (l : List Thread) (k : Nat) (u : Thread) : Thread :=
  if u ∈ l then syncedBy (phaseAfter e off) off s.now (turnOf e c u) k (e.past s (barsyncForm c a) u)
  else e.past s (barsyncForm c a) u

theorem syncPost_nil (s : State) (e : Env) (c : Ctl) (a : Opd) (off k : Nat) :
    syncPost s e c a off [] k = e.past s (barsyncForm c a) := funext fun _ => if_neg List.not_mem_nil

theorem syncPost_parts (s : State) (e : Env) (c : Ctl) (a : Opd) (off : Nat) :
    syncPost s e c a off (e.parts c) (e.parts c).length = e.each s (barsyncForm c a) (synced e c off s.now) := rfl

/-- An arrival that its thread waits for, performed: the object, the wait, and those that see it. -/
theorem applyPortion_sync (x : State) (e : Env) (b : Block) (t : Thread) (off : Nat) :
    x.applyPortion b (e.portionAcc t off (.arrive true)) =
      ((x.updBlock b.bid fun b' => b'.setBar off (barArrive (b.bar off)).1).updThread e.w.wid t.idx fun u =>
        u.atBarrier off ((barArrive (b.bar off)).2 + 1) (barArrive (b.bar off)).2 x.now).seePhases b.bid := rfl

section
variable {c : Ctl} {a : Opd} {s : State} {e : Env} {off : Nat} (n : Normal s e (barsyncForm c a) (holdRelease c))
include n

/-- One more arrival, before the threads that wait see it. -/
theorem syncStep_frame {x : State} {l r : List Thread} {t : Thread}
    (h : Frame s x (arrivals e off l.length) .none e.g.icnt (syncPost s e c a off l l.length))
    (hl : e.parts c = l ++ t :: r) (hr : e.b.rankOf off = e.w.rank) :
    ∃ y, syncStep e off x t = y.seePhases e.b.bid ∧
      Frame s y (arrivals e off (l.length + 1)) .none e.g.icnt (syncPost s e c a off (l ++ [t]) l.length) := by
  have hwf := n.block.shared
  have hcharged := h.thenCharge e.g.tag 5 1
  have hset := frame_arrival (b := e.b) (k := l.length) hcharged rfl hwf
  have htg : t ∈ e.group := e.parts_sub c t (by rw [hl]; simp)
  have hnot : t ∉ l := fun hm => Nat.lt_irrefl _ (turnOf_eq (Env.parts_nodup n.warp c) hl ▸ turnOf_lt hl hm)
  have hstands := (hset.thenThread (e := arrivals e off (l.length + 1)) n.warp htg
    (fun u => u.atBarrier off (phaseAfter e off l.length + 1) (phaseAfter e off l.length) s.now) fun _ => rfl).congr
    (post' := syncPost s e c a off (l ++ [t]) l.length) fun u _ => by
      unfold syncPost
      by_cases hut : u = t
      · have hnone : ¬ ∃ j, j ≤ l.length ∧ l.length < j ∧ phaseAfter e off j ≠ phaseAfter e off l.length :=
          fun ⟨j, hle, hlt, _⟩ => absurd hlt (Nat.not_lt.mpr hle)
        rw [hut, if_pos rfl, if_neg hnot, if_pos (by simp), turnOf_eq (Env.parts_nodup n.warp c) hl, syncedBy, if_neg hnone]
      · simp only [hut, if_false, List.mem_append, List.mem_singleton, or_false]
  refine ⟨_, ?_, hstands⟩
  rw [syncStep, State.barMeet, if_pos hr, arrival_access (b := e.b) (k := l.length) hcharged rfl hr rfl, applyPortion_sync,
    (blockAfter_places e.b off l.length).1, show (barArrive ((blockAfter e.b off l.length).bar off)).2 = _ from
      congrArg Prod.snd (barArrive_blockAfter hwf off l.length), hcharged.now_eq]
  rfl

omit n in
theorem barsyncBody_passed (hts : ∀ t ∈ e.parts c, (e.read0 s t a).toNat = off ∧ BarOk e t off) :
    accessBody c a true syncAccess e (s.issued e (barsyncForm c a)) =
      (e.parts c).foldl (syncStep e off) (s.issued e (barsyncForm c a)) :=
  State.barEach_passed fun t ht => ⟨(barOff_issued ..).trans (hts t ht).1, Env.barCheck_ok (hts t ht).2 true⟩

/-- A thread of the group sees the arrival of the last participant of a list. -/
theorem seenBy_syncPost (hts : ∀ t ∈ e.parts c, (e.read0 s t a).toNat = off ∧ BarOk e t off) (hu : Unawaited s e.b.bid)
    (hs : e.w.saved = false) {l r : List Thread} {t : Thread} (hl : e.parts c = l ++ [t] ++ r) {u : Thread}
    (hug : u ∈ e.group) :
    (arrivals e off (l.length + 1)).seenBy s.now (syncPost s e c a off (l ++ [t]) l.length u) =
      syncPost s e c a off (l ++ [t]) (l.length + 1) u := by
  unfold syncPost
  split
  · next hm =>
    have hturn : turnOf e c u ≤ l.length := by
      have hlt := turnOf_lt hl hm
      rw [List.length_append] at hlt
      exact Nat.le_of_lt_succ hlt
    have howner : u.owner = e.g.tag := (hts u (by rw [hl]; exact List.mem_append_left _ hm)).2.2
    refine seenBy_syncedBy (e := arrivals e off (l.length + 1)) hs hturn (phaseAfter_succ e off _) ?_
    rw [Env.past_owner]
    exact (if_pos howner).trans (congrArg phaseOf (bar_blockAfter n.block.shared off _))
  · exact Env.seenBy_of_unwaiting _ _ (past_unwaiting n hu hug)

/-- The participants of a `barsync` arrive one by one: those of `r` after those of `l`. -/
theorem syncs_frame (hts : ∀ t ∈ e.parts c, (e.read0 s t a).toNat = off ∧ BarOk e t off) (hu : Unawaited s e.b.bid)
    (hs : e.w.saved = false) (hr : e.b.rankOf off = e.w.rank) (r : List Thread) {l : List Thread} {x : State}
    (hl : e.parts c = l ++ r)
    (h : Frame s x (arrivals e off l.length) .none e.g.icnt (syncPost s e c a off l l.length)) :
    Frame s (r.foldl (syncStep e off) x) (arrivals e off (e.parts c).length) .none e.g.icnt
      (syncPost s e c a off (e.parts c) (e.parts c).length) := by
  induction r generalizing l x with
  | nil => rwa [hl, List.append_nil]
  | cons t r ih =>
    have hl' : e.parts c = l ++ [t] ++ r := by rw [hl, List.append_assoc, List.singleton_append]
    obtain ⟨hbid, hgid, -⟩ := blockAfter_places e.b off (l.length + 1)
    obtain ⟨y, hstep, hframe⟩ := syncStep_frame n h hl hr
    have hseen := (n.thenSeen hu hframe rfl ⟨rfl, rfl⟩ rfl ⟨hbid, hgid⟩).congr
      (post' := syncPost s e c a off (l ++ [t]) (l.length + 1)) fun u hug => seenBy_syncPost n hts hu hs hl' hug
    rw [List.foldl_cons, hstep]
    exact ih hl' (by rwa [List.length_append, List.length_singleton])

/-- No participant has arrived. -/
theorem syncStart_frame : Frame s (s.issued e (barsyncForm c a)) (arrivals e off ([] : List Thread).length) .none e.g.icnt
    (syncPost s e c a off [] ([] : List Thread).length) := by
  rw [syncPost_nil, List.length_nil, arrivals_zero]
  exact n.frame_issued

theorem barsync_home (hts : ∀ t ∈ e.parts c, (e.read0 s t a).toNat = off ∧ BarOk e t off) (hr : e.b.rankOf off = e.w.rank)
    (hu : Unawaited s e.b.bid) (hs : e.w.saved = false) :
    ∃ s', exec (.barsync c a) s = .next s' ∧
      Frame s s' (arrivals e off (e.parts c).length) .none e.g.icnt
        (syncPost s e c a off (e.parts c) (e.parts c).length) := by
  refine n.answers (exec_barsync ..) (barsyncBody_passed hts)
    (syncs_frame n hts hu hs hr (e.parts c) (List.nil_append _).symm (syncStart_frame n)) rfl rfl fun u hug => ?_
  unfold syncPost
  split
  · rw [syncedBy_due, past_due_calm n hug]
  · exact past_due_calm n hug

theorem barsync_othersSee {t : Thread} (hts : ∀ t ∈ e.parts c, (e.read0 s t a).toNat = off ∧ BarOk e t off)
    (ht : e.parts c = [t]) (hr : e.b.rankOf off = e.w.rank) :
    OthersSee (.barsync c a) s e (putBar e.b off (afterArrival (e.b.bar off))) := by
  obtain ⟨y, hstep, hframe⟩ := syncStep_frame (r := []) n (syncStart_frame n) ht hr
  refine n.othersSee (e' := arrivals e off 1) (exec_barsync ..) ?_ hframe ⟨rfl, rfl⟩ rfl rfl ⟨rfl, rfl⟩
  rw [barsyncBody_passed hts, ht, ← hstep, List.foldl_cons, List.foldl_nil]

theorem barsync_refused {t : Thread} {code : Nat} (ht : e.parts c = [t]) (hoff : (e.read0 s t a).toNat = off)
    (hbad : BarRefused e t true off code) :
    Completes (.barsync c a) s e .none e.g.icnt (e.each s (barsyncForm c a) fun u _ => barTrap e s u off code) :=
  completes_refused n ht hoff (exec_barsync ..) hbad rfl

theorem barsync_away {t : Thread} (ht : e.parts c = [t]) (hoff : (e.read0 s t a).toNat = off) (hok : BarOk e t off)
    (hr : e.b.rankOf off ≠ e.w.rank) :
    ∃ s', exec (.barsync c a) s = .next s' ∧
      Frame s s' (withAcc e (carriedAcc e t off (.arrive true) none none)) .none e.g.icnt
        (e.each s (barsyncForm c a) fun _ u => sentFrom off u) := by
  refine answers_sent n ht (exec_barsync ..) hr ?_
  exact accessBody_one (f := barsyncForm c a) ht hoff (Env.barCheck_ok hok true)

end

/-! ## The statement -/

/-- Settles O40, word by word: at the thread's own core, on the way to another, and where the checks refuse. -/
theorem barrierWords : Obligations.barrier_words := by
  intro c a s e off
  refine ⟨fun b t n ht hoff => ?_, fun hts hne hr => ?_, fun t code ht hoff hbad => ?_, fun t ht hoff hok hr => ?_⟩
  · refine ⟨fun hok hu hr => ?_, fun hok hr => ?_, fun hok hn => ?_, fun hok hr => ?_, fun hat done => ?_,
      fun code hbad i hi => ?_, fun code hbad done => ?_⟩
    · exact ⟨fun hn => (barinit_home n ht hoff hok hr hn).1 hu, (bardrop_home n ht hoff hok hr).1 hu⟩
    · exact ⟨fun hn => barinit_away n ht hoff hok hr hn, bardrop_away n ht hoff hok hr⟩
    · exact barinit_field n ht hoff hok hn
    · exact ⟨fun hn => (barinit_home n ht hoff hok hr hn).2, (bardrop_home n ht hoff hok hr).2⟩
    · exact ⟨fun hr hu hs => barwait_home n ht hoff hat hr hu hs, fun hr => barwait_away n ht hoff hat hr⟩
    · rcases List.mem_cons.mp hi with rfl | hi
      · exact completes_refused n ht hoff (exec_barinit ..) hbad rfl
      · rw [List.mem_singleton.mp hi]
        exact completes_refused n ht hoff (exec_bardrop ..) hbad rfl
    · exact completes_refused n ht hoff (exec_barwait ..) hbad rfl
  · refine ⟨fun d n hu => ?_, fun n hu hs => ?_, fun t d i ht hi => ?_⟩
    · have hword := bararr_home n hts hne hr hu
      rwa [arrivedEnv, arrivals_of_ne_nil hne] at hword
    · have hword := barsync_home n hts hr hu hs
      rwa [arrivals_of_ne_nil hne, syncPost_parts] at hword
    · rcases hi with ⟨rfl, n⟩ | ⟨rfl, n⟩
      · exact bararr_othersSee n hts ht hr
      · exact barsync_othersSee n hts ht hr
  · exact ⟨fun d n => bararr_refused n ht hoff hbad, fun n => barsync_refused n ht hoff hbad⟩
  · exact ⟨fun d n => bararr_away n ht hoff hok hr, fun n => barsync_away n ht hoff hok hr⟩

end Sys2Proof.Claims
end

section
/-! SUPPORT. `dmode`, `tapemark` and `tapedrop` (R351, R361, R398, R399): words that change each participant in turn, by
its own rule or by a FIELD trap. -/

namespace Sys2Proof.Claims

open Sys2Proof.Machine

/-! ## A word that changes its participants in turn -/

section
variable {s : State} {e : Env} {f : Form} {h : State → Env → Thread → Option Hold} {g : Thread → Thread → Thread}

theorem each_due_nil (n : Normal s e f h) (hdue : ∀ t u, u.due = [] → (g t u).due = []) {t : Thread} (ht : t ∈ e.group) :
    (e.each s f g t).due = [] := by
  unfold Env.each
  split
  · exact hdue t _ (past_due_calm n ht)
  · exact past_due_calm n ht

/-- A word whose body folds over its participants, each step a change of that participant where the debuggers stand as in
`s`, which gives no thread a trap that is still due. -/
theorem completes_foldl {i : Instr} {body : Env → State → State} {step : State → Thread → State} (n : Normal s e f h)
    (hexec : exec i s = .next (issue f h body s))
    (hbody : body e (s.issued e f) = (e.parts f.c).foldl step (s.issued e f))
    (hstep : ∀ b t, SameDebug s b → step b t = b.updThread e.w.wid t.idx (g t))
    (hidx : ∀ t u, t.idx = u.idx → (g t u).idx = u.idx) (hdue : ∀ t u, u.due = [] → (g t u).due = []) :
    Completes i s e .none e.g.icnt (e.each s f g) := by
  have hframe : Frame s ((e.parts f.c).foldl step (s.issued e f)) e .none e.g.icnt (e.each s f g) := by
    rw [foldl_threads g (e.parts f.c) step hstep n.frame_issued.sameDebug]
    exact n.frame_issued.thenThreads n.warp (e.parts_sub f.c) (Env.parts_nodup n.warp f.c) g
      fun t u hu => hidx t u hu.symm
  exact n.answers hexec hbody hframe rfl rfl fun t ht => each_due_nil n hdue ht

end

/-! ## The words -/

section
variable {c : Ctl} {s : State} {e : Env}

/-- A word with the body of `dmode` gives every participant the direction (R398). -/
theorem completes_dmodeWord {i : Instr} {rev : Bool} (n : Normal s e (Form.short c [] []) noHold)
    (hexec : exec i s = .next (dmodeWord c rev s)) :
    Completes i s e .none e.g.icnt (e.each s (Form.short c [] []) fun _ u => { u with rev := rev }) :=
  completes_foldl n hexec rfl (fun _ _ _ => rfl) (fun _ _ _ => rfl) fun _ _ hu => hu

/-- TAPEMARK (R399) is a plain word whose value is TAPEPOS. -/
theorem plainWord_tapemark (c : Ctl) (d : Dst) :
    PlainWord (.tapemark c d) c d [] fun _ _ t => .all (BitVec.ofNat 32 t.tapepos) :=
  plainForm_of_exec (List.Subset.refl _) (fun _ => rfl) fun _ _ _ => rfl

/-- What `tapedrop` makes of a participant `t` that now stands as `u` (R399): TAPEPOS set back to a position no higher, or
FIELD. -/
def dropped (e : Env) (s : State) (a : Opd) (t u : Thread) : Thread :=
  if (e.read0 s t a).toNat ≤ t.tapepos then { u with tapepos := (e.read0 s t a).toNat } else fieldTrap e s t

theorem dropped_idx (a : Opd) (t u : Thread) (h : t.idx = u.idx) : (dropped e s a t u).idx = u.idx := by
  unfold dropped
  split
  · rfl
  · exact (Thread.trapTo_idx ..).trans h

theorem dropped_due (a : Opd) (t u : Thread) (h : u.due = []) : (dropped e s a t u).due = [] := by
  unfold dropped
  split
  · exact h
  · exact Thread.trapTo_due ..

/-- The step of `tapedrop` for one participant, which reads its operand in `x`. -/
def dropStep (e : Env) (x : State) (a : Opd) (b : State) (t : Thread) : State :=
  if t.tapepos < (e.read0 x t a).toNat then e.illegal b t subField
  else b.updThread e.w.wid t.idx fun u => { u with tapepos := (e.read0 x t a).toNat }

theorem exec_tapedrop (c : Ctl) (a : Opd) (s : State) :
    exec (.tapedrop c a) s =
      .next (issue (Form.short c [a] []) noHold (fun e x => (e.parts c).foldl (dropStep e x a) x) s) := rfl

/-- The two sides of R399 as one change of the participant. -/
theorem dropStep_issued (f : Form) (a : Opd) {b : State} (t : Thread) (hb : SameDebug s b) :
    dropStep e (s.issued e f) a b t = b.updThread e.w.wid t.idx (dropped e s a t) := by
  rw [dropStep, Env.read0_issued]
  by_cases habove : t.tapepos < (e.read0 s t a).toNat
  · have htrap : dropped e s a t = fun _ => fieldTrap e s t :=
      funext fun _ => if_neg (Nat.not_le.mpr habove)
    rw [if_pos habove, htrap]
    exact Env.trapBefore_eq hb e t _
  · have hset : dropped e s a t = fun u => { u with tapepos := (e.read0 s t a).toNat } :=
      funext fun _ => if_pos (Nat.not_lt.mp habove)
    rw [if_neg habove, hset]

theorem completes_tapedrop {a : Opd} (n : Normal s e (Form.short c [a] []) noHold) :
    Completes (.tapedrop c a) s e .none e.g.icnt (e.each s (Form.short c [a] []) (dropped e s a)) :=
  completes_foldl n (exec_tapedrop c a s) rfl (fun _ t hb => dropStep_issued _ a t hb) (dropped_idx a) (dropped_due a)

end

/-- Settles O35: `dmode` and `tapedrop` only change their participants, in turn, and `tapemark` is a plain word. -/
theorem directionAndTapePosition : Obligations.direction_and_tape_position := fun c _ _ =>
  ⟨fun n => ⟨completes_dmodeWord n rfl, completes_dmodeWord n rfl⟩, plainWord_tapemark c,
    fun _ n => completes_tapedrop n⟩

end Sys2Proof.Claims
end
